-- ==== Sys2Proof/Word.lean ====
section
/-! DEFINITION. The words of BMC (spec/00_scope.md R7, R10; spec/10_state.md R22): a byte of a buffer, a
32-bit register or command word, and a nibble of a Nibbler length field. -/

namespace Sys2Proof

/-- A byte of `IN` or `OUT` (R60). -/
abbrev Byte := BitVec 8

/-- A register or command word (R22, R90). -/
abbrev Word := BitVec 32

/-- A half-byte of a Nibbler length field (R109). -/
abbrev Nibble := BitVec 4

end Sys2Proof
end

