-- ==== Sys2Proof/Syntax.lean ====
section
/-! DEFINITION. The instructions of BMC, one constructor per row of spec/opcode_table.json; the forms in which
they reach the machine (host operations and the places of stream items); the items an engine still has to write. -/

namespace Sys2Proof

/-- The three units, each with a register bank of its own (R2, R22). -/
inductive Bank where
  | br | nb | fx
  deriving DecidableEq, Repr

/-- The two encoders, as the pseudo-commands name them (R117). -/
inductive Codec where
  | br | nb
  deriving DecidableEq, Repr

/-- `MARK`, what a Nibbler body starts with (R107). The pattern `11` is reserved and is no value here. -/
inductive Mark where
  /-- `00`, a run of `0x00` bytes -/
  | zeroRun
  /-- `01`, a run of `0xFF` bytes -/
  | oneRun
  /-- `10`, a literal run -/
  | literal
  deriving DecidableEq, Repr

/-- One constructor per row of the table. The bits a command word ignores (R90) are carried as `ign`, so that
no bit of an encoding is dropped. -/
inductive Instr where
  /-- `BR.FULL`, R91, R137 -/
  | brFull (ign : BitVec 29)
  /-- `BR.PART`, R91, R141 -/
  | brPart (ign : BitVec 29)
  /-- `NB.ENC`, R91, R186 -/
  | nbEnc (ign : BitVec 29)
  /-- `FX.FIXLAST`, R91, R221 -/
  | fxFixlast (ign : BitVec 29)
  /-- `RESERVED.BR`, R92, R267 -/
  | reservedBr (op : BitVec 3) (ign : BitVec 29)
  /-- `RESERVED.NB`, R92, R267 -/
  | reservedNb (op : BitVec 3) (ign : BitVec 29)
  /-- `RESERVED.FX`, R92, R267 -/
  | reservedFx (op : BitVec 3) (ign : BitVec 29)
  /-- `REGWR off, v`, R223 -/
  | regwr (off value : Word)
  /-- `REGRD off`, R224 -/
  | regrd (off : Word)
  /-- `COMPRESS.BR in=addr len=len`, R117, R228 -/
  | compressBr (addr len : Word)
  /-- `COMPRESS.NB in=addr len=len`, R117, R228 -/
  | compressNb (addr len : Word)
  /-- `BR.GroupMask`, R97 -/
  | brGroupMask (g : Byte)
  /-- `BR.PairMask`, R98: the 4-bit masks of the pair's first and second block -/
  | brPairMask (a b : Nibble)
  /-- `BR.TailPairMask`, R99 -/
  | brTailPairMask (t : Byte)
  /-- `BR.SectionMask`, R100 -/
  | brSectionMask (u : Byte)
  /-- `BR.ChunkMask`, R101: returned in `BR_MASK`, not in the stream -/
  | brChunkMask (m : Byte)
  /-- `BR.EscapeBlock`, R102: the 32 bytes that follow the flag -/
  | brEscapeBlock (raw : List Byte)
  /-- `BR.Literal`, R95, R97 -/
  | brLiteral (d : Byte)
  /-- `NB.Header`, R106 -/
  | nbHeader (mark : Mark) (bodyLen : BitVec 14)
  /-- `NB.LenField4`, R109: the value itself -/
  | nbLenField4 (v : BitVec 3)
  /-- `NB.LenField8`, R109: the value less 8, in 6 bits -/
  | nbLenField8 (w : BitVec 6)
  /-- `NB.LenField16`, R109: the value less 8, in 13 bits -/
  | nbLenField16 (w : BitVec 13)
  /-- `NB.Run`, R111: the number of input bytes the run stands for -/
  | nbRun (runLen : Nat)
  /-- `NB.LitRun`, R111: the literal bytes -/
  | nbLitRun (bytes : List Byte)
  deriving DecidableEq, Repr

/-- The items the BR engine writes into its stream (R95); the chunk mask is not among them (R94). -/
inductive BrItem where
  | groupMask (g : Byte)
  | pairMask (a b : Nibble)
  | tailPairMask (t : Byte)
  | sectionMask (u : Byte)
  | escapeBlock (raw : List Byte)
  | literal (d : Byte)
  deriving DecidableEq, Repr

/-- The items the NB engine writes into its body (R108); the header is not among them (R106). -/
inductive NbItem where
  | lenField4 (v : BitVec 3)
  | lenField8 (w : BitVec 6)
  | lenField16 (w : BitVec 13)
  | run (runLen : Nat)
  | litRun (bytes : List Byte)
  deriving DecidableEq, Repr

/-- The instruction that writes a BitRat item. -/
def BrItem.instr : BrItem → Instr
  | .groupMask g => .brGroupMask g
  | .pairMask a b => .brPairMask a b
  | .tailPairMask t => .brTailPairMask t
  | .sectionMask u => .brSectionMask u
  | .escapeBlock raw => .brEscapeBlock raw
  | .literal d => .brLiteral d

/-- The instruction that writes a Nibbler item. -/
def NbItem.instr : NbItem → Instr
  | .lenField4 v => .nbLenField4 v
  | .lenField8 w => .nbLenField8 w
  | .lenField16 w => .nbLenField16 w
  | .run n => .nbRun n
  | .litRun bytes => .nbLitRun bytes

/-- An operation the host gives to BMC: a bus write, a bus read (R223, R224), or a pseudo-command (R117). -/
inductive HostOp where
  | write (off value : Word)
  | read (off : Word)
  | compress (codec : Codec) (addr len : Word)
  deriving DecidableEq, Repr

/-- Where a one-byte item stands in the BitRat stream, or outside it: a reader knows it from the tiers above
(R105), the byte itself does not say. -/
inductive BrPlace where
  | groupMask | pairMask | tailPairMask | sectionMask | chunkMask | literal
  deriving DecidableEq, Repr

/-- What the spec gives an encoding to, with the place it stands in: a host operation, or an item of a stream. -/
inductive Wire where
  | host (op : HostOp)
  /-- a one-byte item of the BitRat tree (R95) -/
  | brByte (place : BrPlace) (b : Byte)
  /-- the block form whose flag byte is zero (R102): the flag and the bytes after it -/
  | brBlock (bytes : List Byte)
  /-- the first bytes of a Nibbler stream (R106) -/
  | nbHead (bytes : List Byte)
  /-- a length field, its nibbles first to last (R109) -/
  | nbField (nibbles : List Nibble)
  /-- the length field of a run (R111) -/
  | nbRunField (nibbles : List Nibble)
  /-- the length field of a literal run, and the literal bytes (R111) -/
  | nbLiterals (nibbles : List Nibble) (bytes : List Byte)
  deriving DecidableEq, Repr

end Sys2Proof
end

