-- ==== Sys2Proof/Config.lean ====
section
/-! DEFINITION. What an implementation of BMC fixes (the open parameters of spec/92_eei_decisions.md) and the free
values: constants with no body, so that a claim holds whatever they are (spec/93_implementation_defined.md). -/

namespace Sys2Proof

/-- The four open parameters of spec/92_eei_decisions.md, fixed when the block is built (R291). They stand in State
as data no step changes, so that a claim over all states is a claim over all parameters (log 12). -/
structure Params where
  /-- `NB_RUN_BIAS` (R6, R111): 0, or the one alternative 3 -/
  nbRunBias : Nat
  /-- `NB_EMPTY_MARKER` (R6, R107) -/
  nbEmptyMarker : Mark
  /-- `BR_OUT_SLACK` (R6, R66) -/
  brOutSlack : Nat
  /-- the first `prevBit` of `COMPRESS.BR` (R228) -/
  firstPrev : BitVec 1
  deriving DecidableEq, Repr

/-- The defaults of R6 and R228. -/
def Params.default : Params :=
  { nbRunBias := 0, nbEmptyMarker := .literal, brOutSlack := 8, firstPrev := 0#1 }

/-- The values the source supports: the bias is 0 or 3, the slack at least 3
(spec/92_eei_decisions.md "Open parameters"). -/
abbrev Params.Legal (p : Params) : Prop := (p.nbRunBias = 0 ∨ p.nbRunBias = 3) ∧ 3 ≤ p.brOutSlack

/-- Who can make a move of the machine (R20). -/
inductive Agent where
  | host | br | nb | fx
  deriving DecidableEq, Repr, Inhabited

/-- The `n`-th free byte: a byte the spec calls unspecified (U1, U2, U7, U8). Log 3. -/
opaque Config.freeByte : Nat → Byte

/-- The `n`-th free word: a register the spec calls unspecified (U6, U7). Log 3. -/
opaque Config.freeWord : Nat → Word

/-- The `n`-th free choice between two values (U8: the byte of an abandoned `FX.FIXLAST`). Log 16. -/
opaque Config.freeBool : Nat → Bool

/-- The `n`-th free choice of who moves next (U14, R226, R300). Log 4. -/
opaque Config.freeTurn : Nat → Agent

end Sys2Proof
end

