-- ==== Sys2Proof/WellFormed.lean ====
section
/-! DEFINITION. Which instructions the spec's encodings admit: the register offsets of R22 and R223, the reserved
command codes of R92, and the patterns R96, R102, R104, R106, R109 and R114 rule out. -/

namespace Sys2Proof

/-- The offsets of the three `CMD` registers (R23, R29, R34). -/
def isCmdOffset (off : Word) : Bool := off == 0x000#32 || off == 0x100#32 || off == 0x200#32

/-- A register offset: a multiple of 4 below `0x300` (R22, R223). -/
def isRegOffset (off : Word) : Bool := off.extractLsb' 0 2 == 0#2 && decide (off.toNat < 0x300)

/-- What the encodings admit, constructor by constructor. A write to a `CMD` register is a command of its own row
(R223, R225), so `regwr` is the write of any other register. -/
def Instr.wellFormed : Instr → Bool
  | .brFull _ => true
  | .brPart _ => true
  | .nbEnc _ => true
  | .fxFixlast _ => true
  | .reservedBr op _ => op != 1#3 && op != 2#3
  | .reservedNb op _ => op != 1#3
  | .reservedFx op _ => op != 1#3
  | .regwr off _ => isRegOffset off && !isCmdOffset off
  | .regrd off => isRegOffset off
  | .compressBr _ _ => true
  | .compressNb _ _ => true
  | .brGroupMask g => g != 0#8
  | .brPairMask a b => a != 0#4 || b != 0#4
  | .brTailPairMask t => t != 0#8
  | .brSectionMask u => u != 0#8
  | .brChunkMask _ => true
  | .brEscapeBlock raw => raw.length == 32
  | .brLiteral _ => true
  | .nbHeader _ bodyLen => decide (bodyLen.toNat ≤ 8194)
  | .nbLenField4 _ => true
  | .nbLenField8 _ => true
  | .nbLenField16 w => decide (w.toNat ≤ 8183)
  | .nbRun runLen => decide (3 ≤ runLen) && decide (runLen ≤ 8191)
  | .nbLitRun bytes => decide (1 ≤ bytes.length) && decide (bytes.length ≤ 8192)

end Sys2Proof
end

