-- ==== Sys2Proof/Decode.lean ====
section
/-! DEFINITION. The decoder, total, rejecting by name, and after it the encoder: command words (R90 to R92), bus
cycles (R223, R224), items of the BitRat stream (R97 to R102), items of the Nibbler stream (R106 to R115). -/

namespace Sys2Proof

/-- Why something is no encoding of an instruction. -/
inductive DecodeError where
  /-- the register offset is not a multiple of 4 (R64, U12) -/
  | offsetMisaligned
  /-- the register offset is `0x300` or above (R223, U12) -/
  | offsetOutOfRange
  /-- a mask byte of `0x00` stands where a mask is present (R96, R104) -/
  | maskZero
  /-- an escape form that is not a zero flag and 32 bytes (R102) -/
  | escapeForm
  /-- a header that is not 2 bytes (R106) -/
  | headerForm
  /-- `MARK` is `11` (R107, R114) -/
  | markReserved
  /-- `BODYLEN` is above 8194 (R114) -/
  | bodyLenReserved
  /-- the number of nibbles is not the one the first nibble announces (R115) -/
  | fieldForm
  /-- a first nibble `111x` (R114) -/
  | fieldReserved
  /-- a 16-bit form with `w > 8183` (R114) -/
  | fieldTooLarge
  /-- a run field below `3 - NB_RUN_BIAS` (R114) -/
  | runBelowMinimum
  /-- the literal bytes are not as many as the field announces (R114) -/
  | literalCount
  deriving DecidableEq, Repr

/-! ## Command words and bus cycles -/

/-- `OP`, bits 2:0 of a command word (R90). -/
def cmdOp (v : Word) : BitVec 3 := v.extractLsb' 0 3

/-- Bits 31:3 of a command word, ignored (R90). -/
def cmdIgnored (v : Word) : BitVec 29 := v.extractLsb' 3 29

/-- A word written to `BR_CMD` (R91, R92). -/
def decodeBrCmd (v : Word) : Instr :=
  if cmdOp v = 1#3 then .brFull (cmdIgnored v)
  else if cmdOp v = 2#3 then .brPart (cmdIgnored v)
  else .reservedBr (cmdOp v) (cmdIgnored v)

/-- A word written to `NB_CMD` (R91, R92). -/
def decodeNbCmd (v : Word) : Instr :=
  if cmdOp v = 1#3 then .nbEnc (cmdIgnored v) else .reservedNb (cmdOp v) (cmdIgnored v)

/-- A word written to `FX_CMD` (R91, R92). -/
def decodeFxCmd (v : Word) : Instr :=
  if cmdOp v = 1#3 then .fxFixlast (cmdIgnored v) else .reservedFx (cmdOp v) (cmdIgnored v)

/-- What is wrong with a register offset, if anything (R22, R64, R223). -/
def offsetError (off : Word) : Option DecodeError :=
  if off.extractLsb' 0 2 ≠ 0#2 then some .offsetMisaligned
  else if ¬ off.toNat < 0x300 then some .offsetOutOfRange
  else none

/-- A host operation (R223, R224, R117). A write to a `CMD` register is the command its word selects (R225). -/
def decodeHostOp : HostOp → Except DecodeError Instr
  | .write off v =>
    match offsetError off with
    | some e => .error e
    | none =>
      if off = 0x000#32 then .ok (decodeBrCmd v)
      else if off = 0x100#32 then .ok (decodeNbCmd v)
      else if off = 0x200#32 then .ok (decodeFxCmd v)
      else .ok (.regwr off v)
  | .read off =>
    match offsetError off with
    | some e => .error e
    | none => .ok (.regrd off)
  | .compress .br a n => .ok (.compressBr a n)
  | .compress .nb a n => .ok (.compressNb a n)

/-! ## Items of the BitRat stream -/

/-- A one-byte item, read at a place the reader knows (R96 to R101, R105). -/
def decodeBrByte : BrPlace → Byte → Except DecodeError Instr
  | .groupMask, b => if b = 0#8 then .error .maskZero else .ok (.brGroupMask b)
  | .pairMask, b =>
    if b = 0#8 then .error .maskZero else .ok (.brPairMask (b.extractLsb' 4 4) (b.extractLsb' 0 4))
  | .tailPairMask, b => if b = 0#8 then .error .maskZero else .ok (.brTailPairMask b)
  | .sectionMask, b => if b = 0#8 then .error .maskZero else .ok (.brSectionMask b)
  | .chunkMask, b => .ok (.brChunkMask b)
  | .literal, b => .ok (.brLiteral b)

/-- The escape form of a block (R102): a zero flag and 32 raw bytes. -/
def decodeBrBlock : List Byte → Except DecodeError Instr
  | flag :: raw =>
    if flag = 0#8 ∧ raw.length = 32 then .ok (.brEscapeBlock raw) else .error .escapeForm
  | [] => .error .escapeForm

/-! ## Items of the Nibbler stream -/

/-- `MARK` (R107); `11` is reserved. -/
def decodeMark (m : BitVec 2) : Option Mark :=
  if m = 0#2 then some .zeroRun
  else if m = 1#2 then some .oneRun
  else if m = 2#2 then some .literal
  else none

/-- The header: 16 bits, big-endian, `MARK` in bits 15:14, `BODYLEN` in bits 13:0 (R106). -/
def decodeHeader : List Byte → Except DecodeError Instr
  | [hi, lo] =>
    let h : BitVec 16 := hi ++ lo
    match decodeMark (h.extractLsb' 14 2) with
    | none => .error .markReserved
    | some m =>
      if (h.extractLsb' 0 14).toNat ≤ 8194 then .ok (.nbHeader m (h.extractLsb' 0 14))
      else .error .bodyLenReserved
  | _ => .error .headerForm

/-- How many nibbles a length field has, from its first (R115). -/
def fieldNibbleCount (a : Nibble) : Nat :=
  if a.toNat < 8 then 1 else if a.toNat < 12 then 2 else 4

/-- A length field from its nibbles, first to last (R109, R115). -/
def decodeField : List Nibble → Except DecodeError NbItem
  | [a] => if fieldNibbleCount a = 1 then .ok (.lenField4 (a.extractLsb' 0 3)) else .error .fieldForm
  | [a, b] =>
    if fieldNibbleCount a = 2 then .ok (.lenField8 (a.extractLsb' 0 2 ++ b)) else .error .fieldForm
  | [a, b, c, d] =>
    if fieldNibbleCount a = 4 then
      if a.extractLsb' 1 1 = 1#1 then .error .fieldReserved
      else
        let w : BitVec 13 := a.extractLsb' 0 1 ++ b ++ c ++ d
        if w.toNat ≤ 8183 then .ok (.lenField16 w) else .error .fieldTooLarge
    else .error .fieldForm
  | _ => .error .fieldForm

/-- The value a length field stands for (R109): the 8-bit and 16-bit forms hold the value less 8. -/
def fieldValue : NbItem → Nat
  | .lenField4 v => v.toNat
  | .lenField8 w => w.toNat + 8
  | .lenField16 w => w.toNat + 8
  | .run _ => 0
  | .litRun _ => 0

/-- The field of a run: the value is the run's length less `NB_RUN_BIAS` (R111). -/
def decodeRun (bias : Nat) (ns : List Nibble) : Except DecodeError Instr :=
  match decodeField ns with
  | .error e => .error e
  | .ok f => if fieldValue f + bias < 3 then .error .runBelowMinimum else .ok (.nbRun (fieldValue f + bias))

/-- The field of a literal run, and its bytes: the value is the count less 1 (R111). -/
def decodeLiterals (ns : List Nibble) (bytes : List Byte) : Except DecodeError Instr :=
  match decodeField ns with
  | .error e => .error e
  | .ok f => if fieldValue f + 1 = bytes.length then .ok (.nbLitRun bytes) else .error .literalCount

/-- The decoder, total. `bias` is `NB_RUN_BIAS`, on which only the field of a run depends (R111). -/
def decode (bias : Nat) : Wire → Except DecodeError Instr
  | .host op => decodeHostOp op
  | .brByte place b => decodeBrByte place b
  | .brBlock bytes => decodeBrBlock bytes
  | .nbHead bytes => decodeHeader bytes
  | .nbField ns =>
    match decodeField ns with
    | .error e => .error e
    | .ok f => .ok f.instr
  | .nbRunField ns => decodeRun bias ns
  | .nbLiterals ns bytes => decodeLiterals ns bytes

/-! ## The encoder -/

/-- A command word: the ignored bits above `OP` (R90). -/
def cmdWord (op : BitVec 3) (ign : BitVec 29) : Word := ign ++ op

/-- The two bits of `MARK` (R107). -/
def encodeMark : Mark → BitVec 2
  | .zeroRun => 0#2
  | .oneRun => 1#2
  | .literal => 2#2

/-- The two bytes of the header (R106, R185): the more significant first (R63). -/
def encodeHeader (m : Mark) (bodyLen : BitVec 14) : List Byte :=
  let h : BitVec 16 := encodeMark m ++ bodyLen
  [h.extractLsb' 8 8, h.extractLsb' 0 8]

/-- The 4-bit form, `0 v[2:0]` (R109). -/
def field4Nibbles (v : BitVec 3) : List Nibble := [0#1 ++ v]

/-- The 8-bit form, `1 0 w[5:4]`, `w[3:0]` (R109). -/
def field8Nibbles (w : BitVec 6) : List Nibble := [2#2 ++ w.extractLsb' 4 2, w.extractLsb' 0 4]

/-- The 16-bit form, `1 1 0 w[12]`, `w[11:8]`, `w[7:4]`, `w[3:0]` (R109). -/
def field16Nibbles (w : BitVec 13) : List Nibble :=
  [6#3 ++ w.extractLsb' 12 1, w.extractLsb' 8 4, w.extractLsb' 4 4, w.extractLsb' 0 4]

/-- `LenField(v)`: the first row of R109 whose range holds `v`. -/
def fieldNibbles (v : Nat) : List Nibble :=
  if v ≤ 7 then field4Nibbles (BitVec.ofNat 3 v)
  else if v ≤ 71 then field8Nibbles (BitVec.ofNat 6 (v - 8))
  else field16Nibbles (BitVec.ofNat 13 (v - 8))

/-- The encoding of an instruction, with the place it stands in. `bias` is `NB_RUN_BIAS` (R111). -/
def encode (bias : Nat) : Instr → Wire
  | .brFull ign => .host (.write 0x000#32 (cmdWord 1#3 ign))
  | .brPart ign => .host (.write 0x000#32 (cmdWord 2#3 ign))
  | .nbEnc ign => .host (.write 0x100#32 (cmdWord 1#3 ign))
  | .fxFixlast ign => .host (.write 0x200#32 (cmdWord 1#3 ign))
  | .reservedBr op ign => .host (.write 0x000#32 (cmdWord op ign))
  | .reservedNb op ign => .host (.write 0x100#32 (cmdWord op ign))
  | .reservedFx op ign => .host (.write 0x200#32 (cmdWord op ign))
  | .regwr off value => .host (.write off value)
  | .regrd off => .host (.read off)
  | .compressBr a n => .host (.compress .br a n)
  | .compressNb a n => .host (.compress .nb a n)
  | .brGroupMask g => .brByte .groupMask g
  | .brPairMask a b => .brByte .pairMask (a ++ b)
  | .brTailPairMask t => .brByte .tailPairMask t
  | .brSectionMask u => .brByte .sectionMask u
  | .brChunkMask m => .brByte .chunkMask m
  | .brEscapeBlock raw => .brBlock (0#8 :: raw)
  | .brLiteral d => .brByte .literal d
  | .nbHeader m bodyLen => .nbHead (encodeHeader m bodyLen)
  | .nbLenField4 v => .nbField (field4Nibbles v)
  | .nbLenField8 w => .nbField (field8Nibbles w)
  | .nbLenField16 w => .nbField (field16Nibbles w)
  | .nbRun runLen => .nbRunField (fieldNibbles (runLen - bias))
  | .nbLitRun bytes => .nbLiterals (fieldNibbles (bytes.length - 1)) bytes

/-! ## The host's question about a row of the opcode table -/

/-- The instruction read from the bits `w` of a table row. The rows of command words give no register, so such a
word is read as written to `BR_CMD` (log 6); a byte `10xxxxxx` is the 8-bit length field, a 16-bit number `11…` the
16-bit one. -/
def decodeTableWord (nbits w : Nat) : Option Instr :=
  if nbits = 8 ∧ 0x80 ≤ w ∧ w < 0xC0 then
    (decode 0 (.nbField [BitVec.ofNat 4 (w / 16), BitVec.ofNat 4 w])).toOption
  else if nbits = 16 ∧ 0xC000 ≤ w ∧ w < 0x10000 then
    (decode 0 (.nbField [BitVec.ofNat 4 (w / 4096), BitVec.ofNat 4 (w / 256), BitVec.ofNat 4 (w / 16),
      BitVec.ofNat 4 w])).toOption
  else if nbits ≤ 32 ∧ w < 2 ^ nbits then
    (decode 0 (.host (.write 0x000#32 (BitVec.ofNat 32 w)))).toOption
  else none

end Sys2Proof
end

