-- ==== Sys2Proof/Machine/State.lean ====
section
/-! DEFINITION. The state of BMC as plain data (spec/10_state.md, spec/20_memory.md R60, spec/41_nibbler.md R171),
the reasons a move stops, and the state after reset (R38, R290). -/

namespace Sys2Proof.Machine

/-! ## Status -/

/-- `ST`, bits 1:0 of a `STATUS` register (R24). -/
inductive St where
  | idle | busy | done | failed
  deriving DecidableEq, Repr

/-- `ERR`, bits 7:4 of a `STATUS` register: the codes of R251. Codes 10 to 15 are never written (U13). -/
inductive ErrCode where
  | ok | inAbsent | lenRange | inBounds | outAbsent | outSpace | badCmd | bitsRange | fLenRange | fTier
  deriving DecidableEq, Repr

/-- The three fields of a `STATUS` register (R24). Only the machine writes it, so no reserved bit is kept. -/
structure Status where
  st : St
  err : ErrCode
  fatal : Bool
  deriving DecidableEq, Repr

/-! ## Commands in progress -/

/-- A BitRat command that is `BUSY`: its latched operands (R225) and what is still to be written (R137, R141). -/
structure BrJob where
  /-- `inBase` and `n`, the input window (R66) -/
  inBase : Nat
  len : Nat
  /-- `outBase` and `need`, the output window (R66) -/
  outBase : Nat
  need : Nat
  /-- a tail tier was given a length of the next tier (`F_TIER`, R258); never so (R260) -/
  tierFault : Bool
  /-- the items not yet written, in stream order (R95) -/
  todo : List BrItem
  /-- the bytes of the stream so far (`out` of R137) -/
  out : List Byte
  /-- the chunk mask and its width (R101) -/
  mask : Byte
  width : BitVec 4
  /-- `matchByte` at the end of the chunk (`m` of R137) -/
  matchEnd : Byte
  deriving DecidableEq, Repr

/-- A Nibbler command that is `BUSY`: its latched operands (R225), its segments still to be written, and the
writer state of R171. -/
structure NbJob where
  inBase : Nat
  len : Nat
  /-- `outBase` and `need = n + 4`, the output window (R67) -/
  outBase : Nat
  need : Nat
  /-- the segments not yet written (R182) -/
  todo : List NbItem
  /-- `body` of R171 -/
  body : List Byte
  /-- `slot` of R171, an index into `body` -/
  slot : Option Nat
  /-- `MARK` (R107, R179) -/
  mark : Mark
  deriving DecidableEq, Repr

/-- A FIXLAST command that is `BUSY`: its latched operands (R221). -/
structure FxJob where
  addr : Nat
  bits : Nat
  deriving DecidableEq, Repr

/-! ## The register banks -/

/-- The BitRat bank (R23), every register at the width its row names, and the running command. -/
structure BrBank where
  status : Status
  buf : BitVec 2
  prev : BitVec 1
  inBase : Word
  inLen : Word
  inCap : BitVec 31
  outBase : Word
  outCap : BitVec 31
  mask : Byte
  maskw : BitVec 4
  written : Word
  consumed : Word
  last : BitVec 1
  icur : Word
  ocur : Word
  matchByte : Byte
  job : Option BrJob
  deriving DecidableEq, Repr

/-- The Nibbler bank (R29), and the running command. -/
structure NbBank where
  status : Status
  buf : BitVec 2
  inBase : Word
  inLen : Word
  inCap : BitVec 31
  outBase : Word
  outCap : BitVec 31
  written : Word
  consumed : Word
  icur : Word
  ocur : Word
  slot : Word
  job : Option NbJob
  deriving DecidableEq, Repr

/-- The FIXLAST bank (R34), and the running command. -/
structure FxBank where
  status : Status
  buf : BitVec 1
  addr : Word
  bits : Word
  cap : BitVec 31
  job : Option FxJob
  deriving DecidableEq, Repr

/-! ## What the host is going to do -/

/-- A buffer operand of a command line: an address, or `absent` (R116). -/
inductive BufArg where
  | absent
  | addr (a : Word)
  deriving DecidableEq, Repr

/-- A command and its operand registers on one line (R116). An operand that is `none` is omitted and keeps the
register's current value. -/
inductive Line where
  | brFull (prev : Option (BitVec 1)) (inp : Option BufArg) (incap : Option Word) (out : Option BufArg)
      (outcap : Option Word)
  | brPart (prev : Option (BitVec 1)) (inp : Option BufArg) (len incap : Option Word) (out : Option BufArg)
      (outcap : Option Word)
  | nbEnc (inp : Option BufArg) (len incap : Option Word) (out : Option BufArg) (outcap : Option Word)
  | fxFixlast (addr bits cap : Option Word)
  deriving DecidableEq, Repr

/-- One thing the host or the platform does (R20, R61, R290). -/
inductive Input where
  /-- a bus cycle of `REG`, or a pseudo-command (R223, R224, R117) -/
  | op (op : HostOp)
  /-- a textual command line (R116) -/
  | line (l : Line)
  /-- the host reads or writes a byte of `IN` or `OUT` (R61, R65) -/
  | readIn (a : Nat)
  | writeIn (a : Nat) (b : Byte)
  | readOut (a : Nat)
  | writeOut (a : Nat) (b : Byte)
  /-- the platform applies reset (R290, R292) -/
  | reset
  deriving DecidableEq, Repr

/-- What the host keeps of a BitRat chunk, which a reader needs and the stream does not hold (R229, R94, R147): the
`prevBit` it gave, and `BR_MASK`, `BR_WRITTEN` and `BR_CONSUMED` as it read them when the command had ended. -/
structure KeptChunk where
  prev : BitVec 1
  mask : Byte
  streamLen : Word
  chunkLen : Word
  deriving DecidableEq, Repr

/-! ## Memory -/

/-- A byte-addressed space as (address, byte) pairs; an unlisted address reads as `0x00` (log 2). -/
abbrev Memory := List Host.Cell

/-- Addresses are below `2^31` (R60). -/
def spaceSize : Nat := 2 ^ 31

/-- The canonical form: addresses strictly rising and inside the space, no entry equal to what an unlisted address
reads as. -/
abbrev Memory.wf (m : Memory) : Prop :=
  m.Pairwise (fun c d => c.1 < d.1) ∧ ∀ c ∈ m, c.2 ≠ 0#8 ∧ c.1 < spaceSize

/-- Bytes whose value is free: (address, which draw), one entry an address (R68, log 3). -/
abbrev Draws := List (Nat × Nat)

/-- The canonical form of `Draws`. -/
abbrev Draws.wf (d : Draws) : Prop :=
  d.Pairwise (fun c e => c.1 < e.1) ∧ ∀ c ∈ d, c.1 < spaceSize

/-! ## The machine -/

/-- Everything the spec gives BMC, and what the model adds (INVENTORY.md, "State"). -/
structure State where
  /-- the BitRat bank, R23 -/
  br : BrBank
  /-- the Nibbler bank, R29 -/
  nb : NbBank
  /-- the FIXLAST bank, R34 -/
  fx : FxBank
  /-- the `IN` space, R60 -/
  inMem : Memory
  /-- the `OUT` space, R60: its bytes, but for those of `outDraws` -/
  outMem : Memory
  /-- the bytes of `OUT` whose value is free (log 3) -/
  outDraws : Draws
  /-- the open parameters, fixed (log 12) -/
  params : Params
  /-- what the host and the platform are still going to do (log 5) -/
  inputs : List Input
  /-- the values the host's reads returned, oldest first (log 15) -/
  replies : List Word
  /-- the result of the host's last chunking loop that ran to its end (R228, log 15) -/
  hostTotal : Nat
  /-- what the host's last `COMPRESS.BR` kept of each chunk that ended `DONE`, in order (R229, log 15) -/
  hostKept : List KeptChunk
  /-- who moves next where more than one can (log 4) -/
  turn : Agent
  /-- how many free values were drawn (log 3) -/
  freeCount : Nat
  deriving DecidableEq, Repr

/-! ## Stops -/

/-- The machine stops with a fault. -/
inductive Fault where
  /-- An access to an address that is not below `2^31` (R60), raised by the host's reads and writes of `IN` and `OUT`
  and by a store of a stream that would pass the end of `OUT`. Safe: the spec says there is no such address. -/
  | noSuchAddress (a : Nat)
  deriving DecidableEq, Repr

/-- The spec gives the situation no meaning, and the model stops by name. -/
inductive Refusal where
  /-- exec's arm of an instruction that has no meaning yet. Safe. -/
  | notModelled (mnemonic : String)
  /-- A host access to a unit that is `BUSY` (R39, R293, U3), raised by the register operations. Safe. -/
  | busyAccess (u : Bank)
  /-- An access to a window of a running command, or a command whose windows meet a running one's (R73, R75, U4),
  raised by the host's writes of `IN` and `OUT` and by the start of a command. Safe. -/
  | windowConflict
  /-- A register offset that is not one (R64, R223, U12), raised by `REGWR` and `REGRD`. Safe. -/
  | badOffset (off : Word)
  /-- A stream item with no command of its unit running: a unit that is not `BUSY` makes no access to `OUT` (R61).
  Raised by the meanings of the stream items. Safe. -/
  | noRunningCommand (u : Bank)
  /-- What the host did is no encoding of an instruction (R64, U12), raised where an input is decoded. Safe. -/
  | undecodable (e : DecodeError)
  deriving DecidableEq, Repr

/-- The outcome of a move. -/
abbrev Out := Host.Outcome State Fault Refusal

/-! ## Reset -/

/-- `IDLE`, `ERR = 0`, `FATAL = 0` (R38). -/
def Status.idle : Status := { st := .idle, err := .ok, fatal := false }

/-- The BitRat bank after reset (R23, R38). The session registers are unspecified there: 0 (log 1). -/
def BrBank.reset : BrBank :=
  { status := Status.idle, buf := 0, prev := 0, inBase := 0, inLen := 0, inCap := 0, outBase := 0, outCap := 0
    mask := 0, maskw := 0, written := 0, consumed := 0, last := 0, icur := 0, ocur := 0, matchByte := 0, job := none }

/-- The Nibbler bank after reset (R29, R38). The session registers are unspecified there: 0 (log 1). -/
def NbBank.reset : NbBank :=
  { status := Status.idle, buf := 0, inBase := 0, inLen := 0, inCap := 0, outBase := 0, outCap := 0
    written := 0, consumed := 0, icur := 0, ocur := 0, slot := 0, job := none }

/-- The FIXLAST bank after reset (R34, R38). -/
def FxBank.reset : FxBank :=
  { status := Status.idle, buf := 0, addr := 0, bits := 0, cap := 0, job := none }

/-- BMC right after power-on (R290): every register at its reset value, memory with nothing listed, the parameters
at their defaults, and nothing for the host to do. -/
def State.reset : State :=
  { br := BrBank.reset, nb := NbBank.reset, fx := FxBank.reset
    inMem := [], outMem := [], outDraws := [], params := Params.default
    inputs := [], replies := [], hostTotal := 0, hostKept := [], turn := .host, freeCount := 0 }

end Sys2Proof.Machine
end

