-- ==== Sys2Proof/Machine/Bits.lean ====
section
/-! DEFINITION. The constants of R6 and the bit-level helpers of R7 and R9. -/

namespace Sys2Proof.Machine

/-! ## Constants of the algorithms (R6) -/

/-- `BR_FULL`: bytes of a full BitRat chunk. -/
def brFullLen : Nat := 4096
/-- `BR_SECTION`: bytes of a section. -/
def brSectionLen : Nat := 512
/-- `BR_PAIR`: bytes of a block pair. -/
def brPairLen : Nat := 64
/-- `BR_BLOCK`: bytes of a block. -/
def brBlockLen : Nat := 32
/-- `BR_GROUP`: bytes of a leaf group. -/
def brGroupLen : Nat := 8
/-- `BR_ESC_LIMIT`: a longer structured output of a block is replaced by the escape form. -/
def brEscLimit : Nat := 32
/-- `NB_MAX`: bytes of the largest Nibbler chunk. -/
def nbMax : Nat := 8192
/-- `NB_RUN_MIN`: identical bytes that must be seen before a run starts. -/
def nbRunMin : Nat := 3
/-- `NB_TAIL`: last bytes of a chunk that are always literals. -/
def nbTail : Nat := 3
/-- `NB_OUT_SLACK`: output bytes a Nibbler command needs beyond its input's length. -/
def nbOutSlack : Nat := 4
/-- `NB_LEN_MAX`: the largest value of a length field. -/
def nbLenMax : Nat := 8191

/-! ## Bits (R7, R9) -/

/-- `lsb(v)`, bit 0 (R9). -/
def lsb (v : Byte) : BitVec 1 := v.extractLsb' 0 1

/-- `ext(b)`: `0x00` for 0, `0xFF` for 1 (R9). -/
def ext (b : BitVec 1) : Byte := if b = 0#1 then 0x00#8 else 0xFF#8

/-- The bit of element `i` of an 8-bit mask, `0x80 >> i` (R7), or nothing where the element's bit `p` is 0. -/
def maskBit (p : Bool) (i : Nat) : Byte := if p then 0x80#8 >>> i else 0x00#8

/-- A register's 32 bits from a number (R10: no rule makes one wrap). -/
def toWord (n : Nat) : Word := BitVec.ofNat 32 n

end Sys2Proof.Machine
end

