-- ==== Sys2Proof/Machine/Flags.lean ====
section
/-! DEFINITION. The `STATUS` registers: the layout of R24, the codes of R251, and the three values a command gives
its status (R225, R226, R252, R259). BMC has no other flags (R35). -/

namespace Sys2Proof.Machine

/-- The number of `ST` (R24). -/
def St.code : St → BitVec 2
  | .idle => 0#2
  | .busy => 1#2
  | .done => 2#2
  | .failed => 3#2

/-- The number of an error code (R251). -/
def ErrCode.code : ErrCode → BitVec 4
  | .ok => 0#4
  | .inAbsent => 1#4
  | .lenRange => 2#4
  | .inBounds => 3#4
  | .outAbsent => 4#4
  | .outSpace => 5#4
  | .badCmd => 6#4
  | .bitsRange => 7#4
  | .fLenRange => 8#4
  | .fTier => 9#4

/-- The `FATAL` column of R251: class 2. -/
def ErrCode.isFatal : ErrCode → Bool
  | .fLenRange => true
  | .fTier => true
  | .ok => false
  | .inAbsent => false
  | .lenRange => false
  | .inBounds => false
  | .outAbsent => false
  | .outSpace => false
  | .badCmd => false
  | .bitsRange => false

/-- The 32 bits of a `STATUS` register: `ST` in 1:0, `ERR` in 7:4, `FATAL` in 8 (R24); the rest read 0 (R22). -/
def Status.word (x : Status) : Word :=
  0#23 ++ BitVec.ofBool x.fatal ++ x.err.code ++ 0#2 ++ x.st.code

/-- A command is running (R225). -/
def Status.busy : Status := { st := .busy, err := .ok, fatal := false }

/-- The last command ended without error (R226). -/
def Status.done : Status := { st := .done, err := .ok, fatal := false }

/-- The last command ended with the error `e` (R252, R259). -/
def Status.failed (e : ErrCode) : Status := { st := .failed, err := e, fatal := e.isFatal }

end Sys2Proof.Machine
end

