-- ==== Sys2Proof/Machine/Operands.lean ====
section
/-! DEFINITION. The operands of the commands: their assembly from the operand registers (R93) and the preconditions,
in order, the first that fails giving the code (R253 to R257). All arithmetic is on integers, nothing wraps. -/

namespace Sys2Proof.Machine

/-- The operands of an encoder command, as R93 assembles them. -/
structure EncArgs where
  inPresent : Bool
  outPresent : Bool
  inBase : Int
  inLen : Int
  outBase : Int
  inCap : Nat
  outCap : Nat
  deriving DecidableEq, Repr

/-- The operands of a BitRat command (R93); `prevBit` is `BR_PREV` itself. -/
def brArgs (b : BrBank) : EncArgs :=
  { inPresent := b.buf.extractLsb' 0 1 == 1#1, outPresent := b.buf.extractLsb' 1 1 == 1#1
    inBase := b.inBase.toInt, inLen := b.inLen.toInt, outBase := b.outBase.toInt
    inCap := b.inCap.toNat, outCap := b.outCap.toNat }

/-- The operands of `NB.ENC` (R93). -/
def nbArgs (b : NbBank) : EncArgs :=
  { inPresent := b.buf.extractLsb' 0 1 == 1#1, outPresent := b.buf.extractLsb' 1 1 == 1#1
    inBase := b.inBase.toInt, inLen := b.inLen.toInt, outBase := b.outBase.toInt
    inCap := b.inCap.toNat, outCap := b.outCap.toNat }

/-- The operands of `FX.FIXLAST` (R93, R221). -/
structure FxArgs where
  present : Bool
  addr : Int
  lastBits : Int
  cap : Nat
  deriving DecidableEq, Repr

/-- The operands of `FX.FIXLAST` (R93). -/
def fxArgs (b : FxBank) : FxArgs :=
  { present := b.buf == 1#1, addr := b.addr.toInt, lastBits := b.bits.toInt, cap := b.cap.toNat }

/-- `need` of a BitRat command (R66): `n + n div 8 + BR_OUT_SLACK`. -/
def brNeed (p : Params) (n : Nat) : Nat := n + n / 8 + p.brOutSlack

/-- `need` of a Nibbler command (R67): `n + 4`. -/
def nbNeed (n : Nat) : Nat := n + nbOutSlack

/-- The preconditions of `BR.FULL`, in order (R253). `BR_IN_LEN` is not read. -/
def brFullError (p : Params) (x : EncArgs) : Option ErrCode :=
  if x.inPresent = false then some .inAbsent
  else if x.inBase < 0 ∨ x.inBase + brFullLen > x.inCap then some .inBounds
  else if x.outPresent = false then some .outAbsent
  else if x.outBase < 0 ∨ x.outBase + brNeed p brFullLen > x.outCap then some .outSpace
  else none

/-- The preconditions of `BR.PART`, in order (R254). -/
def brPartError (p : Params) (x : EncArgs) : Option ErrCode :=
  if x.inPresent = false then some .inAbsent
  else if x.inLen < 0 ∨ x.inLen ≥ brFullLen then some .lenRange
  else if x.inBase < 0 ∨ x.inBase + x.inLen > x.inCap then some .inBounds
  else if x.outPresent = false then some .outAbsent
  else if x.outBase < 0 ∨ x.outBase + brNeed p x.inLen.toNat > x.outCap then some .outSpace
  else none

/-- The preconditions of `NB.ENC`, in order (R255). -/
def nbEncError (x : EncArgs) : Option ErrCode :=
  if x.inPresent = false then some .inAbsent
  else if x.inLen < 0 ∨ x.inLen > nbMax then some .lenRange
  else if x.inBase < 0 ∨ x.inBase + x.inLen > x.inCap then some .inBounds
  else if x.outPresent = false then some .outAbsent
  else if x.outBase < 0 ∨ x.outBase + x.inLen + nbOutSlack > x.outCap then some .outSpace
  else none

/-- The preconditions of `FX.FIXLAST`, in order (R256). -/
def fxError (x : FxArgs) : Option ErrCode :=
  if x.present = false then some .inAbsent
  else if x.lastBits < 1 ∨ x.lastBits > 8 then some .bitsRange
  else if x.addr < 0 ∨ x.addr ≥ x.cap then some .inBounds
  else none

end Sys2Proof.Machine
end

