-- ==== Sys2Proof/Machine/Ops.lean ====
section
/-! DEFINITION. The named operations every meaning is built of: reading and writing `IN` and `OUT`, the windows of
running commands, the free values, and how a command fails (R252, R259). BMC has no traps (R250): a failing command
is what takes an exception's place, and there is no return from it (R227, R265). -/

namespace Sys2Proof.Machine

/-! ## Sequencing -/

/-- Go on from a next state; a stop stays a stop. -/
def andThen (o : Out) (f : State → Out) : Out :=
  match o with
  | .next s => f s
  | .fault r => .fault r
  | .refused r => .refused r

/-! ## Memory (R60, R65) -/

/-- What an address that is not listed reads as (R291, U9: unspecified; log 2). -/
def Memory.unlisted : Byte := 0x00#8

/-- `MemRead`: one byte (R8, R65). -/
def Memory.get (m : Memory) (a : Nat) : Byte :=
  match m.find? (fun c => c.1 == a) with
  | some c => c.2
  | none => Memory.unlisted

/-- The entries of a byte sequence laid from `base` upwards; a byte an unlisted address reads as has none. -/
def Memory.cells (base : Nat) : List Byte → Memory
  | [] => []
  | b :: bs => if b = Memory.unlisted then Memory.cells (base + 1) bs else (base, b) :: Memory.cells (base + 1) bs

/-- Write a byte sequence from `base` upwards, keeping the canonical form. -/
def Memory.put (m : Memory) (base : Nat) (bytes : List Byte) : Memory :=
  m.filter (fun c => decide (c.1 < base)) ++ Memory.cells base bytes
    ++ m.filter (fun c => decide (base + bytes.length ≤ c.1))

/-- Drop the entries of `[lo, hi)`. -/
def Memory.cut (m : Memory) (lo hi : Nat) : Memory :=
  m.filter (fun c => decide (c.1 < lo) || decide (hi ≤ c.1))

/-- Drop the draws of `[lo, hi)`. -/
def Draws.cut (d : Draws) (lo hi : Nat) : Draws :=
  d.filter (fun c => decide (c.1 < lo) || decide (hi ≤ c.1))

/-- Make the `n` bytes from `lo` the draws `k`, `k + 1`, … -/
def Draws.put (d : Draws) (lo n k : Nat) : Draws :=
  d.filter (fun c => decide (c.1 < lo)) ++ (List.range n).map (fun i => (lo + i, k + i))
    ++ d.filter (fun c => decide (lo + n ≤ c.1))

/-- `IN[a]` (R8). -/
def State.readIn (s : State) (a : Nat) : Byte := s.inMem.get a

/-- `OUT[a]` (R8): a free value where the spec leaves the byte unspecified (R68). -/
def State.readOut (s : State) (a : Nat) : Byte :=
  match s.outDraws.find? (fun c => c.1 == a) with
  | some c => Config.freeByte c.2
  | none => s.outMem.get a

/-- `IN[base .. base + n)` as a byte sequence. -/
def State.readInBytes (s : State) (base n : Nat) : List Byte :=
  (List.range n).map (fun k => s.readIn (base + k))

/-- `OUT[base .. base + n)` as a byte sequence. -/
def State.readOutBytes (s : State) (base n : Nat) : List Byte :=
  (List.range n).map (fun k => s.readOut (base + k))

/-- `IN[a] <- b`. There is no address past the end of the space (R60). -/
def State.storeIn (s : State) (a : Nat) (b : Byte) : Out :=
  if a < spaceSize then .next { s with inMem := s.inMem.put a [b] }
  else .fault (.noSuchAddress a)

/-- `OUT[base .. base + len) <- bytes`. There is no address past the end of the space (R60). -/
def State.storeOut (s : State) (base : Nat) (bytes : List Byte) : Out :=
  if base + bytes.length ≤ spaceSize then
    .next { s with outMem := s.outMem.put base bytes, outDraws := s.outDraws.cut base (base + bytes.length) }
  else .fault (.noSuchAddress (base + bytes.length))

/-- The bytes of `OUT[lo, lo + n)` take values the spec leaves unspecified, one draw a byte (U1, U7, U8). -/
def State.scrambleOut (s : State) (lo n : Nat) : State :=
  { s with
    outMem := s.outMem.cut lo (lo + n)
    outDraws := s.outDraws.put lo n s.freeCount
    freeCount := s.freeCount + n }

/-! ## Windows of the running commands (R66, R67, R73, R75) -/

/-- A range of addresses `[lo, hi)`. -/
structure Window where
  lo : Nat
  hi : Nat
  deriving DecidableEq, Repr

/-- `a` lies in the window. -/
def Window.holds (w : Window) (a : Nat) : Bool := decide (w.lo ≤ a) && decide (a < w.hi)

/-- The windows share an address. -/
def Window.meets (v w : Window) : Bool := decide (max v.lo w.lo < min v.hi w.hi)

/-- The input and output windows of a BitRat command (R66). -/
def BrJob.inWindow (j : BrJob) : Window := { lo := j.inBase, hi := j.inBase + j.len }
def BrJob.outWindow (j : BrJob) : Window := { lo := j.outBase, hi := j.outBase + j.need }

/-- The input and output windows of a Nibbler command (R67). -/
def NbJob.inWindow (j : NbJob) : Window := { lo := j.inBase, hi := j.inBase + j.len }
def NbJob.outWindow (j : NbJob) : Window := { lo := j.outBase, hi := j.outBase + j.need }

/-- The byte of a FIXLAST command counts as an output window in `IN` (R75). -/
def FxJob.window (j : FxJob) : Window := { lo := j.addr, hi := j.addr + 1 }

/-- The input windows of the running encoders. -/
def State.inWindows (s : State) : List Window :=
  (s.br.job.map BrJob.inWindow).toList ++ (s.nb.job.map NbJob.inWindow).toList

/-- The output windows of the running encoders. -/
def State.outWindows (s : State) : List Window :=
  (s.br.job.map BrJob.outWindow).toList ++ (s.nb.job.map NbJob.outWindow).toList

/-- The byte of `IN` a running FIXLAST command will write, as a window. -/
def State.fxWindows (s : State) : List Window := (s.fx.job.map FxJob.window).toList

/-! ## How a command ends without results -/

/-- Write the `STATUS` of a unit. -/
def State.setStatus (s : State) (u : Bank) (x : Status) : State :=
  match u with
  | .br => { s with br := { s.br with status := x } }
  | .nb => { s with nb := { s.nb with status := x } }
  | .fx => { s with fx := { s.fx with status := x } }

/-- A precondition error or a bad command code: `STATUS` and nothing else (R252, R267). -/
def State.failCommand (s : State) (u : Bank) (e : ErrCode) : State := s.setStatus u (Status.failed e)

/-- Result and session registers of the BitRat bank at values the spec leaves unspecified, from draw `k` on. -/
def BrBank.unspecified (b : BrBank) (k : Nat) : BrBank :=
  { b with
    mask := (Config.freeWord k).extractLsb' 0 8
    maskw := (Config.freeWord (k + 1)).extractLsb' 0 4
    written := Config.freeWord (k + 2)
    consumed := Config.freeWord (k + 3)
    last := (Config.freeWord (k + 4)).extractLsb' 0 1
    icur := Config.freeWord (k + 5)
    ocur := Config.freeWord (k + 6)
    matchByte := (Config.freeWord (k + 7)).extractLsb' 0 8 }

/-- Result and session registers of the Nibbler bank at values the spec leaves unspecified, from draw `k` on. -/
def NbBank.unspecified (b : NbBank) (k : Nat) : NbBank :=
  { b with
    written := Config.freeWord k
    consumed := Config.freeWord (k + 1)
    icur := Config.freeWord (k + 2)
    ocur := Config.freeWord (k + 3)
    slot := Config.freeWord (k + 4) }

/-- A fatal error of the BitRat command `j` (R259). -/
def State.failFatalBr (s : State) (j : BrJob) (e : ErrCode) : State :=
  let t := s.scrambleOut j.outBase j.need
  { t with
    br := { t.br.unspecified t.freeCount with status := Status.failed e, job := none }
    freeCount := t.freeCount + 8 }

/-- A fatal error of the Nibbler command `j` (R259). -/
def State.failFatalNb (s : State) (j : NbJob) (e : ErrCode) : State :=
  let t := s.scrambleOut j.outBase j.need
  { t with
    nb := { t.nb.unspecified t.freeCount with status := Status.failed e, job := none }
    freeCount := t.freeCount + 5 }

end Sys2Proof.Machine
end

