-- ==== Sys2Proof/Machine/BitRatTree.lean ====
section
/-! DEFINITION. The tier functions of the BitRat engine (R130 to R136, R139 to R141) as pure functions: each takes
the bytes of its sub-unit and the `matchByte` on entry, and returns its presence bit or mask, the items it adds to
the stream, and the `matchByte` on exit. The bytes of the items are R95 to R102. -/

namespace Sys2Proof.Machine

/-! ## Bytes of the items -/

/-- A mask byte is written if and only if it is not `0x00` (R96). -/
def maskBytes (g : Byte) : List Byte := if g = 0x00#8 then [] else [g]

/-- The bytes of an escape form: the flag, then the raw bytes (R102). -/
def escapeBytes (raw : List Byte) : List Byte := 0x00#8 :: raw

/-- The bytes an item puts into the stream (R95). -/
def brItemBytes : BrItem → List Byte
  | .groupMask g => maskBytes g
  | .pairMask a b => maskBytes (a ++ b)
  | .tailPairMask t => maskBytes t
  | .sectionMask u => maskBytes u
  | .escapeBlock raw => escapeBytes raw
  | .literal d => [d]

/-- The bytes of a sequence of items. -/
def brBytes (items : List BrItem) : List Byte := items.flatMap brItemBytes

/-! ## Tiers -/

/-- What a tier function returns (R130): the presence bit `p`, the items of `out`, and `m'`. -/
structure Tier where
  present : Bool
  items : List BrItem
  m : Byte
  deriving DecidableEq, Repr

/-- What the walk over the sub-units of a tier gives: their 8-bit mask, their items, and `m'`. -/
structure Walk where
  mask : Byte
  items : List BrItem
  m : Byte
  deriving DecidableEq, Repr

/-- The bytes cut into `c` pieces of `k`, the last as long as what is left. -/
def pieces (k : Nat) : (c : Nat) → List Byte → List (List Byte)
  | 0, _ => []
  | c + 1, d => d.take k :: pieces k c (d.drop k)

/-- The sub-units `i`, `i + 1`, … in order: bit `7 - i` of the mask is the presence of unit `i`, `matchByte` is
threaded through (R130). -/
def walk (f : List Byte → Byte → Tier) : List (List Byte) → Nat → Byte → Walk
  | [], _, m => { mask := 0x00#8, items := [], m := m }
  | d :: ds, i, m =>
    let r := f d m
    let q := walk f ds (i + 1) r.m
    { mask := maskBit r.present i ||| q.mask, items := r.items ++ q.items, m := q.m }

/-- The result of `Group` (R131): the mask, the literals, and `m'`. -/
structure Grouped where
  mask : Byte
  lits : List Byte
  m : Byte
  deriving DecidableEq, Repr

/-- `Group` from byte `i` of the group on (R131). -/
def groupFrom : List Byte → Nat → Byte → Grouped
  | [], _, m => { mask := 0x00#8, lits := [], m := m }
  | b :: ds, i, m =>
    if b = m then groupFrom ds (i + 1) m
    else
      let q := groupFrom ds (i + 1) (ext (lsb b))
      { mask := maskBit true i ||| q.mask, lits := b :: q.lits, m := q.m }

/-- `Group(d, m)` (R131). -/
def group (d : List Byte) (m : Byte) : Grouped := groupFrom d 0 m

/-- `GroupItem(d, m)` (R132). -/
def groupItem (d : List Byte) (m : Byte) : Tier :=
  let g := group d m
  if g.mask = 0x00#8 then { present := false, items := [], m := g.m }
  else { present := true, items := .groupMask g.mask :: g.lits.map .literal, m := g.m }

/-- What a block returns (R133, R134): its 4-bit mask, its items, and `m'`. -/
structure Blocked where
  mask : Nibble
  items : List BrItem
  m : Byte
  deriving DecidableEq, Repr

/-- `BlockStructured(d, m)`, the four groups of a 32-byte block (R133). -/
def blockStructured (d : List Byte) (m : Byte) : Blocked :=
  let w := walk groupItem (pieces brGroupLen 4 d) 0 m
  { mask := w.mask.extractLsb' 4 4, items := w.items, m := w.m }

/-- `Block(d, m)`, with the escape rule (R134). -/
def block (d : List Byte) (m : Byte) : Blocked :=
  let r := blockStructured d m
  if (brBytes r.items).length > brEscLimit then { mask := 0xF#4, items := [.escapeBlock d], m := r.m }
  else r

/-- `Pair(d, m)`, 64 bytes, two blocks (R135). -/
def pair (d : List Byte) (m : Byte) : Tier :=
  let b0 := block (d.take brBlockLen) m
  let b1 := block (d.drop brBlockLen) b0.m
  if b0.mask ++ b1.mask = 0x00#8 then { present := false, items := [], m := b1.m }
  else { present := true, items := .pairMask b0.mask b1.mask :: (b0.items ++ b1.items), m := b1.m }

/-- A section from the walk over its units: its mask byte is prefixed when not zero (R136, R140). -/
def sectionOf (w : Walk) : Tier :=
  if w.mask = 0x00#8 then { present := false, items := [], m := w.m }
  else { present := true, items := .sectionMask w.mask :: w.items, m := w.m }

/-- `Section(d, m)`, 512 bytes, 8 pairs (R136). -/
def fullSection (d : List Byte) (m : Byte) : Tier :=
  sectionOf (walk pair (pieces brPairLen 8 d) 0 m)

/-- `TailPair(d, m)`, 1 to 63 bytes, no escape (R139). -/
def tailPair (d : List Byte) (m : Byte) : Tier :=
  let w := walk groupItem (pieces brGroupLen ((d.length + 7) / 8) d) 0 m
  if w.mask = 0x00#8 then { present := false, items := [], m := w.m }
  else { present := true, items := .tailPairMask w.mask :: w.items, m := w.m }

/-- The walk over `q` whole sub-units, then over one shorter if bytes are left (R140, R141). -/
def walkWithTail (f g : List Byte → Byte → Tier) (k q : Nat) (d : List Byte) (m : Byte) : Walk :=
  let w := walk f (pieces k q d) 0 m
  if d.length ≤ k * q then w
  else
    let r := g (d.drop (k * q)) w.m
    { mask := w.mask ||| maskBit r.present q, items := w.items ++ r.items, m := r.m }

/-- `TailSection(d, m)`, 1 to 511 bytes: full pairs, then one tail pair (R140). -/
def tailSection (d : List Byte) (m : Byte) : Tier :=
  sectionOf (walkWithTail pair tailPair brPairLen (d.length / brPairLen) d m)

/-- The sections of a full chunk of 4096 bytes (R137). -/
def encodeFull (prev : BitVec 1) (d : List Byte) : Walk :=
  walk fullSection (pieces brSectionLen 8 d) 0 (ext prev)

/-- The sections of a partial chunk: full sections, then one tail section (R141). -/
def encodePart (prev : BitVec 1) (d : List Byte) : Walk :=
  walkWithTail fullSection tailSection brSectionLen (d.length / brSectionLen) d (ext prev)

/-- `BR_MASKW` of a partial chunk, the number of its sections (R101, R141). -/
def partWidth (n : Nat) : Nat := n / brSectionLen + (if n % brSectionLen > 0 then 1 else 0)

/-- A tail section is given 512 bytes or more, or a tail pair 64 or more: the cause of `F_TIER` (R258). -/
def tierFault (n : Nat) : Bool :=
  decide (n % brSectionLen ≥ brSectionLen) || decide (n % brSectionLen % brPairLen ≥ brPairLen)

end Sys2Proof.Machine
end

