-- ==== Sys2Proof/Machine/BitRat.lean ====
section
/-! DEFINITION. The BitRat commands: how they start (R225, R137, R141), what writing each item of the stream does,
and how they end (R226). The bytes are staged in the running command and stored when it ends, one of the two ways
R68 admits (log 8). -/

namespace Sys2Proof.Machine

/-! ## Start -/

/-- A BitRat command whose preconditions hold becomes `BUSY` (R225) with the session registers initialised (R27),
unless its windows meet those of a running command (R73, R75). -/
def launchBr (j : BrJob) (s : State) : Out :=
  if s.outWindows.any (fun w => w.meets j.outWindow) || s.fxWindows.any (fun w => w.meets j.inWindow) then
    .refused .windowConflict
  else
    .next { s with br := { s.br with
      status := Status.busy
      icur := toWord j.inBase
      ocur := toWord j.outBase
      matchByte := ext s.br.prev
      job := some j } }

/-- The command `BR.FULL` with its operands latched (R137, R225). -/
def brFullJob (s : State) : BrJob :=
  let x := brArgs s.br
  let w := encodeFull s.br.prev (s.readInBytes x.inBase.toNat brFullLen)
  { inBase := x.inBase.toNat, len := brFullLen
    outBase := x.outBase.toNat, need := brNeed s.params brFullLen
    tierFault := false, todo := w.items, out := [], mask := w.mask, width := 8#4, matchEnd := w.m }

/-- The command `BR.PART` with its operands latched (R141, R225). -/
def brPartJob (s : State) : BrJob :=
  let x := brArgs s.br
  let n := x.inLen.toNat
  let w := encodePart s.br.prev (s.readInBytes x.inBase.toNat n)
  { inBase := x.inBase.toNat, len := n
    outBase := x.outBase.toNat, need := brNeed s.params n
    tierFault := tierFault n, todo := w.items, out := [], mask := w.mask
    width := BitVec.ofNat 4 (partWidth n), matchEnd := w.m }

/-- The `CMD` write of `BR.FULL` (R225): refused while `BUSY`, `FAILED` if a precondition fails, else started. -/
def startBrFull (s : State) : Out :=
  if s.br.status.st = .busy then .refused (.busyAccess .br)
  else
    match brFullError s.params (brArgs s.br) with
    | some e => .next (s.failCommand .br e)
    | none => launchBr (brFullJob s) s

/-- The `CMD` write of `BR.PART` (R225). -/
def startBrPart (s : State) : Out :=
  if s.br.status.st = .busy then .refused (.busyAccess .br)
  else
    match brPartError s.params (brArgs s.br) with
    | some e => .next (s.failCommand .br e)
    | none => launchBr (brPartJob s) s

/-- A command code that selects no command of BR (R92, R267). -/
def badBrCmd (s : State) : Out :=
  if s.br.status.st = .busy then .refused (.busyAccess .br) else .next (s.failCommand .br .badCmd)

/-- `BR.FULL`; the ignored bits of the word do nothing (R90). -/
def execBrFull (_ign : BitVec 29) (s : State) : Out := startBrFull s

/-- `BR.PART`. -/
def execBrPart (_ign : BitVec 29) (s : State) : Out := startBrPart s

/-- `RESERVED.BR`: no operand is read, no precondition evaluated (R267). -/
def execReservedBr (_op : BitVec 3) (_ign : BitVec 29) (s : State) : Out := badBrCmd s

/-! ## The items of the stream -/

/-- Append bytes to the stream of the running BitRat command (`out <- out ++ o` of R137). A unit that is not running
makes no access (R61). -/
def emitBr (bytes : List Byte) (s : State) : Out :=
  match s.br.job with
  | none => .refused (.noRunningCommand .br)
  | some j => .next { s with br := { s.br with job := some { j with out := j.out ++ bytes } } }

/-- `BR.GroupMask`: written if not zero (R96, R97). -/
def execBrGroupMask (g : Byte) (s : State) : Out := emitBr (maskBytes g) s

/-- `BR.PairMask`: one byte, the first block's mask in the high nibble; written if not zero (R96, R98). -/
def execBrPairMask (a b : Nibble) (s : State) : Out := emitBr (maskBytes (a ++ b)) s

/-- `BR.TailPairMask`: written if not zero (R96, R99). -/
def execBrTailPairMask (t : Byte) (s : State) : Out := emitBr (maskBytes t) s

/-- `BR.SectionMask`: written if not zero (R96, R100). -/
def execBrSectionMask (u : Byte) (s : State) : Out := emitBr (maskBytes u) s

/-- `BR.EscapeBlock`: the zero flag and the raw bytes (R102). -/
def execBrEscapeBlock (raw : List Byte) (s : State) : Out := emitBr (escapeBytes raw) s

/-- `BR.Literal`: an input byte, unchanged (R131). -/
def execBrLiteral (d : Byte) (s : State) : Out := emitBr [d] s

/-! ## End -/

/-- The result and session registers and the status of a BitRat command that ended (R26, R27, R137, R141). -/
def BrBank.finish (b : BrBank) (j : BrJob) (m : Byte) : BrBank :=
  { b with
    status := Status.done
    mask := m
    maskw := j.width
    written := toWord j.out.length
    consumed := toWord j.len
    last := lsb j.matchEnd
    icur := toWord (j.inBase + j.len)
    ocur := toWord (j.outBase + j.out.length)
    matchByte := j.matchEnd
    job := none }

/-- `BR.ChunkMask`: the mask returned in `BR_MASK` (R101); returning it ends the command in one step that makes all
its results visible (R226). The stream is in `OUT`, the rest of the output window is unspecified (R68). -/
def execBrChunkMask (m : Byte) (s : State) : Out :=
  match s.br.job with
  | none => .refused (.noRunningCommand .br)
  | some j =>
    andThen (s.storeOut j.outBase j.out) fun t =>
      let u := t.scrambleOut (j.outBase + j.out.length) (j.need - j.out.length)
      .next { u with br := u.br.finish j m }

/-! ## The engine alone, to the end of its command -/

/-- What writing an item does. -/
def runBrItem : BrItem → State → Out
  | .groupMask g, s => execBrGroupMask g s
  | .pairMask a b, s => execBrPairMask a b s
  | .tailPairMask t, s => execBrTailPairMask t s
  | .sectionMask u, s => execBrSectionMask u s
  | .escapeBlock raw, s => execBrEscapeBlock raw s
  | .literal d, s => execBrLiteral d s

/-- The state with the items still to be written replaced. -/
def State.withBrTodo (s : State) (j : BrJob) (rest : List BrItem) : State :=
  { s with br := { s.br with job := some { j with todo := rest } } }

/-- The BitRat engine moves until its command has ended; one move an item and one for the chunk mask are enough
(R226: a running command ends; log 13). -/
def finishBr : (fuel : Nat) → State → Out
  | 0, s => .next s
  | fuel + 1, s =>
    match s.br.job with
    | none => .next s
    | some j =>
      if j.tierFault then .next (s.failFatalBr j .fTier)
      else
        match j.todo with
        | [] => execBrChunkMask j.mask s
        | x :: rest => andThen (runBrItem x (s.withBrTodo j rest)) (finishBr fuel)

/-- How many moves the running BitRat command still has. -/
def State.brMovesLeft (s : State) : Nat :=
  match s.br.job with
  | none => 0
  | some j => j.todo.length + 1

end Sys2Proof.Machine
end

