-- ==== Sys2Proof/Machine/Fixlast.lean ====
section
/-! DEFINITION. `FX.FIXLAST` (R221, R222), from its start (R225) to its end (R226). -/

namespace Sys2Proof.Machine

/-- The low bits below the last meaningful one, `(1 << (8 - k)) - 1` (R221, R222 (d)). -/
def fixLow (k : Nat) : Byte := (1#8 <<< (8 - k)) - 1#8

/-- The byte with its `8 - k` low bits filled or cleared to match bit `8 - k` (R221), for `1 <= k <= 8`. -/
def fixByte (b : Byte) (k : Nat) : Byte :=
  if b.getLsbD (8 - k) then b ||| fixLow k else b &&& ~~~ fixLow k

/-- A FIXLAST command whose preconditions hold becomes `BUSY` (R225), unless its byte lies in the input window of a
running encoder (R75). -/
def launchFx (j : FxJob) (s : State) : Out :=
  if s.inWindows.any (fun w => w.meets j.window) then .refused .windowConflict
  else .next { s with fx := { s.fx with status := Status.busy, job := some j } }

/-- The command with its operands latched (R221, R225). -/
def fxJob (s : State) : FxJob :=
  { addr := (fxArgs s.fx).addr.toNat, bits := (fxArgs s.fx).lastBits.toNat }

/-- The `CMD` write of `FX.FIXLAST` (R225). -/
def startFixlast (s : State) : Out :=
  if s.fx.status.st = .busy then .refused (.busyAccess .fx)
  else
    match fxError (fxArgs s.fx) with
    | some e => .next (s.failCommand .fx e)
    | none => launchFx (fxJob s) s

/-- A command code that selects no command of FX (R92, R267). -/
def badFxCmd (s : State) : Out :=
  if s.fx.status.st = .busy then .refused (.busyAccess .fx) else .next (s.failCommand .fx .badCmd)

/-- `FX.FIXLAST`; the ignored bits of the word do nothing (R90). -/
def execFxFixlast (_ign : BitVec 29) (s : State) : Out := startFixlast s

/-- `RESERVED.FX`: no operand is read, no precondition evaluated (R267). -/
def execReservedFx (_op : BitVec 3) (_ign : BitVec 29) (s : State) : Out := badFxCmd s

/-- The end of the running command: its byte of `IN` is read and written back (R65, R221), and `ST` becomes `DONE`
(R226). -/
def finishFx (s : State) : Out :=
  match s.fx.job with
  | none => .next s
  | some j =>
    andThen (s.storeIn j.addr (fixByte (s.readIn j.addr) j.bits)) fun t =>
      .next { t with fx := { t.fx with status := Status.done, job := none } }

end Sys2Proof.Machine
end

