-- ==== Sys2Proof/Machine/NibblerStream.lean ====
section
/-! DEFINITION. The Nibbler engine's writer (R171 to R177) and segmenter (R178 to R183) as pure functions. -/

namespace Sys2Proof.Machine

/-! ## The writer -/

/-- The writer state (R171): `body`, and `slot`, the index in `body` of a byte whose low nibble is free. -/
structure Writer where
  body : List Byte
  slot : Option Nat
  deriving DecidableEq, Repr

/-- The writer at the start of a command (R171, R186). -/
def Writer.start : Writer := { body := [], slot := none }

/-- `PutNibble(x)` (R172). -/
def putNibble (x : Nibble) (w : Writer) : Writer :=
  match w.slot with
  | some k => { body := w.body.set k (w.body.getD k 0x00#8 ||| (0#4 ++ x)), slot := none }
  | none => { body := w.body ++ [x ++ 0#4], slot := some w.body.length }

/-- `PutByte(b)`: the slot stays (R172). -/
def putByte (b : Byte) (w : Writer) : Writer := { w with body := w.body ++ [b] }

/-- `PutNibble` for each nibble in order. -/
def putNibbles : List Nibble → Writer → Writer
  | [], w => w
  | x :: xs, w => putNibbles xs (putNibble x w)

/-- `PutByte` for each byte in order (R184). -/
def putBytes : List Byte → Writer → Writer
  | [], w => w
  | b :: bs, w => putBytes bs (putByte b w)

/-- The 4-bit tier (R174). -/
def lenNibbles4 (v : Nat) : List Nibble := [BitVec.ofNat 4 v]

/-- The 8-bit tier (R175): `0x80 | (v - 8)`, high nibble first. -/
def lenNibbles8 (v : Nat) : List Nibble :=
  let w : BitVec 8 := 0x80#8 ||| BitVec.ofNat 8 (v - 8)
  [w.extractLsb' 4 4, w.extractLsb' 0 4]

/-- The 16-bit tier (R176): `0xC000 | (v - 8)`, big-endian. -/
def lenNibbles16 (v : Nat) : List Nibble :=
  let w : BitVec 16 := 0xC000#16 ||| BitVec.ofNat 16 (v - 8)
  [w.extractLsb' 12 4, w.extractLsb' 8 4, w.extractLsb' 4 4, w.extractLsb' 0 4]

/-- The nibbles `WriteLen(v)` puts, the tier being the first whose range holds `v` (R173). -/
def lenNibbles (v : Nat) : List Nibble :=
  if v ≤ 7 then lenNibbles4 v else if v ≤ 71 then lenNibbles8 v else lenNibbles16 v

/-- `WriteLen(v)` (R173): none is `F_LEN_RANGE`, a value below 0 or above 8191 (R177). -/
def writeLen (v : Int) (w : Writer) : Option Writer :=
  if v < 0 ∨ v > nbLenMax then none else some (putNibbles (lenNibbles v.toNat) w)

/-- `emit Run(v, runLen)` (R184). -/
def emitRun (bias runLen : Nat) (w : Writer) : Option Writer := writeLen ((runLen : Int) - bias) w

/-- `emit LitRun(bytes)`: the field, then the bytes (R184). -/
def emitLitRun (bytes : List Byte) (w : Writer) : Option Writer :=
  match writeLen ((bytes.length : Int) - 1) w with
  | none => none
  | some w' => some (putBytes bytes w')

/-! ## The segmenter -/

/-- `d[i]`. The rules index only inside the chunk (R178). -/
def at_ (d : List Byte) (i : Nat) : Byte := d.getD i 0x00#8

/-- `e = max(n - 3, 0)`, the end of the run-eligible region (R178). -/
def runEnd (d : List Byte) : Nat := d.length - nbTail

/-- The byte is `0x00` or `0xFF`, the values a run can have (R179, R180). -/
def isRunByte (b : Byte) : Bool := b == 0x00#8 || b == 0xFF#8

/-- `j` advanced while `j < e` and `d[j] = v` (R179, R181); `fuel` bounds the loop and `e - j` is enough. -/
def scanRun (d : List Byte) (v : Byte) : (fuel : Nat) → (j : Nat) → Nat
  | 0, j => j
  | fuel + 1, j => if j < runEnd d ∧ at_ d j = v then scanRun d v fuel (j + 1) else j

/-- A leading run starts the chunk (R179). -/
def leadsWithRun (d : List Byte) : Bool :=
  decide (runEnd d ≥ nbRunMin) && isRunByte (at_ d 0) && at_ d 1 == at_ d 0 && at_ d 2 == at_ d 0

/-- `RunStartsAt(i)` (R180). -/
def runStartsAt (d : List Byte) (i : Nat) : Bool :=
  isRunByte (at_ d (i - 1)) && decide (i + 3 ≤ runEnd d) && at_ d i == at_ d (i - 1)
    && at_ d (i + 1) == at_ d (i - 1) && at_ d (i + 2) == at_ d (i - 1)

/-- `i` advanced while `i < n` and no run starts at `i` (R182); `n - i` is enough fuel. -/
def scanLiteral (d : List Byte) : (fuel : Nat) → (i : Nat) → Nat
  | 0, i => i
  | fuel + 1, i => if i < d.length ∧ runStartsAt d i = false then scanLiteral d fuel (i + 1) else i

/-- The segments from a literal run that starts at `s` (R182), then a run (R181), and so on to the end of the chunk
(R186); every round consumes a byte, so `n - s` is enough fuel. -/
def segmentsFrom (d : List Byte) : (fuel : Nat) → (s : Nat) → List NbItem
  | 0, _ => []
  | fuel + 1, s =>
    if s < d.length then
      let i := scanLiteral d d.length (s + 1)
      let lit := NbItem.litRun ((d.take i).drop s)
      if i < d.length then
        let j := scanRun d (at_ d (i - 1)) d.length (i + 3)
        lit :: .run (j - i) :: segmentsFrom d fuel j
      else [lit]
    else []

/-- `MARK` of the chunk (R179; R186 for the empty one). -/
def markOf (emptyMarker : Mark) (d : List Byte) : Mark :=
  if d.length = 0 then emptyMarker
  else if leadsWithRun d then (if at_ d 0 = 0x00#8 then .zeroRun else .oneRun)
  else .literal

/-- The segments of the chunk (R179 to R183, R186). -/
def segments (d : List Byte) : List NbItem :=
  if leadsWithRun d then
    let j := scanRun d (at_ d 0) d.length 3
    .run j :: segmentsFrom d d.length j
  else segmentsFrom d d.length 0

/-- The nibbles of the three fields as items (R109), first to last. -/
def field4 (v : BitVec 3) : List Nibble := [0#1 ++ v]
def field8 (w : BitVec 6) : List Nibble :=
  let b : BitVec 8 := 2#2 ++ w
  [b.extractLsb' 4 4, b.extractLsb' 0 4]
def field16 (w : BitVec 13) : List Nibble :=
  let b : BitVec 16 := 6#3 ++ w
  [b.extractLsb' 12 4, b.extractLsb' 8 4, b.extractLsb' 4 4, b.extractLsb' 0 4]

/-- What an item does to the writer; none is `F_LEN_RANGE` (R177). -/
def emitItem (bias : Nat) : NbItem → Writer → Option Writer
  | .lenField4 v, w => some (putNibbles (field4 v) w)
  | .lenField8 v, w => some (putNibbles (field8 v) w)
  | .lenField16 v, w => some (putNibbles (field16 v) w)
  | .run n, w => emitRun bias n w
  | .litRun bytes, w => emitLitRun bytes w

/-- What a sequence of items does to the writer. -/
def emitItems (bias : Nat) : List NbItem → Writer → Option Writer
  | [], w => some w
  | x :: xs, w =>
    match emitItem bias x w with
    | none => none
    | some w' => emitItems bias xs w'

/-- The two header bytes (R185): `(MARK << 6) | B[13:8]`, then `B[7:0]`. -/
def headerBytes (m : Mark) (bodyLen : BitVec 14) : List Byte :=
  let mark : Byte := match m with
    | .zeroRun => 0x00#8
    | .oneRun => 0x01#8
    | .literal => 0x02#8
  [(mark <<< 6) ||| (0#2 ++ bodyLen.extractLsb' 8 6), bodyLen.extractLsb' 0 8]

/-- The whole stream of a chunk and the slot left free: header and body (R185, R186); none is a fatal error. -/
def nbEncode (p : Params) (d : List Byte) : Option (List Byte × Option Nat) :=
  match emitItems p.nbRunBias (segments d) Writer.start with
  | none => none
  | some w => some (headerBytes (markOf p.nbEmptyMarker d) (BitVec.ofNat 14 w.body.length) ++ w.body, w.slot)

end Sys2Proof.Machine
end

