-- ==== Sys2Proof/Machine/Nibbler.lean ====
section
/-! DEFINITION. `NB.ENC`: how it starts (R225, R186), what writing each segment or field does, and how it ends
(R185, R226); the state machine of R190. The body is staged in the running command (R170, R171). -/

namespace Sys2Proof.Machine

/-! ## Start -/

/-- A Nibbler command whose preconditions hold becomes `BUSY` (R225) with the session registers initialised (R32),
unless its windows meet those of a running command (R73, R75). -/
def launchNb (j : NbJob) (s : State) : Out :=
  if s.outWindows.any (fun w => w.meets j.outWindow) || s.fxWindows.any (fun w => w.meets j.inWindow) then
    .refused .windowConflict
  else
    .next { s with nb := { s.nb with
      status := Status.busy
      icur := toWord j.inBase
      ocur := toWord j.outBase
      slot := 0#32
      job := some j } }

/-- The command `NB.ENC` with its operands latched (R186, R225). -/
def nbEncJob (s : State) : NbJob :=
  let x := nbArgs s.nb
  let n := x.inLen.toNat
  let d := s.readInBytes x.inBase.toNat n
  { inBase := x.inBase.toNat, len := n
    outBase := x.outBase.toNat, need := nbNeed n
    todo := segments d, body := [], slot := none, mark := markOf s.params.nbEmptyMarker d }

/-- The `CMD` write of `NB.ENC` (R225). -/
def startNbEnc (s : State) : Out :=
  if s.nb.status.st = .busy then .refused (.busyAccess .nb)
  else
    match nbEncError (nbArgs s.nb) with
    | some e => .next (s.failCommand .nb e)
    | none => launchNb (nbEncJob s) s

/-- A command code that selects no command of NB (R92, R267). -/
def badNbCmd (s : State) : Out :=
  if s.nb.status.st = .busy then .refused (.busyAccess .nb) else .next (s.failCommand .nb .badCmd)

/-- `NB.ENC`; the ignored bits of the word do nothing (R90). -/
def execNbEnc (_ign : BitVec 29) (s : State) : Out := startNbEnc s

/-- `RESERVED.NB`: no operand is read, no precondition evaluated (R267). -/
def execReservedNb (_op : BitVec 3) (_ign : BitVec 29) (s : State) : Out := badNbCmd s

/-! ## The items of the body -/

/-- The writer state of a running command (R171). -/
def NbJob.writer (j : NbJob) : Writer := { body := j.body, slot := j.slot }

/-- Write an item into the body of the running Nibbler command. A value `WriteLen` cannot hold ends the command with
`F_LEN_RANGE` (R173, R190). A unit that is not running makes no access (R61). -/
def emitNb (f : Writer → Option Writer) (s : State) : Out :=
  match s.nb.job with
  | none => .refused (.noRunningCommand .nb)
  | some j =>
    match f j.writer with
    | none => .next (s.failFatalNb j .fLenRange)
    | some w => .next { s with nb := { s.nb with job := some { j with body := w.body, slot := w.slot } } }

/-- `NB.LenField4`: one nibble `0vvv`, placed by R110 (R174). -/
def execNbLenField4 (v : BitVec 3) (s : State) : Out := emitNb (fun w => some (putNibbles (field4 v) w)) s

/-- `NB.LenField8`: two nibbles `10ww`, `wwww` (R175). -/
def execNbLenField8 (v : BitVec 6) (s : State) : Out := emitNb (fun w => some (putNibbles (field8 v) w)) s

/-- `NB.LenField16`: four nibbles of `0xC000 | w` (R176). -/
def execNbLenField16 (v : BitVec 13) (s : State) : Out := emitNb (fun w => some (putNibbles (field16 v) w)) s

/-- `NB.Run`: the length field of the run's length less `NB_RUN_BIAS`; its value is not written (R112, R184). -/
def execNbRun (runLen : Nat) (s : State) : Out := emitNb (emitRun s.params.nbRunBias runLen) s

/-- `NB.LitRun`: the length field of the count less 1, then the bytes (R111, R184). -/
def execNbLitRun (bytes : List Byte) (s : State) : Out := emitNb (emitLitRun bytes) s

/-! ## End -/

/-- `NB_SLOT` (R32, R171): the address of the slot byte, or 0. -/
def slotWord (outBase : Nat) : Option Nat → Word
  | none => 0#32
  | some k => toWord (outBase + 2 + k)

/-- The result and session registers and the status of a Nibbler command that ended (R31, R32, R186). -/
def NbBank.finish (b : NbBank) (j : NbJob) : NbBank :=
  { b with
    status := Status.done
    written := toWord (2 + j.body.length)
    consumed := toWord j.len
    icur := toWord (j.inBase + j.len)
    ocur := toWord (j.outBase + 2 + j.body.length)
    slot := slotWord j.outBase j.slot
    job := none }

/-- `NB.Header`: the 2 bytes before the body, big-endian (R106, R185); writing them is the move `FINISH` of R190,
which ends the command (R226). The rest of the output window is unspecified (R68). -/
def execNbHeader (mark : Mark) (bodyLen : BitVec 14) (s : State) : Out :=
  match s.nb.job with
  | none => .refused (.noRunningCommand .nb)
  | some j =>
    andThen (s.storeOut j.outBase (headerBytes mark bodyLen ++ j.body)) fun t =>
      let u := t.scrambleOut (j.outBase + (2 + j.body.length)) (j.need - (2 + j.body.length))
      .next { u with nb := u.nb.finish j }

/-! ## The engine alone, to the end of its command -/

/-- What writing an item does. -/
def runNbItem : NbItem → State → Out
  | .lenField4 v, s => execNbLenField4 v s
  | .lenField8 v, s => execNbLenField8 v s
  | .lenField16 v, s => execNbLenField16 v s
  | .run n, s => execNbRun n s
  | .litRun bytes, s => execNbLitRun bytes s

/-- The state with the segments still to be written replaced. -/
def State.withNbTodo (s : State) (j : NbJob) (rest : List NbItem) : State :=
  { s with nb := { s.nb with job := some { j with todo := rest } } }

/-- The Nibbler engine moves until its command has ended; one move a segment and one for the header are enough
(R226, log 13). -/
def finishNb : (fuel : Nat) → State → Out
  | 0, s => .next s
  | fuel + 1, s =>
    match s.nb.job with
    | none => .next s
    | some j =>
      match j.todo with
      | [] => execNbHeader j.mark (BitVec.ofNat 14 j.body.length) s
      | x :: rest => andThen (runNbItem x (s.withNbTodo j rest)) (finishNb fuel)

/-- How many moves the running Nibbler command still has. -/
def State.nbMovesLeft (s : State) : Nat :=
  match s.nb.job with
  | none => 0
  | some j => j.todo.length + 1

end Sys2Proof.Machine
end

