-- ==== Sys2Proof/Machine/Registers.lean ====
section
/-! DEFINITION. The register space `REG`: the three tables of R23, R29 and R34, and the two operations on it, `REGWR`
(R223) and `REGRD` (R224). -/

namespace Sys2Proof.Machine

/-- Every register with storage, by the name its table gives it; the `CMD` registers have none (R23, R29, R34). -/
inductive Reg where
  | brStatus | brBuf | brPrev | brInBase | brInLen | brInCap | brOutBase | brOutCap
  | brMask | brMaskw | brWritten | brConsumed | brLast | brIcur | brOcur | brMatch
  | nbStatus | nbBuf | nbInBase | nbInLen | nbInCap | nbOutBase | nbOutCap
  | nbWritten | nbConsumed | nbIcur | nbOcur | nbSlot
  | fxStatus | fxBuf | fxAddr | fxBits | fxCap
  deriving DecidableEq, Repr

/-- The offset column of the tables. -/
def Reg.offset : Reg → Word
  | .brStatus => 0x004#32
  | .brBuf => 0x008#32
  | .brPrev => 0x00C#32
  | .brInBase => 0x010#32
  | .brInLen => 0x014#32
  | .brInCap => 0x018#32
  | .brOutBase => 0x01C#32
  | .brOutCap => 0x020#32
  | .brMask => 0x024#32
  | .brMaskw => 0x028#32
  | .brWritten => 0x02C#32
  | .brConsumed => 0x030#32
  | .brLast => 0x034#32
  | .brIcur => 0x038#32
  | .brOcur => 0x03C#32
  | .brMatch => 0x040#32
  | .nbStatus => 0x104#32
  | .nbBuf => 0x108#32
  | .nbInBase => 0x110#32
  | .nbInLen => 0x114#32
  | .nbInCap => 0x118#32
  | .nbOutBase => 0x11C#32
  | .nbOutCap => 0x120#32
  | .nbWritten => 0x12C#32
  | .nbConsumed => 0x130#32
  | .nbIcur => 0x138#32
  | .nbOcur => 0x13C#32
  | .nbSlot => 0x140#32
  | .fxStatus => 0x204#32
  | .fxBuf => 0x208#32
  | .fxAddr => 0x210#32
  | .fxBits => 0x214#32
  | .fxCap => 0x218#32

/-- Every register with storage. -/
def Reg.all : List Reg :=
  [.brStatus, .brBuf, .brPrev, .brInBase, .brInLen, .brInCap, .brOutBase, .brOutCap,
   .brMask, .brMaskw, .brWritten, .brConsumed, .brLast, .brIcur, .brOcur, .brMatch,
   .nbStatus, .nbBuf, .nbInBase, .nbInLen, .nbInCap, .nbOutBase, .nbOutCap,
   .nbWritten, .nbConsumed, .nbIcur, .nbOcur, .nbSlot,
   .fxStatus, .fxBuf, .fxAddr, .fxBits, .fxCap]

/-- The register an offset names, if it names one with storage. -/
def regAt (off : Word) : Option Reg := Reg.all.find? (fun r => r.offset == off)

/-- The unit whose bank holds an offset below `0x300` (R22, R223). -/
def bankOf (off : Word) : Bank :=
  if off.toNat < 0x100 then .br else if off.toNat < 0x200 then .nb else .fx

/-- A unit is `BUSY` (R24). -/
def State.busy (s : State) : Bank → Bool
  | .br => s.br.status.st == .busy
  | .nb => s.nb.status.st == .busy
  | .fx => s.fx.status.st == .busy

/-- The register is a `STATUS` register. -/
def Reg.isStatus : Reg → Bool
  | .brStatus => true
  | .nbStatus => true
  | .fxStatus => true
  | _ => false

/-- The bits column of the tables: a 1 for every bit the register has (R22). -/
def Reg.bits : Reg → Word
  | .brStatus => 0x1F3#32
  | .brBuf => 0x3#32
  | .brPrev => 0x1#32
  | .brInCap => 0x7FFFFFFF#32
  | .brOutCap => 0x7FFFFFFF#32
  | .brMask => 0xFF#32
  | .brMaskw => 0xF#32
  | .brLast => 0x1#32
  | .brMatch => 0xFF#32
  | .nbStatus => 0x1F3#32
  | .nbBuf => 0x3#32
  | .nbInCap => 0x7FFFFFFF#32
  | .nbOutCap => 0x7FFFFFFF#32
  | .fxStatus => 0x1F3#32
  | .fxBuf => 0x1#32
  | .fxCap => 0x7FFFFFFF#32
  | _ => 0xFFFFFFFF#32

/-- The access column of the tables: the register is `RW` (R22). -/
def Reg.writable : Reg → Bool
  | .brBuf | .brPrev | .brInBase | .brInLen | .brInCap | .brOutBase | .brOutCap => true
  | .nbBuf | .nbInBase | .nbInLen | .nbInCap | .nbOutBase | .nbOutCap => true
  | .fxBuf | .fxAddr | .fxBits | .fxCap => true
  | _ => false

/-- `r[NAME]` (R8): 32 bits, the bits the row does not name being 0 (R22). -/
def State.reg (s : State) : Reg → Word
  | .brStatus => s.br.status.word
  | .brBuf => s.br.buf.setWidth 32
  | .brPrev => s.br.prev.setWidth 32
  | .brInBase => s.br.inBase
  | .brInLen => s.br.inLen
  | .brInCap => s.br.inCap.setWidth 32
  | .brOutBase => s.br.outBase
  | .brOutCap => s.br.outCap.setWidth 32
  | .brMask => s.br.mask.setWidth 32
  | .brMaskw => s.br.maskw.setWidth 32
  | .brWritten => s.br.written
  | .brConsumed => s.br.consumed
  | .brLast => s.br.last.setWidth 32
  | .brIcur => s.br.icur
  | .brOcur => s.br.ocur
  | .brMatch => s.br.matchByte.setWidth 32
  | .nbStatus => s.nb.status.word
  | .nbBuf => s.nb.buf.setWidth 32
  | .nbInBase => s.nb.inBase
  | .nbInLen => s.nb.inLen
  | .nbInCap => s.nb.inCap.setWidth 32
  | .nbOutBase => s.nb.outBase
  | .nbOutCap => s.nb.outCap.setWidth 32
  | .nbWritten => s.nb.written
  | .nbConsumed => s.nb.consumed
  | .nbIcur => s.nb.icur
  | .nbOcur => s.nb.ocur
  | .nbSlot => s.nb.slot
  | .fxStatus => s.fx.status.word
  | .fxBuf => s.fx.buf.setWidth 32
  | .fxAddr => s.fx.addr
  | .fxBits => s.fx.bits
  | .fxCap => s.fx.cap.setWidth 32

/-- `r[NAME] <- v` by the host: an `RW` register keeps the bits it has, a read-only one ignores the write (R22,
R223). -/
def State.setReg (s : State) (r : Reg) (v : Word) : State :=
  match r with
  | .brBuf => { s with br := { s.br with buf := v.setWidth 2 } }
  | .brPrev => { s with br := { s.br with prev := v.setWidth 1 } }
  | .brInBase => { s with br := { s.br with inBase := v } }
  | .brInLen => { s with br := { s.br with inLen := v } }
  | .brInCap => { s with br := { s.br with inCap := v.setWidth 31 } }
  | .brOutBase => { s with br := { s.br with outBase := v } }
  | .brOutCap => { s with br := { s.br with outCap := v.setWidth 31 } }
  | .nbBuf => { s with nb := { s.nb with buf := v.setWidth 2 } }
  | .nbInBase => { s with nb := { s.nb with inBase := v } }
  | .nbInLen => { s with nb := { s.nb with inLen := v } }
  | .nbInCap => { s with nb := { s.nb with inCap := v.setWidth 31 } }
  | .nbOutBase => { s with nb := { s.nb with outBase := v } }
  | .nbOutCap => { s with nb := { s.nb with outCap := v.setWidth 31 } }
  | .fxBuf => { s with fx := { s.fx with buf := v.setWidth 1 } }
  | .fxAddr => { s with fx := { s.fx with addr := v } }
  | .fxBits => { s with fx := { s.fx with bits := v } }
  | .fxCap => { s with fx := { s.fx with cap := v.setWidth 31 } }
  | .brStatus | .brMask | .brMaskw | .brWritten | .brConsumed | .brLast | .brIcur | .brOcur | .brMatch => s
  | .nbStatus | .nbWritten | .nbConsumed | .nbIcur | .nbOcur | .nbSlot => s
  | .fxStatus => s

/-- The value of a host read comes back to the host (log 15). -/
def State.reply (s : State) (v : Word) : State := { s with replies := s.replies ++ [v] }

/-- A write to `BR_CMD` (R225). -/
def writeBrCmd (v : Word) (s : State) : Out :=
  if cmdOp v = 1#3 then startBrFull s else if cmdOp v = 2#3 then startBrPart s else badBrCmd s

/-- A write to `NB_CMD` (R225). -/
def writeNbCmd (v : Word) (s : State) : Out := if cmdOp v = 1#3 then startNbEnc s else badNbCmd s

/-- A write to `FX_CMD` (R225). -/
def writeFxCmd (v : Word) (s : State) : Out := if cmdOp v = 1#3 then startFixlast s else badFxCmd s

/-- A write to any other register offset: refused while the unit is `BUSY`, else stored if the offset names an `RW`
register (R223). -/
def writeOther (off v : Word) (s : State) : Out :=
  if s.busy (bankOf off) then .refused (.busyAccess (bankOf off))
  else
    match regAt off with
    | some r => .next (s.setReg r v)
    | none => .next s

/-- `REGWR off, v` (R223). -/
def execRegwr (off value : Word) (s : State) : Out :=
  if (offsetError off).isSome then .refused (.badOffset off)
  else if off = 0x000#32 then writeBrCmd value s
  else if off = 0x100#32 then writeNbCmd value s
  else if off = 0x200#32 then writeFxCmd value s
  else writeOther off value s

/-- `REGRD off` (R224): a `STATUS` register always, 0 for a `CMD` register or an offset that names no register, and
any other register unless its unit is `BUSY` (log 9). A read has no side effect. -/
def execRegrd (off : Word) (s : State) : Out :=
  if (offsetError off).isSome then .refused (.badOffset off)
  else
    match regAt off with
    | none => .next (s.reply 0#32)
    | some r =>
      if r.isStatus then .next (s.reply (s.reg r))
      else if s.busy (bankOf off) then .refused (.busyAccess (bankOf off))
      else .next (s.reply (s.reg r))

end Sys2Proof.Machine
end

