-- ==== Sys2Proof/Machine/HostOps.lean ====
section
/-! DEFINITION. What the host does beyond single bus cycles: its reads and writes of `IN` and `OUT` (R61, R73), the
textual command lines (R116), and the chunking loops `COMPRESS.BR` and `COMPRESS.NB` (R117, R228). -/

namespace Sys2Proof.Machine

/-! ## Reads and writes of the buffers -/

/-- The host reads a byte of `IN`. The byte a running FIXLAST command works on counts as an output window (R75), so
what the host sees of it is unspecified (R69, U2; log 10). -/
def hostReadIn (a : Nat) (s : State) : Out :=
  if a < spaceSize then
    if s.fxWindows.any (fun w => w.holds a) then
      .next { s.reply ((Config.freeByte s.freeCount).setWidth 32) with freeCount := s.freeCount + 1 }
    else .next (s.reply ((s.readIn a).setWidth 32))
  else .fault (.noSuchAddress a)

/-- The host writes a byte of `IN`: not one in the input window of a running encoder, nor the one a running FIXLAST
command works on (R73, U4). -/
def hostWriteIn (a : Nat) (b : Byte) (s : State) : Out :=
  if s.inWindows.any (fun w => w.holds a) || s.fxWindows.any (fun w => w.holds a) then .refused .windowConflict
  else s.storeIn a b

/-- The host reads a byte of `OUT`; in the output window of a running command what it sees is unspecified (R69, U2;
log 10). -/
def hostReadOut (a : Nat) (s : State) : Out :=
  if a < spaceSize then
    if s.outWindows.any (fun w => w.holds a) then
      .next { s.reply ((Config.freeByte s.freeCount).setWidth 32) with freeCount := s.freeCount + 1 }
    else .next (s.reply ((s.readOut a).setWidth 32))
  else .fault (.noSuchAddress a)

/-- The host writes a byte of `OUT`: not one in the output window of a running command (R73, U4). -/
def hostWriteOut (a : Nat) (b : Byte) (s : State) : Out :=
  if s.outWindows.any (fun w => w.holds a) then .refused .windowConflict
  else s.storeOut a [b]

/-! ## Command lines (R116) -/

/-- One `REGWR` of an operand that the line names; an omitted one is not written (R116). -/
def writeIfNamed (r : Reg) : Option Word → State → Out
  | none, s => .next s
  | some v, s => execRegwr r.offset v s

/-- The `PRESENT` bit `bit` of `buf` set or cleared, and the address written if there is one (R116). -/
def writeBufArg (buf base : Reg) (bit : Nat) : Option BufArg → State → Out
  | none, s => .next s
  | some .absent, s => execRegwr buf.offset (s.reg buf &&& ~~~ (1#32 <<< bit)) s
  | some (.addr a), s =>
    andThen (execRegwr buf.offset (s.reg buf ||| (1#32 <<< bit)) s) (execRegwr base.offset a)

/-- Poll `STATUS` until the BitRat command has ended (R116, R227): meanwhile only its engine moves (log 13). -/
def pollBr (s : State) : Out := finishBr s.brMovesLeft s

/-- Poll `STATUS` until the Nibbler command has ended. -/
def pollNb (s : State) : Out := finishNb s.nbMovesLeft s

/-- The operands of a BitRat line, then its command code, then the polling (R116). -/
def runBrLine (op : Word) (prev : Option (BitVec 1)) (inp : Option BufArg) (len incap : Option Word)
    (out : Option BufArg) (outcap : Option Word) (s : State) : Out :=
  andThen (writeIfNamed .brPrev (prev.map (fun b => b.setWidth 32)) s) fun s =>
  andThen (writeBufArg .brBuf .brInBase 0 inp s) fun s =>
  andThen (writeIfNamed .brInLen len s) fun s =>
  andThen (writeIfNamed .brInCap incap s) fun s =>
  andThen (writeBufArg .brBuf .brOutBase 1 out s) fun s =>
  andThen (writeIfNamed .brOutCap outcap s) fun s =>
  andThen (execRegwr 0x000#32 op s) pollBr

/-- The operands of a Nibbler line, then its command code, then the polling (R116). -/
def runNbLine (inp : Option BufArg) (len incap : Option Word) (out : Option BufArg) (outcap : Option Word)
    (s : State) : Out :=
  andThen (writeBufArg .nbBuf .nbInBase 0 inp s) fun s =>
  andThen (writeIfNamed .nbInLen len s) fun s =>
  andThen (writeIfNamed .nbInCap incap s) fun s =>
  andThen (writeBufArg .nbBuf .nbOutBase 1 out s) fun s =>
  andThen (writeIfNamed .nbOutCap outcap s) fun s =>
  andThen (execRegwr 0x100#32 1#32 s) pollNb

/-- The operands of a FIXLAST line, then its command code, then the polling (R116). -/
def runFxLine (addr bits cap : Option Word) (s : State) : Out :=
  andThen (writeBufArg .fxBuf .fxAddr 0 (addr.map .addr) s) fun s =>
  andThen (writeIfNamed .fxBits bits s) fun s =>
  andThen (writeIfNamed .fxCap cap s) fun s =>
  andThen (execRegwr 0x200#32 1#32 s) finishFx

/-- A command line (R116). -/
def runLine : Line → State → Out
  | .brFull prev inp incap out outcap, s => runBrLine 1#32 prev inp none incap out outcap s
  | .brPart prev inp len incap out outcap, s => runBrLine 2#32 prev inp len incap out outcap s
  | .nbEnc inp len incap out outcap, s => runNbLine inp len incap out outcap s
  | .fxFixlast addr bits cap, s => runFxLine addr bits cap s

/-! ## The chunking loops (R228) -/

/-- The bytes the harness counts for a BitRat chunk besides its stream: the mask byte and a 2-byte length (R228). -/
def brChunkOverhead : Nat := 3

/-- The loop ran to its end: its result (R228). -/
def State.loopResult (s : State) (total : Nat) : State := { s with hostTotal := total }

/-- What the host has kept so far. -/
def State.withKept (s : State) (kept : List KeptChunk) : State := { s with hostKept := kept }

/-- What the host reads and keeps of the chunk whose command has just ended, given `prevBit` (R229). -/
def BrBank.keptChunk (b : BrBank) (prev : BitVec 1) : KeptChunk :=
  { prev := prev, mask := b.mask, streamLen := b.written, chunkLen := b.consumed }

/-- The host keeps one chunk more (R229). -/
def State.keepChunk (s : State) (prev : BitVec 1) : State := s.withKept (s.hostKept ++ [s.br.keptChunk prev])

/-- `COMPRESS.BR` from `pos` on, `left` bytes before the end (R228), keeping `prev` and what R229 says of each chunk.
It stops at the first `FAILED`. `left / 4096 + 1` is enough fuel: every chunk but the last has 4096 bytes. -/
def compressBrFrom (a : Word) : (fuel : Nat) → (left pos : Nat) → (prev : BitVec 1) → (total : Nat) → State → Out
  | 0, _, _, _, total, s => .next (s.loopResult total)
  | fuel + 1, left, pos, prev, total, s =>
    if left ≥ brFullLen then
      andThen (runBrLine 1#32 (some prev) (some (.addr (a + toWord pos))) none none none none s) fun t =>
        if t.br.status.st = .failed then .next t
        else
          compressBrFrom a fuel (left - brFullLen) (pos + brFullLen) t.br.last
            (total + t.br.written.toNat + brChunkOverhead) (t.keepChunk prev)
    else if left > 0 then
      andThen
        (runBrLine 2#32 (some prev) (some (.addr (a + toWord pos))) (some (toWord left)) none none none s)
        fun t =>
          if t.br.status.st = .failed then .next t
          else .next ((t.keepChunk prev).loopResult (total + t.br.written.toNat + brChunkOverhead))
    else .next (s.loopResult total)

/-- `COMPRESS.BR in=addr len=len` (R228, R229). -/
def execCompressBr (addr len : Word) (s : State) : Out :=
  compressBrFrom addr (len.toNat / brFullLen + 1) len.toNat 0 s.params.firstPrev 0 (s.withKept [])

/-- `COMPRESS.NB` from `pos` on, `left` bytes before the end (R228). Nothing is kept of a chunk (R229). It stops at the
first `FAILED`. -/
def compressNbFrom (a : Word) : (fuel : Nat) → (left pos total : Nat) → State → Out
  | 0, _, _, total, s => .next (s.loopResult total)
  | fuel + 1, left, pos, total, s =>
    if left > 0 then
      andThen
        (runNbLine (some (.addr (a + toWord pos))) (some (toWord (min nbMax left))) none none none s)
        fun t =>
          if t.nb.status.st = .failed then .next t
          else
            compressNbFrom a fuel (left - min nbMax left) (pos + min nbMax left) (total + t.nb.written.toNat) t
    else .next (s.loopResult total)

/-- `COMPRESS.NB in=addr len=len` (R228). -/
def execCompressNb (addr len : Word) (s : State) : Out :=
  compressNbFrom addr (len.toNat / nbMax + 2) len.toNat 0 0 s

end Sys2Proof.Machine
end

