-- ==== Sys2Proof/Machine/Dispatch.lean ====
section
/-! DEFINITION. One arm per constructor of Instr, each one call of a meaning. -/

namespace Sys2Proof.Machine

def exec (i : Instr) (s : State) : Host.Outcome State Fault Refusal :=
  match i with
  | .brFull ign => Sys2Proof.Machine.execBrFull ign s
  | .brPart ign => Sys2Proof.Machine.execBrPart ign s
  | .nbEnc ign => Sys2Proof.Machine.execNbEnc ign s
  | .fxFixlast ign => Sys2Proof.Machine.execFxFixlast ign s
  | .reservedBr op ign => Sys2Proof.Machine.execReservedBr op ign s
  | .reservedNb op ign => Sys2Proof.Machine.execReservedNb op ign s
  | .reservedFx op ign => Sys2Proof.Machine.execReservedFx op ign s
  | .regwr off value => Sys2Proof.Machine.execRegwr off value s
  | .regrd off => Sys2Proof.Machine.execRegrd off s
  | .compressBr addr len => Sys2Proof.Machine.execCompressBr addr len s
  | .compressNb addr len => Sys2Proof.Machine.execCompressNb addr len s
  | .brGroupMask g => Sys2Proof.Machine.execBrGroupMask g s
  | .brPairMask a b => Sys2Proof.Machine.execBrPairMask a b s
  | .brTailPairMask t => Sys2Proof.Machine.execBrTailPairMask t s
  | .brSectionMask u => Sys2Proof.Machine.execBrSectionMask u s
  | .brChunkMask m => Sys2Proof.Machine.execBrChunkMask m s
  | .brEscapeBlock raw => Sys2Proof.Machine.execBrEscapeBlock raw s
  | .brLiteral d => Sys2Proof.Machine.execBrLiteral d s
  | .nbHeader mark bodyLen => Sys2Proof.Machine.execNbHeader mark bodyLen s
  | .nbLenField4 v => Sys2Proof.Machine.execNbLenField4 v s
  | .nbLenField8 w => Sys2Proof.Machine.execNbLenField8 w s
  | .nbLenField16 w => Sys2Proof.Machine.execNbLenField16 w s
  | .nbRun runLen => Sys2Proof.Machine.execNbRun runLen s
  | .nbLitRun bytes => Sys2Proof.Machine.execNbLitRun bytes s

end Sys2Proof.Machine
end

