-- ==== Sys2Proof/Machine/PlatformReset.lean ====
section
/-! DEFINITION. The platform's reset of a machine that has run (R290 to R292): registers, the commands it abandons,
and what it leaves alone. -/

namespace Sys2Proof.Machine

/-- The output window of an abandoned BitRat command holds unspecified values (R292, U8). -/
def State.abandonBr (s : State) : State :=
  match s.br.job with
  | none => s
  | some j => s.scrambleOut j.outBase j.need

/-- The output window of an abandoned Nibbler command holds unspecified values (R292, U8). -/
def State.abandonNb (s : State) : State :=
  match s.nb.job with
  | none => s
  | some j => s.scrambleOut j.outBase j.need

/-- The byte of an abandoned `FX.FIXLAST` holds either its old or its new value (R292, U8). -/
def State.abandonFx (s : State) : State :=
  match s.fx.job with
  | none => s
  | some j =>
    { s with
      inMem :=
        if Config.freeBool s.freeCount then s.inMem.put j.addr [fixByte (s.readIn j.addr) j.bits] else s.inMem
      freeCount := s.freeCount + 1 }

/-- Every register at its reset value (R290), the session registers at unspecified ones, drawn once and held until a
command writes them (R38, U6, R224). -/
def State.resetBanks (s : State) : State :=
  { s with
    br := { BrBank.reset with
      icur := Config.freeWord s.freeCount
      ocur := Config.freeWord (s.freeCount + 1)
      matchByte := (Config.freeWord (s.freeCount + 2)).extractLsb' 0 8 }
    nb := { NbBank.reset with
      icur := Config.freeWord (s.freeCount + 3)
      ocur := Config.freeWord (s.freeCount + 4)
      slot := Config.freeWord (s.freeCount + 5) }
    fx := FxBank.reset
    freeCount := s.freeCount + 6 }

/-- Reset (R290 to R292). `IN` and `OUT` are not reset, nor are the parameters (R291). -/
def platformReset (s : State) : State := s.abandonBr.abandonNb.abandonFx.resetBanks

end Sys2Proof.Machine
end

