-- ==== Sys2Proof/Machine/Engines.lean ====
section
/-! DEFINITION. Who moves next (R20, R226, U14) and what the move is: an instruction the host gives or an engine has
reached, or something that is no instruction of the table. -/

namespace Sys2Proof.Machine

/-- The agents with something to do: the host with an input left, an engine with a command running (R20). -/
def readyAgents (s : State) : List Agent :=
  (if s.inputs = [] then [] else [.host]) ++ (if s.br.job.isSome then [.br] else [])
    ++ (if s.nb.job.isSome then [.nb] else []) ++ (if s.fx.job.isSome then [.fx] else [])

/-- The agent that moves: the one `turn` names if it is ready, else the first that is (log 4). -/
def mover (s : State) : Option Agent :=
  match readyAgents s with
  | [] => none
  | [a] => some a
  | a :: b :: rest => if s.turn ∈ a :: b :: rest then some s.turn else some a

/-- A move is made: who is offered the next one is free (U14, log 4). -/
def State.passTurn (s : State) : State :=
  { s with turn := Config.freeTurn s.freeCount, freeCount := s.freeCount + 1 }

/-- A move of the machine. -/
inductive Move where
  /-- nobody has anything to do -/
  | idle
  /-- an instruction, run in the state that has taken it from its list -/
  | run (i : Instr) (s : State)
  /-- what is no instruction of the table, with its outcome -/
  | other (o : Out)

/-- What the host does next: a bus cycle or pseudo-command is decoded and run; the rest is no instruction. -/
def hostMove (x : Input) (s : State) : Move :=
  match x with
  | .op op =>
    match decode s.params.nbRunBias (.host op) with
    | .ok i => .run i s
    | .error e => .other (.refused (.undecodable e))
  | .line l => .other (runLine l s)
  | .readIn a => .other (hostReadIn a s)
  | .writeIn a b => .other (hostWriteIn a b s)
  | .readOut a => .other (hostReadOut a s)
  | .writeOut a b => .other (hostWriteOut a b s)
  | .reset => .other (.next (platformReset s))

/-- What the BitRat engine does next: write the next item, or return the chunk mask (R137). -/
def brMove (j : BrJob) (s : State) : Move :=
  if j.tierFault then .other (.next (s.failFatalBr j .fTier))
  else
    match j.todo with
    | [] => .run (.brChunkMask j.mask) s
    | x :: rest => .run x.instr (s.withBrTodo j rest)

/-- What the Nibbler engine does next (R190): write the next segment, or the header. -/
def nbMove (j : NbJob) (s : State) : Move :=
  match j.todo with
  | [] => .run (.nbHeader j.mark (BitVec.ofNat 14 j.body.length)) s
  | x :: rest => .run x.instr (s.withNbTodo j rest)

/-- The next move of the machine. -/
def nextMove (s : State) : Move :=
  match mover s with
  | none => .idle
  | some .host =>
    match s.inputs with
    | [] => .idle
    | x :: rest => hostMove x { s.passTurn with inputs := rest }
  | some .br =>
    match s.br.job with
    | none => .idle
    | some j => brMove j s.passTurn
  | some .nb =>
    match s.nb.job with
    | none => .idle
    | some j => nbMove j s.passTurn
  | some .fx => .other (finishFx s.passTurn)

/-- A Nibbler command with one item to write and nothing else, for `withFetchWord` (log 5). -/
def probeNbJob (x : NbItem) : NbJob :=
  { inBase := 0, len := 0, outBase := 0, need := nbNeed 0, todo := [x], body := [], slot := none, mark := .literal }

end Sys2Proof.Machine
end

