-- ==== Sys2Proof/Machine/Step.lean ====
section
/-! DEFINITION. One step of BMC: one move of one agent (R20). After reset nothing happens until the host does
something (R290), so with nothing to do the state stays. -/

namespace Sys2Proof.Machine

/-- One move: the instruction it is, or what it does. -/
def step (s : State) : Host.Outcome State Fault Refusal :=
  match nextMove s with
  | .idle => .next s
  | .run i t => exec i t
  | .other o => o

/-- The instruction `w` where the next step fetches it (log 5, log 6): a length field as the item the Nibbler engine
writes next, with a command running; anything else as the host's next write to `BR_CMD`. -/
def State.withFetchWord (s : State) (nbits w : Nat) : State :=
  match decodeTableWord nbits w with
  | some (.nbLenField8 v) =>
    { s with nb := { s.nb with status := Status.busy, job := some (probeNbJob (.lenField8 v)) }, turn := .nb }
  | some (.nbLenField16 v) =>
    { s with nb := { s.nb with status := Status.busy, job := some (probeNbJob (.lenField16 v)) }, turn := .nb }
  | _ => { s with inputs := .op (.write 0x000#32 (BitVec.ofNat 32 w)) :: s.inputs, turn := .host }

end Sys2Proof.Machine
end

