-- ==== Sys2Proof/Machine/Reader.lean ====
section
/-! DEFINITION. The two reading procedures of the spec, R118 and R119: no command of BMC (R5), here because they show
that the streams lose nothing. A malformed stream reads as none, for the reasons R104 and R114 say they detect; what
those rules leave open is log 19, log 27 and log 28. -/

namespace Sys2Proof.Machine

/-! ## The BitRat stream (R118) -/

/-- What reading an item gives: the bytes of the chunk, `m`, and the stream left. -/
structure Read where
  out : List Byte
  m : Byte
  rest : List Byte
  deriving DecidableEq, Repr

/-- Element `i` of an 8-bit mask (R7). -/
def maskHas (mask : Byte) (i : Nat) : Bool := mask.getMsbD i

/-- A mask byte over `units` sub-units, if its presence bit is 1: malformed where it is zero or has a 1 for a sub-unit
that does not exist (R104); 0 where it is absent (R96). -/
def readMask (present : Bool) (units : Nat) (st : List Byte) : Option (Byte × List Byte) :=
  if present then
    match st with
    | [] => none
    | b :: rest => if b = 0x00#8 ∨ b &&& (0xFF#8 >>> units) ≠ 0x00#8 then none else some (b, rest)
  else some (0x00#8, st)

/-- `k` bytes from byte `i` of a group on: a byte whose bit is 1 is read, any other is `m`. -/
def readLits (mask : Byte) : (k i : Nat) → (m : Byte) → List Byte → Option Read
  | 0, _, m, st => some { out := [], m := m, rest := st }
  | k + 1, i, m, st =>
    if maskHas mask i then
      match st with
      | [] => none
      | b :: rest =>
        match readLits mask k (i + 1) (ext (lsb b)) rest with
        | none => none
        | some q => some { q with out := b :: q.out }
    else
      match readLits mask k (i + 1) m st with
      | none => none
      | some q => some { q with out := m :: q.out }

/-- A group of `k` bytes. -/
def readGroup (k : Nat) (present : Bool) (m : Byte) (st : List Byte) : Option Read :=
  match readMask present k st with
  | none => none
  | some (mask, rest) => readLits mask k 0 m rest

/-- `c` sub-units from `i` on, each told by its bit of the mask above whether it is present. -/
def readUnits (f : Bool → Byte → List Byte → Option Read) (mask : Byte) :
    (c i : Nat) → (m : Byte) → List Byte → Option Read
  | 0, _, m, st => some { out := [], m := m, rest := st }
  | c + 1, i, m, st =>
    match f (maskHas mask i) m st with
    | none => none
    | some r =>
      match readUnits f mask c (i + 1) r.m r.rest with
      | none => none
      | some q => some { q with out := r.out ++ q.out }

/-- `q` whole sub-units, then one shorter if `t` bytes are left. -/
def readUnitsTail (f : Bool → Byte → List Byte → Option Read) (g : Nat → Bool → Byte → List Byte → Option Read)
    (mask : Byte) (q t : Nat) (m : Byte) (st : List Byte) : Option Read :=
  match readUnits f mask q 0 m st with
  | none => none
  | some r =>
    if t = 0 then some r
    else
      match g t (maskHas mask q) r.m r.rest with
      | none => none
      | some u => some { u with out := r.out ++ u.out }

/-- `m` after raw bytes: each that differs from it sets it (R118). -/
def matchAfter (m : Byte) : List Byte → Byte
  | [] => m
  | b :: bs => matchAfter (if b = m then m else ext (lsb b)) bs

/-- A block of a full pair with the nibble `nib`: the escape form if the nibble is `0xF` and the next byte is `0x00`
(R105). DESIGN CHOICE, log 27: an escape form that was not needed is accepted, as R104 says of the spec's reader and
U15 does not. -/
def readBlock (nib : Nibble) (m : Byte) (st : List Byte) : Option Read :=
  if nib = 0xF#4 ∧ st.head? = some 0x00#8 then
    let raw := st.tail.take brBlockLen
    if raw.length = brBlockLen then
      some { out := raw, m := matchAfter m raw, rest := st.tail.drop brBlockLen }
    else none
  else readUnits (readGroup brGroupLen) (nib ++ 0#4) 4 0 m st

/-- A full pair. -/
def readPair (present : Bool) (m : Byte) (st : List Byte) : Option Read :=
  match readMask present 8 st with
  | none => none
  | some (mask, rest) =>
    match readBlock (mask.extractLsb' 4 4) m rest with
    | none => none
    | some r =>
      match readBlock (mask.extractLsb' 0 4) r.m r.rest with
      | none => none
      | some q => some { q with out := r.out ++ q.out }

/-- A tail pair of `t` bytes. -/
def readTailPair (t : Nat) (present : Bool) (m : Byte) (st : List Byte) : Option Read :=
  match readMask present ((t + 7) / 8) st with
  | none => none
  | some (mask, rest) => readUnitsTail (readGroup brGroupLen) readGroup mask (t / 8) (t % 8) m rest

/-- A section of `k` bytes. -/
def readSection (k : Nat) (present : Bool) (m : Byte) (st : List Byte) : Option Read :=
  match readMask present ((k + 63) / 64) st with
  | none => none
  | some (mask, rest) => readUnitsTail readPair readTailPair mask (k / 64) (k % 64) m rest

/-- A chunk of `n` bytes from its stream, given `prevBit` and the chunk mask (R118). The stream must be exhausted
exactly when the walk ends. DESIGN CHOICE, log 28: bits of the chunk mask for sections that do not exist are ignored. -/
def readBitRat (n : Nat) (prev : BitVec 1) (mask : Byte) (st : List Byte) : Option (List Byte) :=
  match readUnitsTail (readSection brSectionLen) readSection mask (n / 512) (n % 512) (ext prev) st with
  | none => none
  | some r => if r.rest = [] then some r.out else none

/-! ## The Nibbler stream (R119) -/

/-- Where the reader stands: the body left, and the low nibble of a byte whose high nibble was taken. -/
structure Nibbles where
  rest : List Byte
  slot : Option Nibble
  deriving DecidableEq, Repr

/-- Take a nibble (R119). -/
def takeNibble (r : Nibbles) : Option (Nibble × Nibbles) :=
  match r.slot with
  | some x => some (x, { r with slot := none })
  | none =>
    match r.rest with
    | [] => none
    | b :: bs => some (b.extractLsb' 4 4, { rest := bs, slot := some (b.extractLsb' 0 4) })

/-- Take `k` nibbles as one number, the first the most significant. -/
def takeNibbles : (k : Nat) → (acc : Nat) → Nibbles → Option (Nat × Nibbles)
  | 0, acc, r => some (acc, r)
  | k + 1, acc, r =>
    match takeNibble r with
    | none => none
    | some (x, r') => takeNibbles k (acc * 16 + x.toNat) r'

/-- Take a field (R115, R119); a first nibble `111x` is malformed (R114). -/
def takeField (r : Nibbles) : Option (Nat × Nibbles) :=
  match takeNibble r with
  | none => none
  | some (a, r1) =>
    if a.toNat < 8 then some (a.toNat, r1)
    else if a.toNat < 12 then
      match takeNibbles 1 (a.toNat - 8) r1 with
      | none => none
      | some (w, r2) => some (8 + w, r2)
    else if a.toNat < 14 then
      match takeNibbles 3 (a.toNat - 12) r1 with
      | none => none
      | some (w, r2) => some (8 + w, r2)
    else none

/-- Literal runs and runs to the end of the body (R119); a run below the minimum is malformed (R114). Every round
takes a byte, so the body's length is enough fuel. -/
def readSegments (bias : Nat) : (fuel : Nat) → Nibbles → Option (List Byte)
  | 0, r => if r.rest = [] then some [] else none
  | fuel + 1, r =>
    if r.rest = [] then some []
    else
      match takeField r with
      | none => none
      | some (v, r1) =>
        let lit := r1.rest.take (v + 1)
        let r2 : Nibbles := { r1 with rest := r1.rest.drop (v + 1) }
        if lit.length < v + 1 then none
        else if r2.rest = [] then some lit
        else
          match takeField r2 with
          | none => none
          | some (u, r3) =>
            if u + bias < nbRunMin then none
            else
              match readSegments bias fuel r3 with
              | none => none
              | some out => some (lit ++ List.replicate (u + bias) (lit.getLastD 0x00#8) ++ out)

/-- The leading run, if `MARK` announces one, then the segments (R119). -/
def readBody (bias : Nat) (mark : Mark) (body : List Byte) : Option (List Byte) :=
  let lead (v : Byte) : Option (List Byte) :=
    match takeField { rest := body, slot := none } with
    | none => none
    | some (u, r) =>
      if u + bias < nbRunMin then none
      else
        match readSegments bias body.length r with
        | none => none
        | some out => some (List.replicate (u + bias) v ++ out)
  match mark with
  | .zeroRun => lead 0x00#8
  | .oneRun => lead 0xFF#8
  | .literal => readSegments bias body.length { rest := body, slot := none }

/-- A chunk from its Nibbler stream (R119). DESIGN CHOICE, log 19: what it rejects beside the patterns R114 names. -/
def readNibbler (bias : Nat) : List Byte → Option (List Byte)
  | hi :: lo :: body =>
    let h : BitVec 16 := hi ++ lo
    match decodeMark (h.extractLsb' 14 2) with
    | none => none
    | some m =>
      if (h.extractLsb' 0 14).toNat ≠ body.length then none
      else if body = [] then some []
      else readBody bias m body
  | _ => none

end Sys2Proof.Machine
end

