-- ==== Sys2Proof/Safety.lean ====
section
/-! DEFINITION. What the claims call a good state: the invariant every move keeps, the absence of fatal errors (R260),
and the parts of the state a claim says are unchanged. -/

namespace Sys2Proof.Machine

/-! ## The invariant -/

/-- `ERR` is 0 unless `ST = FAILED`, and then it is not; `FATAL` says whether the error is of the fatal class (R24). -/
abbrev Status.Ok (x : Status) : Prop := (x.st = .failed ↔ x.err ≠ .ok) ∧ x.fatal = x.err.isFatal

/-- A running BitRat command has its windows inside the spaces (R60, R66). -/
abbrev BrJob.Ok (j : BrJob) : Prop := j.inBase + j.len ≤ spaceSize ∧ j.outBase + j.need ≤ spaceSize

/-- A running Nibbler command has its windows inside the spaces (R60, R67); a free slot is a byte of the body whose
low nibble is 0 (R33, R172). -/
abbrev NbJob.Ok (j : NbJob) : Prop :=
  j.inBase + j.len ≤ spaceSize ∧ j.outBase + j.need ≤ spaceSize ∧
    ∀ k ∈ j.slot, k < j.body.length ∧ (j.body.getD k 0x00#8).extractLsb' 0 4 = 0#4

/-- A running FIXLAST command has its byte inside the space and 1 to 8 meaningful bits (R256). -/
abbrev FxJob.Ok (j : FxJob) : Prop := j.addr < spaceSize ∧ 1 ≤ j.bits ∧ j.bits ≤ 8

/-- The canonical form of the two spaces; a byte of `OUT` is listed or drawn, not both. -/
abbrev State.MemOk (s : State) : Prop :=
  s.inMem.wf ∧ s.outMem.wf ∧ s.outDraws.wf ∧ ∀ d ∈ s.outDraws, ∀ c ∈ s.outMem, d.1 ≠ c.1

/-- A unit is `BUSY` exactly while it has a command in progress (R24, R226). -/
abbrev State.BusyOk (s : State) : Prop :=
  (s.br.status.st = .busy ↔ s.br.job.isSome) ∧ (s.nb.status.st = .busy ↔ s.nb.job.isSome) ∧
    (s.fx.status.st = .busy ↔ s.fx.job.isSome)

/-- The windows of the running commands are apart: the two output windows, and FIXLAST's byte from the input windows
(R75). -/
abbrev State.WindowsOk (s : State) : Prop :=
  (∀ j ∈ s.br.job, ∀ k ∈ s.nb.job, j.outWindow.meets k.outWindow = false) ∧
    (∀ f ∈ s.fx.job, ∀ j ∈ s.br.job, j.inWindow.meets f.window = false) ∧
    (∀ f ∈ s.fx.job, ∀ j ∈ s.nb.job, j.inWindow.meets f.window = false)

/-- The invariant of BMC: canonical memory, status registers as R24 says, `BUSY` exactly while a command runs, every
running command in range, and the windows apart. -/
structure State.Inv (s : State) : Prop where
  mem : s.MemOk
  brStatus : s.br.status.Ok
  nbStatus : s.nb.status.Ok
  fxStatus : s.fx.status.Ok
  busy : s.BusyOk
  brJob : ∀ j ∈ s.br.job, j.Ok
  nbJob : ∀ j ∈ s.nb.job, j.Ok
  fxJob : ∀ j ∈ s.fx.job, j.Ok
  windows : s.WindowsOk

/-! ## Room for a command (R73, R75) -/

/-- No running command's window is in the way of a BitRat command (R73, R75). -/
abbrev State.FreeForBr (s : State) (j : BrJob) : Prop :=
  s.outWindows.any (fun w => w.meets j.outWindow) = false ∧ s.fxWindows.any (fun w => w.meets j.inWindow) = false

/-- No running command's window is in the way of a Nibbler command (R73, R75). -/
abbrev State.FreeForNb (s : State) (j : NbJob) : Prop :=
  s.outWindows.any (fun w => w.meets j.outWindow) = false ∧ s.fxWindows.any (fun w => w.meets j.inWindow) = false

/-- No running encoder reads the byte of a FIXLAST command (R75). -/
abbrev State.FreeForFx (s : State) (j : FxJob) : Prop := s.inWindows.any (fun w => w.meets j.window) = false

/-! ## No fatal error (R260) -/

/-- A value `WriteLen` accepts stands in the item's length field (R173, R177). -/
abbrev ItemFits (bias : Nat) : NbItem → Prop
  | .lenField4 _ => True
  | .lenField8 _ => True
  | .lenField16 _ => True
  | .run n => bias ≤ n ∧ n ≤ nbLenMax + bias
  | .litRun bytes => 1 ≤ bytes.length ∧ bytes.length ≤ nbLenMax + 1

/-- No fatal error has happened and none is under way: no `FATAL` bit is set, no tail tier is too long, every segment
still to be written has a value its length field can hold (R258, R260). -/
structure State.NoFatal (s : State) : Prop where
  bias : s.params.nbRunBias ≤ nbRunMin
  br : s.br.status.fatal = false
  nb : s.nb.status.fatal = false
  fx : s.fx.status.fatal = false
  tier : ∀ j ∈ s.br.job, j.tierFault = false
  fits : ∀ j ∈ s.nb.job, ∀ x ∈ j.todo, ItemFits s.params.nbRunBias x

/-! ## A command stays in its window -/

/-- The parameters are ones the source supports, and what a running encoder has staged, with what it has still to
write, fits its output window (R66, R67, R143, R187). -/
structure State.Fits (s : State) : Prop where
  bias : s.params.nbRunBias ≤ nbRunMin
  slack : 3 ≤ s.params.brOutSlack
  br : ∀ j ∈ s.br.job, j.out.length + (brBytes j.todo).length ≤ j.need
  nb : ∀ j ∈ s.nb.job, ∀ w, emitItems s.params.nbRunBias j.todo j.writer = some w → 2 + w.body.length ≤ j.need

/-! ## Frames -/

/-- The model's own bookkeeping is unchanged: what is still to do, what the host has read, whose turn it is, the free
values drawn, the parameters. -/
abbrev State.SameHost (s t : State) : Prop :=
  t.params = s.params ∧ t.inputs = s.inputs ∧ t.replies = s.replies ∧ t.hostTotal = s.hostTotal ∧
    t.hostKept = s.hostKept ∧ t.turn = s.turn ∧ t.freeCount = s.freeCount

/-- The three units, the parameters and what the host's loops left are unchanged. -/
abbrev State.SameUnits (s t : State) : Prop :=
  t.br = s.br ∧ t.nb = s.nb ∧ t.fx = s.fx ∧ t.params = s.params ∧ t.hostTotal = s.hostTotal ∧ t.hostKept = s.hostKept

/-- Every byte of `IN` and of `OUT` reads as before. -/
abbrev State.SameMemory (s t : State) : Prop := (∀ a, t.readIn a = s.readIn a) ∧ ∀ a, t.readOut a = s.readOut a

/-- The operand registers of the BitRat bank are unchanged; no engine writes them (R25). -/
abbrev BrBank.SameOperands (b c : BrBank) : Prop :=
  c.buf = b.buf ∧ c.prev = b.prev ∧ c.inBase = b.inBase ∧ c.inLen = b.inLen ∧ c.inCap = b.inCap ∧
    c.outBase = b.outBase ∧ c.outCap = b.outCap

/-- The result registers of the BitRat bank are unchanged (R26). -/
abbrev BrBank.SameResults (b c : BrBank) : Prop :=
  c.mask = b.mask ∧ c.maskw = b.maskw ∧ c.written = b.written ∧ c.consumed = b.consumed ∧ c.last = b.last

/-- The operand registers of the Nibbler bank are unchanged; no engine writes them (R30). -/
abbrev NbBank.SameOperands (b c : NbBank) : Prop :=
  c.buf = b.buf ∧ c.inBase = b.inBase ∧ c.inLen = b.inLen ∧ c.inCap = b.inCap ∧ c.outBase = b.outBase ∧
    c.outCap = b.outCap

/-- The result registers of the Nibbler bank are unchanged (R31). -/
abbrev NbBank.SameResults (b c : NbBank) : Prop := c.written = b.written ∧ c.consumed = b.consumed

/-- The operand registers of the FIXLAST bank are unchanged. -/
abbrev FxBank.SameOperands (b c : FxBank) : Prop :=
  c.buf = b.buf ∧ c.addr = b.addr ∧ c.bits = b.bits ∧ c.cap = b.cap

/-! ## What a finished command leaves -/

/-- Nothing is running. -/
abbrev State.Quiet (s : State) : Prop := s.br.job = none ∧ s.nb.job = none ∧ s.fx.job = none

/-- A BitRat command over `n` bytes, started in `s`, has ended in `t` with the tree `w` and the mask width `width`:
result and session registers (R26, R27), the stream in the output window, every other byte as it was (R68), the
operand registers and the other units untouched (R25, R61). -/
structure BrEncoded (s t : State) (n : Nat) (w : Walk) (width : Nat) : Prop where
  status : t.br.status = { st := .done, err := .ok, fatal := false }
  idle : t.br.job = none
  mask : t.br.mask = w.mask
  maskw : t.br.maskw.toNat = width
  written : t.br.written.toNat = (brBytes w.items).length
  consumed : t.br.consumed.toNat = n
  last : t.br.last = lsb w.m
  icur : t.br.icur = s.br.inBase + t.br.consumed
  ocur : t.br.ocur = s.br.outBase + t.br.written
  matchByte : t.br.matchByte = ext t.br.last
  stream : t.readOutBytes s.br.outBase.toNat t.br.written.toNat = brBytes w.items
  outside : ∀ a, a < s.br.outBase.toNat ∨ s.br.outBase.toNat + brNeed s.params n ≤ a → t.readOut a = s.readOut a
  input : ∀ a, t.readIn a = s.readIn a
  operands : s.br.SameOperands t.br
  nb : t.nb = s.nb
  fx : t.fx = s.fx
  params : t.params = s.params
  replies : t.replies = s.replies
  hostTotal : t.hostTotal = s.hostTotal
  hostKept : t.hostKept = s.hostKept

/-- A Nibbler command over `n` bytes, started in `s`, has ended in `t` with the stream `st` and the slot `slot` (an
index into the stream) left free: as above (R31, R32, R68). -/
structure NbEncoded (s t : State) (n : Nat) (st : List Byte) (slot : Option Nat) : Prop where
  status : t.nb.status = { st := .done, err := .ok, fatal := false }
  idle : t.nb.job = none
  written : t.nb.written.toNat = st.length
  consumed : t.nb.consumed.toNat = n
  icur : t.nb.icur = s.nb.inBase + t.nb.consumed
  ocur : t.nb.ocur = s.nb.outBase + t.nb.written
  slotFree : ∀ k, slot = some k → t.nb.slot.toNat = s.nb.outBase.toNat + 2 + k
  slotNone : slot = none → t.nb.slot = 0#32
  stream : t.readOutBytes s.nb.outBase.toNat t.nb.written.toNat = st
  outside : ∀ a, a < s.nb.outBase.toNat ∨ s.nb.outBase.toNat + (n + 4) ≤ a → t.readOut a = s.readOut a
  input : ∀ a, t.readIn a = s.readIn a
  operands : s.nb.SameOperands t.nb
  br : t.br = s.br
  fx : t.fx = s.fx
  params : t.params = s.params
  replies : t.replies = s.replies
  hostTotal : t.hostTotal = s.hostTotal
  hostKept : t.hostKept = s.hostKept

/-! ## Command lines (R116) -/

/-- A register of `w` bits after a line: the bits it has of the operand, or its value where the operand is omitted. -/
def lineValue {w : Nat} (old : BitVec w) : Option Word → BitVec w
  | none => old
  | some v => v.setWidth w

/-- An address register after a line: `absent` writes none. -/
def lineBase (old : Word) : Option BufArg → Word
  | none => old
  | some .absent => old
  | some (.addr a) => a

/-- The `PRESENT` bit of a buffer after a line, before it `old`. -/
def linePresent (old : Bool) : Option BufArg → Bool
  | none => old
  | some .absent => false
  | some (.addr _) => true

/-- `BUF` after a line: `PRESENT` of the input buffer in bit 0, of the output buffer in bit 1. -/
def lineBuf (old : BitVec 2) (inp out : Option BufArg) : BitVec 2 :=
  BitVec.ofBool (linePresent (old.getLsbD 1) out) ++ BitVec.ofBool (linePresent (old.getLsbD 0) inp)

/-- The operand registers of BR after a line. -/
def BrBank.afterLine (b : BrBank) (prev : Option (BitVec 1)) (inp : Option BufArg) (len incap : Option Word)
    (out : Option BufArg) (outcap : Option Word) : BrBank :=
  { b with
    buf := lineBuf b.buf inp out
    prev := prev.getD b.prev
    inBase := lineBase b.inBase inp
    inLen := lineValue b.inLen len
    inCap := lineValue b.inCap incap
    outBase := lineBase b.outBase out
    outCap := lineValue b.outCap outcap }

/-- The operand registers of NB after a line. -/
def NbBank.afterLine (b : NbBank) (inp : Option BufArg) (len incap : Option Word) (out : Option BufArg)
    (outcap : Option Word) : NbBank :=
  { b with
    buf := lineBuf b.buf inp out
    inBase := lineBase b.inBase inp
    inLen := lineValue b.inLen len
    inCap := lineValue b.inCap incap
    outBase := lineBase b.outBase out
    outCap := lineValue b.outCap outcap }

/-- The operand registers of FX after a line; an address sets `PRESENT`. -/
def FxBank.afterLine (b : FxBank) (addr bits cap : Option Word) : FxBank :=
  { b with
    buf := if addr.isSome then 1#1 else b.buf
    addr := lineValue b.addr addr
    bits := lineValue b.bits bits
    cap := lineValue b.cap cap }

/-! ## The order of the engines' moves (R75) -/

/-- The unit of an agent has a command running. -/
def State.engineRuns (s : State) : Agent → Bool
  | .host => false
  | .br => s.br.job.isSome
  | .nb => s.nb.job.isSome
  | .fx => s.fx.job.isSome

/-- The engines move in the order given, each by a step of the machine; one whose command has ended is passed over,
and so is the host. -/
def runEngines : List Agent → State → Out
  | [], s => .next s
  | a :: order, s =>
    if s.engineRuns a then andThen (step { s with turn := a }) (runEngines order) else runEngines order s

/-- `t` and `u`, both reached from `s`, agree in everything the host can learn: the registers of the three units, `IN`,
every byte of `OUT` but those that a command which has ended leaves unspecified (R68), and the host's side. -/
abbrev State.AgreeAfter (s t u : State) : Prop :=
  t.br = u.br ∧ t.nb = u.nb ∧ t.fx = u.fx ∧ (∀ a, t.readIn a = u.readIn a) ∧
    (∀ a,
      (∀ j ∈ s.br.job, t.br.job = none → a < j.outBase + t.br.written.toNat ∨ j.outBase + j.need ≤ a) →
      (∀ k ∈ s.nb.job, t.nb.job = none → a < k.outBase + t.nb.written.toNat ∨ k.outBase + k.need ≤ a) →
      t.readOut a = u.readOut a) ∧
    t.params = u.params ∧ t.inputs = u.inputs ∧ t.replies = u.replies ∧ t.hostTotal = u.hostTotal ∧
    t.hostKept = u.hostKept

/-! ## The chunking loops (R228, R229) -/

/-- The result of `COMPRESS.BR` over the bytes `d`: the stream of every chunk, 3 bytes more for each, `prevBit`
chained through the last bit of the chunk before. `d.length / 4096 + 1` is enough fuel. -/
def brLoopTotal : (fuel : Nat) → (prev : BitVec 1) → (d : List Byte) → Nat
  | 0, _, _ => 0
  | fuel + 1, prev, d =>
    if 4096 ≤ d.length then
      let w := encodeFull prev (d.take 4096)
      (brBytes w.items).length + 3 + brLoopTotal fuel (lsb w.m) (d.drop 4096)
    else if d = [] then 0
    else (brBytes (encodePart prev d).items).length + 3

/-- What `COMPRESS.BR` over the bytes `d` keeps, a chunk at a time: `prevBit`, the chunk mask, the stream's length and
the chunk's (R229). -/
def brLoopKept : (fuel : Nat) → (prev : BitVec 1) → (d : List Byte) → List KeptChunk
  | 0, _, _ => []
  | fuel + 1, prev, d =>
    if 4096 ≤ d.length then
      let w := encodeFull prev (d.take 4096)
      { prev := prev, mask := w.mask, streamLen := BitVec.ofNat 32 (brBytes w.items).length, chunkLen := 4096#32 }
        :: brLoopKept fuel (lsb w.m) (d.drop 4096)
    else if d = [] then []
    else
      let w := encodePart prev d
      [{ prev := prev, mask := w.mask, streamLen := BitVec.ofNat 32 (brBytes w.items).length
         chunkLen := BitVec.ofNat 32 d.length }]

/-- The streams of the chunks of `d`, one after the other. -/
def brLoopStream : (fuel : Nat) → (prev : BitVec 1) → (d : List Byte) → List Byte
  | 0, _, _ => []
  | fuel + 1, prev, d =>
    if 4096 ≤ d.length then
      let w := encodeFull prev (d.take 4096)
      brBytes w.items ++ brLoopStream fuel (lsb w.m) (d.drop 4096)
    else if d = [] then []
    else brBytes (encodePart prev d).items

/-- The reader of R118 over streams that follow one another, given what the host kept of each (R229). -/
def readKept : List KeptChunk → List Byte → Option (List Byte)
  | [], st => if st = [] then some [] else none
  | c :: cs, st =>
    match readBitRat c.chunkLen.toNat c.prev c.mask (st.take c.streamLen.toNat) with
    | none => none
    | some d =>
      match readKept cs (st.drop c.streamLen.toNat) with
      | none => none
      | some ds => some (d ++ ds)

/-- The result of `COMPRESS.NB` over the bytes `d`: the stream of every chunk of at most 8192 bytes.
`d.length / 8192 + 1` is enough fuel. -/
def nbLoopTotal (p : Params) : (fuel : Nat) → (d : List Byte) → Nat
  | 0, _ => 0
  | fuel + 1, d =>
    if d = [] then 0
    else
      (match nbEncode p (d.take 8192) with
        | some (st, _) => st.length
        | none => 0) + nbLoopTotal p fuel (d.drop 8192)

/-! ## Sizes and literals of a BitRat stream -/

/-- `W(n)`, the largest stream of a chunk of `n` bytes (R143). -/
def brWorst (n : Nat) : Nat :=
  537 * (n / 512) +
    if n % 512 = 0 then 0
    else
      1 + 67 * (n % 512 / 64) +
        if n % 512 % 64 = 0 then 0 else 1 + n % 512 % 64 + (n % 512 % 64 + 7) / 8

/-- The encoder of a chunk: `BR.FULL` for 4096 bytes, `BR.PART` for fewer (R137, R141). -/
def encodeChunk (prev : BitVec 1) (d : List Byte) : Walk :=
  if d.length = 4096 then encodeFull prev d else encodePart prev d

/-- Byte `i` is a literal: it differs from what the byte before it, or `m`, leads to expect (R138 (b)). -/
def isLiteralAt (d : List Byte) (m : Byte) (i : Nat) : Bool :=
  d.getD i 0x00#8 != if i = 0 then m else ext (lsb (d.getD (i - 1) 0x00#8))

/-! ## Segments (R189) -/

/-- The input bytes a segment stands for. -/
def segmentLength : NbItem → Nat
  | .run n => n
  | .litRun bytes => bytes.length
  | .lenField4 _ => 0
  | .lenField8 _ => 0
  | .lenField16 _ => 0

/-- A segment is a run. -/
def isRun : NbItem → Bool
  | .run _ => true
  | .litRun _ => false
  | .lenField4 _ => false
  | .lenField8 _ => false
  | .lenField16 _ => false

/-- Runs and literal runs alternate, and the last segment is a literal run of at least `k` bytes (R189 (a), (b)). -/
def alternate (k : Nat) : List NbItem → Bool
  | [] => false
  | [.litRun bytes] => decide (k ≤ bytes.length)
  | .run _ :: .litRun bytes :: rest => alternate k (.litRun bytes :: rest)
  | .litRun _ :: .run n :: rest => alternate k (.run n :: rest)
  | _ => false

/-- The value a leading run has by `MARK` (R107). -/
def markValue : Mark → Byte
  | .zeroRun => 0x00#8
  | .oneRun => 0xFF#8
  | .literal => 0x00#8

/-- The bytes the segments stand for: a run repeats the byte before it, the first one the value `last` (R112, R189
(c)). -/
def expandSegments (last : Byte) : List NbItem → List Byte
  | [] => []
  | .run n :: rest => List.replicate n last ++ expandSegments last rest
  | .litRun bytes :: rest => bytes ++ expandSegments (bytes.getLastD last) rest
  | .lenField4 _ :: rest => expandSegments last rest
  | .lenField8 _ :: rest => expandSegments last rest
  | .lenField16 _ :: rest => expandSegments last rest

/-! ## The tables of registers -/

/-- A session register (R27, R32): its value is unspecified after reset (R38). -/
def Reg.isSession : Reg → Bool
  | .brIcur | .brOcur | .brMatch | .nbIcur | .nbOcur | .nbSlot => true
  | _ => false

end Sys2Proof.Machine
end

