-- ==== Sys2Proof/Certificates/Slice0/Obligations.lean ====
section
/-! DEFINITION. The statements for the provers, family by family: encodings, the register space and the starts of
commands, the items of the two streams, the ends of commands, the pure functions of the encoders, whole commands,
and the invariants of the machine. -/

open Sys2Proof Sys2Proof.Machine

/-! ## Encodings -/

/-- R91, R92, R97 to R102, R106, R109, R223: a few words, written out bit by bit, decode to what they stand for. -/
def Obligations.SampleWordsDecode : Prop :=
  decode 0 (.host (.write 0x000#32 0b00000000000000000000000000000001#32)) = .ok (.brFull 0#29) ∧
  decode 0 (.host (.write 0x000#32 0b00000000000000000000000000001010#32)) = .ok (.brPart 1#29) ∧
  decode 0 (.host (.write 0x100#32 0b00000000000000000000000000000101#32)) = .ok (.reservedNb 5#3 0#29) ∧
  decode 0 (.host (.write 0x200#32 0b00000000000000000000000000000001#32)) = .ok (.fxFixlast 0#29) ∧
  decode 0 (.host (.write 0x014#32 3#32)) = .ok (.regwr 0x014#32 3#32) ∧
  decode 0 (.brByte .pairMask 0b11110001#8) = .ok (.brPairMask 0b1111#4 0b0001#4) ∧
  decode 0 (.nbHead [0b01000000#8, 0b00000100#8]) = .ok (.nbHeader .oneRun 4#14) ∧
  decode 0 (.nbField [0b0111#4]) = .ok (.nbLenField4 7#3) ∧
  decode 0 (.nbField [0b1011#4, 0b1111#4]) = .ok (.nbLenField8 63#6) ∧
  decode 0 (.nbField [0b1100#4, 0b0001#4, 0b0010#4, 0b0100#4]) = .ok (.nbLenField16 292#13)

/-- R91 to R115: decoding the encoding of a well-formed instruction gives it back, with every operand, for either
value of `NB_RUN_BIAS`. -/
def Obligations.DecodeEncodeAgree : Prop :=
  ∀ (bias : Nat) (i : Instr), bias ≤ nbRunMin → i.wellFormed = true → decode bias (encode bias i) = .ok i

/-- R90 to R106, R109, R115, R223, R224: what decodes has one encoding, the one it was read from, and is well formed.
Left out are a run's and a literal run's length field, of which a reader accepts longer forms (R114). -/
def Obligations.EncodeDecodeAgree : Prop :=
  ∀ (bias : Nat) (w : Wire) (i : Instr), decode bias w = .ok i → (∀ ns, w ≠ .nbRunField ns) →
    (∀ ns bytes, w ≠ .nbLiterals ns bytes) → encode bias i = w ∧ i.wellFormed = true

/-- R109, R115, R173: the writer's nibbles for a value are the encoder's; they read back as the value, and their
number is the one the first announces. -/
def Obligations.FieldRoundTrip : Prop :=
  ∀ v : Nat, v ≤ nbLenMax →
    lenNibbles v = fieldNibbles v ∧ (∃ f, decodeField (fieldNibbles v) = .ok f ∧ fieldValue f = v) ∧
      (fieldNibbles v).length = fieldNibbleCount ((fieldNibbles v).headD 0#4) ∧
      (fieldNibbles v).length = if v ≤ 7 then 1 else if v ≤ 71 then 2 else 4

/-! ## Reset, and the steps -/

/-- R38: every register but the session registers is 0 after reset, at power-on and whenever the platform resets,
and a command started before the host has programmed its operands is rejected. The session registers are
unspecified. -/
def Obligations.ResetRegisters : Prop :=
  (∀ r : Reg, r.isSession = false → State.reset.reg r = 0#32) ∧
  (∀ (s : State) (r : Reg), r.isSession = false → (platformReset s).reg r = 0#32) ∧
  ∀ (s t : State) (ign : BitVec 29), t = State.reset ∨ t = platformReset s →
    exec (.brFull ign) t =
      .next { t with br := { t.br with status := { st := .failed, err := .inAbsent, fatal := false } } } ∧
    exec (.brPart ign) t =
      .next { t with br := { t.br with status := { st := .failed, err := .inAbsent, fatal := false } } } ∧
    exec (.nbEnc ign) t =
      .next { t with nb := { t.nb with status := { st := .failed, err := .inAbsent, fatal := false } } } ∧
    exec (.fxFixlast ign) t =
      .next { t with fx := { t.fx with status := { st := .failed, err := .inAbsent, fatal := false } } }

/-- The state after power-on meets the three invariants (R24, R38, R60, R260); the parameters stand at the defaults of
R6. -/
def Obligations.ResetMeetsInvariants : Prop := State.reset.Inv ∧ State.reset.NoFatal ∧ State.reset.Fits

/-- R290: with no command running and nothing for the host to do, BMC does nothing. That a step then keeps the whole
state is the model's form of it (log 21). -/
def Obligations.IdleMachineStays : Prop :=
  ∀ s : State, s.Quiet → s.inputs = [] → step s = .next s

/-- R20, R223, R224: where the host moves, a step is exec of the instruction its operation decodes to, in the state
that has taken the operation from the list; with no command running the host does move. The list and the turn are
the model's (log 4, log 5). -/
def Obligations.StepRunsHostInstruction : Prop :=
  ∀ (s : State) (op : HostOp) (rest : List Input) (i : Instr),
    s.inputs = .op op :: rest → decode s.params.nbRunBias (.host op) = .ok i →
      (mover s = some .host → step s = exec i { s.passTurn with inputs := rest }) ∧
      (s.Quiet → mover s = some .host)

/-- R137, R141, R190, R226: where an engine moves, a step is exec of the next item of its stream, or of the item that
ends the command; FIXLAST has one move. An engine that is alone does move. The order of moves is the model's
(log 4, log 7). -/
def Obligations.StepRunsEngineItem : Prop :=
  ∀ s : State,
    (∀ j x rest, mover s = some .br → s.br.job = some j → j.tierFault = false → j.todo = x :: rest →
      step s = exec x.instr (s.passTurn.withBrTodo j rest)) ∧
    (∀ j, mover s = some .br → s.br.job = some j → j.tierFault = false → j.todo = [] →
      step s = exec (.brChunkMask j.mask) s.passTurn) ∧
    (∀ j x rest, mover s = some .nb → s.nb.job = some j → j.todo = x :: rest →
      step s = exec x.instr (s.passTurn.withNbTodo j rest)) ∧
    (∀ j, mover s = some .nb → s.nb.job = some j → j.todo = [] →
      step s = exec (.nbHeader j.mark (BitVec.ofNat 14 j.body.length)) s.passTurn) ∧
    (mover s = some .fx → step s = finishFx s.passTurn) ∧
    (s.inputs = [] → s.br.job.isSome → s.nb.job = none → s.fx.job = none → mover s = some .br) ∧
    (s.inputs = [] → s.br.job = none → s.nb.job.isSome → s.fx.job = none → mover s = some .nb) ∧
    (s.inputs = [] → s.br.job = none → s.nb.job = none → s.fx.job.isSome → mover s = some .fx)

/-! ## The register space -/

/-- R223 and R295: what a bus write does. A `CMD` register: the command of its word. A unit that is `BUSY`: refused.
An `RW` register: it holds the bits it has of the value, every other register, the running commands and memory are
unchanged, and it reads back so. Anything else: nothing. -/
def Obligations.RegisterWrite : Prop :=
  ∀ (s : State) (v : Word),
    (exec (.regwr 0x000#32 v) s = exec (decodeBrCmd v) s ∧ exec (.regwr 0x100#32 v) s = exec (decodeNbCmd v) s ∧
      exec (.regwr 0x200#32 v) s = exec (decodeFxCmd v) s) ∧
    (∀ off, isRegOffset off = true → isCmdOffset off = false → s.busy (bankOf off) = true →
      exec (.regwr off v) s = .refused (.busyAccess (bankOf off))) ∧
    (∀ r : Reg, r.writable = true → s.busy (bankOf r.offset) = false →
      ∃ t, exec (.regwr r.offset v) s = .next t ∧ t.reg r = v &&& r.bits ∧ (∀ q, q ≠ r → t.reg q = s.reg q) ∧
        t.br.job = s.br.job ∧ t.nb.job = s.nb.job ∧ t.fx.job = s.fx.job ∧ s.SameMemory t ∧ s.SameHost t ∧
        exec (.regrd r.offset) t = .next { t with replies := t.replies ++ [v &&& r.bits] }) ∧
    (∀ off, isRegOffset off = true → isCmdOffset off = false → s.busy (bankOf off) = false →
      (∀ r : Reg, r.writable = true → r.offset ≠ off) → exec (.regwr off v) s = .next s)

/-- R224: what a bus read gives, with no other effect. A `STATUS` register always; 0 for a `CMD` register and for an
offset that names none; any other register unless its unit is `BUSY`. -/
def Obligations.RegisterRead : Prop :=
  ∀ s : State,
    (∀ r : Reg, r.isStatus = true → exec (.regrd r.offset) s = .next { s with replies := s.replies ++ [s.reg r] }) ∧
    (∀ off, isRegOffset off = true → (∀ r : Reg, r.offset ≠ off) →
      exec (.regrd off) s = .next { s with replies := s.replies ++ [0#32] }) ∧
    (∀ r : Reg, r.isStatus = false → s.busy (bankOf r.offset) = true →
      exec (.regrd r.offset) s = .refused (.busyAccess (bankOf r.offset))) ∧
    (∀ r : Reg, r.isStatus = false → s.busy (bankOf r.offset) = false →
      exec (.regrd r.offset) s = .next { s with replies := s.replies ++ [s.reg r] })

/-- R39: while a unit is `BUSY`, its `STATUS` reads, and a write to its `CMD`, a write to an operand register and a
read of a result or session register are refused. -/
def Obligations.BusyUnitRefuses : Prop :=
  ∀ (s : State) (v : Word) (op : BitVec 3) (ign : BitVec 29),
    (∀ r : Reg, r.isStatus = true → exec (.regrd r.offset) s = .next { s with replies := s.replies ++ [s.reg r] }) ∧
    (∀ r : Reg, s.busy (bankOf r.offset) = true → r.writable = true →
      exec (.regwr r.offset v) s = .refused (.busyAccess (bankOf r.offset))) ∧
    (∀ r : Reg, s.busy (bankOf r.offset) = true → r.writable = false → r.isStatus = false →
      exec (.regrd r.offset) s = .refused (.busyAccess (bankOf r.offset))) ∧
    (s.br.status.st = .busy →
      exec (.regwr 0x000#32 v) s = .refused (.busyAccess .br) ∧ exec (.brFull ign) s = .refused (.busyAccess .br) ∧
      exec (.brPart ign) s = .refused (.busyAccess .br) ∧
      exec (.reservedBr op ign) s = .refused (.busyAccess .br)) ∧
    (s.nb.status.st = .busy →
      exec (.regwr 0x100#32 v) s = .refused (.busyAccess .nb) ∧ exec (.nbEnc ign) s = .refused (.busyAccess .nb) ∧
      exec (.reservedNb op ign) s = .refused (.busyAccess .nb)) ∧
    (s.fx.status.st = .busy →
      exec (.regwr 0x200#32 v) s = .refused (.busyAccess .fx) ∧
      exec (.fxFixlast ign) s = .refused (.busyAccess .fx) ∧
      exec (.reservedFx op ign) s = .refused (.busyAccess .fx))

/-- U4 (R73, R75) and U12 (R64, R223): a command whose windows meet those of a running one, and an offset that is
none, are refused. That a conflict is found at the start, after the preconditions, is the model's choice
(log 11). -/
def Obligations.UndefinedUseRefused : Prop :=
  ∀ (s : State) (ign : BitVec 29) (off v : Word),
    (s.br.status.st ≠ .busy → brFullError s.params (brArgs s.br) = none → ¬ s.FreeForBr (brFullJob s) →
      exec (.brFull ign) s = .refused .windowConflict) ∧
    (s.br.status.st ≠ .busy → brPartError s.params (brArgs s.br) = none → ¬ s.FreeForBr (brPartJob s) →
      exec (.brPart ign) s = .refused .windowConflict) ∧
    (s.nb.status.st ≠ .busy → nbEncError (nbArgs s.nb) = none → ¬ s.FreeForNb (nbEncJob s) →
      exec (.nbEnc ign) s = .refused .windowConflict) ∧
    (s.fx.status.st ≠ .busy → fxError (fxArgs s.fx) = none → ¬ s.FreeForFx (fxJob s) →
      exec (.fxFixlast ign) s = .refused .windowConflict) ∧
    (off.toNat % 4 ≠ 0 ∨ 0x300 ≤ off.toNat →
      exec (.regwr off v) s = .refused (.badOffset off) ∧ exec (.regrd off) s = .refused (.badOffset off))

/-- R24 and R251: `ST`, `ERR` and `FATAL` stand in bits 1:0, 7:4 and 8 of `STATUS`, the rest read 0; the values of
spec/95_test_vectors.md section 5. -/
def Obligations.StatusLayout : Prop :=
  (∀ x : Status, x.word.extractLsb' 0 2 = x.st.code ∧ x.word.extractLsb' 4 4 = x.err.code ∧
    x.word.getLsbD 8 = x.fatal ∧ x.word &&& 0x1F3#32 = x.word) ∧
  Status.idle.word = 0x000#32 ∧ Status.busy.word = 0x001#32 ∧ Status.done.word = 0x002#32 ∧
  (Status.failed .inAbsent).word = 0x013#32 ∧ (Status.failed .lenRange).word = 0x023#32 ∧
  (Status.failed .inBounds).word = 0x033#32 ∧ (Status.failed .outAbsent).word = 0x043#32 ∧
  (Status.failed .outSpace).word = 0x053#32 ∧ (Status.failed .badCmd).word = 0x063#32 ∧
  (Status.failed .bitsRange).word = 0x073#32 ∧ (Status.failed .fLenRange).word = 0x183#32 ∧
  (Status.failed .fTier).word = 0x193#32

/-! ## Command words -/

/-- R90: of a command word only `OP`, bits 2:0, has an effect. -/
def Obligations.CommandWordIgnoredBits : Prop :=
  ∀ (s : State) (off v v' : Word) (ign ign' : BitVec 29),
    (isCmdOffset off = true → v.extractLsb' 0 3 = v'.extractLsb' 0 3 → exec (.regwr off v) s = exec (.regwr off v') s) ∧
    exec (.brFull ign) s = exec (.brFull ign') s ∧ exec (.brPart ign) s = exec (.brPart ign') s ∧
    exec (.nbEnc ign) s = exec (.nbEnc ign') s ∧ exec (.fxFixlast ign) s = exec (.fxFixlast ign') s

/-- R267: a reserved code, written to a unit that is not `BUSY`, gives `FAILED` with `E_BAD_CMD` and changes nothing
else. -/
def Obligations.ReservedCodesFail : Prop :=
  ∀ (s : State) (op : BitVec 3) (ign : BitVec 29),
    (s.br.status.st ≠ .busy → op ≠ 1#3 → op ≠ 2#3 →
      exec (.reservedBr op ign) s =
        .next { s with br := { s.br with status := { st := .failed, err := .badCmd, fatal := false } } } ∧
      exec (.regwr 0x000#32 (ign ++ op)) s = exec (.reservedBr op ign) s) ∧
    (s.nb.status.st ≠ .busy → op ≠ 1#3 →
      exec (.reservedNb op ign) s =
        .next { s with nb := { s.nb with status := { st := .failed, err := .badCmd, fatal := false } } } ∧
      exec (.regwr 0x100#32 (ign ++ op)) s = exec (.reservedNb op ign) s) ∧
    (s.fx.status.st ≠ .busy → op ≠ 1#3 →
      exec (.reservedFx op ign) s =
        .next { s with fx := { s.fx with status := { st := .failed, err := .badCmd, fatal := false } } } ∧
      exec (.regwr 0x200#32 (ign ++ op)) s = exec (.reservedFx op ign) s)

/-- R253, with the effect of R252: the first condition of the table that holds gives the code, and nothing but
`STATUS` changes. -/
def Obligations.BrFullRejected : Prop :=
  ∀ (s : State) (ign : BitVec 29) (inBad outBad : Prop) (e : ErrCode),
    s.br.status.st ≠ .busy →
    (inBad ↔ s.br.inBase.toInt < 0 ∨ s.br.inBase.toInt + 4096 > s.br.inCap.toNat) →
    (outBad ↔ s.br.outBase.toInt < 0 ∨ s.br.outBase.toInt + (4096 + 512 + s.params.brOutSlack) > s.br.outCap.toNat) →
    (s.br.buf.getLsbD 0 = false ∧ e = .inAbsent) ∨
    (s.br.buf.getLsbD 0 = true ∧ inBad ∧ e = .inBounds) ∨
    (s.br.buf.getLsbD 0 = true ∧ ¬ inBad ∧ s.br.buf.getLsbD 1 = false ∧ e = .outAbsent) ∨
    (s.br.buf.getLsbD 0 = true ∧ ¬ inBad ∧ s.br.buf.getLsbD 1 = true ∧ outBad ∧ e = .outSpace) →
    exec (.brFull ign) s =
      .next { s with br := { s.br with status := { st := .failed, err := e, fatal := false } } }

/-- R254, with the effect of R252. -/
def Obligations.BrPartRejected : Prop :=
  ∀ (s : State) (ign : BitVec 29) (lenBad inBad outBad : Prop) (e : ErrCode),
    s.br.status.st ≠ .busy →
    (lenBad ↔ s.br.inLen.toInt < 0 ∨ s.br.inLen.toInt ≥ 4096) →
    (inBad ↔ s.br.inBase.toInt < 0 ∨ s.br.inBase.toInt + s.br.inLen.toInt > s.br.inCap.toNat) →
    (outBad ↔ s.br.outBase.toInt < 0 ∨
      s.br.outBase.toInt + (s.br.inLen.toInt + s.br.inLen.toInt / 8 + s.params.brOutSlack) > s.br.outCap.toNat) →
    (s.br.buf.getLsbD 0 = false ∧ e = .inAbsent) ∨
    (s.br.buf.getLsbD 0 = true ∧ lenBad ∧ e = .lenRange) ∨
    (s.br.buf.getLsbD 0 = true ∧ ¬ lenBad ∧ inBad ∧ e = .inBounds) ∨
    (s.br.buf.getLsbD 0 = true ∧ ¬ lenBad ∧ ¬ inBad ∧ s.br.buf.getLsbD 1 = false ∧ e = .outAbsent) ∨
    (s.br.buf.getLsbD 0 = true ∧ ¬ lenBad ∧ ¬ inBad ∧ s.br.buf.getLsbD 1 = true ∧ outBad ∧ e = .outSpace) →
    exec (.brPart ign) s =
      .next { s with br := { s.br with status := { st := .failed, err := e, fatal := false } } }

/-- R255, with the effect of R252. -/
def Obligations.NbEncRejected : Prop :=
  ∀ (s : State) (ign : BitVec 29) (lenBad inBad outBad : Prop) (e : ErrCode),
    s.nb.status.st ≠ .busy →
    (lenBad ↔ s.nb.inLen.toInt < 0 ∨ s.nb.inLen.toInt > 8192) →
    (inBad ↔ s.nb.inBase.toInt < 0 ∨ s.nb.inBase.toInt + s.nb.inLen.toInt > s.nb.inCap.toNat) →
    (outBad ↔ s.nb.outBase.toInt < 0 ∨ s.nb.outBase.toInt + s.nb.inLen.toInt + 4 > s.nb.outCap.toNat) →
    (s.nb.buf.getLsbD 0 = false ∧ e = .inAbsent) ∨
    (s.nb.buf.getLsbD 0 = true ∧ lenBad ∧ e = .lenRange) ∨
    (s.nb.buf.getLsbD 0 = true ∧ ¬ lenBad ∧ inBad ∧ e = .inBounds) ∨
    (s.nb.buf.getLsbD 0 = true ∧ ¬ lenBad ∧ ¬ inBad ∧ s.nb.buf.getLsbD 1 = false ∧ e = .outAbsent) ∨
    (s.nb.buf.getLsbD 0 = true ∧ ¬ lenBad ∧ ¬ inBad ∧ s.nb.buf.getLsbD 1 = true ∧ outBad ∧ e = .outSpace) →
    exec (.nbEnc ign) s =
      .next { s with nb := { s.nb with status := { st := .failed, err := e, fatal := false } } }

/-- R256, with the effect of R252. -/
def Obligations.FxFixlastRejected : Prop :=
  ∀ (s : State) (ign : BitVec 29) (bitsBad : Prop) (e : ErrCode),
    s.fx.status.st ≠ .busy →
    (bitsBad ↔ s.fx.bits.toInt < 1 ∨ s.fx.bits.toInt > 8) →
    (s.fx.buf = 0#1 ∧ e = .inAbsent) ∨
    (s.fx.buf = 1#1 ∧ bitsBad ∧ e = .bitsRange) ∨
    (s.fx.buf = 1#1 ∧ ¬ bitsBad ∧ (s.fx.addr.toInt < 0 ∨ s.fx.addr.toInt ≥ s.fx.cap.toNat) ∧ e = .inBounds) →
    exec (.fxFixlast ign) s =
      .next { s with fx := { s.fx with status := { st := .failed, err := e, fatal := false } } }

/-- R137, R225, R27, R93: `BR.FULL` with its preconditions met and no window in the way becomes `BUSY`, its session
registers initialised and its operands latched; nothing else changes. -/
def Obligations.BrFullStarts : Prop :=
  ∀ (s : State) (ign : BitVec 29) (w : Walk), s.br.status.st ≠ .busy → s.br.buf = 3#2 →
    0 ≤ s.br.inBase.toInt → s.br.inBase.toInt + 4096 ≤ s.br.inCap.toNat →
    0 ≤ s.br.outBase.toInt → s.br.outBase.toInt + (4096 + 512 + s.params.brOutSlack) ≤ s.br.outCap.toNat →
    s.FreeForBr (brFullJob s) → w = encodeFull s.br.prev (s.readInBytes s.br.inBase.toNat 4096) →
    exec (.brFull ign) s =
      .next { s with br := { s.br with
        status := { st := .busy, err := .ok, fatal := false }
        icur := s.br.inBase, ocur := s.br.outBase, matchByte := ext s.br.prev
        job := some
          { inBase := s.br.inBase.toNat, len := 4096
            outBase := s.br.outBase.toNat, need := 4096 + 512 + s.params.brOutSlack
            tierFault := false, todo := w.items, out := [], mask := w.mask, width := 8#4, matchEnd := w.m } } }

/-- R141, R225, R27, R93: `BR.PART`, as `BR.FULL`. -/
def Obligations.BrPartStarts : Prop :=
  ∀ (s : State) (ign : BitVec 29) (n : Nat) (w : Walk), s.br.status.st ≠ .busy → s.br.buf = 3#2 →
    s.br.inLen.toInt = n → n < 4096 →
    0 ≤ s.br.inBase.toInt → s.br.inBase.toInt + n ≤ s.br.inCap.toNat →
    0 ≤ s.br.outBase.toInt → s.br.outBase.toInt + (n + n / 8 + s.params.brOutSlack : Nat) ≤ s.br.outCap.toNat →
    s.FreeForBr (brPartJob s) → w = encodePart s.br.prev (s.readInBytes s.br.inBase.toNat n) →
    exec (.brPart ign) s =
      .next { s with br := { s.br with
        status := { st := .busy, err := .ok, fatal := false }
        icur := s.br.inBase, ocur := s.br.outBase, matchByte := ext s.br.prev
        job := some
          { inBase := s.br.inBase.toNat, len := n
            outBase := s.br.outBase.toNat, need := n + n / 8 + s.params.brOutSlack
            tierFault := false, todo := w.items, out := [], mask := w.mask
            width := BitVec.ofNat 4 ((n + 511) / 512), matchEnd := w.m } } }

/-- R186, R225, R32, R93: `NB.ENC`, as the BitRat commands; the writer is empty and has no slot. -/
def Obligations.NbEncStarts : Prop :=
  ∀ (s : State) (ign : BitVec 29) (n : Nat) (d : List Byte), s.nb.status.st ≠ .busy → s.nb.buf = 3#2 →
    s.nb.inLen.toInt = n → n ≤ 8192 →
    0 ≤ s.nb.inBase.toInt → s.nb.inBase.toInt + n ≤ s.nb.inCap.toNat →
    0 ≤ s.nb.outBase.toInt → s.nb.outBase.toInt + n + 4 ≤ s.nb.outCap.toNat →
    s.FreeForNb (nbEncJob s) → d = s.readInBytes s.nb.inBase.toNat n →
    exec (.nbEnc ign) s =
      .next { s with nb := { s.nb with
        status := { st := .busy, err := .ok, fatal := false }
        icur := s.nb.inBase, ocur := s.nb.outBase, slot := 0#32
        job := some
          { inBase := s.nb.inBase.toNat, len := n, outBase := s.nb.outBase.toNat, need := n + 4
            todo := segments d, body := [], slot := none, mark := markOf s.params.nbEmptyMarker d } } }

/-- R221, R225, R93: `FX.FIXLAST` becomes `BUSY` with its address and bit count latched. -/
def Obligations.FxFixlastStarts : Prop :=
  ∀ (s : State) (ign : BitVec 29), s.fx.status.st ≠ .busy → s.fx.buf = 1#1 →
    1 ≤ s.fx.bits.toInt → s.fx.bits.toInt ≤ 8 → 0 ≤ s.fx.addr.toInt → s.fx.addr.toInt < s.fx.cap.toNat →
    s.FreeForFx (fxJob s) →
    exec (.fxFixlast ign) s =
      .next { s with fx := { s.fx with
        status := { st := .busy, err := .ok, fatal := false }
        job := some { addr := s.fx.addr.toNat, bits := s.fx.bits.toNat } } }

/-! ## The items of the streams -/

/-- R95 to R102: a mask byte joins the running command's stream if it is not zero; a literal joins it as it is; an
escape form is a zero flag and the raw bytes. Nothing else changes. -/
def Obligations.BitRatItems : Prop :=
  ∀ (s : State) (j : BrJob), s.br.job = some j →
    (∀ g, exec (.brGroupMask g) s =
      .next { s with br := { s.br with job := some { j with out := j.out ++ if g = 0#8 then [] else [g] } } }) ∧
    (∀ a b : Nibble, exec (.brPairMask a b) s =
      .next { s with br := { s.br with
        job := some { j with out := j.out ++ if a = 0#4 ∧ b = 0#4 then [] else [a ++ b] } } }) ∧
    (∀ t, exec (.brTailPairMask t) s =
      .next { s with br := { s.br with job := some { j with out := j.out ++ if t = 0#8 then [] else [t] } } }) ∧
    (∀ u, exec (.brSectionMask u) s =
      .next { s with br := { s.br with job := some { j with out := j.out ++ if u = 0#8 then [] else [u] } } }) ∧
    (∀ d, exec (.brLiteral d) s =
      .next { s with br := { s.br with job := some { j with out := j.out ++ [d] } } }) ∧
    (∀ raw, exec (.brEscapeBlock raw) s =
      .next { s with br := { s.br with job := some { j with out := j.out ++ 0#8 :: raw } } })

/-- R110: where the nibbles of a length field go, with a free slot and without. -/
def Obligations.NbFieldPlacement : Prop :=
  ∀ (s : State) (j : NbJob) (put : List Byte → Option Nat → State), s.nb.job = some j →
    put = (fun body slot => { s with nb := { s.nb with job := some { j with body := body, slot := slot } } }) →
    (j.slot = none →
      (∀ v : BitVec 3, exec (.nbLenField4 v) s =
        .next (put (j.body ++ [0#1 ++ v ++ 0#4]) (some j.body.length))) ∧
      (∀ w : BitVec 6, exec (.nbLenField8 w) s = .next (put (j.body ++ [2#2 ++ w]) none)) ∧
      (∀ w : BitVec 13, exec (.nbLenField16 w) s =
        .next (put (j.body ++ [6#3 ++ w.extractLsb' 8 5, w.extractLsb' 0 8]) none))) ∧
    (∀ k, j.slot = some k → k < j.body.length →
      (∀ v : BitVec 3, exec (.nbLenField4 v) s =
        .next (put (j.body.set k (j.body.getD k 0#8 ||| (0#5 ++ v))) none)) ∧
      (∀ w : BitVec 6, exec (.nbLenField8 w) s =
        .next (put (j.body.set k (j.body.getD k 0#8 ||| (0#4 ++ 2#2 ++ w.extractLsb' 4 2))
          ++ [w.extractLsb' 0 4 ++ 0#4]) (some j.body.length))) ∧
      (∀ w : BitVec 13, exec (.nbLenField16 w) s =
        .next (put (j.body.set k (j.body.getD k 0#8 ||| (0#4 ++ 6#3 ++ w.extractLsb' 12 1))
          ++ [w.extractLsb' 4 8, w.extractLsb' 0 4 ++ 0#4]) (some (j.body.length + 1)))))

/-- R109, R111, R184: a run writes the field of its length less `NB_RUN_BIAS` and nothing more; a literal run writes
the field of its count less 1, then its bytes. -/
def Obligations.NbRunAndLitRun : Prop :=
  ∀ (s : State) (j : NbJob), s.nb.job = some j →
    (∀ n w, s.params.nbRunBias ≤ n → n ≤ 8191 + s.params.nbRunBias →
      w = putNibbles (fieldNibbles (n - s.params.nbRunBias)) { body := j.body, slot := j.slot } →
      exec (.nbRun n) s =
        .next { s with nb := { s.nb with job := some { j with body := w.body, slot := w.slot } } }) ∧
    (∀ bytes w, 1 ≤ bytes.length → bytes.length ≤ 8192 →
      w = putNibbles (fieldNibbles (bytes.length - 1)) { body := j.body, slot := j.slot } →
      exec (.nbLitRun bytes) s =
        .next { s with nb := { s.nb with job := some { j with body := w.body ++ bytes, slot := w.slot } } })

/-- R61: a unit that is not running makes no access to `OUT`: with no command running its items are refused (log 7,
the model's choice of a stop). -/
def Obligations.ItemsNeedARunningCommand : Prop :=
  ∀ s : State,
    (s.br.job = none →
      (∀ x : BrItem, exec x.instr s = .refused (.noRunningCommand .br)) ∧
      ∀ m, exec (.brChunkMask m) s = .refused (.noRunningCommand .br)) ∧
    (s.nb.job = none →
      (∀ x : NbItem, exec x.instr s = .refused (.noRunningCommand .nb)) ∧
      ∀ mark n, exec (.nbHeader mark n) s = .refused (.noRunningCommand .nb))

/-! ## The ends of commands -/

/-- R26, R27, R68, R101, R226: returning the chunk mask ends the command: the result and session registers, `DONE`,
the stream in `OUT`, every byte outside the output window and everything else as it was. -/
def Obligations.BrChunkMaskEnds : Prop :=
  ∀ (s : State) (m : Byte) (j : BrJob), s.br.job = some j → j.out.length ≤ j.need →
    j.outBase + j.need ≤ 2 ^ 31 →
    ∃ t, exec (.brChunkMask m) s = .next t ∧
      t.br = { s.br with
        status := { st := .done, err := .ok, fatal := false }
        mask := m, maskw := j.width
        written := BitVec.ofNat 32 j.out.length, consumed := BitVec.ofNat 32 j.len
        last := j.matchEnd.extractLsb' 0 1
        icur := BitVec.ofNat 32 (j.inBase + j.len), ocur := BitVec.ofNat 32 (j.outBase + j.out.length)
        matchByte := j.matchEnd, job := none } ∧
      t.readOutBytes j.outBase j.out.length = j.out ∧
      (∀ a, a < j.outBase ∨ j.outBase + j.need ≤ a → t.readOut a = s.readOut a) ∧
      (∀ a, t.readIn a = s.readIn a) ∧ t.nb = s.nb ∧ t.fx = s.fx ∧ t.params = s.params ∧ t.inputs = s.inputs ∧
      t.replies = s.replies ∧ t.hostTotal = s.hostTotal ∧ t.hostKept = s.hostKept ∧ t.turn = s.turn

/-- R31, R32, R68, R106, R185, R226: writing the header ends the command, as the chunk mask does a BitRat command. -/
def Obligations.NbHeaderEnds : Prop :=
  ∀ (s : State) (mark : Mark) (n : BitVec 14) (j : NbJob), s.nb.job = some j → 2 + j.body.length ≤ j.need →
    j.outBase + j.need ≤ 2 ^ 31 →
    ∃ t, exec (.nbHeader mark n) s = .next t ∧
      t.nb = { s.nb with
        status := { st := .done, err := .ok, fatal := false }
        written := BitVec.ofNat 32 (2 + j.body.length), consumed := BitVec.ofNat 32 j.len
        icur := BitVec.ofNat 32 (j.inBase + j.len), ocur := BitVec.ofNat 32 (j.outBase + 2 + j.body.length)
        slot := (match j.slot with | none => 0#32 | some k => BitVec.ofNat 32 (j.outBase + 2 + k))
        job := none } ∧
      t.readOut j.outBase = encodeMark mark ++ n.extractLsb' 8 6 ∧
      t.readOut (j.outBase + 1) = n.extractLsb' 0 8 ∧
      t.readOutBytes (j.outBase + 2) j.body.length = j.body ∧
      (∀ a, a < j.outBase ∨ j.outBase + j.need ≤ a → t.readOut a = s.readOut a) ∧
      (∀ a, t.readIn a = s.readIn a) ∧ t.br = s.br ∧ t.fx = s.fx ∧ t.params = s.params ∧ t.inputs = s.inputs ∧
      t.replies = s.replies ∧ t.hostTotal = s.hostTotal ∧ t.hostKept = s.hostKept ∧ t.turn = s.turn

/-- R177, R258, R259: a value the length-field writer cannot hold, and a tail tier given too many bytes, end the
command with a fatal error: `FAILED`, the code, `FATAL`; outside the output window nothing changes, nor do `IN`, the
operand registers and the other units. (R260: neither happens to a command that starts.) -/
def Obligations.FatalErrorEffect : Prop :=
  (∀ (s : State) (j : NbJob) (i : Instr), s.nb.job = some j →
    ((∃ n, i = .nbRun n ∧ (n < s.params.nbRunBias ∨ 8191 + s.params.nbRunBias < n)) ∨
      ∃ bytes, i = .nbLitRun bytes ∧ (bytes = [] ∨ 8192 < bytes.length)) →
    ∃ t, exec i s = .next t ∧ t.nb.status = { st := .failed, err := .fLenRange, fatal := true } ∧ t.nb.job = none ∧
      s.nb.SameOperands t.nb ∧ t.br = s.br ∧ t.fx = s.fx ∧ (∀ a, t.readIn a = s.readIn a) ∧
      ∀ a, a < j.outBase ∨ j.outBase + j.need ≤ a → t.readOut a = s.readOut a) ∧
  ∀ (s : State) (j : BrJob), mover s = some .br → s.br.job = some j → j.tierFault = true →
    ∃ t, step s = .next t ∧ t.br.status = { st := .failed, err := .fTier, fatal := true } ∧ t.br.job = none ∧
      s.br.SameOperands t.br ∧ t.nb = s.nb ∧ t.fx = s.fx ∧ (∀ a, t.readIn a = s.readIn a) ∧
      ∀ a, a < j.outBase ∨ j.outBase + j.need ≤ a → t.readOut a = s.readOut a

/-! ## FIXLAST -/

/-- R221, R222: the byte FIXLAST writes: its top `k` bits are those of the byte read, every bit below is bit `8 - k`;
so it is idempotent, and 8 meaningful bits leave the byte. -/
def Obligations.FixlastLaws : Prop :=
  ∀ (b : Byte) (k : Nat), 1 ≤ k → k ≤ 8 →
    (∀ i, 8 - k ≤ i → (fixByte b k).getLsbD i = b.getLsbD i) ∧
    (∀ i, i < 8 - k → (fixByte b k).getLsbD i = b.getLsbD (8 - k)) ∧
    (fixByte b k).getLsbD 0 = b.getLsbD (8 - k) ∧ fixByte (fixByte b k) k = fixByte b k ∧ fixByte b 8 = b

/-- R221: the write of `FX_CMD`, from a state where nothing runs, ends with the one byte normalised, `DONE`, and
nothing else changed. That it ends two steps later is the grain of the model's moves, its choice (log 24); R300 bounds
nothing. -/
def Obligations.FixlastRun : Prop :=
  ∀ (s : State) (v : Word) (k : Nat) (b : Byte), s.Quiet → s.fx.status.st ≠ .busy →
    s.inputs = [.op (.write 0x200#32 v)] → v.extractLsb' 0 3 = 1#3 → s.fx.buf = 1#1 →
    s.fx.bits.toInt = k → 1 ≤ k → k ≤ 8 → 0 ≤ s.fx.addr.toInt → s.fx.addr.toInt < s.fx.cap.toNat →
    b = s.readIn s.fx.addr.toNat →
    ∃ t : State, Host.Core.run Sys2Proof.core 2 s = .next t ∧ t.inputs = [] ∧
      t.fx = { s.fx with status := { st := .done, err := .ok, fatal := false } } ∧ t.br = s.br ∧ t.nb = s.nb ∧
      t.readIn s.fx.addr.toNat =
        (if b.getLsbD (8 - k) = true then b ||| BitVec.ofNat 8 (2 ^ (8 - k) - 1)
          else b &&& ~~~ BitVec.ofNat 8 (2 ^ (8 - k) - 1)) ∧
      (∀ a, a ≠ s.fx.addr.toNat → t.readIn a = s.readIn a) ∧ (∀ a, t.readOut a = s.readOut a) ∧
      t.params = s.params ∧ t.replies = s.replies ∧ t.hostTotal = s.hostTotal ∧ t.hostKept = s.hostKept

/-! ## The host and the platform -/

/-- R61, R65, R69, R73: the host reads and writes one byte of `IN` or `OUT`, with no other effect. A write into a window
a running command holds is refused (U4); a read of a running command's output window, or of the byte of a running
FIXLAST, answers with an unspecified byte (U2; log 10). -/
def Obligations.HostMemoryAccess : Prop :=
  ∀ (s : State) (a : Nat) (b : Byte) (rest : List Input), mover s = some .host → a < 2 ^ 31 →
    (s.inputs = .writeOut a b :: rest → (∀ w ∈ s.outWindows, w.holds a = false) →
      ∃ t, step s = .next t ∧ t.inputs = rest ∧ t.replies = s.replies ∧ s.SameUnits t ∧ t.readOut a = b ∧
        (∀ c, c ≠ a → t.readOut c = s.readOut c) ∧ ∀ c, t.readIn c = s.readIn c) ∧
    (s.inputs = .writeIn a b :: rest → (∀ w ∈ s.inWindows ++ s.fxWindows, w.holds a = false) →
      ∃ t, step s = .next t ∧ t.inputs = rest ∧ t.replies = s.replies ∧ s.SameUnits t ∧ t.readIn a = b ∧
        (∀ c, c ≠ a → t.readIn c = s.readIn c) ∧ ∀ c, t.readOut c = s.readOut c) ∧
    (s.inputs = .readOut a :: rest → (∀ w ∈ s.outWindows, w.holds a = false) →
      ∃ t, step s = .next t ∧ t.inputs = rest ∧ t.replies = s.replies ++ [(s.readOut a).setWidth 32] ∧
        s.SameUnits t ∧ s.SameMemory t) ∧
    (s.inputs = .readIn a :: rest → (∀ w ∈ s.fxWindows, w.holds a = false) →
      ∃ t, step s = .next t ∧ t.inputs = rest ∧ t.replies = s.replies ++ [(s.readIn a).setWidth 32] ∧
        s.SameUnits t ∧ s.SameMemory t) ∧
    (s.inputs = .readOut a :: rest → (∃ w ∈ s.outWindows, w.holds a = true) →
      ∃ (t : State) (x : Byte), step s = .next t ∧ t.inputs = rest ∧ t.replies = s.replies ++ [x.setWidth 32] ∧
        s.SameUnits t ∧ s.SameMemory t) ∧
    (s.inputs = .readIn a :: rest → (∃ w ∈ s.fxWindows, w.holds a = true) →
      ∃ (t : State) (x : Byte), step s = .next t ∧ t.inputs = rest ∧ t.replies = s.replies ++ [x.setWidth 32] ∧
        s.SameUnits t ∧ s.SameMemory t) ∧
    (s.inputs = .writeOut a b :: rest → (∃ w ∈ s.outWindows, w.holds a = true) →
      step s = .refused .windowConflict) ∧
    (s.inputs = .writeIn a b :: rest → (∃ w ∈ s.inWindows ++ s.fxWindows, w.holds a = true) →
      step s = .refused .windowConflict)

/-- R290, R291, R292: the platform's reset: every register at its reset value, every command abandoned, the byte of an
abandoned FIXLAST old or new, memory outside the abandoned output windows as it was, the parameters kept. -/
def Obligations.PlatformResetEffect : Prop :=
  ∀ (s : State) (rest : List Input), s.inputs = .reset :: rest → mover s = some .host →
    ∃ t, step s = .next t ∧ t.inputs = rest ∧ t.Quiet ∧ (∀ r : Reg, r.isSession = false → t.reg r = 0#32) ∧
      (∀ a, (∀ f ∈ s.fx.job, f.addr ≠ a) → t.readIn a = s.readIn a) ∧
      (∀ f ∈ s.fx.job, t.readIn f.addr = s.readIn f.addr ∨ t.readIn f.addr = fixByte (s.readIn f.addr) f.bits) ∧
      (∀ a, (∀ w ∈ s.outWindows, w.holds a = false) → t.readOut a = s.readOut a) ∧
      t.params = s.params ∧ t.replies = s.replies ∧ t.hostTotal = s.hostTotal ∧ t.hostKept = s.hostKept

/-- R116: a line sets the operand registers it names, in any of its forms (an omitted operand keeps the register, an
address sets the buffer's `PRESENT` bit, `absent` clears it), then starts its command. A precondition that fails ends
the line with the command's code (R252); else it ends with the command, every result as the rule gives it. That a
line is one step is the model's choice (log 13). -/
def Obligations.CommandLines : Prop :=
  ∀ (s : State) (prev : Option (BitVec 1)) (inp out : Option BufArg) (len incap outcap addr bits cap : Option Word),
    (∀ u, s.br.status.st ≠ .busy → u = { s with br := s.br.afterLine prev inp none incap out outcap } →
      (∀ e, s.br.job = none → brFullError u.params (brArgs u.br) = some e →
        runLine (.brFull prev inp incap out outcap) s =
          .next { u with br := { u.br with status := { st := .failed, err := e, fatal := false } } }) ∧
      (s.Quiet → 3 ≤ s.params.brOutSlack → brFullError u.params (brArgs u.br) = none →
        ∃ t, runLine (.brFull prev inp incap out outcap) s = .next t ∧
          BrEncoded u t 4096 (encodeFull u.br.prev (u.readInBytes u.br.inBase.toNat 4096)) 8)) ∧
    (∀ u, s.br.status.st ≠ .busy → u = { s with br := s.br.afterLine prev inp len incap out outcap } →
      (∀ e, s.br.job = none → brPartError u.params (brArgs u.br) = some e →
        runLine (.brPart prev inp len incap out outcap) s =
          .next { u with br := { u.br with status := { st := .failed, err := e, fatal := false } } }) ∧
      (s.Quiet → 3 ≤ s.params.brOutSlack → brPartError u.params (brArgs u.br) = none →
        ∃ t, runLine (.brPart prev inp len incap out outcap) s = .next t ∧
          BrEncoded u t u.br.inLen.toNat
            (encodePart u.br.prev (u.readInBytes u.br.inBase.toNat u.br.inLen.toNat))
            ((u.br.inLen.toNat + 511) / 512))) ∧
    (∀ u, s.nb.status.st ≠ .busy → u = { s with nb := s.nb.afterLine inp len incap out outcap } →
      (∀ e, s.nb.job = none → nbEncError (nbArgs u.nb) = some e →
        runLine (.nbEnc inp len incap out outcap) s =
          .next { u with nb := { u.nb with status := { st := .failed, err := e, fatal := false } } }) ∧
      (s.Quiet → s.params.nbRunBias ≤ 3 → nbEncError (nbArgs u.nb) = none →
        ∃ t st slot, nbEncode s.params (u.readInBytes u.nb.inBase.toNat u.nb.inLen.toNat) = some (st, slot) ∧
          runLine (.nbEnc inp len incap out outcap) s = .next t ∧ NbEncoded u t u.nb.inLen.toNat st slot)) ∧
    ∀ u, s.fx.status.st ≠ .busy → u = { s with fx := s.fx.afterLine addr bits cap } →
      (∀ e, s.fx.job = none → fxError (fxArgs u.fx) = some e →
        runLine (.fxFixlast addr bits cap) s =
          .next { u with fx := { u.fx with status := { st := .failed, err := e, fatal := false } } }) ∧
      (s.Quiet → fxError (fxArgs u.fx) = none →
        ∃ t, runLine (.fxFixlast addr bits cap) s = .next t ∧
          t.fx = { u.fx with status := { st := .done, err := .ok, fatal := false } } ∧ t.br = s.br ∧ t.nb = s.nb ∧
          t.readIn u.fx.addr.toNat = fixByte (s.readIn u.fx.addr.toNat) u.fx.bits.toNat ∧
          (∀ a, a ≠ u.fx.addr.toNat → t.readIn a = s.readIn a) ∧ (∀ a, t.readOut a = s.readOut a) ∧
          s.SameHost t)

/-! ## The BitRat functions -/

/-- R97, R131, R138 (b): byte `i` of a group is a literal, and bit `7 - i` of its mask is 1, if and only if the byte
differs from what the byte before it leads to expect; the literals stand in ascending order; `matchByte` follows the
last byte. -/
def Obligations.GroupLiterals : Prop :=
  ∀ (d : List Byte) (m : Byte), 1 ≤ d.length → d.length ≤ 8 → m = 0x00#8 ∨ m = 0xFF#8 →
    (∀ i, i < 8 → ((group d m).mask.getMsbD i = true ↔ i < d.length ∧ isLiteralAt d m i = true)) ∧
    (group d m).lits = ((List.range d.length).filter (isLiteralAt d m)).map (fun i => d.getD i 0x00#8) ∧
    (group d m).m = ext (lsb (d.getLastD 0x00#8))

/-- R134: the escape rule of a block, and its bound of 33 bytes. -/
def Obligations.BlockEscape : Prop :=
  ∀ (d : List Byte) (m : Byte), d.length = 32 →
    (block d m).m = (blockStructured d m).m ∧
    ((brBytes (blockStructured d m).items).length ≤ 32 → block d m = blockStructured d m) ∧
    (32 < (brBytes (blockStructured d m).items).length →
      (block d m).mask = 0xF#4 ∧ brBytes (block d m).items = 0x00#8 :: d ∧ (blockStructured d m).mask = 0xF#4) ∧
    (brBytes (block d m).items).length ≤ 33

/-- R28: after a sub-unit of any tier, and after a chunk, `matchByte` is `ext` of bit 0 of the last byte processed;
before any byte it is the seed. -/
def Obligations.MatchByteLaw : Prop :=
  (∀ (prev : BitVec 1) (d : List Byte), d.length ≤ 4096 →
    (encodeChunk prev d).m = if d = [] then ext prev else ext (lsb (d.getLastD 0x00#8))) ∧
  (∀ (d : List Byte) (m : Byte), d.length = 32 → m = 0x00#8 ∨ m = 0xFF#8 →
    (block d m).m = ext (lsb (d.getLastD 0x00#8))) ∧
  ∀ (f : List Byte → Byte → Tier) (lo hi : Nat) (d : List Byte) (m : Byte),
    (f, lo, hi) ∈ [(groupItem, 1, 8), (pair, 64, 64), (fullSection, 512, 512), (tailPair, 1, 63),
      (tailSection, 1, 511)] →
    lo ≤ d.length → d.length ≤ hi → m = 0x00#8 ∨ m = 0xFF#8 → (f d m).m = ext (lsb (d.getLastD 0x00#8))

/-- R137, R141: the chunk mask is zero if and only if the stream is empty, if and only if every byte equals
`ext(prevBit)`. -/
def Obligations.BitRatSilent : Prop :=
  ∀ (prev : BitVec 1) (d : List Byte), d.length ≤ 4096 →
    ((encodeChunk prev d).mask = 0x00#8 ↔ brBytes (encodeChunk prev d).items = []) ∧
    (brBytes (encodeChunk prev d).items = [] ↔ ∀ b ∈ d, b = ext prev)

/-- R143: the largest stream of a chunk of `n` bytes is `W(n)`, which alternating bytes reach, and `W(n)` is at most
`n + n div 8 + 3`. -/
def Obligations.BitRatSizeBound : Prop :=
  (∀ (prev : BitVec 1) (d : List Byte), d.length ≤ 4096 →
    (brBytes (encodeChunk prev d).items).length ≤ brWorst d.length) ∧
  (∀ n, n ≤ 4096 → (brBytes (encodeChunk 0#1 (List.replicate n 0xAA#8)).items).length = brWorst n) ∧
  (∀ n, brWorst n ≤ n + n / 8 + 3) ∧ brWorst 4096 = 4296 ∧ brWorst 4095 = 4301

/-- R142: at a tier boundary the partial paths are the full ones: `BR.PART` of `512k` bytes is the first `k` sections
of `BR.FULL`, a tail section of `64k` bytes is `k` pairs, a tail pair of `8k` bytes is `k` groups. -/
def Obligations.TierBoundary : Prop :=
  (∀ (prev : BitVec 1) (d : List Byte) (k : Nat), d.length = 4096 → k ≤ 7 →
    encodePart prev (d.take (512 * k)) = walk fullSection (pieces 512 k d) 0 (ext prev) ∧
    brBytes (encodePart prev (d.take (512 * k))).items <+: brBytes (encodeFull prev d).items ∧
    ∀ i, i < k → (encodePart prev (d.take (512 * k))).mask.getMsbD i = (encodeFull prev d).mask.getMsbD i) ∧
  (∀ (d : List Byte) (m : Byte) (k : Nat), 1 ≤ k → k ≤ 7 → d.length = 64 * k →
    tailSection d m = sectionOf (walk pair (pieces 64 k d) 0 m)) ∧
  (∀ (d : List Byte) (m : Byte) (k : Nat), 1 ≤ k → k ≤ 7 → d.length = 8 * k →
    brBytes (tailPair d m).items =
      maskBytes (walk groupItem (pieces 8 k d) 0 m).mask ++ brBytes (walk groupItem (pieces 8 k d) 0 m).items)

/-- R118, R94, R103: the reader gives back the chunk from its stream, its length, `prevBit` and the chunk mask, and the
stream is exhausted exactly when it ends. R229: with what `COMPRESS.BR` keeps of each chunk, the streams of all its
chunks give back the whole input. -/
def Obligations.ReadBitRatInvertsEncoder : Prop :=
  (∀ (prev : BitVec 1) (d : List Byte), d.length ≤ 4096 →
    readBitRat d.length prev (encodeChunk prev d).mask (brBytes (encodeChunk prev d).items) = some d) ∧
  ∀ (prev : BitVec 1) (d : List Byte) (fuel : Nat), d.length < 4096 * fuel →
    readKept (brLoopKept fuel prev d) (brLoopStream fuel prev d) = some d

/-! ## The Nibbler functions -/

/-- R189: the segments of a chunk that is not empty alternate and end in a literal run with at least the tail; their
lengths add up to the chunk's; a run has at least 3 bytes and covers none of the tail; each run repeats the byte
before it or has the value of `MARK`; and a literal run after a run starts with another byte unless the run reached
the tail. -/
def Obligations.SegmentsLaws : Prop :=
  ∀ (d : List Byte) (empty : Mark), d ≠ [] →
    alternate (min d.length 3) (segments d) = true ∧
    ((segments d).map segmentLength).sum = d.length ∧
    (∀ n, .run n ∈ segments d → 3 ≤ n ∧ n + 3 ≤ d.length) ∧
    expandSegments (markValue (markOf empty d)) (segments d) = d ∧
    (∀ pre n bytes post, segments d = pre ++ .run n :: .litRun bytes :: post →
      bytes.headD 0x00#8 ≠ d.getD (pre.map segmentLength).sum 0x00#8 ∨
        (pre.map segmentLength).sum + n = d.length - 3)

/-- R177, R187, R33: `NB.ENC` of at most 8192 bytes never has a fatal error; its stream has at most 4 bytes more than
the chunk, exactly 4 for 73 bytes or more with no run; a slot left free is a byte of the body whose low nibble
is 0. -/
def Obligations.NibblerSizeBound : Prop :=
  ∀ (p : Params) (d : List Byte), p.nbRunBias ≤ 3 → d.length ≤ 8192 →
    ∃ st slot, nbEncode p d = some (st, slot) ∧ st.length ≤ d.length + 4 ∧
      (73 ≤ d.length → (∀ x ∈ segments d, isRun x = false) → st.length = d.length + 4) ∧
      ∀ k, slot = some k → 2 + k < st.length ∧ (st.getD (2 + k) 0x00#8).extractLsb' 0 4 = 0#4

/-- R119: the reader gives back the chunk from its Nibbler stream alone. -/
def Obligations.ReadNibblerInvertsEncoder : Prop :=
  ∀ (p : Params) (d : List Byte), p.nbRunBias ≤ 3 → d.length ≤ 8192 →
    ∃ st slot, nbEncode p d = some (st, slot) ∧ readNibbler p.nbRunBias st = some d

/-! ## Whole commands -/

/-- R137, R226, R68: the write of `BR_CMD` with `BR.FULL`'s code, its preconditions met and nothing else running, comes
to its end with every result as the rule gives it. -/
def Obligations.BrFullRun : Prop :=
  ∀ (s : State) (v : Word), s.Quiet → s.br.status.st ≠ .busy → s.inputs = [.op (.write 0x000#32 v)] →
    v.extractLsb' 0 3 = 1#3 → brFullError s.params (brArgs s.br) = none → 3 ≤ s.params.brOutSlack →
    ∃ (k : Nat) (t : State), Host.Core.run Sys2Proof.core k s = .next t ∧ t.inputs = [] ∧
      BrEncoded s t 4096 (encodeFull s.br.prev (s.readInBytes s.br.inBase.toNat 4096)) 8

/-- R141, R226, R68: the same of `BR.PART`. -/
def Obligations.BrPartRun : Prop :=
  ∀ (s : State) (v : Word), s.Quiet → s.br.status.st ≠ .busy → s.inputs = [.op (.write 0x000#32 v)] →
    v.extractLsb' 0 3 = 2#3 → brPartError s.params (brArgs s.br) = none → 3 ≤ s.params.brOutSlack →
    ∃ (k : Nat) (t : State), Host.Core.run Sys2Proof.core k s = .next t ∧ t.inputs = [] ∧
      BrEncoded s t s.br.inLen.toNat
        (encodePart s.br.prev (s.readInBytes s.br.inBase.toNat s.br.inLen.toNat)) ((s.br.inLen.toNat + 511) / 512)

/-- R186, R226, R68: the same of `NB.ENC`. -/
def Obligations.NbEncRun : Prop :=
  ∀ (s : State) (v : Word), s.Quiet → s.nb.status.st ≠ .busy → s.inputs = [.op (.write 0x100#32 v)] →
    v.extractLsb' 0 3 = 1#3 → nbEncError (nbArgs s.nb) = none → s.params.nbRunBias ≤ 3 →
    ∃ (k : Nat) (t : State) (st : List Byte) (slot : Option Nat), Host.Core.run Sys2Proof.core k s = .next t ∧
      t.inputs = [] ∧ nbEncode s.params (s.readInBytes s.nb.inBase.toNat s.nb.inLen.toNat) = some (st, slot) ∧
      NbEncoded s t s.nb.inLen.toNat st slot

/-- R228, R229: `COMPRESS.BR` over `L` bytes that lie in the input buffer, with room for one chunk in the output buffer,
gives the sum of the streams and 3 bytes a chunk, `prevBit` chained, and keeps of each chunk its `prevBit`, its mask,
its stream's length and its own; `IN`, the other units and `OUT` outside the one window are unchanged. That the loop
is one step is the model's choice (log 13); that the operands R228's dots do not name keep their values is read from
R116 (log 14). -/
def Obligations.CompressBrTotals : Prop :=
  ∀ (s : State) (a len : Word), s.Quiet → s.br.status.st ≠ .busy → 3 ≤ s.params.brOutSlack →
    s.br.buf.getLsbD 1 = true → a.toNat + len.toNat ≤ s.br.inCap.toNat → 0 ≤ s.br.outBase.toInt →
    s.br.outBase.toInt + brNeed s.params (min 4096 len.toNat) ≤ s.br.outCap.toNat →
    ∃ t, exec (.compressBr a len) s = .next t ∧
      t.hostTotal = brLoopTotal (len.toNat / 4096 + 1) s.params.firstPrev (s.readInBytes a.toNat len.toNat) ∧
      t.hostKept = brLoopKept (len.toNat / 4096 + 1) s.params.firstPrev (s.readInBytes a.toNat len.toNat) ∧
      t.br.job = none ∧ (len ≠ 0#32 → t.br.status = { st := .done, err := .ok, fatal := false }) ∧
      t.br.buf = (if len = 0#32 then s.br.buf else s.br.buf ||| 1#2) ∧ t.br.inCap = s.br.inCap ∧
      t.br.outBase = s.br.outBase ∧ t.br.outCap = s.br.outCap ∧
      (∀ x, x < s.br.outBase.toNat ∨ s.br.outBase.toNat + brNeed s.params (min 4096 len.toNat) ≤ x →
        t.readOut x = s.readOut x) ∧
      (∀ x, t.readIn x = s.readIn x) ∧ t.nb = s.nb ∧ t.fx = s.fx ∧ t.params = s.params ∧ t.inputs = s.inputs ∧
      t.replies = s.replies ∧ t.turn = s.turn

/-- R228, R229: `COMPRESS.NB`, as `COMPRESS.BR`: the sum of the streams of chunks of at most 8192 bytes; nothing is
kept of a chunk. One step by log 13, the operands not named by log 14. -/
def Obligations.CompressNbTotals : Prop :=
  ∀ (s : State) (a len : Word), s.Quiet → s.nb.status.st ≠ .busy → s.params.nbRunBias ≤ 3 →
    s.nb.buf.getLsbD 1 = true → a.toNat + len.toNat ≤ s.nb.inCap.toNat → 0 ≤ s.nb.outBase.toInt →
    s.nb.outBase.toInt + (min 8192 len.toNat + 4 : Nat) ≤ s.nb.outCap.toNat →
    ∃ t, exec (.compressNb a len) s = .next t ∧
      t.hostTotal = nbLoopTotal s.params (len.toNat / 8192 + 1) (s.readInBytes a.toNat len.toNat) ∧
      t.nb.job = none ∧ (len ≠ 0#32 → t.nb.status = { st := .done, err := .ok, fatal := false }) ∧
      t.nb.buf = (if len = 0#32 then s.nb.buf else s.nb.buf ||| 1#2) ∧ t.nb.inCap = s.nb.inCap ∧
      t.nb.outBase = s.nb.outBase ∧ t.nb.outCap = s.nb.outCap ∧
      (∀ x, x < s.nb.outBase.toNat ∨ s.nb.outBase.toNat + (min 8192 len.toNat + 4) ≤ x →
        t.readOut x = s.readOut x) ∧
      (∀ x, t.readIn x = s.readIn x) ∧ t.br = s.br ∧ t.fx = s.fx ∧ t.params = s.params ∧ t.inputs = s.inputs ∧
      t.replies = s.replies ∧ t.hostKept = s.hostKept ∧ t.turn = s.turn

/-- R228, R252: the loop stops at the first `FAILED`, whichever chunk it is, with the code of the command that failed:
after `k` whole chunks, the loop over them having ended in `t`, the next command fails on the operands the loop gives
it. Over no bytes it runs no command and gives 0. The operands the lines do not name are log 14; that a loop that stops
leaves the last total in place, and keeps the chunks that ended before, is the model's choice (log 13). -/
def Obligations.CompressStopsAtFailure : Prop :=
  (∀ (s t : State) (a len : Word) (k : Nat) (e : ErrCode) (b : BrBank),
    exec (.compressBr a (BitVec.ofNat 32 (4096 * k))) s = .next t → (k = 0 ∨ t.br.status.st = .done) →
    b = { t.br with
      buf := t.br.buf ||| 1#2, prev := if k = 0 then s.params.firstPrev else t.br.last
      inBase := a + BitVec.ofNat 32 (4096 * k) } →
    t.br.status.st ≠ .busy → t.br.job = none →
    (4096 * k + 4096 ≤ len.toNat → brFullError s.params (brArgs b) = some e →
      exec (.compressBr a len) s =
        .next { t with
          hostTotal := s.hostTotal, br := { b with status := { st := .failed, err := e, fatal := false } } }) ∧
    (∀ n, n < 4096 → 0 < n → len.toNat = 4096 * k + n →
      brPartError s.params (brArgs { b with inLen := BitVec.ofNat 32 n }) = some e →
      exec (.compressBr a len) s =
        .next { t with
          hostTotal := s.hostTotal
          br := { b with
            inLen := BitVec.ofNat 32 n, status := { st := .failed, err := e, fatal := false } } })) ∧
  (∀ (s t : State) (a len : Word) (k : Nat) (e : ErrCode) (c : NbBank),
    exec (.compressNb a (BitVec.ofNat 32 (8192 * k))) s = .next t → (k = 0 ∨ t.nb.status.st = .done) →
    8192 * k < len.toNat →
    c = { t.nb with
      buf := t.nb.buf ||| 1#2, inBase := a + BitVec.ofNat 32 (8192 * k)
      inLen := BitVec.ofNat 32 (min 8192 (len.toNat - 8192 * k)) } →
    t.nb.status.st ≠ .busy → t.nb.job = none → nbEncError (nbArgs c) = some e →
    exec (.compressNb a len) s =
      .next { t with
        hostTotal := s.hostTotal, nb := { c with status := { st := .failed, err := e, fatal := false } } }) ∧
  ∀ (s : State) (a : Word),
    exec (.compressBr a 0#32) s = .next { s with hostTotal := 0, hostKept := [] } ∧
    exec (.compressNb a 0#32) s = .next { s with hostTotal := 0 }

/-! ## Invariants of every step -/

/-- Every step keeps the invariant: memory in its canonical form, the fields of `STATUS` as R24 says, a unit `BUSY`
exactly while a command runs (R226), the windows inside the spaces (R60) and apart (R75), a free slot a byte whose
low nibble is 0 (R33). -/
def Obligations.StepKeepsInv : Prop :=
  ∀ s t : State, s.Inv → step s = .next t → t.Inv

/-- R260: no step makes or prepares a fatal error. -/
def Obligations.StepKeepsNoFatal : Prop :=
  ∀ s t : State, s.NoFatal → step s = .next t → t.NoFatal

/-- R66, R67, R143, R187: what a running encoder has staged and has still to write fits its output window, in every
state that a step reaches from one where it does. -/
def Obligations.StepKeepsFits : Prop :=
  ∀ s t : State, s.Fits → step s = .next t → t.Fits

/-- R291: the parameters are fixed. -/
def Obligations.ParametersFixed : Prop :=
  ∀ s t : State, step s = .next t → t.params = s.params

/-- R2, R25, R30, R61: what a move of an engine leaves alone: the operand registers, the other units, `IN` (but for the
one byte of FIXLAST), `OUT` outside the engine's own output window, and the host's side. -/
def Obligations.EngineMoveFrame : Prop :=
  ∀ s t : State, s.Fits → step s = .next t →
    (mover s = some .br →
      s.br.SameOperands t.br ∧ t.nb = s.nb ∧ t.fx = s.fx ∧ (∀ a, t.readIn a = s.readIn a) ∧
      (∀ j ∈ s.br.job, ∀ a, j.outWindow.holds a = false → t.readOut a = s.readOut a) ∧
      t.inputs = s.inputs ∧ t.replies = s.replies ∧ t.hostTotal = s.hostTotal ∧ t.hostKept = s.hostKept) ∧
    (mover s = some .nb →
      s.nb.SameOperands t.nb ∧ t.br = s.br ∧ t.fx = s.fx ∧ (∀ a, t.readIn a = s.readIn a) ∧
      (∀ j ∈ s.nb.job, ∀ a, j.outWindow.holds a = false → t.readOut a = s.readOut a) ∧
      t.inputs = s.inputs ∧ t.replies = s.replies ∧ t.hostTotal = s.hostTotal ∧ t.hostKept = s.hostKept) ∧
    (mover s = some .fx →
      s.fx.SameOperands t.fx ∧ t.br = s.br ∧ t.nb = s.nb ∧ (∀ a, t.readOut a = s.readOut a) ∧
      (∀ j ∈ s.fx.job, ∀ a, a ≠ j.addr → t.readIn a = s.readIn a) ∧
      t.inputs = s.inputs ∧ t.replies = s.replies ∧ t.hostTotal = s.hostTotal ∧ t.hostKept = s.hostKept)

/-- R226, R264, R300: a move of an engine never stops the machine, and a running command ends, with `DONE`, after the
moves it has left. -/
def Obligations.RunningCommandsEnd : Prop :=
  ∀ s : State, s.Inv → s.NoFatal → s.Fits →
    (∀ a, mover s = some a → a ≠ .host → ∃ t, step s = .next t) ∧
    (s.br.job.isSome → ∃ t, finishBr s.brMovesLeft s = .next t ∧ t.br.job = none ∧
      t.br.status = { st := .done, err := .ok, fatal := false }) ∧
    (s.nb.job.isSome → ∃ t, finishNb s.nbMovesLeft s = .next t ∧ t.nb.job = none ∧
      t.nb.status = { st := .done, err := .ok, fatal := false }) ∧
    (s.fx.job.isSome → ∃ t, finishFx s = .next t ∧ t.fx.job = none ∧
      t.fx.status = { st := .done, err := .ok, fatal := false })

/-- R75: the results of two running encoders do not depend on which ends first: the registers of both, all of `IN`, and
every byte of `OUT` but those the commands leave unspecified (R68). The two are run to their ends one after the other,
as a line or a loop waits for its command (log 13); every other order is EngineOrderIsFree. -/
def Obligations.EnginesDoNotInterfere : Prop :=
  ∀ s : State, s.Inv → s.NoFatal → s.Fits →
    ∃ t u, andThen (finishBr s.brMovesLeft s) (fun x => finishNb x.nbMovesLeft x) = .next t ∧
      andThen (finishNb s.nbMovesLeft s) (fun x => finishBr x.brMovesLeft x) = .next u ∧
      t.br = u.br ∧ t.nb = u.nb ∧ t.fx = u.fx ∧ (∀ a, t.readIn a = u.readIn a) ∧
      ∀ a, (∀ j ∈ s.br.job, a < j.outBase + t.br.written.toNat ∨ j.outBase + j.need ≤ a) →
        (∀ k ∈ s.nb.job, a < k.outBase + t.nb.written.toNat ∨ k.outBase + k.need ≤ a) → t.readOut a = u.readOut a

/-- R75: the results do not depend on how the moves of the running units interleave, FIXLAST among them. Moves made in
two orders that have the same moves, or in any two that bring every command to its end, give the same registers, the
same `IN` and the same `OUT`, but for the bytes that a command which has ended leaves unspecified (R68). -/
def Obligations.EngineOrderIsFree : Prop :=
  ∀ s : State, s.Inv → s.NoFatal → s.Fits →
    (∀ σ τ : List Agent, σ.Perm τ →
      ∃ t u, runEngines σ s = .next t ∧ runEngines τ s = .next u ∧ s.AgreeAfter t u) ∧
    ∀ (σ τ : List Agent) (t u : State), runEngines σ s = .next t → runEngines τ s = .next u → t.Quiet → u.Quiet →
      s.AgreeAfter t u
end

