-- ==== Sys2Proof/Laws/Memory.lean ====
section
/-! SUPPORT. The laws of the two spaces: what a read gives after each memory operation, and that every operation keeps
the canonical form. -/

namespace Sys2Proof.Machine

/-! ## Looking an address up in a filtered list -/

theorem find_filter_out {α : Type} (m : List (Nat × α)) (p : Nat → Bool) (a : Nat) (h : p a = false) :
    (m.filter (fun c => p c.1)).find? (fun c => c.1 == a) = none := by
  rw [List.find?_eq_none]
  intro c hc
  have hp := (List.mem_filter.mp hc).2
  simp only [beq_iff_eq]
  rintro rfl
  simp_all

theorem find_filter_in {α : Type} (m : List (Nat × α)) (p : Nat → Bool) (a : Nat) (h : p a = true) :
    (m.filter (fun c => p c.1)).find? (fun c => c.1 == a) = m.find? (fun c => c.1 == a) := by
  induction m with
  | nil => rfl
  | cons c m ih =>
    by_cases hc : c.1 = a
    · simp [hc, h]
    · by_cases hp : p c.1 = true
      · simp [hp, hc, ih]
      · simp [hp, hc, ih]

/-! ## `cells` -/

theorem cells_find (bytes : List Byte) (base a : Nat) :
    (Memory.cells base bytes).find? (fun c => c.1 == a) =
      if base ≤ a ∧ a < base + bytes.length ∧ bytes.getD (a - base) Memory.unlisted ≠ Memory.unlisted then
        some (a, bytes.getD (a - base) Memory.unlisted) else none := by
  induction bytes generalizing base with
  | nil => simp [Memory.cells]
  | cons b bs ih =>
    have hshift : ∀ h : base + 1 ≤ a, (b :: bs).getD (a - base) Memory.unlisted
        = bs.getD (a - (base + 1)) Memory.unlisted := by
      intro h
      rw [show a - base = (a - (base + 1)) + 1 by omega]
      simp
    by_cases hb : b = Memory.unlisted
    · rw [Memory.cells, if_pos hb, ih]
      by_cases hlt : base + 1 ≤ a
      · rw [hshift hlt]
        simp only [List.length_cons]
        congr 1
        apply propext
        constructor <;> (rintro ⟨h1, h2, h3⟩; exact ⟨by omega, by omega, h3⟩)
      · rw [if_neg (by omega), if_neg]
        rintro ⟨h1, _, h3⟩
        have : a = base := by omega
        subst this
        simp [hb] at h3
    · rw [Memory.cells, if_neg hb]
      by_cases hba : base = a
      · subst hba
        simp [hb]
      · rw [List.find?_cons_of_neg (by simpa using hba), ih]
        by_cases hlt : base + 1 ≤ a
        · rw [hshift hlt]
          simp only [List.length_cons]
          congr 1
          apply propext
          constructor <;> (rintro ⟨h1, h2, h3⟩; exact ⟨by omega, by omega, h3⟩)
        · rw [if_neg (by omega), if_neg (by omega)]

theorem cells_mem {bytes : List Byte} {base : Nat} {c : Host.Cell} (h : c ∈ Memory.cells base bytes) :
    base ≤ c.1 ∧ c.1 < base + bytes.length ∧ c.2 ≠ Memory.unlisted := by
  induction bytes generalizing base with
  | nil => simp [Memory.cells] at h
  | cons b bs ih =>
    rw [Memory.cells] at h
    split at h
    · obtain ⟨h1, h2, h3⟩ := ih h
      exact ⟨by omega, by simp only [List.length_cons]; omega, h3⟩
    · rcases List.mem_cons.mp h with rfl | h
      · exact ⟨Nat.le_refl _, by simp, by assumption⟩
      · obtain ⟨h1, h2, h3⟩ := ih h
        exact ⟨by omega, by simp only [List.length_cons]; omega, h3⟩

theorem cells_pairwise (bytes : List Byte) (base : Nat) :
    (Memory.cells base bytes).Pairwise (fun c d => c.1 < d.1) := by
  induction bytes generalizing base with
  | nil => simp [Memory.cells]
  | cons b bs ih =>
    rw [Memory.cells]
    split
    · exact ih _
    · refine List.pairwise_cons.mpr ⟨fun d hd => ?_, ih _⟩
      have := (cells_mem hd).1
      exact Nat.lt_of_lt_of_le (Nat.lt_succ_self _) this

/-! ## Reads after writes -/

@[simp] theorem get_nil (a : Nat) : Memory.get [] a = Memory.unlisted := rfl

/-- A read after a write gives the byte written, or what it gave before. -/
theorem get_put (m : Memory) (base : Nat) (bytes : List Byte) (a : Nat) :
    (m.put base bytes).get a =
      if base ≤ a ∧ a < base + bytes.length then bytes.getD (a - base) Memory.unlisted else m.get a := by
  have hlow := fun h => find_filter_out m (fun k => decide (k < base)) a h
  have hlow' := fun h => find_filter_in m (fun k => decide (k < base)) a h
  have hhigh := fun h => find_filter_out m (fun k => decide (base + bytes.length ≤ k)) a h
  have hhigh' := fun h => find_filter_in m (fun k => decide (base + bytes.length ≤ k)) a h
  simp only [Memory.put, Memory.get, List.find?_append, cells_find]
  by_cases h1 : a < base
  · rw [hlow' (by simpa using h1), hhigh (by simp; omega), if_neg (by omega), if_neg (by omega)]
    simp
  · rw [hlow (by simp; omega)]
    by_cases h2 : base + bytes.length ≤ a
    · rw [hhigh' (by simpa using h2), if_neg (by omega), if_neg (by omega)]
      simp
    · rw [hhigh (by simp; omega), if_pos (⟨by omega, by omega⟩ : base ≤ a ∧ a < base + bytes.length)]
      by_cases hb : bytes.getD (a - base) Memory.unlisted = Memory.unlisted
      · rw [if_neg (by tauto), hb]
        rfl
      · rw [if_pos ⟨by omega, by omega, hb⟩]
        rfl

theorem get_cut (m : Memory) (lo hi a : Nat) :
    (m.cut lo hi).get a = if lo ≤ a ∧ a < hi then Memory.unlisted else m.get a := by
  simp only [Memory.cut, Memory.get]
  by_cases h : lo ≤ a ∧ a < hi
  · rw [find_filter_out m (fun k => decide (k < lo) || decide (hi ≤ k)) a (by simp; omega), if_pos h]
  · rw [find_filter_in m (fun k => decide (k < lo) || decide (hi ≤ k)) a (by simp; omega), if_neg h]

theorem draws_cut_find (d : Draws) (lo hi a : Nat) :
    (d.cut lo hi).find? (fun c => c.1 == a) =
      if lo ≤ a ∧ a < hi then none else d.find? (fun c => c.1 == a) := by
  simp only [Draws.cut]
  by_cases h : lo ≤ a ∧ a < hi
  · rw [find_filter_out d (fun k => decide (k < lo) || decide (hi ≤ k)) a (by simp; omega), if_pos h]
  · rw [find_filter_in d (fun k => decide (k < lo) || decide (hi ≤ k)) a (by simp; omega), if_neg h]

theorem range_draws_find (lo n k a : Nat) :
    ((List.range n).map (fun i => (lo + i, k + i))).find? (fun c => c.1 == a) =
      if lo ≤ a ∧ a < lo + n then some (a, k + (a - lo)) else none := by
  induction n with
  | zero => simp
  | succ n ih =>
    rw [List.range_succ, List.map_append, List.find?_append, ih]
    by_cases h : lo ≤ a ∧ a < lo + n
    · rw [if_pos h, if_pos (by omega)]
      rfl
    · rw [if_neg h]
      by_cases h2 : lo + n = a
      · subst h2
        rw [if_pos (by omega)]
        simp
      · rw [if_neg (by omega)]
        simp [h2]

theorem draws_put_find (d : Draws) (lo n k a : Nat) :
    (d.put lo n k).find? (fun c => c.1 == a) =
      if lo ≤ a ∧ a < lo + n then some (a, k + (a - lo)) else d.find? (fun c => c.1 == a) := by
  simp only [Draws.put, List.find?_append, range_draws_find]
  by_cases h1 : a < lo
  · rw [find_filter_in d (fun k => decide (k < lo)) a (by simpa using h1),
      find_filter_out d (fun k => decide (lo + n ≤ k)) a (by simp; omega), if_neg (by omega), if_neg (by omega)]
    simp
  · rw [find_filter_out d (fun k => decide (k < lo)) a (by simp; omega)]
    by_cases h2 : lo + n ≤ a
    · rw [find_filter_in d (fun k => decide (lo + n ≤ k)) a (by simpa using h2), if_neg (by omega),
        if_neg (by omega)]
      simp
    · rw [find_filter_out d (fun k => decide (lo + n ≤ k)) a (by simp; omega),
        if_pos (⟨by omega, by omega⟩ : lo ≤ a ∧ a < lo + n)]
      rw [if_pos ⟨by omega, by omega⟩]
      rfl

/-- `OUT[a]` after a store: the byte stored, or what it was. -/
theorem readOut_storeOut {s t : State} {base : Nat} {bytes : List Byte} (h : s.storeOut base bytes = .next t)
    (a : Nat) :
    t.readOut a =
      if base ≤ a ∧ a < base + bytes.length then bytes.getD (a - base) Memory.unlisted else s.readOut a := by
  simp only [State.storeOut] at h
  split at h
  · cases h
    simp only [State.readOut, draws_cut_find, get_put]
    by_cases hin : base ≤ a ∧ a < base + bytes.length
    · simp only [if_pos hin]
    · simp only [if_neg hin]
  · cases h

/-- `OUT[a]` after bytes became unspecified: a free byte inside, what it was outside. -/
theorem readOut_scrambleOut (s : State) (lo n a : Nat) :
    (s.scrambleOut lo n).readOut a =
      if lo ≤ a ∧ a < lo + n then Config.freeByte (s.freeCount + (a - lo)) else s.readOut a := by
  simp only [State.scrambleOut, State.readOut, draws_put_find, get_cut]
  by_cases hin : lo ≤ a ∧ a < lo + n
  · simp only [if_pos hin]
  · simp only [if_neg hin]

/-- `IN[a]` after a store. -/
theorem readIn_storeIn {s t : State} {b : Byte} {base : Nat} (h : s.storeIn base b = .next t) (a : Nat) :
    t.readIn a = if a = base then b else s.readIn a := by
  simp only [State.storeIn] at h
  split at h
  · cases h
    simp only [State.readIn, get_put, List.length_singleton]
    by_cases hab : a = base
    · subst hab
      simp
    · rw [if_neg (by omega), if_neg hab]
  · cases h

/-! ## The canonical form is kept -/

theorem pairwise_parts {α : Type} {m new : List (Nat × α)} {lo hi : Nat} (hm : m.Pairwise (fun c d => c.1 < d.1))
    (hnew : new.Pairwise (fun c d => c.1 < d.1)) (hin : ∀ c ∈ new, lo ≤ c.1 ∧ c.1 < hi) (hlo : lo ≤ hi) :
    (m.filter (fun c => decide (c.1 < lo)) ++ new ++ m.filter (fun c => decide (hi ≤ c.1))).Pairwise
      (fun c d => c.1 < d.1) := by
  rw [List.pairwise_append, List.pairwise_append]
  refine ⟨⟨hm.filter _, hnew, fun c hc d hd => ?_⟩, hm.filter _, fun c hc d hd => ?_⟩
  · have h1 := (List.mem_filter.mp hc).2
    have h2 := hin d hd
    simp only [decide_eq_true_eq] at h1
    omega
  · have h2 := (List.mem_filter.mp hd).2
    simp only [decide_eq_true_eq] at h2
    rcases List.mem_append.mp hc with hc | hc
    · have h1 := (List.mem_filter.mp hc).2
      simp only [decide_eq_true_eq] at h1
      omega
    · have := hin c hc
      omega

theorem put_wf {m : Memory} {base : Nat} {bytes : List Byte} (h : m.wf) (hb : base + bytes.length ≤ spaceSize) :
    (m.put base bytes).wf := by
  refine ⟨pairwise_parts h.1 (cells_pairwise _ _) (fun c hc => ?_) (by omega), fun c hc => ?_⟩
  · exact ⟨(cells_mem hc).1, (cells_mem hc).2.1⟩
  · rcases List.mem_append.mp hc with hc | hc
    · rcases List.mem_append.mp hc with hc | hc
      · exact h.2 c (List.mem_filter.mp hc).1
      · have := cells_mem hc
        exact ⟨this.2.2, by omega⟩
    · exact h.2 c (List.mem_filter.mp hc).1

theorem cut_wf {m : Memory} {lo hi : Nat} (h : m.wf) : (m.cut lo hi).wf :=
  ⟨h.1.filter _, fun c hc => h.2 c (List.mem_filter.mp hc).1⟩

theorem draws_cut_wf {d : Draws} {lo hi : Nat} (h : d.wf) : (d.cut lo hi).wf :=
  ⟨h.1.filter _, fun c hc => h.2 c (List.mem_filter.mp hc).1⟩

theorem draws_put_wf {d : Draws} {lo n k : Nat} (h : d.wf) (hb : lo + n ≤ spaceSize ∨ n = 0) : (d.put lo n k).wf := by
  refine ⟨pairwise_parts h.1 ?_ (fun c hc => ?_) (by omega), fun c hc => ?_⟩
  · rw [List.pairwise_map]
    exact List.pairwise_lt_range.imp (fun hab => by simpa using hab)
  · obtain ⟨i, hi, rfl⟩ := List.mem_map.mp hc
    have := List.mem_range.mp hi
    simp only
    omega
  · rcases List.mem_append.mp hc with hc | hc
    · rcases List.mem_append.mp hc with hc | hc
      · exact h.2 c (List.mem_filter.mp hc).1
      · obtain ⟨i, hi, rfl⟩ := List.mem_map.mp hc
        have := List.mem_range.mp hi
        simp only
        omega
    · exact h.2 c (List.mem_filter.mp hc).1

end Sys2Proof.Machine
end

