-- ==== Sys2Proof/Laws/State.lean ====
section
/-! SUPPORT. The fields of a state after each named update, one lemma a field, true by rfl, so that no later proof
unfolds a record update. -/

namespace Sys2Proof.Machine

/-! ## `setStatus`, bank by bank -/

@[simp] theorem State.setStatus_br_br (s : State) (x : Status) :
    (s.setStatus .br x).br = { s.br with status := x } := rfl
@[simp] theorem State.setStatus_br_nb (s : State) (x : Status) :
    (s.setStatus .br x).nb = s.nb := rfl
@[simp] theorem State.setStatus_br_fx (s : State) (x : Status) :
    (s.setStatus .br x).fx = s.fx := rfl
@[simp] theorem State.setStatus_br_inMem (s : State) (x : Status) :
    (s.setStatus .br x).inMem = s.inMem := rfl
@[simp] theorem State.setStatus_br_outMem (s : State) (x : Status) :
    (s.setStatus .br x).outMem = s.outMem := rfl
@[simp] theorem State.setStatus_br_outDraws (s : State) (x : Status) :
    (s.setStatus .br x).outDraws = s.outDraws := rfl
@[simp] theorem State.setStatus_br_params (s : State) (x : Status) :
    (s.setStatus .br x).params = s.params := rfl
@[simp] theorem State.setStatus_br_inputs (s : State) (x : Status) :
    (s.setStatus .br x).inputs = s.inputs := rfl
@[simp] theorem State.setStatus_br_replies (s : State) (x : Status) :
    (s.setStatus .br x).replies = s.replies := rfl
@[simp] theorem State.setStatus_br_hostTotal (s : State) (x : Status) :
    (s.setStatus .br x).hostTotal = s.hostTotal := rfl
@[simp] theorem State.setStatus_br_hostKept (s : State) (x : Status) :
    (s.setStatus .br x).hostKept = s.hostKept := rfl
@[simp] theorem State.setStatus_br_turn (s : State) (x : Status) :
    (s.setStatus .br x).turn = s.turn := rfl
@[simp] theorem State.setStatus_br_freeCount (s : State) (x : Status) :
    (s.setStatus .br x).freeCount = s.freeCount := rfl

/-! ## `setStatus` of NB -/

@[simp] theorem State.setStatus_nb_br (s : State) (x : Status) :
    (s.setStatus .nb x).br = s.br := rfl
@[simp] theorem State.setStatus_nb_nb (s : State) (x : Status) :
    (s.setStatus .nb x).nb = { s.nb with status := x } := rfl
@[simp] theorem State.setStatus_nb_fx (s : State) (x : Status) :
    (s.setStatus .nb x).fx = s.fx := rfl
@[simp] theorem State.setStatus_nb_inMem (s : State) (x : Status) :
    (s.setStatus .nb x).inMem = s.inMem := rfl
@[simp] theorem State.setStatus_nb_outMem (s : State) (x : Status) :
    (s.setStatus .nb x).outMem = s.outMem := rfl
@[simp] theorem State.setStatus_nb_outDraws (s : State) (x : Status) :
    (s.setStatus .nb x).outDraws = s.outDraws := rfl
@[simp] theorem State.setStatus_nb_params (s : State) (x : Status) :
    (s.setStatus .nb x).params = s.params := rfl
@[simp] theorem State.setStatus_nb_inputs (s : State) (x : Status) :
    (s.setStatus .nb x).inputs = s.inputs := rfl
@[simp] theorem State.setStatus_nb_replies (s : State) (x : Status) :
    (s.setStatus .nb x).replies = s.replies := rfl
@[simp] theorem State.setStatus_nb_hostTotal (s : State) (x : Status) :
    (s.setStatus .nb x).hostTotal = s.hostTotal := rfl
@[simp] theorem State.setStatus_nb_hostKept (s : State) (x : Status) :
    (s.setStatus .nb x).hostKept = s.hostKept := rfl
@[simp] theorem State.setStatus_nb_turn (s : State) (x : Status) :
    (s.setStatus .nb x).turn = s.turn := rfl
@[simp] theorem State.setStatus_nb_freeCount (s : State) (x : Status) :
    (s.setStatus .nb x).freeCount = s.freeCount := rfl

/-! ## `setStatus` of FX -/

@[simp] theorem State.setStatus_fx_br (s : State) (x : Status) :
    (s.setStatus .fx x).br = s.br := rfl
@[simp] theorem State.setStatus_fx_nb (s : State) (x : Status) :
    (s.setStatus .fx x).nb = s.nb := rfl
@[simp] theorem State.setStatus_fx_fx (s : State) (x : Status) :
    (s.setStatus .fx x).fx = { s.fx with status := x } := rfl
@[simp] theorem State.setStatus_fx_inMem (s : State) (x : Status) :
    (s.setStatus .fx x).inMem = s.inMem := rfl
@[simp] theorem State.setStatus_fx_outMem (s : State) (x : Status) :
    (s.setStatus .fx x).outMem = s.outMem := rfl
@[simp] theorem State.setStatus_fx_outDraws (s : State) (x : Status) :
    (s.setStatus .fx x).outDraws = s.outDraws := rfl
@[simp] theorem State.setStatus_fx_params (s : State) (x : Status) :
    (s.setStatus .fx x).params = s.params := rfl
@[simp] theorem State.setStatus_fx_inputs (s : State) (x : Status) :
    (s.setStatus .fx x).inputs = s.inputs := rfl
@[simp] theorem State.setStatus_fx_replies (s : State) (x : Status) :
    (s.setStatus .fx x).replies = s.replies := rfl
@[simp] theorem State.setStatus_fx_hostTotal (s : State) (x : Status) :
    (s.setStatus .fx x).hostTotal = s.hostTotal := rfl
@[simp] theorem State.setStatus_fx_hostKept (s : State) (x : Status) :
    (s.setStatus .fx x).hostKept = s.hostKept := rfl
@[simp] theorem State.setStatus_fx_turn (s : State) (x : Status) :
    (s.setStatus .fx x).turn = s.turn := rfl
@[simp] theorem State.setStatus_fx_freeCount (s : State) (x : Status) :
    (s.setStatus .fx x).freeCount = s.freeCount := rfl

/-! ## `scrambleOut` -/

@[simp] theorem State.scrambleOut_br (s : State) (lo n : Nat) :
    (s.scrambleOut lo n).br = s.br := rfl
@[simp] theorem State.scrambleOut_nb (s : State) (lo n : Nat) :
    (s.scrambleOut lo n).nb = s.nb := rfl
@[simp] theorem State.scrambleOut_fx (s : State) (lo n : Nat) :
    (s.scrambleOut lo n).fx = s.fx := rfl
@[simp] theorem State.scrambleOut_inMem (s : State) (lo n : Nat) :
    (s.scrambleOut lo n).inMem = s.inMem := rfl
@[simp] theorem State.scrambleOut_outMem (s : State) (lo n : Nat) :
    (s.scrambleOut lo n).outMem = s.outMem.cut lo (lo + n) := rfl
@[simp] theorem State.scrambleOut_outDraws (s : State) (lo n : Nat) :
    (s.scrambleOut lo n).outDraws = s.outDraws.put lo n s.freeCount := rfl
@[simp] theorem State.scrambleOut_params (s : State) (lo n : Nat) :
    (s.scrambleOut lo n).params = s.params := rfl
@[simp] theorem State.scrambleOut_inputs (s : State) (lo n : Nat) :
    (s.scrambleOut lo n).inputs = s.inputs := rfl
@[simp] theorem State.scrambleOut_replies (s : State) (lo n : Nat) :
    (s.scrambleOut lo n).replies = s.replies := rfl
@[simp] theorem State.scrambleOut_hostTotal (s : State) (lo n : Nat) :
    (s.scrambleOut lo n).hostTotal = s.hostTotal := rfl
@[simp] theorem State.scrambleOut_hostKept (s : State) (lo n : Nat) :
    (s.scrambleOut lo n).hostKept = s.hostKept := rfl
@[simp] theorem State.scrambleOut_turn (s : State) (lo n : Nat) :
    (s.scrambleOut lo n).turn = s.turn := rfl
@[simp] theorem State.scrambleOut_freeCount (s : State) (lo n : Nat) :
    (s.scrambleOut lo n).freeCount = s.freeCount + n := rfl

/-! ## `withBrTodo` -/

@[simp] theorem State.withBrTodo_br (s : State) (j : BrJob) (rest : List BrItem) :
    (s.withBrTodo j rest).br = { s.br with job := some { j with todo := rest } } := rfl
@[simp] theorem State.withBrTodo_nb (s : State) (j : BrJob) (rest : List BrItem) :
    (s.withBrTodo j rest).nb = s.nb := rfl
@[simp] theorem State.withBrTodo_fx (s : State) (j : BrJob) (rest : List BrItem) :
    (s.withBrTodo j rest).fx = s.fx := rfl
@[simp] theorem State.withBrTodo_inMem (s : State) (j : BrJob) (rest : List BrItem) :
    (s.withBrTodo j rest).inMem = s.inMem := rfl
@[simp] theorem State.withBrTodo_outMem (s : State) (j : BrJob) (rest : List BrItem) :
    (s.withBrTodo j rest).outMem = s.outMem := rfl
@[simp] theorem State.withBrTodo_outDraws (s : State) (j : BrJob) (rest : List BrItem) :
    (s.withBrTodo j rest).outDraws = s.outDraws := rfl
@[simp] theorem State.withBrTodo_params (s : State) (j : BrJob) (rest : List BrItem) :
    (s.withBrTodo j rest).params = s.params := rfl
@[simp] theorem State.withBrTodo_inputs (s : State) (j : BrJob) (rest : List BrItem) :
    (s.withBrTodo j rest).inputs = s.inputs := rfl
@[simp] theorem State.withBrTodo_replies (s : State) (j : BrJob) (rest : List BrItem) :
    (s.withBrTodo j rest).replies = s.replies := rfl
@[simp] theorem State.withBrTodo_hostTotal (s : State) (j : BrJob) (rest : List BrItem) :
    (s.withBrTodo j rest).hostTotal = s.hostTotal := rfl
@[simp] theorem State.withBrTodo_hostKept (s : State) (j : BrJob) (rest : List BrItem) :
    (s.withBrTodo j rest).hostKept = s.hostKept := rfl
@[simp] theorem State.withBrTodo_turn (s : State) (j : BrJob) (rest : List BrItem) :
    (s.withBrTodo j rest).turn = s.turn := rfl
@[simp] theorem State.withBrTodo_freeCount (s : State) (j : BrJob) (rest : List BrItem) :
    (s.withBrTodo j rest).freeCount = s.freeCount := rfl

/-! ## `withNbTodo` -/

@[simp] theorem State.withNbTodo_br (s : State) (j : NbJob) (rest : List NbItem) :
    (s.withNbTodo j rest).br = s.br := rfl
@[simp] theorem State.withNbTodo_nb (s : State) (j : NbJob) (rest : List NbItem) :
    (s.withNbTodo j rest).nb = { s.nb with job := some { j with todo := rest } } := rfl
@[simp] theorem State.withNbTodo_fx (s : State) (j : NbJob) (rest : List NbItem) :
    (s.withNbTodo j rest).fx = s.fx := rfl
@[simp] theorem State.withNbTodo_inMem (s : State) (j : NbJob) (rest : List NbItem) :
    (s.withNbTodo j rest).inMem = s.inMem := rfl
@[simp] theorem State.withNbTodo_outMem (s : State) (j : NbJob) (rest : List NbItem) :
    (s.withNbTodo j rest).outMem = s.outMem := rfl
@[simp] theorem State.withNbTodo_outDraws (s : State) (j : NbJob) (rest : List NbItem) :
    (s.withNbTodo j rest).outDraws = s.outDraws := rfl
@[simp] theorem State.withNbTodo_params (s : State) (j : NbJob) (rest : List NbItem) :
    (s.withNbTodo j rest).params = s.params := rfl
@[simp] theorem State.withNbTodo_inputs (s : State) (j : NbJob) (rest : List NbItem) :
    (s.withNbTodo j rest).inputs = s.inputs := rfl
@[simp] theorem State.withNbTodo_replies (s : State) (j : NbJob) (rest : List NbItem) :
    (s.withNbTodo j rest).replies = s.replies := rfl
@[simp] theorem State.withNbTodo_hostTotal (s : State) (j : NbJob) (rest : List NbItem) :
    (s.withNbTodo j rest).hostTotal = s.hostTotal := rfl
@[simp] theorem State.withNbTodo_hostKept (s : State) (j : NbJob) (rest : List NbItem) :
    (s.withNbTodo j rest).hostKept = s.hostKept := rfl
@[simp] theorem State.withNbTodo_turn (s : State) (j : NbJob) (rest : List NbItem) :
    (s.withNbTodo j rest).turn = s.turn := rfl
@[simp] theorem State.withNbTodo_freeCount (s : State) (j : NbJob) (rest : List NbItem) :
    (s.withNbTodo j rest).freeCount = s.freeCount := rfl

/-! ## `passTurn` -/

@[simp] theorem State.passTurn_br (s : State)  :
    (s.passTurn).br = s.br := rfl
@[simp] theorem State.passTurn_nb (s : State)  :
    (s.passTurn).nb = s.nb := rfl
@[simp] theorem State.passTurn_fx (s : State)  :
    (s.passTurn).fx = s.fx := rfl
@[simp] theorem State.passTurn_inMem (s : State)  :
    (s.passTurn).inMem = s.inMem := rfl
@[simp] theorem State.passTurn_outMem (s : State)  :
    (s.passTurn).outMem = s.outMem := rfl
@[simp] theorem State.passTurn_outDraws (s : State)  :
    (s.passTurn).outDraws = s.outDraws := rfl
@[simp] theorem State.passTurn_params (s : State)  :
    (s.passTurn).params = s.params := rfl
@[simp] theorem State.passTurn_inputs (s : State)  :
    (s.passTurn).inputs = s.inputs := rfl
@[simp] theorem State.passTurn_replies (s : State)  :
    (s.passTurn).replies = s.replies := rfl
@[simp] theorem State.passTurn_hostTotal (s : State)  :
    (s.passTurn).hostTotal = s.hostTotal := rfl
@[simp] theorem State.passTurn_hostKept (s : State)  :
    (s.passTurn).hostKept = s.hostKept := rfl
@[simp] theorem State.passTurn_turn (s : State)  :
    (s.passTurn).turn = Config.freeTurn s.freeCount := rfl
@[simp] theorem State.passTurn_freeCount (s : State)  :
    (s.passTurn).freeCount = s.freeCount + 1 := rfl

/-! ## `reply` -/

@[simp] theorem State.reply_br (s : State) (v : Word) :
    (s.reply v).br = s.br := rfl
@[simp] theorem State.reply_nb (s : State) (v : Word) :
    (s.reply v).nb = s.nb := rfl
@[simp] theorem State.reply_fx (s : State) (v : Word) :
    (s.reply v).fx = s.fx := rfl
@[simp] theorem State.reply_inMem (s : State) (v : Word) :
    (s.reply v).inMem = s.inMem := rfl
@[simp] theorem State.reply_outMem (s : State) (v : Word) :
    (s.reply v).outMem = s.outMem := rfl
@[simp] theorem State.reply_outDraws (s : State) (v : Word) :
    (s.reply v).outDraws = s.outDraws := rfl
@[simp] theorem State.reply_params (s : State) (v : Word) :
    (s.reply v).params = s.params := rfl
@[simp] theorem State.reply_inputs (s : State) (v : Word) :
    (s.reply v).inputs = s.inputs := rfl
@[simp] theorem State.reply_replies (s : State) (v : Word) :
    (s.reply v).replies = s.replies ++ [v] := rfl
@[simp] theorem State.reply_hostTotal (s : State) (v : Word) :
    (s.reply v).hostTotal = s.hostTotal := rfl
@[simp] theorem State.reply_hostKept (s : State) (v : Word) :
    (s.reply v).hostKept = s.hostKept := rfl
@[simp] theorem State.reply_turn (s : State) (v : Word) :
    (s.reply v).turn = s.turn := rfl
@[simp] theorem State.reply_freeCount (s : State) (v : Word) :
    (s.reply v).freeCount = s.freeCount := rfl

/-! ## `loopResult` -/

@[simp] theorem State.loopResult_br (s : State) (total : Nat) :
    (s.loopResult total).br = s.br := rfl
@[simp] theorem State.loopResult_nb (s : State) (total : Nat) :
    (s.loopResult total).nb = s.nb := rfl
@[simp] theorem State.loopResult_fx (s : State) (total : Nat) :
    (s.loopResult total).fx = s.fx := rfl
@[simp] theorem State.loopResult_inMem (s : State) (total : Nat) :
    (s.loopResult total).inMem = s.inMem := rfl
@[simp] theorem State.loopResult_outMem (s : State) (total : Nat) :
    (s.loopResult total).outMem = s.outMem := rfl
@[simp] theorem State.loopResult_outDraws (s : State) (total : Nat) :
    (s.loopResult total).outDraws = s.outDraws := rfl
@[simp] theorem State.loopResult_params (s : State) (total : Nat) :
    (s.loopResult total).params = s.params := rfl
@[simp] theorem State.loopResult_inputs (s : State) (total : Nat) :
    (s.loopResult total).inputs = s.inputs := rfl
@[simp] theorem State.loopResult_replies (s : State) (total : Nat) :
    (s.loopResult total).replies = s.replies := rfl
@[simp] theorem State.loopResult_hostTotal (s : State) (total : Nat) :
    (s.loopResult total).hostTotal = total := rfl
@[simp] theorem State.loopResult_hostKept (s : State) (total : Nat) :
    (s.loopResult total).hostKept = s.hostKept := rfl
@[simp] theorem State.loopResult_turn (s : State) (total : Nat) :
    (s.loopResult total).turn = s.turn := rfl
@[simp] theorem State.loopResult_freeCount (s : State) (total : Nat) :
    (s.loopResult total).freeCount = s.freeCount := rfl

/-! ## `withKept` -/

@[simp] theorem State.withKept_br (s : State) (kept : List KeptChunk) :
    (s.withKept kept).br = s.br := rfl
@[simp] theorem State.withKept_nb (s : State) (kept : List KeptChunk) :
    (s.withKept kept).nb = s.nb := rfl
@[simp] theorem State.withKept_fx (s : State) (kept : List KeptChunk) :
    (s.withKept kept).fx = s.fx := rfl
@[simp] theorem State.withKept_inMem (s : State) (kept : List KeptChunk) :
    (s.withKept kept).inMem = s.inMem := rfl
@[simp] theorem State.withKept_outMem (s : State) (kept : List KeptChunk) :
    (s.withKept kept).outMem = s.outMem := rfl
@[simp] theorem State.withKept_outDraws (s : State) (kept : List KeptChunk) :
    (s.withKept kept).outDraws = s.outDraws := rfl
@[simp] theorem State.withKept_params (s : State) (kept : List KeptChunk) :
    (s.withKept kept).params = s.params := rfl
@[simp] theorem State.withKept_inputs (s : State) (kept : List KeptChunk) :
    (s.withKept kept).inputs = s.inputs := rfl
@[simp] theorem State.withKept_replies (s : State) (kept : List KeptChunk) :
    (s.withKept kept).replies = s.replies := rfl
@[simp] theorem State.withKept_hostTotal (s : State) (kept : List KeptChunk) :
    (s.withKept kept).hostTotal = s.hostTotal := rfl
@[simp] theorem State.withKept_hostKept (s : State) (kept : List KeptChunk) :
    (s.withKept kept).hostKept = kept := rfl
@[simp] theorem State.withKept_turn (s : State) (kept : List KeptChunk) :
    (s.withKept kept).turn = s.turn := rfl
@[simp] theorem State.withKept_freeCount (s : State) (kept : List KeptChunk) :
    (s.withKept kept).freeCount = s.freeCount := rfl

/-! ## `keepChunk` -/

@[simp] theorem State.keepChunk_br (s : State) (prev : BitVec 1) :
    (s.keepChunk prev).br = s.br := rfl
@[simp] theorem State.keepChunk_nb (s : State) (prev : BitVec 1) :
    (s.keepChunk prev).nb = s.nb := rfl
@[simp] theorem State.keepChunk_fx (s : State) (prev : BitVec 1) :
    (s.keepChunk prev).fx = s.fx := rfl
@[simp] theorem State.keepChunk_inMem (s : State) (prev : BitVec 1) :
    (s.keepChunk prev).inMem = s.inMem := rfl
@[simp] theorem State.keepChunk_outMem (s : State) (prev : BitVec 1) :
    (s.keepChunk prev).outMem = s.outMem := rfl
@[simp] theorem State.keepChunk_outDraws (s : State) (prev : BitVec 1) :
    (s.keepChunk prev).outDraws = s.outDraws := rfl
@[simp] theorem State.keepChunk_params (s : State) (prev : BitVec 1) :
    (s.keepChunk prev).params = s.params := rfl
@[simp] theorem State.keepChunk_inputs (s : State) (prev : BitVec 1) :
    (s.keepChunk prev).inputs = s.inputs := rfl
@[simp] theorem State.keepChunk_replies (s : State) (prev : BitVec 1) :
    (s.keepChunk prev).replies = s.replies := rfl
@[simp] theorem State.keepChunk_hostTotal (s : State) (prev : BitVec 1) :
    (s.keepChunk prev).hostTotal = s.hostTotal := rfl
@[simp] theorem State.keepChunk_hostKept (s : State) (prev : BitVec 1) :
    (s.keepChunk prev).hostKept = s.hostKept ++ [s.br.keptChunk prev] := rfl
@[simp] theorem State.keepChunk_turn (s : State) (prev : BitVec 1) :
    (s.keepChunk prev).turn = s.turn := rfl
@[simp] theorem State.keepChunk_freeCount (s : State) (prev : BitVec 1) :
    (s.keepChunk prev).freeCount = s.freeCount := rfl

/-! ## `failFatalBr` -/

@[simp] theorem State.failFatalBr_br (s : State) (j : BrJob) (e : ErrCode) :
    (s.failFatalBr j e).br = { s.br.unspecified (s.freeCount + j.need) with status := Status.failed e, job := none } := rfl
@[simp] theorem State.failFatalBr_nb (s : State) (j : BrJob) (e : ErrCode) :
    (s.failFatalBr j e).nb = s.nb := rfl
@[simp] theorem State.failFatalBr_fx (s : State) (j : BrJob) (e : ErrCode) :
    (s.failFatalBr j e).fx = s.fx := rfl
@[simp] theorem State.failFatalBr_inMem (s : State) (j : BrJob) (e : ErrCode) :
    (s.failFatalBr j e).inMem = s.inMem := rfl
@[simp] theorem State.failFatalBr_outMem (s : State) (j : BrJob) (e : ErrCode) :
    (s.failFatalBr j e).outMem = s.outMem.cut j.outBase (j.outBase + j.need) := rfl
@[simp] theorem State.failFatalBr_outDraws (s : State) (j : BrJob) (e : ErrCode) :
    (s.failFatalBr j e).outDraws = s.outDraws.put j.outBase j.need s.freeCount := rfl
@[simp] theorem State.failFatalBr_params (s : State) (j : BrJob) (e : ErrCode) :
    (s.failFatalBr j e).params = s.params := rfl
@[simp] theorem State.failFatalBr_inputs (s : State) (j : BrJob) (e : ErrCode) :
    (s.failFatalBr j e).inputs = s.inputs := rfl
@[simp] theorem State.failFatalBr_replies (s : State) (j : BrJob) (e : ErrCode) :
    (s.failFatalBr j e).replies = s.replies := rfl
@[simp] theorem State.failFatalBr_hostTotal (s : State) (j : BrJob) (e : ErrCode) :
    (s.failFatalBr j e).hostTotal = s.hostTotal := rfl
@[simp] theorem State.failFatalBr_hostKept (s : State) (j : BrJob) (e : ErrCode) :
    (s.failFatalBr j e).hostKept = s.hostKept := rfl
@[simp] theorem State.failFatalBr_turn (s : State) (j : BrJob) (e : ErrCode) :
    (s.failFatalBr j e).turn = s.turn := rfl
@[simp] theorem State.failFatalBr_freeCount (s : State) (j : BrJob) (e : ErrCode) :
    (s.failFatalBr j e).freeCount = s.freeCount + j.need + 8 := rfl

/-! ## `failFatalNb` -/

@[simp] theorem State.failFatalNb_br (s : State) (j : NbJob) (e : ErrCode) :
    (s.failFatalNb j e).br = s.br := rfl
@[simp] theorem State.failFatalNb_nb (s : State) (j : NbJob) (e : ErrCode) :
    (s.failFatalNb j e).nb = { s.nb.unspecified (s.freeCount + j.need) with status := Status.failed e, job := none } := rfl
@[simp] theorem State.failFatalNb_fx (s : State) (j : NbJob) (e : ErrCode) :
    (s.failFatalNb j e).fx = s.fx := rfl
@[simp] theorem State.failFatalNb_inMem (s : State) (j : NbJob) (e : ErrCode) :
    (s.failFatalNb j e).inMem = s.inMem := rfl
@[simp] theorem State.failFatalNb_outMem (s : State) (j : NbJob) (e : ErrCode) :
    (s.failFatalNb j e).outMem = s.outMem.cut j.outBase (j.outBase + j.need) := rfl
@[simp] theorem State.failFatalNb_outDraws (s : State) (j : NbJob) (e : ErrCode) :
    (s.failFatalNb j e).outDraws = s.outDraws.put j.outBase j.need s.freeCount := rfl
@[simp] theorem State.failFatalNb_params (s : State) (j : NbJob) (e : ErrCode) :
    (s.failFatalNb j e).params = s.params := rfl
@[simp] theorem State.failFatalNb_inputs (s : State) (j : NbJob) (e : ErrCode) :
    (s.failFatalNb j e).inputs = s.inputs := rfl
@[simp] theorem State.failFatalNb_replies (s : State) (j : NbJob) (e : ErrCode) :
    (s.failFatalNb j e).replies = s.replies := rfl
@[simp] theorem State.failFatalNb_hostTotal (s : State) (j : NbJob) (e : ErrCode) :
    (s.failFatalNb j e).hostTotal = s.hostTotal := rfl
@[simp] theorem State.failFatalNb_hostKept (s : State) (j : NbJob) (e : ErrCode) :
    (s.failFatalNb j e).hostKept = s.hostKept := rfl
@[simp] theorem State.failFatalNb_turn (s : State) (j : NbJob) (e : ErrCode) :
    (s.failFatalNb j e).turn = s.turn := rfl
@[simp] theorem State.failFatalNb_freeCount (s : State) (j : NbJob) (e : ErrCode) :
    (s.failFatalNb j e).freeCount = s.freeCount + j.need + 5 := rfl

/-! ## `resetBanks` -/

@[simp] theorem State.resetBanks_fx (s : State)  :
    (s.resetBanks).fx = FxBank.reset := rfl
@[simp] theorem State.resetBanks_inMem (s : State)  :
    (s.resetBanks).inMem = s.inMem := rfl
@[simp] theorem State.resetBanks_outMem (s : State)  :
    (s.resetBanks).outMem = s.outMem := rfl
@[simp] theorem State.resetBanks_outDraws (s : State)  :
    (s.resetBanks).outDraws = s.outDraws := rfl
@[simp] theorem State.resetBanks_params (s : State)  :
    (s.resetBanks).params = s.params := rfl
@[simp] theorem State.resetBanks_inputs (s : State)  :
    (s.resetBanks).inputs = s.inputs := rfl
@[simp] theorem State.resetBanks_replies (s : State)  :
    (s.resetBanks).replies = s.replies := rfl
@[simp] theorem State.resetBanks_hostTotal (s : State)  :
    (s.resetBanks).hostTotal = s.hostTotal := rfl
@[simp] theorem State.resetBanks_hostKept (s : State)  :
    (s.resetBanks).hostKept = s.hostKept := rfl
@[simp] theorem State.resetBanks_turn (s : State)  :
    (s.resetBanks).turn = s.turn := rfl
@[simp] theorem State.resetBanks_freeCount (s : State)  :
    (s.resetBanks).freeCount = s.freeCount + 6 := rfl

/-! ## `failCommand` writes one `STATUS` (R252) -/

@[simp] theorem State.failCommand_br (s : State) (e : ErrCode) :
    s.failCommand .br e = { s with br := { s.br with status := Status.failed e } } := rfl
@[simp] theorem State.failCommand_nb (s : State) (e : ErrCode) :
    s.failCommand .nb e = { s with nb := { s.nb with status := Status.failed e } } := rfl
@[simp] theorem State.failCommand_fx (s : State) (e : ErrCode) :
    s.failCommand .fx e = { s with fx := { s.fx with status := Status.failed e } } := rfl

/-! ## Banks -/

@[simp] theorem BrBank.finish_status (b : BrBank) (j : BrJob) (m : Byte) :
    (b.finish j m).status = Status.done := rfl
@[simp] theorem BrBank.finish_mask (b : BrBank) (j : BrJob) (m : Byte) :
    (b.finish j m).mask = m := rfl
@[simp] theorem BrBank.finish_maskw (b : BrBank) (j : BrJob) (m : Byte) :
    (b.finish j m).maskw = j.width := rfl
@[simp] theorem BrBank.finish_written (b : BrBank) (j : BrJob) (m : Byte) :
    (b.finish j m).written = toWord j.out.length := rfl
@[simp] theorem BrBank.finish_consumed (b : BrBank) (j : BrJob) (m : Byte) :
    (b.finish j m).consumed = toWord j.len := rfl
@[simp] theorem BrBank.finish_last (b : BrBank) (j : BrJob) (m : Byte) :
    (b.finish j m).last = lsb j.matchEnd := rfl
@[simp] theorem BrBank.finish_icur (b : BrBank) (j : BrJob) (m : Byte) :
    (b.finish j m).icur = toWord (j.inBase + j.len) := rfl
@[simp] theorem BrBank.finish_ocur (b : BrBank) (j : BrJob) (m : Byte) :
    (b.finish j m).ocur = toWord (j.outBase + j.out.length) := rfl
@[simp] theorem BrBank.finish_matchByte (b : BrBank) (j : BrJob) (m : Byte) :
    (b.finish j m).matchByte = j.matchEnd := rfl
@[simp] theorem BrBank.finish_job (b : BrBank) (j : BrJob) (m : Byte) :
    (b.finish j m).job = none := rfl
@[simp] theorem BrBank.finish_buf (b : BrBank) (j : BrJob) (m : Byte) :
    (b.finish j m).buf = b.buf := rfl
@[simp] theorem BrBank.finish_prev (b : BrBank) (j : BrJob) (m : Byte) :
    (b.finish j m).prev = b.prev := rfl
@[simp] theorem BrBank.finish_inBase (b : BrBank) (j : BrJob) (m : Byte) :
    (b.finish j m).inBase = b.inBase := rfl
@[simp] theorem BrBank.finish_inLen (b : BrBank) (j : BrJob) (m : Byte) :
    (b.finish j m).inLen = b.inLen := rfl
@[simp] theorem BrBank.finish_inCap (b : BrBank) (j : BrJob) (m : Byte) :
    (b.finish j m).inCap = b.inCap := rfl
@[simp] theorem BrBank.finish_outBase (b : BrBank) (j : BrJob) (m : Byte) :
    (b.finish j m).outBase = b.outBase := rfl
@[simp] theorem BrBank.finish_outCap (b : BrBank) (j : BrJob) (m : Byte) :
    (b.finish j m).outCap = b.outCap := rfl
@[simp] theorem NbBank.finish_status (b : NbBank) (j : NbJob) :
    (b.finish j).status = Status.done := rfl
@[simp] theorem NbBank.finish_written (b : NbBank) (j : NbJob) :
    (b.finish j).written = toWord (2 + j.body.length) := rfl
@[simp] theorem NbBank.finish_consumed (b : NbBank) (j : NbJob) :
    (b.finish j).consumed = toWord j.len := rfl
@[simp] theorem NbBank.finish_icur (b : NbBank) (j : NbJob) :
    (b.finish j).icur = toWord (j.inBase + j.len) := rfl
@[simp] theorem NbBank.finish_ocur (b : NbBank) (j : NbJob) :
    (b.finish j).ocur = toWord (j.outBase + 2 + j.body.length) := rfl
@[simp] theorem NbBank.finish_slot (b : NbBank) (j : NbJob) :
    (b.finish j).slot = slotWord j.outBase j.slot := rfl
@[simp] theorem NbBank.finish_job (b : NbBank) (j : NbJob) :
    (b.finish j).job = none := rfl
@[simp] theorem NbBank.finish_buf (b : NbBank) (j : NbJob) :
    (b.finish j).buf = b.buf := rfl
@[simp] theorem NbBank.finish_inBase (b : NbBank) (j : NbJob) :
    (b.finish j).inBase = b.inBase := rfl
@[simp] theorem NbBank.finish_inLen (b : NbBank) (j : NbJob) :
    (b.finish j).inLen = b.inLen := rfl
@[simp] theorem NbBank.finish_inCap (b : NbBank) (j : NbJob) :
    (b.finish j).inCap = b.inCap := rfl
@[simp] theorem NbBank.finish_outBase (b : NbBank) (j : NbJob) :
    (b.finish j).outBase = b.outBase := rfl
@[simp] theorem NbBank.finish_outCap (b : NbBank) (j : NbJob) :
    (b.finish j).outCap = b.outCap := rfl
@[simp] theorem BrBank.keptChunk_prev (b : BrBank) (prev : BitVec 1) :
    (b.keptChunk prev).prev = prev := rfl
@[simp] theorem BrBank.keptChunk_mask (b : BrBank) (prev : BitVec 1) :
    (b.keptChunk prev).mask = b.mask := rfl
@[simp] theorem BrBank.keptChunk_streamLen (b : BrBank) (prev : BitVec 1) :
    (b.keptChunk prev).streamLen = b.written := rfl
@[simp] theorem BrBank.keptChunk_chunkLen (b : BrBank) (prev : BitVec 1) :
    (b.keptChunk prev).chunkLen = b.consumed := rfl

end Sys2Proof.Machine
end

