-- ==== Sys2Proof/Laws/Ops.lean ====
section
/-! SUPPORT. For each shared operation, once, everything it can do: if it answers a next state, then which one and
when. Later proofs cite these and do not unfold the operation. -/

namespace Sys2Proof.Machine

/-! ## Sequencing -/

@[simp] theorem andThen_next (s : State) (f : State → Out) : andThen (.next s) f = f s := rfl
@[simp] theorem andThen_fault (r : Fault) (f : State → Out) : andThen (.fault r) f = .fault r := rfl
@[simp] theorem andThen_refused (r : Refusal) (f : State → Out) : andThen (.refused r) f = .refused r := rfl

theorem andThen_eq_next {o : Out} {f : State → Out} {t : State} :
    andThen o f = .next t ↔ ∃ s, o = .next s ∧ f s = .next t := by
  cases o <;> simp [andThen]

theorem next_eq_next {a t : State} : (Host.Outcome.next a : Out) = .next t ↔ t = a :=
  ⟨fun h => by cases h; rfl, fun h => by rw [h]⟩

/-! ## Stores -/

theorem storeIn_eq_next {s t : State} {a : Nat} {b : Byte} :
    s.storeIn a b = .next t ↔ a < spaceSize ∧ t = { s with inMem := s.inMem.put a [b] } := by
  simp only [State.storeIn]
  split <;> rename_i h <;> simp [h, @eq_comm _ _ t]

theorem storeOut_eq_next {s t : State} {base : Nat} {bytes : List Byte} :
    s.storeOut base bytes = .next t ↔
      base + bytes.length ≤ spaceSize ∧
        t = { s with
              outMem := s.outMem.put base bytes
              outDraws := s.outDraws.cut base (base + bytes.length) } := by
  simp only [State.storeOut]
  split <;> rename_i h <;> simp [h, @eq_comm _ _ t]

/-! ## The start of a command (R225) -/

theorem launchBr_eq_next {j : BrJob} {s t : State} :
    launchBr j s = .next t ↔
      s.FreeForBr j ∧
        t = { s with br := { s.br with
              status := Status.busy
              icur := toWord j.inBase
              ocur := toWord j.outBase
              matchByte := ext s.br.prev
              job := some j } } := by
  simp only [launchBr, State.FreeForBr]
  split
  · rename_i h
    simp only [Bool.or_eq_true] at h
    simp only [reduceCtorEq, false_iff]
    rintro ⟨hf, -⟩
    simp_all
  · rename_i h
    simp only [Bool.or_eq_true, not_or, Bool.not_eq_true] at h
    simp [h, @eq_comm _ _ t]

theorem launchNb_eq_next {j : NbJob} {s t : State} :
    launchNb j s = .next t ↔
      s.FreeForNb j ∧
        t = { s with nb := { s.nb with
              status := Status.busy
              icur := toWord j.inBase
              ocur := toWord j.outBase
              slot := 0#32
              job := some j } } := by
  simp only [launchNb, State.FreeForNb]
  split
  · rename_i h
    simp only [Bool.or_eq_true] at h
    simp only [reduceCtorEq, false_iff]
    rintro ⟨hf, -⟩
    simp_all
  · rename_i h
    simp only [Bool.or_eq_true, not_or, Bool.not_eq_true] at h
    simp [h, @eq_comm _ _ t]

theorem launchFx_eq_next {j : FxJob} {s t : State} :
    launchFx j s = .next t ↔
      s.FreeForFx j ∧ t = { s with fx := { s.fx with status := Status.busy, job := some j } } := by
  simp only [launchFx, State.FreeForFx]
  split <;> rename_i h
  · simp [h]
  · simp only [Bool.not_eq_true] at h
    simp [h, @eq_comm _ _ t]

theorem startBrFull_eq_next {s t : State} :
    startBrFull s = .next t ↔
      s.br.status.st ≠ .busy ∧
        ((∃ e, brFullError s.params (brArgs s.br) = some e ∧ t = s.failCommand .br e) ∨
          (brFullError s.params (brArgs s.br) = none ∧ launchBr (brFullJob s) s = .next t)) := by
  unfold startBrFull
  split
  · rename_i h
    simp [h]
  · rename_i h
    split <;> rename_i he <;> simp [he, h, @eq_comm _ _ t]

theorem startBrPart_eq_next {s t : State} :
    startBrPart s = .next t ↔
      s.br.status.st ≠ .busy ∧
        ((∃ e, brPartError s.params (brArgs s.br) = some e ∧ t = s.failCommand .br e) ∨
          (brPartError s.params (brArgs s.br) = none ∧ launchBr (brPartJob s) s = .next t)) := by
  unfold startBrPart
  split
  · rename_i h
    simp [h]
  · rename_i h
    split <;> rename_i he <;> simp [he, h, @eq_comm _ _ t]

theorem startNbEnc_eq_next {s t : State} :
    startNbEnc s = .next t ↔
      s.nb.status.st ≠ .busy ∧
        ((∃ e, nbEncError (nbArgs s.nb) = some e ∧ t = s.failCommand .nb e) ∨
          (nbEncError (nbArgs s.nb) = none ∧ launchNb (nbEncJob s) s = .next t)) := by
  unfold startNbEnc
  split
  · rename_i h
    simp [h]
  · rename_i h
    split <;> rename_i he <;> simp [he, h, @eq_comm _ _ t]

theorem startFixlast_eq_next {s t : State} :
    startFixlast s = .next t ↔
      s.fx.status.st ≠ .busy ∧
        ((∃ e, fxError (fxArgs s.fx) = some e ∧ t = s.failCommand .fx e) ∨
          (fxError (fxArgs s.fx) = none ∧ launchFx (fxJob s) s = .next t)) := by
  unfold startFixlast
  split
  · rename_i h
    simp [h]
  · rename_i h
    split <;> rename_i he <;> simp [he, h, @eq_comm _ _ t]

theorem badBrCmd_eq_next {s t : State} :
    badBrCmd s = .next t ↔ s.br.status.st ≠ .busy ∧ t = s.failCommand .br .badCmd := by
  unfold badBrCmd
  split <;> rename_i h <;> simp [h, @eq_comm _ _ t]

theorem badNbCmd_eq_next {s t : State} :
    badNbCmd s = .next t ↔ s.nb.status.st ≠ .busy ∧ t = s.failCommand .nb .badCmd := by
  unfold badNbCmd
  split <;> rename_i h <;> simp [h, @eq_comm _ _ t]

theorem badFxCmd_eq_next {s t : State} :
    badFxCmd s = .next t ↔ s.fx.status.st ≠ .busy ∧ t = s.failCommand .fx .badCmd := by
  unfold badFxCmd
  split <;> rename_i h <;> simp [h, @eq_comm _ _ t]

/-! ## The items of a stream -/

theorem emitBr_eq_next {bytes : List Byte} {s t : State} :
    emitBr bytes s = .next t ↔
      ∃ j, s.br.job = some j ∧
        t = { s with br := { s.br with job := some { j with out := j.out ++ bytes } } } := by
  unfold emitBr
  split <;> rename_i hj <;> simp [hj, @eq_comm _ _ t]

theorem emitNb_eq_next {f : Writer → Option Writer} {s t : State} :
    emitNb f s = .next t ↔
      ∃ j, s.nb.job = some j ∧
        ((f j.writer = none ∧ t = s.failFatalNb j .fLenRange) ∨
          ∃ w, f j.writer = some w ∧
            t = { s with nb := { s.nb with job := some { j with body := w.body, slot := w.slot } } }) := by
  unfold emitNb
  split
  · rename_i hj
    simp [hj]
  · rename_i j hj
    cases hf : f j.writer <;> simp [hj, hf, @eq_comm _ _ t]

/-- A BitRat item is written by its own instruction. -/
theorem exec_brItem (x : BrItem) (s : State) : exec x.instr s = runBrItem x s := by cases x <;> rfl

/-- A Nibbler item is written by its own instruction. -/
theorem exec_nbItem (x : NbItem) (s : State) : exec x.instr s = runNbItem x s := by cases x <;> rfl

/-- Writing a BitRat item appends its bytes. -/
theorem runBrItem_eq_emit (x : BrItem) (s : State) : runBrItem x s = emitBr (brItemBytes x) s := by
  cases x <;> rfl

/-- Writing a Nibbler item is `emitItem` on the writer. -/
theorem runNbItem_eq_emit (x : NbItem) (s : State) :
    runNbItem x s = emitNb (emitItem s.params.nbRunBias x) s := by
  cases x <;> rfl

/-! ## The end of a command (R226) -/

theorem execBrChunkMask_eq_next {m : Byte} {s t : State} :
    execBrChunkMask m s = .next t ↔
      ∃ j u, s.br.job = some j ∧ s.storeOut j.outBase j.out = .next u ∧
        t = { u.scrambleOut (j.outBase + j.out.length) (j.need - j.out.length) with br := u.br.finish j m } := by
  unfold execBrChunkMask
  split
  · simp_all
  · rename_i j hj
    simp only [andThen_eq_next, hj, Option.some.injEq]
    constructor
    · rintro ⟨u, hu, h⟩
      exact ⟨j, u, rfl, hu, by cases h; rfl⟩
    · rintro ⟨_, u, rfl, hu, rfl⟩
      exact ⟨u, hu, rfl⟩

theorem execNbHeader_eq_next {mark : Mark} {n : BitVec 14} {s t : State} :
    execNbHeader mark n s = .next t ↔
      ∃ j u, s.nb.job = some j ∧ s.storeOut j.outBase (headerBytes mark n ++ j.body) = .next u ∧
        t = { u.scrambleOut (j.outBase + (2 + j.body.length)) (j.need - (2 + j.body.length)) with
              nb := u.nb.finish j } := by
  unfold execNbHeader
  split
  · simp_all
  · rename_i j hj
    simp only [andThen_eq_next, hj, Option.some.injEq]
    constructor
    · rintro ⟨u, hu, h⟩
      exact ⟨j, u, rfl, hu, by cases h; rfl⟩
    · rintro ⟨_, u, rfl, hu, rfl⟩
      exact ⟨u, hu, rfl⟩

theorem finishFx_eq_next {s t : State} :
    finishFx s = .next t ↔
      (s.fx.job = none ∧ t = s) ∨
        ∃ j u, s.fx.job = some j ∧ s.storeIn j.addr (fixByte (s.readIn j.addr) j.bits) = .next u ∧
          t = { u with fx := { u.fx with status := Status.done, job := none } } := by
  unfold finishFx
  split
  · rename_i hj
    simp [hj, eq_comm]
  · rename_i j hj
    simp only [andThen_eq_next, hj, Option.some.injEq, reduceCtorEq, false_and, false_or]
    constructor
    · rintro ⟨u, hu, h⟩
      exact ⟨j, u, rfl, hu, by cases h; rfl⟩
    · rintro ⟨_, u, rfl, hu, rfl⟩
      exact ⟨u, hu, rfl⟩

/-! ## The register space -/

theorem writeOther_eq_next {off v : Word} {s t : State} :
    writeOther off v s = .next t ↔
      s.busy (bankOf off) = false ∧
        ((∃ r, regAt off = some r ∧ t = s.setReg r v) ∨ (regAt off = none ∧ t = s)) := by
  unfold writeOther
  split <;> rename_i h
  · simp [h]
  · simp only [Bool.not_eq_true] at h
    split <;> rename_i hr <;> simp [h, hr, @eq_comm _ _ t]

/-- An offset that names a register is that register's own, and conversely. -/
theorem regAt_offset (r : Reg) : regAt r.offset = some r := by cases r <;> decide

theorem regAt_eq_some {off : Word} {r : Reg} (h : regAt off = some r) : r.offset = off := by
  have := List.find?_some h
  simpa using this

/-- A register's offset is a register offset, and not that of a `CMD` register. -/
theorem offset_ok (r : Reg) : offsetError r.offset = none ∧ isCmdOffset r.offset = false := by
  cases r <;> decide

theorem execRegwr_reg (r : Reg) (v : Word) (s : State) :
    execRegwr r.offset v s = writeOther r.offset v s := by
  cases r <;> rfl

end Sys2Proof.Machine
end

