-- ==== Sys2Proof/Laws/PerInstr.lean ====
section
/-! SUPPORT. A law of every instruction as syntax, one lemma a constructor: the encoding depends on `NB_RUN_BIAS` for
the run of a Nibbler stream alone (R111). -/

namespace Sys2Proof.Laws.BiasOnlyInRun

/-- Two encoders that differ in `NB_RUN_BIAS` write the same, or the instruction is a run (R111). -/
def Statement (i : Instr) : Prop := ∀ b b' : Nat, encode b i = encode b' i ∨ ∃ n, i = .nbRun n

theorem brFull (ign : BitVec 29) : Statement (.brFull ign) := fun _ _ => .inl rfl
theorem brPart (ign : BitVec 29) : Statement (.brPart ign) := fun _ _ => .inl rfl
theorem nbEnc (ign : BitVec 29) : Statement (.nbEnc ign) := fun _ _ => .inl rfl
theorem fxFixlast (ign : BitVec 29) : Statement (.fxFixlast ign) := fun _ _ => .inl rfl
theorem reservedBr (op : BitVec 3) (ign : BitVec 29) : Statement (.reservedBr op ign) := fun _ _ => .inl rfl
theorem reservedNb (op : BitVec 3) (ign : BitVec 29) : Statement (.reservedNb op ign) := fun _ _ => .inl rfl
theorem reservedFx (op : BitVec 3) (ign : BitVec 29) : Statement (.reservedFx op ign) := fun _ _ => .inl rfl
theorem regwr (off value : Word) : Statement (.regwr off value) := fun _ _ => .inl rfl
theorem regrd (off : Word) : Statement (.regrd off) := fun _ _ => .inl rfl
theorem compressBr (addr len : Word) : Statement (.compressBr addr len) := fun _ _ => .inl rfl
theorem compressNb (addr len : Word) : Statement (.compressNb addr len) := fun _ _ => .inl rfl
theorem brGroupMask (g : Byte) : Statement (.brGroupMask g) := fun _ _ => .inl rfl
theorem brPairMask (a b : Nibble) : Statement (.brPairMask a b) := fun _ _ => .inl rfl
theorem brTailPairMask (t : Byte) : Statement (.brTailPairMask t) := fun _ _ => .inl rfl
theorem brSectionMask (u : Byte) : Statement (.brSectionMask u) := fun _ _ => .inl rfl
theorem brChunkMask (m : Byte) : Statement (.brChunkMask m) := fun _ _ => .inl rfl
theorem brEscapeBlock (raw : List Byte) : Statement (.brEscapeBlock raw) := fun _ _ => .inl rfl
theorem brLiteral (d : Byte) : Statement (.brLiteral d) := fun _ _ => .inl rfl
theorem nbHeader (mark : Mark) (bodyLen : BitVec 14) : Statement (.nbHeader mark bodyLen) := fun _ _ => .inl rfl
theorem nbLenField4 (v : BitVec 3) : Statement (.nbLenField4 v) := fun _ _ => .inl rfl
theorem nbLenField8 (w : BitVec 6) : Statement (.nbLenField8 w) := fun _ _ => .inl rfl
theorem nbLenField16 (w : BitVec 13) : Statement (.nbLenField16 w) := fun _ _ => .inl rfl
theorem nbRun (runLen : Nat) : Statement (.nbRun runLen) := fun _ _ => .inr ⟨runLen, rfl⟩
theorem nbLitRun (bytes : List Byte) : Statement (.nbLitRun bytes) := fun _ _ => .inl rfl

end Sys2Proof.Laws.BiasOnlyInRun
end

