-- ==== Sys2Proof/Laws/Step.lean ====
section
/-! SUPPORT. Every move of the machine, once: what `step` can have done if it answers a next state. -/

namespace Sys2Proof.Machine

theorem mem_readyAgents {s : State} {a : Agent} :
    a ∈ readyAgents s ↔
      (a = .host ∧ s.inputs ≠ []) ∨ (a = .br ∧ s.br.job.isSome) ∨ (a = .nb ∧ s.nb.job.isSome) ∨
        (a = .fx ∧ s.fx.job.isSome) := by
  simp only [readyAgents, List.mem_append]
  cases a <;> (split <;> split <;> split <;> split <;> simp_all)

/-- Who moves is ready. -/
theorem mover_mem {s : State} {a : Agent} (h : mover s = some a) : a ∈ readyAgents s := by
  unfold mover at h
  split at h
  · cases h
  · rename_i heq
    cases h
    rw [heq]
    exact List.mem_singleton.mpr rfl
  · rename_i heq
    rw [heq]
    split at h
    · cases h
      assumption
    · cases h
      exact List.mem_cons_self

/-- Somebody moves if somebody is ready. -/
theorem mover_eq_none {s : State} : mover s = none ↔ readyAgents s = [] := by
  unfold mover
  split
  · simp_all
  · simp_all
  · rename_i heq
    rw [heq]
    split <;> simp

/-- The one agent that is ready moves. -/
theorem mover_single {s : State} {a : Agent} (h : readyAgents s = [a]) : mover s = some a := by
  unfold mover
  rw [h]

/-- With the turn given to a running engine, it is the one that moves. -/
theorem mover_of_engineRuns {s : State} {a : Agent} (h : s.engineRuns a = true) :
    mover { s with turn := a } = some a := by
  have ha : a ∈ readyAgents { s with turn := a } := by
    rw [mem_readyAgents]
    cases a <;> simp_all [State.engineRuns]
  unfold mover
  split
  · simp_all
  · rename_i b hb
    rw [hb, List.mem_singleton] at ha
    rw [ha]
  · rename_i b c rest hb
    rw [hb] at ha
    rw [if_pos ha]

@[simp] theorem runEngines_nil (s : State) : runEngines [] s = .next s := rfl

/-- An engine that runs makes its move; any other agent is passed over. -/
theorem runEngines_cons (a : Agent) (order : List Agent) (s : State) :
    runEngines (a :: order) s =
      if s.engineRuns a then andThen (step { s with turn := a }) (runEngines order) else runEngines order s := rfl

/-- A step is the rest of nothing, a move of the host, an item or an end of an encoder, or the end of FIXLAST. -/
theorem step_cases {s : State} {o : Out} (h : step s = o) :
    (readyAgents s = [] ∧ o = .next s) ∨
    (∃ x rest, mover s = some .host ∧ s.inputs = x :: rest ∧
      ((∃ i, hostMove x { s.passTurn with inputs := rest } = .run i { s.passTurn with inputs := rest } ∧
          o = exec i { s.passTurn with inputs := rest }) ∨
        hostMove x { s.passTurn with inputs := rest } = .other o)) ∨
    (∃ j, mover s = some .br ∧ s.br.job = some j ∧
      ((j.tierFault = true ∧ o = .next (s.passTurn.failFatalBr j .fTier)) ∨
        (j.tierFault = false ∧ j.todo = [] ∧ o = execBrChunkMask j.mask s.passTurn) ∨
        ∃ x rest, j.tierFault = false ∧ j.todo = x :: rest ∧ o = runBrItem x (s.passTurn.withBrTodo j rest))) ∨
    (∃ j, mover s = some .nb ∧ s.nb.job = some j ∧
      ((j.todo = [] ∧ o = execNbHeader j.mark (BitVec.ofNat 14 j.body.length) s.passTurn) ∨
        ∃ x rest, j.todo = x :: rest ∧ o = runNbItem x (s.passTurn.withNbTodo j rest))) ∨
    (∃ j, mover s = some .fx ∧ s.fx.job = some j ∧ o = finishFx s.passTurn) := by
  subst h
  have hready := fun a (ha : mover s = some a) => mem_readyAgents.mp (mover_mem ha)
  unfold step nextMove
  cases hm : mover s with
  | none => exact .inl ⟨mover_eq_none.mp hm, rfl⟩
  | some a =>
    have ha := hready a hm
    cases a with
    | host =>
      simp only [ne_eq, true_and, reduceCtorEq, false_and, or_self, or_false] at ha
      refine .inr (.inl ?_)
      match hi : s.inputs with
      | [] => exact absurd hi ha
      | x :: rest =>
        refine ⟨x, rest, rfl, rfl, ?_⟩
        simp only [hostMove]
        cases x with
        | op op =>
          cases hd : decode s.params.nbRunBias (.host op) with
          | ok i => exact .inl ⟨i, by simp [hd], by simp [hd]⟩
          | error e => exact .inr (by simp [hd])
        | _ => exact .inr rfl
    | br =>
      simp only [reduceCtorEq, false_and, true_and, or_false, false_or, Option.isSome_iff_exists] at ha
      obtain ⟨j, hj⟩ := ha
      refine .inr (.inr (.inl ⟨j, rfl, hj, ?_⟩))
      simp only [hj, brMove]
      cases ht : j.tierFault with
      | true => exact .inl ⟨rfl, rfl⟩
      | false =>
        cases hl : j.todo with
        | nil => exact .inr (.inl ⟨rfl, rfl, rfl⟩)
        | cons x rest => exact .inr (.inr ⟨x, rest, rfl, rfl, exec_brItem _ _⟩)
    | nb =>
      simp only [reduceCtorEq, false_and, true_and, or_false, false_or, Option.isSome_iff_exists] at ha
      obtain ⟨j, hj⟩ := ha
      refine .inr (.inr (.inr (.inl ⟨j, rfl, hj, ?_⟩)))
      simp only [hj, nbMove]
      cases hl : j.todo with
      | nil => exact .inl ⟨rfl, rfl⟩
      | cons x rest => exact .inr ⟨x, rest, rfl, exec_nbItem _ _⟩
    | fx =>
      simp only [reduceCtorEq, false_and, true_and, false_or, Option.isSome_iff_exists] at ha
      obtain ⟨j, hj⟩ := ha
      exact .inr (.inr (.inr (.inr ⟨j, rfl, hj, rfl⟩)))

end Sys2Proof.Machine
end

