-- ==== Sys2Proof/Tests/Slice0.lean ====
section
/-! SUPPORT. The model's own tests: ill-formed terms the check refuses, words written out from the spec's encodings,
vectors of spec/95_test_vectors.md, and for every statement a state that meets its hypotheses. -/

namespace Sys2Proof.Tests

open Sys2Proof Sys2Proof.Machine

/-! ## Ill-formed terms, one for each check of WellFormed -/

theorem test_reservedBr_1_illFormed : (Instr.reservedBr 1#3 0#29).wellFormed = false := by decide
theorem test_reservedBr_2_illFormed : (Instr.reservedBr 2#3 0#29).wellFormed = false := by decide
theorem test_reservedNb_1_illFormed : (Instr.reservedNb 1#3 0#29).wellFormed = false := by decide
theorem test_reservedFx_1_illFormed : (Instr.reservedFx 1#3 0#29).wellFormed = false := by decide
theorem test_regwr_cmd_illFormed : (Instr.regwr 0x100#32 1#32).wellFormed = false := by decide
theorem test_regwr_misaligned_illFormed : (Instr.regwr 0x00A#32 1#32).wellFormed = false := by decide
theorem test_regwr_outOfRange_illFormed : (Instr.regwr 0x300#32 1#32).wellFormed = false := by decide
theorem test_regrd_misaligned_illFormed : (Instr.regrd 0x005#32).wellFormed = false := by decide
theorem test_regrd_outOfRange_illFormed : (Instr.regrd 0x300#32).wellFormed = false := by decide
theorem test_groupMask_zero_illFormed : (Instr.brGroupMask 0#8).wellFormed = false := by decide
theorem test_pairMask_zero_illFormed : (Instr.brPairMask 0#4 0#4).wellFormed = false := by decide
theorem test_tailPairMask_zero_illFormed : (Instr.brTailPairMask 0#8).wellFormed = false := by decide
theorem test_sectionMask_zero_illFormed : (Instr.brSectionMask 0#8).wellFormed = false := by decide
theorem test_escapeBlock_short_illFormed : (Instr.brEscapeBlock (List.replicate 31 0#8)).wellFormed = false := by
  decide
theorem test_header_long_illFormed : (Instr.nbHeader .literal 8195#14).wellFormed = false := by decide
theorem test_lenField16_long_illFormed : (Instr.nbLenField16 8184#13).wellFormed = false := by decide
theorem test_run_short_illFormed : (Instr.nbRun 2).wellFormed = false := by decide
theorem test_run_long_illFormed : (Instr.nbRun 8192).wellFormed = false := by decide
theorem test_litRun_empty_illFormed : (Instr.nbLitRun []).wellFormed = false := by decide
theorem test_litRun_long_illFormed : (Instr.nbLitRun (List.replicate 8193 0#8)).wellFormed = false := by
  simp only [Instr.wellFormed, List.length_replicate]
  decide

/-! ## Words written out from the encodings (R90 to R92, R97 to R102, R106, R109, R223, R224) -/

theorem test_decode_brFull :
    decode 0 (.host (.write 0x000#32 0b00000000000000000000000000001001#32)) = .ok (.brFull 1#29) := by decide
theorem test_decode_brPart :
    decode 0 (.host (.write 0x000#32 0b00000000000000000000000000000010#32)) = .ok (.brPart 0#29) := by decide
theorem test_decode_nbEnc :
    decode 0 (.host (.write 0x100#32 0b10000000000000000000000000000001#32)) = .ok (.nbEnc 0x10000000#29) := by
  decide
theorem test_decode_fxFixlast :
    decode 0 (.host (.write 0x200#32 0b00000000000000000000000000000001#32)) = .ok (.fxFixlast 0#29) := by decide
theorem test_decode_reservedBr :
    decode 0 (.host (.write 0x000#32 0b00000000000000000000000000000111#32)) = .ok (.reservedBr 7#3 0#29) := by
  decide
theorem test_decode_reservedNb :
    decode 0 (.host (.write 0x100#32 0b00000000000000000000000000000010#32)) = .ok (.reservedNb 2#3 0#29) := by
  decide
theorem test_decode_reservedFx :
    decode 0 (.host (.write 0x200#32 0b00000000000000000000000000001000#32)) = .ok (.reservedFx 0#3 1#29) := by
  decide
theorem test_decode_regwr : decode 0 (.host (.write 0x014#32 3#32)) = .ok (.regwr 0x014#32 3#32) := by decide
theorem test_decode_regrd : decode 0 (.host (.read 0x02C#32)) = .ok (.regrd 0x02C#32) := by decide
theorem test_decode_badOffset :
    decode 0 (.host (.write 0x016#32 3#32)) = .error .offsetMisaligned ∧
      decode 0 (.host (.read 0x300#32)) = .error .offsetOutOfRange := by decide
theorem test_decode_compress :
    decode 0 (.host (.compress .br 5#32 9#32)) = .ok (.compressBr 5#32 9#32) ∧
      decode 0 (.host (.compress .nb 5#32 9#32)) = .ok (.compressNb 5#32 9#32) := by decide
theorem test_decode_masks :
    decode 0 (.brByte .groupMask 0b00100100#8) = .ok (.brGroupMask 0x24#8) ∧
      decode 0 (.brByte .pairMask 0b11110001#8) = .ok (.brPairMask 0b1111#4 0b0001#4) ∧
      decode 0 (.brByte .tailPairMask 0b11000000#8) = .ok (.brTailPairMask 0xC0#8) ∧
      decode 0 (.brByte .sectionMask 0b10000000#8) = .ok (.brSectionMask 0x80#8) ∧
      decode 0 (.brByte .chunkMask 0b00000000#8) = .ok (.brChunkMask 0#8) ∧
      decode 0 (.brByte .literal 0b00000000#8) = .ok (.brLiteral 0#8) ∧
      decode 0 (.brByte .groupMask 0b00000000#8) = .error .maskZero := by decide
theorem test_decode_escape :
    decode 0 (.brBlock (0#8 :: List.replicate 32 0xAA#8)) = .ok (.brEscapeBlock (List.replicate 32 0xAA#8)) ∧
      decode 0 (.brBlock (1#8 :: List.replicate 32 0xAA#8)) = .error .escapeForm := by decide
theorem test_decode_header :
    decode 0 (.nbHead [0b10100000#8, 0b00000010#8]) = .ok (.nbHeader .literal 8194#14) ∧
      decode 0 (.nbHead [0b01000000#8, 0b00000100#8]) = .ok (.nbHeader .oneRun 4#14) ∧
      decode 0 (.nbHead [0b11000000#8, 0b00000100#8]) = .error .markReserved ∧
      decode 0 (.nbHead [0b10100000#8, 0b00000011#8]) = .error .bodyLenReserved := by decide
theorem test_decode_fields :
    decode 0 (.nbField [0b0111#4]) = .ok (.nbLenField4 7#3) ∧
      decode 0 (.nbField [0b1011#4, 0b1111#4]) = .ok (.nbLenField8 63#6) ∧
      decode 0 (.nbField [0b1100#4, 0b0001#4, 0b0010#4, 0b0100#4]) = .ok (.nbLenField16 292#13) ∧
      decode 0 (.nbField [0b1101#4, 0b1111#4, 0b1111#4, 0b0111#4]) = .ok (.nbLenField16 8183#13) ∧
      decode 0 (.nbField [0b1101#4, 0b1111#4, 0b1111#4, 0b1000#4]) = .error .fieldTooLarge ∧
      decode 0 (.nbField [0b1110#4, 0b0001#4, 0b0010#4, 0b0100#4]) = .error .fieldReserved := by decide
theorem test_decode_runs :
    decode 0 (.nbRunField [0b0011#4]) = .ok (.nbRun 3) ∧ decode 3 (.nbRunField [0b0000#4]) = .ok (.nbRun 3) ∧
      decode 0 (.nbRunField [0b0010#4]) = .error .runBelowMinimum ∧
      decode 0 (.nbLiterals [0b0001#4] [0x12#8, 0x00#8]) = .ok (.nbLitRun [0x12#8, 0x00#8]) ∧
      decode 0 (.nbLiterals [0b0001#4] [0x12#8]) = .error .literalCount := by decide
theorem test_decodeTableWord :
    decodeTableWord 8 1 = some (.brFull 0#29) ∧ decodeTableWord 32 2 = some (.brPart 0#29) ∧
      decodeTableWord 8 0b10001100 = some (.nbLenField8 12#6) ∧
      decodeTableWord 16 0b1100000001000000 = some (.nbLenField16 64#13) := by decide

/-! ## Vectors of spec/95_test_vectors.md -/

/-- Section 2.5: `00 07 FF`, `FF x 9` and `FF FF 00` with `prevBit = 0`. -/
theorem test_part_007FF :
    (encodePart 0#1 [0x00#8, 0x07#8, 0xFF#8]).mask = 0x80#8 ∧
      brBytes (encodePart 0#1 [0x00#8, 0x07#8, 0xFF#8]).items = [0x80#8, 0x80#8, 0x40#8, 0x07#8] := by decide
theorem test_part_FFx8_00 :
    brBytes (encodePart 0#1 (List.replicate 8 0xFF#8 ++ [0x00#8])).items
      = [0x80#8, 0xC0#8, 0x80#8, 0xFF#8, 0x80#8, 0x00#8] := by decide
theorem test_part_prev1 :
    brBytes (encodePart 1#1 [0xFF#8, 0xFF#8, 0x00#8]).items = [0x80#8, 0x80#8, 0x20#8, 0x00#8] ∧
      (encodePart 1#1 [0xFF#8, 0xFF#8, 0x00#8]).m = 0x00#8 := by decide

/-- R134: 28 literals stay structured, 29 escape; section 2.5: `AA x 64` escapes twice, `AA x 63` never. -/
theorem test_block_28_29 :
    (brBytes (block ((List.replicate 4 (List.replicate 7 0xAA#8 ++ [0x00#8])).flatten) 0x00#8).items).head?
        = some 0xFE#8 ∧
      (brBytes (block (List.replicate 8 0xAA#8 ++
        (List.replicate 3 (List.replicate 7 0xAA#8 ++ [0x00#8])).flatten) 0x00#8).items).head? = some 0x00#8 := by
  decide
theorem test_part_AA :
    (brBytes (encodePart 0#1 (List.replicate 64 0xAA#8)).items).length = 68 ∧
      (brBytes (encodePart 0#1 (List.replicate 63 0xAA#8)).items).length = 73 := by decide

/-- Section 3.2. -/
theorem test_nb_12_0000 :
    nbEncode Params.default [0x12#8, 0x00#8, 0x00#8, 0x00#8, 0x00#8, 0x34#8, 0x56#8, 0x78#8, 0x9A#8]
      = some ([0x80#8, 0x08#8, 0x13#8, 0x12#8, 0x00#8, 0x30#8, 0x34#8, 0x56#8, 0x78#8, 0x9A#8], some 3) := by decide
theorem test_nb_zeros :
    nbEncode Params.default [] = some ([0x80#8, 0x00#8], none) ∧
      nbEncode Params.default (List.replicate 5 0x00#8)
        = some ([0x80#8, 0x06#8, 0x40#8, 0#8, 0#8, 0#8, 0#8, 0#8], some 0) ∧
      nbEncode Params.default (List.replicate 6 0x00#8) = some ([0x00#8, 0x04#8, 0x32#8, 0#8, 0#8, 0#8], none) := by
  decide
theorem test_nb_field16_with_slot :
    nbEncode Params.default (List.replicate 12 0xFF#8 ++ [0x0F#8] ++ List.replicate 80 0x00#8 ++ [1#8, 2#8, 3#8])
      = some ([0x40#8, 0x09#8, 0x84#8, 0x1C#8, 0x0F#8, 0x00#8, 0x04#8, 0x72#8, 1#8, 2#8, 3#8], none) := by decide

/-- Section 4: `A5` with 3 and with 2 meaningful bits, `5A` with 6. -/
theorem test_fix : fixByte 0xA5#8 3 = 0xBF#8 ∧ fixByte 0xA5#8 2 = 0x80#8 ∧ fixByte 0x5A#8 6 = 0x58#8 := by decide

/-- The reader's choices: a chunk mask bit for a section that does not exist is ignored (log 28), a mask byte in the
stream with a bit for a sub-unit that does not exist is malformed (R104). -/
theorem test_reader_chunkMask_bits :
    readBitRat 3 0#1 0xC0#8 [0x80#8, 0x80#8, 0x40#8, 0x07#8] = some [0x00#8, 0x07#8, 0xFF#8] ∧
      readBitRat 3 0#1 0x80#8 [0x80#8, 0x80#8, 0x40#8, 0x07#8] = some [0x00#8, 0x07#8, 0xFF#8] ∧
      readBitRat 3 0#1 0x80#8 [0xC0#8, 0x80#8, 0x40#8, 0x07#8] = none := by decide

/-! ## States for the tests below -/

/-- A machine whose units have buffers, with a few bytes in `IN` (spec/95_test_vectors.md P4). -/
def ready : State :=
  { State.reset with
    br := { BrBank.reset with buf := 3, inLen := 3, inCap := 8192, outCap := 8192 }
    nb := { NbBank.reset with buf := 3, inLen := 3, inCap := 8192, outBase := 8192, outCap := 16384 }
    fx := { FxBank.reset with buf := 1, addr := 2, bits := 3, cap := 3 }
    inMem := [(0, 0xFF#8), (1, 0xFF#8), (2, 0xE0#8)] }

/-- `BR.PART` has started over the three bytes. -/
def brRuns : State := { ready with br := { ready.br with status := Status.busy, job := some (brPartJob ready) } }

/-- `NB.ENC` has started over the three bytes. -/
def nbRuns : State := { ready with nb := { ready.nb with status := Status.busy, job := some (nbEncJob ready) } }

/-- FIXLAST has started on byte 2. -/
def fxRuns : State := { ready with fx := { ready.fx with status := Status.busy, job := some (fxJob ready) } }

/-- Both encoders run. -/
def bothRun : State := { brRuns with nb := nbRuns.nb }

/-- The state an outcome goes on in. -/
def after (o : Out) : State :=
  match o with
  | .next s => s
  | .fault _ => State.reset
  | .refused _ => State.reset

/-! ## One step of each instruction -/

/-- Section 5: `BR.FULL` does not read `BR_IN_LEN`; one byte of room too few fails. -/
theorem test_brFull_starts :
    (after (exec (.brFull 0) { ready with br := { ready.br with inLen := -5#32 } })).br.status = Status.busy := by
  decide
theorem test_brFull_outSpace :
    (after (exec (.brFull 0) { ready with br := { ready.br with outCap := 4615 } })).br.status.word = 0x053#32 := by
  decide
theorem test_brPart_lenRange :
    (after (exec (.brPart 0) { ready with br := { ready.br with inLen := 4096 } })).br.status.word = 0x023#32 := by
  decide
theorem test_brPart_need :
    (after (exec (.brPart 0) { ready with br := { ready.br with inLen := 4095, outCap := 4613 } })).br.status.word
        = 0x053#32 ∧
      (after (exec (.brPart 0) { ready with br := { ready.br with inLen := 4095, outCap := 4614 } })).br.status
        = Status.busy := by decide
theorem test_nbEnc_space :
    (after (exec (.nbEnc 0)
        { ready with nb := { ready.nb with inLen := 8192, outBase := 0, outCap := 8195 } })).nb.status.word
        = 0x053#32 ∧
      (after (exec (.nbEnc 0)
        { ready with nb := { ready.nb with inLen := 8192, outBase := 0, outCap := 8196 } })).nb.status
        = Status.busy := by decide
theorem test_nbEnc_negative :
    (after (exec (.nbEnc 0) { ready with nb := { ready.nb with inBase := -1#32, inLen := 0 } })).nb.status.word
      = 0x033#32 := by decide
theorem test_fixlast_order :
    (after (exec (.fxFixlast 0) { ready with fx := { ready.fx with bits := 0, addr := 3 } })).fx.status.word
        = 0x073#32 ∧
      (after (exec (.fxFixlast 0) { ready with fx := { ready.fx with addr := 3 } })).fx.status.word = 0x033#32 := by
  decide
theorem test_fixlast_ends : (after (finishFx fxRuns)).readIn 2 = 0xFF#8 := by decide
theorem test_reserved :
    (after (exec (.reservedBr 3 0) ready)).br.status.word = 0x063#32 ∧
      (after (exec (.reservedNb 5 0) ready)).nb.status.word = 0x063#32 ∧
      (after (exec (.reservedFx 0 0) ready)).fx.status.word = 0x063#32 := by decide
theorem test_regwr_cap_bit31 : (after (exec (.regwr 0x018#32 0xFFFFFFFF#32) ready)).br.inCap = 0x7FFFFFFF#31 := by
  decide
theorem test_regwr_readOnly : exec (.regwr 0x02C#32 7#32) ready = .next ready := by rfl
theorem test_regrd : (after (exec (.regrd 0x018#32) ready)).replies = [8192#32] := by decide
theorem test_regrd_unnamed : (after (exec (.regrd 0x10C#32) ready)).replies = [0#32] := by decide
theorem test_compressBr :
    (after (exec (.compressBr 0 3) ready)).hostTotal = 8 ∧
      (after (exec (.compressBr 0 3) ready)).hostKept
        = [{ prev := 0#1, mask := 0x80#8, streamLen := 5#32, chunkLen := 3#32 }] := by decide
theorem test_compressNb : (after (exec (.compressNb 0 3) ready)).hostTotal = 6 := by decide

/-- The stream of `FF FF E0`, item by item (P4 without FIXLAST): `80 80 A0 FF E0`. -/
theorem test_brItems :
    (brPartJob ready).todo =
      [.sectionMask 0x80#8, .tailPairMask 0x80#8, .groupMask 0xA0#8, .literal 0xFF#8, .literal 0xE0#8] := by decide
theorem test_brSectionMask : ((after (exec (.brSectionMask 0x80) brRuns)).br.job.map BrJob.out) = some [0x80#8] := by
  decide
theorem test_brTailPairMask : ((after (exec (.brTailPairMask 0) brRuns)).br.job.map BrJob.out) = some [] := by decide
theorem test_brGroupMask : ((after (exec (.brGroupMask 0xA0) brRuns)).br.job.map BrJob.out) = some [0xA0#8] := by
  decide
theorem test_brPairMask : ((after (exec (.brPairMask 8 1) brRuns)).br.job.map BrJob.out) = some [0x81#8] := by decide
theorem test_brLiteral : ((after (exec (.brLiteral 0) brRuns)).br.job.map BrJob.out) = some [0#8] := by decide
theorem test_brEscapeBlock :
    ((after (exec (.brEscapeBlock [1#8, 2#8]) brRuns)).br.job.map BrJob.out) = some [0#8, 1#8, 2#8] := by decide
theorem test_brChunkMask :
    (after (exec (.brChunkMask 0x80) brRuns)).br.mask = 0x80#8 ∧
      (after (exec (.brChunkMask 0x80) brRuns)).br.maskw = 1#4 ∧
      (after (exec (.brChunkMask 0x80) brRuns)).br.consumed = 3#32 := by decide

/-- A Nibbler command whose body is `50` with its low nibble free (section 3.1). -/
def slot50 : State :=
  { nbRuns with nb := { nbRuns.nb with job := some { nbEncJob ready with body := [0x50#8], slot := some 0 } } }

theorem test_nbLenField4 :
    ((after (exec (.nbLenField4 7) slot50)).nb.job.map NbJob.writer) = some { body := [0x57#8], slot := none } ∧
      ((after (exec (.nbLenField4 7) nbRuns)).nb.job.map NbJob.writer) = some { body := [0x70#8], slot := some 0 } := by
  decide
theorem test_nbLenField8 :
    ((after (exec (.nbLenField8 63) slot50)).nb.job.map NbJob.writer)
        = some { body := [0x5B#8, 0xF0#8], slot := some 1 } ∧
      ((after (exec (.nbLenField8 12) nbRuns)).nb.job.map NbJob.writer) = some { body := [0x8C#8], slot := none } := by
  decide
theorem test_nbLenField16 :
    ((after (exec (.nbLenField16 292) slot50)).nb.job.map NbJob.writer)
        = some { body := [0x5C#8, 0x12#8, 0x40#8], slot := some 2 } ∧
      ((after (exec (.nbLenField16 64) nbRuns)).nb.job.map NbJob.writer)
        = some { body := [0xC0#8, 0x40#8], slot := none } := by decide
theorem test_nbRun :
    ((after (exec (.nbRun 20) nbRuns)).nb.job.map NbJob.writer) = some { body := [0x8C#8], slot := none } ∧
      (after (exec (.nbRun 8192) nbRuns)).nb.status.word = 0x183#32 := by decide
theorem test_nbLitRun :
    ((after (exec (.nbLitRun [0xFF#8]) nbRuns)).nb.job.map NbJob.writer)
      = some { body := [0x00#8, 0xFF#8], slot := some 0 } := by decide
theorem test_nbHeader :
    (after (exec (.nbHeader .literal 1) slot50)).readOut 8192 = 0x80#8 ∧
      (after (exec (.nbHeader .literal 1) slot50)).readOut 8193 = 0x01#8 ∧
      (after (exec (.nbHeader .literal 1) slot50)).nb.slot = 8194#32 := by decide

/-! ## Witnesses: for each statement, states and operands that meet its hypotheses -/

theorem wit_DecodeEncodeAgree :
    0 ≤ nbRunMin ∧ 3 ≤ nbRunMin ∧ (Instr.nbRun 3).wellFormed = true ∧ (Instr.nbRun 8191).wellFormed = true ∧
      (Instr.nbHeader .literal 8194).wellFormed = true ∧ (Instr.regwr 0x2FC 0).wellFormed = true := by decide

theorem wit_EncodeDecodeAgree :
    decode 0 (.nbHead [0xA0#8, 0x02#8]) = .ok (.nbHeader .literal 8194#14) ∧
      (∀ ns, Wire.nbHead [0xA0#8, 0x02#8] ≠ .nbRunField ns) ∧
      (∀ ns bytes, Wire.nbHead [0xA0#8, 0x02#8] ≠ .nbLiterals ns bytes) :=
  ⟨by decide, fun _ h => Wire.noConfusion h, fun _ _ h => Wire.noConfusion h⟩

theorem wit_FieldRoundTrip : 0 ≤ nbLenMax ∧ 71 ≤ nbLenMax ∧ 8191 ≤ nbLenMax := by decide

theorem wit_ResetRegisters : Reg.brStatus.isSession = false ∧ Reg.fxCap.isSession = false := by decide

theorem wit_IdleMachineStays : State.reset.Quiet ∧ State.reset.inputs = [] := by decide

/-- Where the host has one thing to do. -/
def hostDoes (x : Input) (s : State) : State := { s with inputs := [x] }

theorem wit_StepRunsHostInstruction :
    (hostDoes (.op (.write 0x000#32 1#32)) ready).inputs = [.op (.write 0x000#32 1#32)] ∧
      decode (hostDoes (.op (.write 0x000#32 1#32)) ready).params.nbRunBias (.host (.write 0x000#32 1#32))
        = .ok (.brFull 0#29) ∧
      mover (hostDoes (.op (.write 0x000#32 1#32)) ready) = some .host ∧
      (hostDoes (.op (.write 0x000#32 1#32)) ready).Quiet := by decide

/-- The two encoders with every item written. -/
def brAtEnd : State := { ready with br := { brRuns.br with job := some { brPartJob ready with todo := [] } } }
def nbAtEnd : State := { ready with nb := { nbRuns.nb with job := some { nbEncJob ready with todo := [] } } }

theorem wit_StepRunsEngineItem_br :
    mover brRuns = some .br ∧ brRuns.br.job = some (brPartJob ready) ∧ (brPartJob ready).tierFault = false ∧
      (brPartJob ready).todo = .sectionMask 0x80#8 :: (brPartJob ready).todo.tail ∧
      mover brAtEnd = some .br ∧ brAtEnd.br.job = some { brPartJob ready with todo := [] } := by decide
theorem wit_StepRunsEngineItem_nb :
    mover nbRuns = some .nb ∧ nbRuns.nb.job = some (nbEncJob ready) ∧
      (nbEncJob ready).todo = [.litRun [0xFF#8, 0xFF#8, 0xE0#8]] ∧
      mover nbAtEnd = some .nb ∧ nbAtEnd.nb.job = some { nbEncJob ready with todo := [] } := by decide
theorem wit_StepRunsEngineItem_alone :
    mover fxRuns = some .fx ∧ brRuns.inputs = [] ∧ brRuns.br.job.isSome ∧ brRuns.nb.job = none ∧
      brRuns.fx.job = none ∧ nbRuns.br.job = none ∧ nbRuns.nb.job.isSome ∧ fxRuns.fx.job.isSome ∧
      fxRuns.br.job = none ∧ fxRuns.nb.job = none := by decide

theorem wit_RegisterWrite :
    isRegOffset 0x2FC#32 = true ∧ isCmdOffset 0x2FC#32 = false ∧ fxRuns.busy (bankOf 0x2FC#32) = true ∧
      Reg.brBuf.writable = true ∧ ready.busy (bankOf Reg.brBuf.offset) = false ∧
      Reg.fxCap.writable = true ∧ ready.busy (bankOf Reg.fxCap.offset) = false ∧
      isRegOffset 0x02C#32 = true ∧ isCmdOffset 0x02C#32 = false ∧ ready.busy (bankOf 0x02C#32) = false := by decide
theorem wit_RegisterWrite_readOnly : ∀ r : Reg, r.writable = true → r.offset ≠ 0x02C#32 := by
  intro r
  cases r <;> decide

theorem wit_RegisterRead :
    Reg.nbStatus.isStatus = true ∧ isRegOffset 0x000#32 = true ∧ isRegOffset 0x2FC#32 = true ∧
      Reg.brMask.isStatus = false ∧ brRuns.busy (bankOf Reg.brMask.offset) = true ∧
      ready.busy (bankOf Reg.brMask.offset) = false := by decide
theorem wit_RegisterRead_unnamed : (∀ r : Reg, r.offset ≠ 0x000#32) ∧ ∀ r : Reg, r.offset ≠ 0x2FC#32 :=
  ⟨fun r => by cases r <;> decide, fun r => by cases r <;> decide⟩

theorem wit_BusyUnitRefuses :
    brRuns.busy (bankOf Reg.brPrev.offset) = true ∧ Reg.brPrev.writable = true ∧
      nbRuns.busy (bankOf Reg.nbSlot.offset) = true ∧ Reg.nbSlot.writable = false ∧ Reg.nbSlot.isStatus = false ∧
      brRuns.br.status.st = .busy ∧ nbRuns.nb.status.st = .busy ∧ fxRuns.fx.status.st = .busy := by decide

/-- Commands whose windows meet those of a running one in a single byte. -/
def brMeetsNb : State := { nbRuns with br := { ready.br with outBase := 8192 + 6, outCap := 16384 } }
def nbMeetsBr : State := { brRuns with nb := { ready.nb with outBase := 10 } }

theorem wit_UndefinedUseRefused :
    brMeetsNb.br.status.st ≠ .busy ∧ brFullError brMeetsNb.params (brArgs brMeetsNb.br) = none ∧
      ¬ brMeetsNb.FreeForBr (brFullJob brMeetsNb) ∧ brPartError brMeetsNb.params (brArgs brMeetsNb.br) = none ∧
      ¬ brMeetsNb.FreeForBr (brPartJob brMeetsNb) ∧ nbMeetsBr.nb.status.st ≠ .busy ∧
      nbEncError (nbArgs nbMeetsBr.nb) = none ∧ ¬ nbMeetsBr.FreeForNb (nbEncJob nbMeetsBr) ∧
      brRuns.fx.status.st ≠ .busy ∧ fxError (fxArgs brRuns.fx) = none ∧ ¬ brRuns.FreeForFx (fxJob brRuns) := by
  decide
theorem wit_UndefinedUseRefused_offset : (0x002#32).toNat % 4 ≠ 0 ∧ 0x300 ≤ (0x300#32).toNat := by decide

theorem wit_CommandWordIgnoredBits :
    isCmdOffset 0x200#32 = true ∧ (1#32).extractLsb' 0 3 = (0xFFFFFFF9#32).extractLsb' 0 3 := by decide

theorem wit_ReservedCodesFail :
    ready.br.status.st ≠ .busy ∧ ready.nb.status.st ≠ .busy ∧ ready.fx.status.st ≠ .busy ∧ 0#3 ≠ 1#3 ∧ 0#3 ≠ 2#3 ∧
      7#3 ≠ 1#3 ∧ 7#3 ≠ 2#3 := by decide

/-- `ready` with the BitRat bank changed. -/
def brWith (f : BrBank → BrBank) : State := { ready with br := f ready.br }
/-- `ready` with the Nibbler bank changed. -/
def nbWith (f : NbBank → NbBank) : State := { ready with nb := f ready.nb }
/-- `ready` with the FIXLAST bank changed. -/
def fxWith (f : FxBank → FxBank) : State := { ready with fx := f ready.fx }

/-- The two BitRat tables, one state for each line, at the edge of its condition. -/
theorem wit_BrFullRejected :
    (brWith fun b => { b with buf := 2 }).br.buf.getLsbD 0 = false ∧
      (brWith fun b => { b with inCap := 4095 }).br.buf.getLsbD 0 = true ∧
      (brWith fun b => { b with inCap := 4095 }).br.inBase.toInt + 4096
        > (brWith fun b => { b with inCap := 4095 }).br.inCap.toNat ∧
      (brWith fun b => { b with buf := 1 }).br.buf.getLsbD 0 = true ∧
      (brWith fun b => { b with buf := 1 }).br.buf.getLsbD 1 = false ∧
      ¬ (ready.br.inBase.toInt < 0 ∨ ready.br.inBase.toInt + 4096 > ready.br.inCap.toNat) ∧
      ready.br.buf.getLsbD 1 = true ∧
      (brWith fun b => { b with outCap := 4615 }).br.outBase.toInt + (4096 + 512 + ready.params.brOutSlack)
        > (brWith fun b => { b with outCap := 4615 }).br.outCap.toNat ∧ ready.br.status.st ≠ .busy := by decide
theorem wit_BrPartRejected :
    (brWith fun b => { b with inLen := 4096 }).br.inLen.toInt ≥ 4096 ∧
      (brWith fun b => { b with inLen := -1#32 }).br.inLen.toInt < 0 ∧
      ¬ (ready.br.inLen.toInt < 0 ∨ ready.br.inLen.toInt ≥ 4096) ∧
      (brWith fun b => { b with inCap := 2 }).br.inBase.toInt + ready.br.inLen.toInt
        > (brWith fun b => { b with inCap := 2 }).br.inCap.toNat ∧
      ¬ (ready.br.inBase.toInt < 0 ∨ ready.br.inBase.toInt + ready.br.inLen.toInt > ready.br.inCap.toNat) ∧
      (brWith fun b => { b with outCap := 10 }).br.outBase.toInt
          + (ready.br.inLen.toInt + ready.br.inLen.toInt / 8 + ready.params.brOutSlack)
        > (brWith fun b => { b with outCap := 10 }).br.outCap.toNat ∧
      (brWith fun b => { b with buf := 1 }).br.buf.getLsbD 1 = false ∧ ready.br.status.st ≠ .busy := by decide
theorem wit_NbEncRejected :
    (nbWith fun b => { b with buf := 2 }).nb.buf.getLsbD 0 = false ∧
      (nbWith fun b => { b with inLen := 8193 }).nb.inLen.toInt > 8192 ∧
      ¬ (ready.nb.inLen.toInt < 0 ∨ ready.nb.inLen.toInt > 8192) ∧
      (nbWith fun b => { b with inCap := 2 }).nb.inBase.toInt + ready.nb.inLen.toInt
        > (nbWith fun b => { b with inCap := 2 }).nb.inCap.toNat ∧
      ¬ (ready.nb.inBase.toInt < 0 ∨ ready.nb.inBase.toInt + ready.nb.inLen.toInt > ready.nb.inCap.toNat) ∧
      (nbWith fun b => { b with buf := 1 }).nb.buf.getLsbD 1 = false ∧
      (nbWith fun b => { b with outBase := 0, outCap := 6 }).nb.outBase.toInt + ready.nb.inLen.toInt + 4
        > (nbWith fun b => { b with outBase := 0, outCap := 6 }).nb.outCap.toNat ∧ ready.nb.status.st ≠ .busy := by
  decide
theorem wit_FxFixlastRejected :
    (fxWith fun b => { b with buf := 0 }).fx.buf = 0#1 ∧ (fxWith fun b => { b with bits := 0 }).fx.bits.toInt < 1 ∧
      (fxWith fun b => { b with bits := 9 }).fx.bits.toInt > 8 ∧
      ¬ (ready.fx.bits.toInt < 1 ∨ ready.fx.bits.toInt > 8) ∧
      (fxWith fun b => { b with addr := 3 }).fx.addr.toInt ≥ (fxWith fun b => { b with addr := 3 }).fx.cap.toNat ∧
      ready.fx.buf = 1#1 ∧ ready.fx.status.st ≠ .busy := by decide

/-- Buffers just large enough. -/
def tight : State := brWith fun b => { b with inCap := 4096, outCap := 4616 }

theorem wit_BrFullStarts :
    tight.br.status.st ≠ .busy ∧ tight.br.buf = 3#2 ∧ 0 ≤ tight.br.inBase.toInt ∧
      tight.br.inBase.toInt + 4096 ≤ tight.br.inCap.toNat ∧ 0 ≤ tight.br.outBase.toInt ∧
      tight.br.outBase.toInt + (4096 + 512 + tight.params.brOutSlack) ≤ tight.br.outCap.toNat ∧
      tight.FreeForBr (brFullJob tight) := by decide
theorem wit_BrPartStarts :
    nbRuns.br.status.st ≠ .busy ∧ nbRuns.br.buf = 3#2 ∧ nbRuns.br.inLen.toInt = (3 : Nat) ∧ 3 < 4096 ∧
      0 ≤ nbRuns.br.inBase.toInt ∧ nbRuns.br.inBase.toInt + (3 : Nat) ≤ nbRuns.br.inCap.toNat ∧
      0 ≤ nbRuns.br.outBase.toInt ∧
      nbRuns.br.outBase.toInt + (3 + 3 / 8 + nbRuns.params.brOutSlack : Nat) ≤ nbRuns.br.outCap.toNat ∧
      nbRuns.FreeForBr (brPartJob nbRuns) := by decide
theorem wit_NbEncStarts :
    brRuns.nb.status.st ≠ .busy ∧ brRuns.nb.buf = 3#2 ∧ brRuns.nb.inLen.toInt = (3 : Nat) ∧ 3 ≤ 8192 ∧
      0 ≤ brRuns.nb.inBase.toInt ∧ brRuns.nb.inBase.toInt + (3 : Nat) ≤ brRuns.nb.inCap.toNat ∧
      0 ≤ brRuns.nb.outBase.toInt ∧ brRuns.nb.outBase.toInt + (3 : Nat) + 4 ≤ brRuns.nb.outCap.toNat ∧
      brRuns.FreeForNb (nbEncJob brRuns) := by decide
theorem wit_FxFixlastStarts :
    ready.fx.status.st ≠ .busy ∧ ready.fx.buf = 1#1 ∧ 1 ≤ ready.fx.bits.toInt ∧ ready.fx.bits.toInt ≤ 8 ∧
      0 ≤ ready.fx.addr.toInt ∧ ready.fx.addr.toInt < ready.fx.cap.toNat ∧ ready.FreeForFx (fxJob ready) := by decide

theorem wit_BitRatItems : brRuns.br.job = some (brPartJob ready) := by decide

theorem wit_NbFieldPlacement :
    nbRuns.nb.job = some (nbEncJob ready) ∧ (nbEncJob ready).slot = none ∧
      slot50.nb.job.map NbJob.slot = some (some 0) ∧ slot50.nb.job.map (fun j => j.body.length) = some 1 := by decide

theorem wit_NbRunAndLitRun :
    nbRuns.nb.job = some (nbEncJob ready) ∧ nbRuns.params.nbRunBias ≤ 0 ∧ 8191 ≤ 8191 + nbRuns.params.nbRunBias ∧
      1 ≤ [0#8].length ∧ [0#8].length ≤ 8192 := by decide

theorem wit_ItemsNeedARunningCommand : ready.br.job = none ∧ ready.nb.job = none := by decide

theorem wit_BrChunkMaskEnds :
    brRuns.br.job = some (brPartJob ready) ∧ (brPartJob ready).out.length ≤ (brPartJob ready).need ∧
      (brPartJob ready).outBase + (brPartJob ready).need ≤ 2 ^ 31 := by decide

theorem wit_NbHeaderEnds :
    nbRuns.nb.job = some (nbEncJob ready) ∧ 2 + (nbEncJob ready).body.length ≤ (nbEncJob ready).need ∧
      (nbEncJob ready).outBase + (nbEncJob ready).need ≤ 2 ^ 31 := by decide

/-- A command that a tail tier too long has reached; no start makes one (R260). -/
def tierState : State := { brRuns with br := { brRuns.br with job := some { brPartJob ready with tierFault := true } } }

theorem wit_FatalErrorEffect :
    nbRuns.nb.job = some (nbEncJob ready) ∧ 8191 + nbRuns.params.nbRunBias < 8192 ∧
      mover tierState = some .br ∧ tierState.br.job = some { brPartJob ready with tierFault := true } := by decide

theorem wit_FixlastLaws : 1 ≤ 1 ∧ 8 ≤ 8 := by decide

theorem wit_FixlastRun :
    (hostDoes (.op (.write 0x200#32 9#32)) ready).Quiet ∧ ready.fx.status.st ≠ .busy ∧
      (9#32).extractLsb' 0 3 = 1#3 ∧ ready.fx.buf = 1#1 ∧ ready.fx.bits.toInt = (3 : Nat) ∧
      0 ≤ ready.fx.addr.toInt ∧ ready.fx.addr.toInt < ready.fx.cap.toNat ∧ ready.readIn 2 = 0xE0#8 := by decide

theorem wit_HostMemoryAccess :
    mover (hostDoes (.writeOut 11 7#8) { brRuns with turn := .host }) = some .host ∧
      (∀ w ∈ brRuns.outWindows, w.holds 11 = false) ∧ (∃ w ∈ brRuns.outWindows, w.holds 10 = true) ∧
      (∀ w ∈ brRuns.inWindows ++ brRuns.fxWindows, w.holds 3 = false) ∧
      (∃ w ∈ brRuns.inWindows ++ brRuns.fxWindows, w.holds 2 = true) ∧
      (∀ w ∈ brRuns.fxWindows, w.holds 2 = false) ∧ (∃ w ∈ fxRuns.fxWindows, w.holds 2 = true) ∧
      mover (hostDoes (.readIn 2) { fxRuns with turn := .host }) = some .host := by decide

theorem wit_PlatformResetEffect :
    mover (hostDoes .reset { bothRun with turn := .host }) = some .host ∧
      mover (hostDoes .reset { fxRuns with turn := .host }) = some .host ∧ fxRuns.fx.job = some (fxJob ready) ∧
      (∀ w ∈ bothRun.outWindows, w.holds 11 = false) := by decide

/-- A line of each command that runs, from reset with every operand named or with operands omitted, and one that
fails because `absent` cleared a `PRESENT` bit. -/
theorem wit_CommandLines_run :
    State.reset.Quiet ∧ ready.Quiet ∧ ready.br.status.st ≠ .busy ∧ ready.nb.status.st ≠ .busy ∧
      ready.fx.status.st ≠ .busy ∧ 3 ≤ ready.params.brOutSlack ∧ ready.params.nbRunBias ≤ 3 ∧
      brFullError ready.params (brArgs (ready.br.afterLine (some 1#1) none none none none none)) = none ∧
      brPartError ready.params (brArgs (ready.br.afterLine none (some (.addr 1)) (some 2) none none none)) = none ∧
      nbEncError (nbArgs (NbBank.reset.afterLine (some (.addr 0)) (some 3) (some 3) (some (.addr 0)) (some 7)))
        = none ∧
      fxError (fxArgs (ready.fx.afterLine none (some 8) none)) = none := by decide
theorem wit_CommandLines_absent :
    ready.br.job = none ∧ ready.nb.job = none ∧ ready.fx.job = none ∧
      brFullError ready.params (brArgs (ready.br.afterLine none (some .absent) none none none none))
        = some .inAbsent ∧
      brPartError ready.params (brArgs (ready.br.afterLine none none none none (some .absent) none))
        = some .outAbsent ∧
      nbEncError (nbArgs (ready.nb.afterLine (some .absent) none none none none)) = some .inAbsent ∧
      fxError (fxArgs (FxBank.reset.afterLine none (some 3) (some 3))) = some .inAbsent := by decide

/-- A line writes the registers it names, keeps those it omits, and `in=absent` clears one bit only. -/
theorem test_line_absent :
    (after (runLine (.brPart (some 1#1) (some .absent) none (some 0x80000007#32) none none) ready)).br
      = { ready.br with
          prev := 1#1, buf := 2#2, inCap := 7#31, status := Status.failed .inAbsent } := by decide

theorem wit_GroupLiterals :
    1 ≤ [0x01#8].length ∧ (List.replicate 8 0x01#8).length ≤ 8 ∧ 0xFF#8 = 0xFF#8 ∧
      isLiteralAt [0x01#8] 0x00#8 0 = true := by decide

theorem wit_BlockEscape :
    (List.replicate 32 0xAA#8).length = 32 ∧
      32 < (brBytes (blockStructured (List.replicate 32 0xAA#8) 0x00#8).items).length ∧
      (brBytes (blockStructured (List.replicate 32 0xFF#8) 0x00#8).items).length ≤ 32 := by decide

theorem wit_MatchByteLaw :
    [0x01#8].length ≤ 4096 ∧ (groupItem, 1, 8) ∈ [(groupItem, 1, 8), (pair, 64, 64), (fullSection, 512, 512),
      (tailPair, 1, 63), (tailSection, 1, 511)] ∧ (List.replicate 64 0x01#8).length = 64 ∧
      (List.replicate 32 0x01#8).length = 32 := by
  refine ⟨by decide, List.mem_cons_self, by decide, by decide⟩

theorem wit_BitRatSilent :
    ([] : List Byte).length ≤ 4096 ∧ brBytes (encodeChunk 1#1 [0xFF#8]).items = [] ∧
      brBytes (encodeChunk 0#1 [0xFF#8]).items ≠ [] := by decide

theorem wit_BitRatSizeBound : (List.replicate 4096 0xAA#8).length ≤ 4096 := by
  simp only [List.length_replicate]
  decide

theorem wit_TierBoundary :
    (List.replicate 4096 0x00#8).length = 4096 ∧ (List.replicate 448 0x00#8).length = 64 * 7 ∧
      (List.replicate 56 0x00#8).length = 8 * 7 := by
  simp only [List.length_replicate]
  decide

theorem wit_ReadBitRatInvertsEncoder :
    (List.replicate 4096 0x01#8).length ≤ 4096 ∧ (List.replicate 4096 0x01#8).length < 4096 * 2 := by
  simp only [List.length_replicate]
  decide

/-- `00 x 6`: the smallest chunk with a run. -/
theorem wit_SegmentsLaws :
    List.replicate 6 0x00#8 ≠ [] ∧
      segments (List.replicate 6 0x00#8) = [] ++ .run 3 :: .litRun [0x00#8, 0x00#8, 0x00#8] :: [] := by decide

theorem wit_NibblerSizeBound :
    Params.default.nbRunBias ≤ 3 ∧ 73 ≤ (List.replicate 73 0x01#8).length ∧
      (∀ x ∈ segments (List.replicate 73 0x01#8), isRun x = false) ∧
      (nbEncode Params.default [0x41#8, 0x41#8]).map (·.2) = some (some 0) := by decide

theorem wit_ReadNibblerInvertsEncoder :
    Params.default.nbRunBias ≤ 3 ∧ (List.replicate 8192 0x00#8).length ≤ 8192 := by
  simp only [List.length_replicate]
  decide

theorem wit_BrFullRun :
    (hostDoes (.op (.write 0x000#32 1#32)) tight).Quiet ∧ tight.br.status.st ≠ .busy ∧
      (1#32).extractLsb' 0 3 = 1#3 ∧ brFullError tight.params (brArgs tight.br) = none ∧
      3 ≤ tight.params.brOutSlack := by decide
theorem wit_BrPartRun :
    (hostDoes (.op (.write 0x000#32 2#32)) ready).Quiet ∧ ready.br.status.st ≠ .busy ∧
      (2#32).extractLsb' 0 3 = 2#3 ∧ brPartError ready.params (brArgs ready.br) = none ∧
      3 ≤ ready.params.brOutSlack := by decide
theorem wit_NbEncRun :
    (hostDoes (.op (.write 0x100#32 1#32)) ready).Quiet ∧ ready.nb.status.st ≠ .busy ∧
      (1#32).extractLsb' 0 3 = 1#3 ∧ nbEncError (nbArgs ready.nb) = none ∧ ready.params.nbRunBias ≤ 3 := by decide

theorem wit_CompressBrTotals :
    ready.Quiet ∧ ready.br.status.st ≠ .busy ∧ 3 ≤ ready.params.brOutSlack ∧ ready.br.buf.getLsbD 1 = true ∧
      (0#32).toNat + (8192#32).toNat ≤ ready.br.inCap.toNat ∧ 0 ≤ ready.br.outBase.toInt ∧
      ready.br.outBase.toInt + brNeed ready.params (min 4096 (8192#32).toNat) ≤ ready.br.outCap.toNat := by decide
theorem wit_CompressNbTotals :
    ready.Quiet ∧ ready.nb.status.st ≠ .busy ∧ ready.params.nbRunBias ≤ 3 ∧ ready.nb.buf.getLsbD 1 = true ∧
      (1#32).toNat + (8188#32).toNat ≤ ready.nb.inCap.toNat ∧ 0 ≤ ready.nb.outBase.toInt ∧
      ready.nb.outBase.toInt + (min 8192 (8188#32).toNat + 4 : Nat) ≤ ready.nb.outCap.toNat := by decide

/-- `ready` with an input buffer of one whole chunk, and after the loop over that chunk: a second is past the end. -/
def oneChunk : State := brWith fun b => { b with inCap := 4096 }
def afterChunk : State := after (exec (.compressBr 0 (BitVec.ofNat 32 (4096 * 1))) oneChunk)

/-- The first command fails: after no chunk at all the loop has ended as it began. -/
theorem wit_CompressStopsAtFailure_first :
    exec (.compressBr 5000 (BitVec.ofNat 32 (4096 * 0))) ready = .next { ready with hostTotal := 0, hostKept := [] } ∧
      ready.br.status.st ≠ .busy ∧ ready.br.job = none ∧ 4096 * 0 + 4096 ≤ (8193#32).toNat ∧
      brFullError ready.params (brArgs { ready.br with buf := 3, inBase := 5000 }) = some .inBounds ∧
      brPartError ready.params (brArgs { ready.br with buf := 1, inLen := 3 }) = some .outAbsent ∧
      nbEncError (nbArgs { ready.nb with inBase := 8000, inLen := 8192 }) = some .inBounds :=
  ⟨rfl, by decide⟩

/-- An outcome that leaves BR in another state than after reset goes on. -/
theorem eq_next_after {o : Out} (h : (after o).br.status.st ≠ .idle) : o = .next (after o) := by
  cases o with
  | next s => rfl
  | fault r => exact absurd rfl h
  | refused r => exact absurd rfl h

theorem afterChunk_status : afterChunk.br.status.st = .done := by decide +kernel

/-- The second command fails, with `len` 8192 or 4097. -/
theorem wit_CompressStopsAtFailure_second :
    exec (.compressBr 0 (BitVec.ofNat 32 (4096 * 1))) oneChunk = .next afterChunk ∧
      afterChunk.br.status.st = .done ∧ afterChunk.br.job = none ∧ afterChunk.hostKept.length = 1 ∧
      brFullError oneChunk.params (brArgs { afterChunk.br with
        buf := afterChunk.br.buf ||| 1#2, prev := afterChunk.br.last, inBase := 4096 }) = some .inBounds ∧
      brPartError oneChunk.params (brArgs { afterChunk.br with
        buf := afterChunk.br.buf ||| 1#2, prev := afterChunk.br.last, inBase := 4096, inLen := 1 })
        = some .inBounds :=
  ⟨eq_next_after (by rw [show after _ = afterChunk from rfl, afterChunk_status]; decide), afterChunk_status,
    by decide +kernel⟩

theorem writer_of_ready :
    emitItems 0 (nbEncJob ready).todo (nbEncJob ready).writer
      = some { body := [0x20#8, 0xFF#8, 0xFF#8, 0xE0#8], slot := some 0 } := by decide

theorem wit_Inv_bothRun : bothRun.Inv where
  mem := by decide
  brStatus := by decide
  nbStatus := by decide
  fxStatus := by decide
  busy := by decide
  brJob := by decide
  nbJob := by decide
  fxJob := by decide
  windows := by decide

theorem wit_Inv_fxRuns : fxRuns.Inv where
  mem := by decide
  brStatus := by decide
  nbStatus := by decide
  fxStatus := by decide
  busy := by decide
  brJob := by decide
  nbJob := by decide
  fxJob := by decide
  windows := by decide

theorem wit_NoFatal_bothRun : bothRun.NoFatal where
  bias := by decide
  br := by decide
  nb := by decide
  fx := by decide
  tier := by decide
  fits := by
    intro j hj x hx
    cases hj
    have hx : x ∈ [NbItem.litRun [0xFF#8, 0xFF#8, 0xE0#8]] := hx
    cases List.mem_singleton.mp hx
    decide

theorem wit_NoFatal_fxRuns : fxRuns.NoFatal where
  bias := by decide
  br := by decide
  nb := by decide
  fx := by decide
  tier := by decide
  fits := fun j hj => by cases hj

theorem wit_Fits_bothRun : bothRun.Fits where
  bias := by decide
  slack := by decide
  br := by decide
  nb := by
    intro j hj w hw
    cases hj
    cases writer_of_ready.symm.trans hw
    decide

theorem wit_Fits_fxRuns : fxRuns.Fits where
  bias := by decide
  slack := by decide
  br := by decide
  nb := fun j hj => by cases hj

/-- A step of each of the three engines goes on (StepKeepsInv, StepKeepsNoFatal, StepKeepsFits, ParametersFixed,
EngineMoveFrame). -/
theorem wit_step_br : (∃ t, step { bothRun with turn := .br } = .next t) ∧
    mover { bothRun with turn := .br } = some .br := ⟨⟨_, rfl⟩, by decide⟩
theorem wit_step_nb : (∃ t, step { bothRun with turn := .nb } = .next t) ∧
    mover { bothRun with turn := .nb } = some .nb := ⟨⟨_, rfl⟩, by decide⟩
theorem wit_step_fx : (∃ t, step fxRuns = .next t) ∧ mover fxRuns = some .fx := ⟨⟨_, rfl⟩, by decide⟩

/-- NB.ENC over the bytes before FIXLAST's, both running. -/
def nbFxRun : State :=
  let s : State := nbWith fun b => { b with inLen := 2 }
  { s with
    nb := { s.nb with status := Status.busy, job := some (nbEncJob s) }
    fx := fxRuns.fx }

/-- Two orders of the same moves that bring both commands of a state to their ends. -/
theorem wit_EngineOrderIsFree :
    [Agent.br, .br, .br, .br, .br, .br, .nb, .nb].Perm [.nb, .br, .br, .nb, .br, .br, .br, .br] ∧
      (after (runEngines [.br, .br, .br, .br, .br, .br, .nb, .nb] bothRun)).Quiet ∧
      (after (runEngines [.nb, .br, .br, .nb, .br, .br, .br, .br] bothRun)).Quiet ∧
      (after (runEngines [.nb, .fx, .nb] nbFxRun)).Quiet ∧ (after (runEngines [.fx, .nb, .nb] nbFxRun)).Quiet ∧
      (after (runEngines [.nb, .fx, .nb] nbFxRun)).readIn 2 = 0xFF#8 ∧
      (after (runEngines [.nb, .fx, .nb] nbFxRun)).nb.written = 5#32 := by decide

/-- RunningCommandsEnd and EnginesDoNotInterfere: with `wit_Inv_bothRun` and the two after it. -/
theorem wit_RunningCommandsEnd :
    bothRun.br.job.isSome ∧ bothRun.nb.job.isSome ∧ fxRuns.fx.job.isSome ∧
      mover { bothRun with turn := .nb } ≠ some .host := by decide

end Sys2Proof.Tests
end

/-! What a move of an engine leaves alone: the frame of each way a running command can move, then of each engine's
move, and O57. -/

namespace Sys2Proof.Machine

/-! ## What the reads depend on -/

theorem readIn_congr {s t : State} (h : t.inMem = s.inMem) (a : Nat) : t.readIn a = s.readIn a := by
  simp only [State.readIn, h]

theorem readOut_congr {s t : State} (hm : t.outMem = s.outMem) (hd : t.outDraws = s.outDraws) (a : Nat) :
    t.readOut a = s.readOut a := by
  simp only [State.readOut, hm, hd]

/-! ## `OUT` outside a window -/

theorem Window.holds_eq_false {w : Window} {a : Nat} : w.holds a = false ↔ a < w.lo ∨ w.hi ≤ a := by
  simp only [Window.holds, Bool.and_eq_false_iff, decide_eq_false_iff_not]
  omega

theorem readOut_scrambleOut_outside (s : State) {lo n a : Nat} (h : a < lo ∨ lo + n ≤ a) :
    (s.scrambleOut lo n).readOut a = s.readOut a := by
  rw [readOut_scrambleOut, if_neg (by omega)]

/-- The end of an encoder's command: a stream that fits the window is stored and the rest of the window becomes
unspecified (R68), nothing outside changes. -/
theorem readOut_storeOut_scrambleOut_outside {s u : State} {base n a : Nat} {bytes : List Byte}
    (hstore : s.storeOut base bytes = .next u) (hfit : bytes.length ≤ n) (h : a < base ∨ base + n ≤ a) :
    (u.scrambleOut (base + bytes.length) (n - bytes.length)).readOut a = s.readOut a := by
  rw [readOut_scrambleOut_outside u (by omega), readOut_storeOut hstore, if_neg (by omega)]

@[simp] theorem headerBytes_length (m : Mark) (n : BitVec 14) : (headerBytes m n).length = 2 := rfl

/-! ## The frames -/

/-- The host's lists and what its loops left are unchanged. -/
abbrev State.SameHostSide (s t : State) : Prop :=
  t.inputs = s.inputs ∧ t.replies = s.replies ∧ t.hostTotal = s.hostTotal ∧ t.hostKept = s.hostKept

/-- The frame of a move of the BitRat engine with output window `w` (R2, R25, R61): its operand registers, the other
units, `IN`, `OUT` outside `w` and the host's side are the same in `t` as in `s`. -/
structure State.BrFrame (w : Window) (s t : State) : Prop where
  operands : s.br.SameOperands t.br
  nb : t.nb = s.nb
  fx : t.fx = s.fx
  readIn : ∀ a, t.readIn a = s.readIn a
  readOut : ∀ a, w.holds a = false → t.readOut a = s.readOut a
  host : s.SameHostSide t

/-- The frame of a move of the Nibbler engine with output window `w` (R2, R30, R61): its operand registers, the other
units, `IN`, `OUT` outside `w` and the host's side are the same in `t` as in `s`. -/
structure State.NbFrame (w : Window) (s t : State) : Prop where
  operands : s.nb.SameOperands t.nb
  br : t.br = s.br
  fx : t.fx = s.fx
  readIn : ∀ a, t.readIn a = s.readIn a
  readOut : ∀ a, w.holds a = false → t.readOut a = s.readOut a
  host : s.SameHostSide t

/-- The frame of a move of the FIXLAST engine on the byte `addr` of `IN` (R2, R61, R65): its operand registers, the
other units, `OUT`, `IN` but for that byte and the host's side are the same in `t` as in `s`. -/
structure State.FxFrame (addr : Nat) (s t : State) : Prop where
  operands : s.fx.SameOperands t.fx
  br : t.br = s.br
  nb : t.nb = s.nb
  readOut : ∀ a, t.readOut a = s.readOut a
  readIn : ∀ a, a ≠ addr → t.readIn a = s.readIn a
  host : s.SameHostSide t

theorem State.BrFrame.trans {w : Window} {s t u : State} (hst : s.BrFrame w t) (htu : t.BrFrame w u) :
    s.BrFrame w u where
  operands := by simp only [BrBank.SameOperands, htu.operands, hst.operands, and_self]
  nb := htu.nb.trans hst.nb
  fx := htu.fx.trans hst.fx
  readIn a := (htu.readIn a).trans (hst.readIn a)
  readOut a ha := (htu.readOut a ha).trans (hst.readOut a ha)
  host := by simp only [State.SameHostSide, htu.host, hst.host, and_self]

theorem State.NbFrame.trans {w : Window} {s t u : State} (hst : s.NbFrame w t) (htu : t.NbFrame w u) :
    s.NbFrame w u where
  operands := by simp only [NbBank.SameOperands, htu.operands, hst.operands, and_self]
  br := htu.br.trans hst.br
  fx := htu.fx.trans hst.fx
  readIn a := (htu.readIn a).trans (hst.readIn a)
  readOut a ha := (htu.readOut a ha).trans (hst.readOut a ha)
  host := by simp only [State.SameHostSide, htu.host, hst.host, and_self]

theorem State.FxFrame.trans {addr : Nat} {s t u : State} (hst : s.FxFrame addr t) (htu : t.FxFrame addr u) :
    s.FxFrame addr u where
  operands := by simp only [FxBank.SameOperands, htu.operands, hst.operands, and_self]
  br := htu.br.trans hst.br
  nb := htu.nb.trans hst.nb
  readOut a := (htu.readOut a).trans (hst.readOut a)
  readIn a ha := (htu.readIn a ha).trans (hst.readIn a ha)
  host := by simp only [State.SameHostSide, htu.host, hst.host, and_self]

/-- A change of the BitRat bank outside its operand registers, of the turn and of the count of free values. -/
theorem State.BrFrame.of_bank (w : Window) {s t : State} (hops : s.br.SameOperands t.br)
    (ht : t = { s with br := t.br, turn := t.turn, freeCount := t.freeCount }) : s.BrFrame w t := by
  rw [ht]
  exact
    { operands := hops
      nb := rfl
      fx := rfl
      readIn := readIn_congr rfl
      readOut := fun a _ => readOut_congr rfl rfl a
      host := ⟨rfl, rfl, rfl, rfl⟩ }

/-- A change of the Nibbler bank outside its operand registers, of the turn and of the count of free values. -/
theorem State.NbFrame.of_bank (w : Window) {s t : State} (hops : s.nb.SameOperands t.nb)
    (ht : t = { s with nb := t.nb, turn := t.turn, freeCount := t.freeCount }) : s.NbFrame w t := by
  rw [ht]
  exact
    { operands := hops
      br := rfl
      fx := rfl
      readIn := readIn_congr rfl
      readOut := fun a _ => readOut_congr rfl rfl a
      host := ⟨rfl, rfl, rfl, rfl⟩ }

/-! ## Each way an engine moves keeps its frame -/

theorem brFrame_passTurn (w : Window) (s : State) : s.BrFrame w s.passTurn :=
  .of_bank w (by simp [BrBank.SameOperands]) rfl

theorem nbFrame_passTurn (w : Window) (s : State) : s.NbFrame w s.passTurn :=
  .of_bank w (by simp [NbBank.SameOperands]) rfl

theorem fxFrame_passTurn (addr : Nat) (s : State) : s.FxFrame addr s.passTurn where
  operands := by simp [FxBank.SameOperands]
  br := rfl
  nb := rfl
  readOut := readOut_congr rfl rfl
  readIn a _ := readIn_congr rfl a
  host := by simp [State.SameHostSide]

theorem brFrame_withBrTodo (w : Window) {s : State} {j : BrJob} {rest : List BrItem} :
    s.BrFrame w (s.withBrTodo j rest) :=
  .of_bank w (by simp [BrBank.SameOperands]) rfl

theorem nbFrame_withNbTodo (w : Window) {s : State} {j : NbJob} {rest : List NbItem} :
    s.NbFrame w (s.withNbTodo j rest) :=
  .of_bank w (by simp [NbBank.SameOperands]) rfl

/-- A fatal error reaches no byte outside the window of its command (R259). -/
theorem brFrame_failFatalBr (s : State) (j : BrJob) (e : ErrCode) : s.BrFrame j.outWindow (s.failFatalBr j e) where
  operands := ⟨rfl, rfl, rfl, rfl, rfl, rfl, rfl⟩
  nb := rfl
  fx := rfl
  readIn := readIn_congr rfl
  readOut a ha := calc
    (s.failFatalBr j e).readOut a = (s.scrambleOut j.outBase j.need).readOut a := readOut_congr rfl rfl a
    _ = s.readOut a := readOut_scrambleOut_outside s (Window.holds_eq_false.mp ha)
  host := ⟨rfl, rfl, rfl, rfl⟩

theorem nbFrame_failFatalNb (s : State) (j : NbJob) (e : ErrCode) : s.NbFrame j.outWindow (s.failFatalNb j e) where
  operands := ⟨rfl, rfl, rfl, rfl, rfl, rfl⟩
  br := rfl
  fx := rfl
  readIn := readIn_congr rfl
  readOut a ha := calc
    (s.failFatalNb j e).readOut a = (s.scrambleOut j.outBase j.need).readOut a := readOut_congr rfl rfl a
    _ = s.readOut a := readOut_scrambleOut_outside s (Window.holds_eq_false.mp ha)
  host := ⟨rfl, rfl, rfl, rfl⟩

/-- Writing an item stages bytes in the running command and reaches nothing else (R137). -/
theorem brFrame_runBrItem (w : Window) {x : BrItem} {s t : State} (h : runBrItem x s = .next t) : s.BrFrame w t := by
  rw [runBrItem_eq_emit, emitBr_eq_next] at h
  obtain ⟨j, -, rfl⟩ := h
  exact .of_bank w (by simp [BrBank.SameOperands]) rfl

/-- Writing an item stages bytes in the running command, or ends it with a fatal error inside its window (R173). -/
theorem nbFrame_runNbItem {x : NbItem} {s t : State} {j : NbJob} (hj : s.nb.job = some j)
    (h : runNbItem x s = .next t) : s.NbFrame j.outWindow t := by
  rw [runNbItem_eq_emit, emitNb_eq_next] at h
  obtain ⟨k, hk, h⟩ := h
  obtain rfl : j = k := Option.some.inj (hj.symm.trans hk)
  obtain ⟨-, rfl⟩ | ⟨y, -, rfl⟩ := h
  · exact nbFrame_failFatalNb s j .fLenRange
  · exact .of_bank _ (by simp [NbBank.SameOperands]) rfl

/-- The end of a BitRat command whose stream fits its window (R66, R68, R226). -/
theorem brFrame_execBrChunkMask {m : Byte} {s t : State} {j : BrJob} (hj : s.br.job = some j)
    (hfit : j.out.length ≤ j.need) (h : execBrChunkMask m s = .next t) : s.BrFrame j.outWindow t := by
  obtain ⟨k, u, hk, hu, rfl⟩ := execBrChunkMask_eq_next.mp h
  obtain rfl : j = k := Option.some.inj (hj.symm.trans hk)
  have hout (a : Nat) (ha : j.outWindow.holds a = false) :=
    readOut_storeOut_scrambleOut_outside hu hfit (Window.holds_eq_false.mp ha)
  obtain ⟨-, rfl⟩ := storeOut_eq_next.mp hu
  exact
    { operands := by simp [BrBank.SameOperands]
      nb := rfl
      fx := rfl
      readIn := readIn_congr rfl
      readOut := hout
      host := ⟨rfl, rfl, rfl, rfl⟩ }

/-- The end of a Nibbler command whose stream, header and body, fits its window (R67, R68, R226). -/
theorem nbFrame_execNbHeader {mark : Mark} {n : BitVec 14} {s t : State} {j : NbJob} (hj : s.nb.job = some j)
    (hfit : 2 + j.body.length ≤ j.need) (h : execNbHeader mark n s = .next t) : s.NbFrame j.outWindow t := by
  obtain ⟨k, u, hk, hu, rfl⟩ := execNbHeader_eq_next.mp h
  obtain rfl : j = k := Option.some.inj (hj.symm.trans hk)
  have hlen : (headerBytes mark n ++ j.body).length = 2 + j.body.length := by simp
  have hout (a : Nat) (ha : j.outWindow.holds a = false) :=
    readOut_storeOut_scrambleOut_outside hu (hlen ▸ hfit) (Window.holds_eq_false.mp ha)
  rw [hlen] at hout
  obtain ⟨-, rfl⟩ := storeOut_eq_next.mp hu
  exact
    { operands := by simp [NbBank.SameOperands]
      br := rfl
      fx := rfl
      readIn := readIn_congr rfl
      readOut := hout
      host := ⟨rfl, rfl, rfl, rfl⟩ }

/-- The end of a FIXLAST command writes its byte of `IN` (R65, R221). -/
theorem fxFrame_finishFx {s t : State} {j : FxJob} (hj : s.fx.job = some j) (h : finishFx s = .next t) :
    s.FxFrame j.addr t := by
  obtain ⟨hnone, -⟩ | ⟨k, u, hk, hu, rfl⟩ := finishFx_eq_next.mp h
  · exact absurd (hj.symm.trans hnone) (by simp)
  obtain rfl : j = k := Option.some.inj (hj.symm.trans hk)
  have hin (a : Nat) (ha : a ≠ j.addr) : u.readIn a = s.readIn a := by rw [readIn_storeIn hu, if_neg ha]
  obtain ⟨-, rfl⟩ := storeIn_eq_next.mp hu
  exact
    { operands := ⟨rfl, rfl, rfl, rfl⟩
      br := rfl
      nb := rfl
      readOut := readOut_congr rfl rfl
      readIn := hin
      host := ⟨rfl, rfl, rfl, rfl⟩ }

/-! ## The room `Fits` leaves at the end of a command -/

theorem State.Fits.br_end {s : State} {j : BrJob} (h : s.Fits) (hj : s.br.job = some j) (htodo : j.todo = []) :
    j.out.length ≤ j.need := by
  have := h.br j hj
  simpa [htodo, brBytes] using this

theorem State.Fits.nb_end {s : State} {j : NbJob} (h : s.Fits) (hj : s.nb.job = some j) (htodo : j.todo = []) :
    2 + j.body.length ≤ j.need :=
  h.nb j hj j.writer (by rw [htodo]; rfl)

/-! ## The move of each engine -/

theorem readyAgents_ne_nil {s : State} {a : Agent} (h : mover s = some a) : readyAgents s ≠ [] := fun hnil => by
  simp [mover_eq_none.mpr hnil] at h

/-- A step in which BR moves is a fatal error, the end of its command, or an item of its stream. -/
theorem step_br_cases {s : State} {o : Out} (h : step s = o) (hm : mover s = some .br) :
    ∃ j, s.br.job = some j ∧
      ((j.tierFault = true ∧ o = .next (s.passTurn.failFatalBr j .fTier)) ∨
        (j.tierFault = false ∧ j.todo = [] ∧ o = execBrChunkMask j.mask s.passTurn) ∨
        ∃ x rest, j.tierFault = false ∧ j.todo = x :: rest ∧ o = runBrItem x (s.passTurn.withBrTodo j rest)) := by
  simpa [hm, readyAgents_ne_nil hm] using step_cases h

/-- A step in which NB moves is the end of its command or a segment of its body. -/
theorem step_nb_cases {s : State} {o : Out} (h : step s = o) (hm : mover s = some .nb) :
    ∃ j, s.nb.job = some j ∧
      ((j.todo = [] ∧ o = execNbHeader j.mark (BitVec.ofNat 14 j.body.length) s.passTurn) ∨
        ∃ x rest, j.todo = x :: rest ∧ o = runNbItem x (s.passTurn.withNbTodo j rest)) := by
  simpa [hm, readyAgents_ne_nil hm] using step_cases h

/-- A step in which FX moves is the end of its command. -/
theorem step_fx_cases {s : State} {o : Out} (h : step s = o) (hm : mover s = some .fx) :
    ∃ j, s.fx.job = some j ∧ o = finishFx s.passTurn := by
  simpa [hm, readyAgents_ne_nil hm] using step_cases h

theorem step_br_frame {s t : State} (hfits : s.Fits) (h : step s = .next t) (hm : mover s = some .br) :
    ∃ j, s.br.job = some j ∧ s.BrFrame j.outWindow t := by
  obtain ⟨j, hj, hmove⟩ := step_br_cases h hm
  refine ⟨j, hj, (brFrame_passTurn _ s).trans ?_⟩
  obtain ⟨-, ho⟩ | ⟨-, htodo, ho⟩ | ⟨x, rest, -, -, ho⟩ := hmove
  · obtain rfl := next_eq_next.mp ho.symm
    exact brFrame_failFatalBr s.passTurn j .fTier
  · exact brFrame_execBrChunkMask hj (hfits.br_end hj htodo) ho.symm
  · exact (brFrame_withBrTodo _).trans (brFrame_runBrItem _ ho.symm)

theorem step_nb_frame {s t : State} (hfits : s.Fits) (h : step s = .next t) (hm : mover s = some .nb) :
    ∃ j, s.nb.job = some j ∧ s.NbFrame j.outWindow t := by
  obtain ⟨j, hj, hmove⟩ := step_nb_cases h hm
  refine ⟨j, hj, (nbFrame_passTurn _ s).trans ?_⟩
  obtain ⟨htodo, ho⟩ | ⟨x, rest, -, ho⟩ := hmove
  · exact nbFrame_execNbHeader hj (hfits.nb_end hj htodo) ho.symm
  · have hrun : (s.passTurn.withNbTodo j rest).NbFrame { j with todo := rest }.outWindow t :=
      nbFrame_runNbItem rfl ho.symm
    exact (nbFrame_withNbTodo _).trans hrun

theorem step_fx_frame {s t : State} (h : step s = .next t) (hm : mover s = some .fx) :
    ∃ j, s.fx.job = some j ∧ s.FxFrame j.addr t := by
  obtain ⟨j, hj, ho⟩ := step_fx_cases h hm
  exact ⟨j, hj, (fxFrame_passTurn _ s).trans (fxFrame_finishFx hj ho.symm)⟩

/-- Settles O57: each engine's move keeps the frame of its unit, for the window of the command that runs. -/
theorem engineMoveFrame : Obligations.EngineMoveFrame := by
  unfold Obligations.EngineMoveFrame
  intro s t hfits hstep
  refine ⟨fun hm => ?_, fun hm => ?_, fun hm => ?_⟩
  · obtain ⟨j, hj, hframe⟩ := step_br_frame hfits hstep hm
    rw [hj]
    refine ⟨hframe.operands, hframe.nb, hframe.fx, hframe.readIn, ?_, hframe.host⟩
    rintro _ ⟨⟩
    exact hframe.readOut
  · obtain ⟨j, hj, hframe⟩ := step_nb_frame hfits hstep hm
    rw [hj]
    refine ⟨hframe.operands, hframe.br, hframe.fx, hframe.readIn, ?_, hframe.host⟩
    rintro _ ⟨⟩
    exact hframe.readOut
  · obtain ⟨j, hj, hframe⟩ := step_fx_frame hstep hm
    rw [hj]
    refine ⟨hframe.operands, hframe.br, hframe.nb, hframe.readOut, ?_, hframe.host⟩
    rintro _ ⟨⟩
    exact hframe.readIn

end Sys2Proof.Machine

/-! A property of states that every elementary move of the machine keeps is kept by every step: the composition of
moves into command lines (R116), loops (R228) and steps (R20), once for all properties. -/

namespace Sys2Proof.Machine

/-! ## What is kept -/

/-- `P` goes over from a state to the one that `f` answers for it. -/
def Keeps (P : State → Prop) (f : State → Out) : Prop := ∀ s t, P s → f s = .next t → P t

theorem Keeps.andThen {P : State → Prop} {f g : State → Out} (hf : Keeps P f) (hg : Keeps P g) :
    Keeps P (fun s => andThen (f s) g) := by
  intro s t hs h
  obtain ⟨u, hu, ht⟩ := andThen_eq_next.mp h
  exact hg u t (hf s u hs hu) ht

theorem Keeps.next {P : State → Prop} {f : State → State} (h : ∀ s, P s → P (f s)) :
    Keeps P (fun s => .next (f s)) := by
  rintro s _ hs ⟨⟩
  exact h s hs

theorem Keeps.refused {P : State → Prop} (f : State → Refusal) : Keeps P (fun s => .refused (f s)) := by
  rintro _ _ _ ⟨⟩

theorem Keeps.fault {P : State → Prop} (f : State → Fault) : Keeps P (fun s => .fault (f s)) := by
  rintro _ _ _ ⟨⟩

theorem Keeps.ite {P : State → Prop} {c : State → Prop} [DecidablePred c] {f g : State → Out} (hf : Keeps P f)
    (hg : Keeps P g) : Keeps P (fun s => if c s then f s else g s) := by
  intro s t hs h
  by_cases hc : c s
  · exact hf s t hs (by simpa [hc] using h)
  · exact hg s t hs (by simpa [hc] using h)

/-- The units, the memory and the parameters are the same: at most the host's side, the turn and the count of free
values differ. -/
structure State.SameMachine (s t : State) : Prop where
  br : t.br = s.br
  nb : t.nb = s.nb
  fx : t.fx = s.fx
  inMem : t.inMem = s.inMem
  outMem : t.outMem = s.outMem
  outDraws : t.outDraws = s.outDraws
  params : t.params = s.params

/-- `P` is kept by each of the machine's elementary moves: the host's single accesses, the starts of commands, the
items of the engines and the ends of commands, the platform's reset. -/
structure KeptByMoves (P : State → Prop) : Prop where
  hostSide : ∀ s t, s.SameMachine t → P s → P t
  setReg : ∀ r v s, P s → P (s.setReg r v)
  writeIn : ∀ a b, Keeps P (hostWriteIn a b)
  writeOut : ∀ a b, Keeps P (hostWriteOut a b)
  startBrFull : Keeps P startBrFull
  startBrPart : Keeps P startBrPart
  badBrCmd : Keeps P badBrCmd
  startNbEnc : Keeps P startNbEnc
  badNbCmd : Keeps P badNbCmd
  startFixlast : Keeps P startFixlast
  badFxCmd : Keeps P badFxCmd
  brFatal : ∀ s j, s.br.job = some j → j.tierFault = true → P s → P (s.failFatalBr j .fTier)
  brItem : ∀ s t j x rest, s.br.job = some j → j.tierFault = false → j.todo = x :: rest → P s →
    runBrItem x (s.withBrTodo j rest) = .next t → P t
  brEnd : ∀ s t j, s.br.job = some j → j.tierFault = false → j.todo = [] → P s →
    execBrChunkMask j.mask s = .next t → P t
  nbItem : ∀ s t j x rest, s.nb.job = some j → j.todo = x :: rest → P s →
    runNbItem x (s.withNbTodo j rest) = .next t → P t
  nbEnd : ∀ s t j, s.nb.job = some j → j.todo = [] → P s →
    execNbHeader j.mark (BitVec.ofNat 14 j.body.length) s = .next t → P t
  finishFx : Keeps P finishFx
  reset : ∀ s, P s → P (platformReset s)

/-! ## Bus cycles -/

/-- Running the command a word written to `BR_CMD` selects is the write itself (R225). -/
theorem exec_decodeBrCmd (v : Word) (s : State) : exec (decodeBrCmd v) s = writeBrCmd v s := by
  unfold decodeBrCmd writeBrCmd
  split
  · rfl
  · split <;> rfl

theorem exec_decodeNbCmd (v : Word) (s : State) : exec (decodeNbCmd v) s = writeNbCmd v s := by
  unfold decodeNbCmd writeNbCmd
  split <;> rfl

theorem exec_decodeFxCmd (v : Word) (s : State) : exec (decodeFxCmd v) s = writeFxCmd v s := by
  unfold decodeFxCmd writeFxCmd
  split <;> rfl

/-- What a host operation runs: a register write, a register read or a chunking loop (R223, R224, R228). -/
theorem exec_decodeHostOp {op : HostOp} {i : Instr} (h : decodeHostOp op = .ok i) :
    (∃ off v, exec i = execRegwr off v) ∨ (∃ off, exec i = execRegrd off) ∨
      (∃ a n, exec i = execCompressBr a n) ∨ ∃ a n, exec i = execCompressNb a n := by
  cases op with
  | write off v =>
    refine .inl ⟨off, v, funext fun s => ?_⟩
    rw [decodeHostOp] at h
    cases he : offsetError off with
    | some e => simp [he] at h
    | none =>
      simp only [he] at h
      simp only [execRegwr, he, Option.isSome_none, Bool.false_eq_true, if_false]
      split at h
      · rename_i h0
        cases h
        rw [if_pos h0, exec_decodeBrCmd]
      · rename_i h0
        rw [if_neg h0]
        split at h
        · rename_i h1
          cases h
          rw [if_pos h1, exec_decodeNbCmd]
        · rename_i h1
          rw [if_neg h1]
          split at h
          · rename_i h2
            cases h
            rw [if_pos h2, exec_decodeFxCmd]
          · rename_i h2
            cases h
            rw [if_neg h2]
            simp only [exec, execRegwr, he, h0, h1, h2, Option.isSome_none, Bool.false_eq_true, if_false]
  | read off =>
    refine .inr (.inl ⟨off, ?_⟩)
    rw [decodeHostOp] at h
    cases he : offsetError off with
    | some e => simp [he] at h
    | none =>
      simp only [he] at h
      cases h
      rfl
  | compress codec a n =>
    cases codec with
    | br =>
      cases h
      exact .inr (.inr (.inl ⟨a, n, rfl⟩))
    | nb =>
      cases h
      exact .inr (.inr (.inr ⟨a, n, rfl⟩))

/-- A read of a register that is answered adds one reply (R224). -/
theorem execRegrd_eq_next {off : Word} {s t : State} (h : execRegrd off s = .next t) : ∃ v, t = s.reply v := by
  unfold execRegrd at h
  split at h
  · cases h
  · split at h
    · cases h
      exact ⟨_, rfl⟩
    · split at h
      · cases h
        exact ⟨_, rfl⟩
      · split at h
        · cases h
        · cases h
          exact ⟨_, rfl⟩

/-- An instruction of the host's move is one that a host operation decodes to. -/
theorem hostMove_run {x : Input} {s u : State} {i : Instr} (h : hostMove x s = .run i u) :
    ∃ op, decodeHostOp op = .ok i := by
  cases x with
  | op op =>
    simp only [hostMove, decode] at h
    split at h
    · rename_i k hk
      cases h
      exact ⟨op, hk⟩
    · cases h
  | _ => cases h

section

variable {P : State → Prop} (hP : KeptByMoves P)

include hP

theorem KeptByMoves.writeOther (off v : Word) : Keeps P (writeOther off v) := by
  intro s t hs h
  obtain ⟨-, ⟨r, -, rfl⟩ | ⟨-, rfl⟩⟩ := writeOther_eq_next.mp h
  · exact hP.setReg r v s hs
  · exact hs

theorem KeptByMoves.execRegwr (off v : Word) : Keeps P (execRegwr off v) := by
  unfold Sys2Proof.Machine.execRegwr writeBrCmd writeNbCmd writeFxCmd
  exact .ite (.refused _) (.ite (.ite hP.startBrFull (.ite hP.startBrPart hP.badBrCmd))
    (.ite (.ite hP.startNbEnc hP.badNbCmd) (.ite (.ite hP.startFixlast hP.badFxCmd) (hP.writeOther off v))))

theorem KeptByMoves.reply (v : Word) (s : State) (hs : P s) : P (s.reply v) :=
  hP.hostSide s _ ⟨rfl, rfl, rfl, rfl, rfl, rfl, rfl⟩ hs

theorem KeptByMoves.loopResult (total : Nat) (s : State) (hs : P s) : P (s.loopResult total) :=
  hP.hostSide s _ ⟨rfl, rfl, rfl, rfl, rfl, rfl, rfl⟩ hs

theorem KeptByMoves.withKept (kept : List KeptChunk) (s : State) (hs : P s) : P (s.withKept kept) :=
  hP.hostSide s _ ⟨rfl, rfl, rfl, rfl, rfl, rfl, rfl⟩ hs

theorem KeptByMoves.execRegrd (off : Word) : Keeps P (execRegrd off) := by
  intro s t hs h
  obtain ⟨v, rfl⟩ := execRegrd_eq_next h
  exact hP.reply v s hs

/-! ## The engines to the ends of their commands -/

theorem KeptByMoves.finishBr (fuel : Nat) : Keeps P (finishBr fuel) := by
  induction fuel with
  | zero => exact .next fun _ hs => hs
  | succ fuel ih =>
    intro s t hs h
    rw [Sys2Proof.Machine.finishBr] at h
    cases hj : s.br.job with
    | none =>
      simp only [hj] at h
      cases h
      exact hs
    | some j =>
      simp only [hj] at h
      cases hf : j.tierFault with
      | true =>
        simp only [hf, if_true] at h
        cases h
        exact hP.brFatal s j hj hf hs
      | false =>
        simp only [hf, Bool.false_eq_true, if_false] at h
        cases htodo : j.todo with
        | nil =>
          simp only [htodo] at h
          exact hP.brEnd s t j hj hf htodo hs h
        | cons x rest =>
          simp only [htodo] at h
          obtain ⟨u, hu, ht⟩ := andThen_eq_next.mp h
          exact ih u t (hP.brItem s u j x rest hj hf htodo hs hu) ht

theorem KeptByMoves.finishNb (fuel : Nat) : Keeps P (finishNb fuel) := by
  induction fuel with
  | zero => exact .next fun _ hs => hs
  | succ fuel ih =>
    intro s t hs h
    rw [Sys2Proof.Machine.finishNb] at h
    cases hj : s.nb.job with
    | none =>
      simp only [hj] at h
      cases h
      exact hs
    | some j =>
      simp only [hj] at h
      cases htodo : j.todo with
      | nil =>
        simp only [htodo] at h
        exact hP.nbEnd s t j hj htodo hs h
      | cons x rest =>
        simp only [htodo] at h
        obtain ⟨u, hu, ht⟩ := andThen_eq_next.mp h
        exact ih u t (hP.nbItem s u j x rest hj htodo hs hu) ht

/-! ## Command lines (R116) -/

theorem KeptByMoves.writeIfNamed (r : Reg) (v : Option Word) : Keeps P (writeIfNamed r v) := by
  cases v with
  | none => exact .next fun _ hs => hs
  | some v => exact hP.execRegwr _ v

theorem KeptByMoves.writeBufArg (buf base : Reg) (bit : Nat) (x : Option BufArg) :
    Keeps P (writeBufArg buf base bit x) := by
  intro s t hs h
  match x with
  | none =>
    cases h
    exact hs
  | some .absent => exact hP.execRegwr _ _ s t hs h
  | some (.addr a) =>
    obtain ⟨u, hu, ht⟩ := andThen_eq_next.mp h
    exact hP.execRegwr _ _ u t (hP.execRegwr _ _ s u hs hu) ht

theorem KeptByMoves.pollBr : Keeps P pollBr := fun s => hP.finishBr s.brMovesLeft s

theorem KeptByMoves.pollNb : Keeps P pollNb := fun s => hP.finishNb s.nbMovesLeft s

theorem KeptByMoves.runBrLine (op : Word) (prev : Option (BitVec 1)) (inp : Option BufArg) (len incap : Option Word)
    (out : Option BufArg) (outcap : Option Word) : Keeps P (runBrLine op prev inp len incap out outcap) :=
  .andThen (hP.writeIfNamed _ _) <| .andThen (hP.writeBufArg _ _ _ _) <| .andThen (hP.writeIfNamed _ _) <|
    .andThen (hP.writeIfNamed _ _) <| .andThen (hP.writeBufArg _ _ _ _) <| .andThen (hP.writeIfNamed _ _) <|
    .andThen (hP.execRegwr _ _) hP.pollBr

theorem KeptByMoves.runNbLine (inp : Option BufArg) (len incap : Option Word) (out : Option BufArg)
    (outcap : Option Word) : Keeps P (runNbLine inp len incap out outcap) :=
  .andThen (hP.writeBufArg _ _ _ _) <| .andThen (hP.writeIfNamed _ _) <| .andThen (hP.writeIfNamed _ _) <|
    .andThen (hP.writeBufArg _ _ _ _) <| .andThen (hP.writeIfNamed _ _) <| .andThen (hP.execRegwr _ _) hP.pollNb

theorem KeptByMoves.runFxLine (addr bits cap : Option Word) : Keeps P (runFxLine addr bits cap) :=
  .andThen (hP.writeBufArg _ _ _ _) <| .andThen (hP.writeIfNamed _ _) <| .andThen (hP.writeIfNamed _ _) <|
    .andThen (hP.execRegwr _ _) hP.finishFx

theorem KeptByMoves.runLine (l : Line) : Keeps P (runLine l) := by
  cases l with
  | brFull prev inp incap out outcap => exact hP.runBrLine _ _ _ _ _ _ _
  | brPart prev inp len incap out outcap => exact hP.runBrLine _ _ _ _ _ _ _
  | nbEnc inp len incap out outcap => exact hP.runNbLine _ _ _ _ _
  | fxFixlast addr bits cap => exact hP.runFxLine _ _ _

/-! ## The chunking loops (R228) -/

theorem KeptByMoves.keepChunk (prev : BitVec 1) (s : State) (hs : P s) : P (s.keepChunk prev) :=
  hP.withKept _ s hs

theorem KeptByMoves.compressBrFrom (a : Word) (fuel left pos : Nat) (prev : BitVec 1) (total : Nat) :
    Keeps P (compressBrFrom a fuel left pos prev total) := by
  induction fuel generalizing left pos prev total with
  | zero => exact .next (hP.loopResult _)
  | succ fuel ih =>
    refine .ite (.andThen (hP.runBrLine _ _ _ _ _ _ _) (.ite (.next fun _ hs => hs) ?_))
      (.ite (.andThen (hP.runBrLine _ _ _ _ _ _ _) (.ite (.next fun _ hs => hs) (.next fun t ht => ?_)))
        (.next (hP.loopResult _)))
    · intro t u ht h
      exact ih _ _ _ _ (t.keepChunk prev) u (hP.keepChunk prev t ht) h
    · exact hP.loopResult _ _ (hP.keepChunk prev t ht)

theorem KeptByMoves.compressNbFrom (a : Word) (fuel left pos total : Nat) :
    Keeps P (compressNbFrom a fuel left pos total) := by
  induction fuel generalizing left pos total with
  | zero => exact .next (hP.loopResult _)
  | succ fuel ih =>
    refine .ite (.andThen (hP.runNbLine _ _ _ _ _) (.ite (.next fun _ hs => hs) ?_)) (.next (hP.loopResult _))
    intro t u ht h
    exact ih _ _ _ t u ht h

theorem KeptByMoves.execCompressBr (a n : Word) : Keeps P (execCompressBr a n) := by
  intro s t hs h
  exact hP.compressBrFrom _ _ _ _ _ _ (s.withKept []) t (hP.withKept [] s hs) h

theorem KeptByMoves.execCompressNb (a n : Word) : Keeps P (execCompressNb a n) :=
  fun s => hP.compressNbFrom a _ _ _ _ s

/-! ## The host's move and the step -/

theorem KeptByMoves.exec_hostOp {op : HostOp} {i : Instr} (h : decodeHostOp op = .ok i) : Keeps P (exec i) := by
  obtain ⟨off, v, hi⟩ | ⟨off, hi⟩ | ⟨a, n, hi⟩ | ⟨a, n, hi⟩ := exec_decodeHostOp h <;> rw [hi]
  · exact hP.execRegwr off v
  · exact hP.execRegrd off
  · exact hP.execCompressBr a n
  · exact hP.execCompressNb a n

theorem KeptByMoves.hostReadIn (a : Nat) : Keeps P (hostReadIn a) :=
  .ite (.ite (.next fun s hs => hP.hostSide s _ ⟨rfl, rfl, rfl, rfl, rfl, rfl, rfl⟩ hs)
    (.next fun s hs => hP.reply _ s hs)) (.fault _)

theorem KeptByMoves.hostReadOut (a : Nat) : Keeps P (hostReadOut a) :=
  .ite (.ite (.next fun s hs => hP.hostSide s _ ⟨rfl, rfl, rfl, rfl, rfl, rfl, rfl⟩ hs)
    (.next fun s hs => hP.reply _ s hs)) (.fault _)

/-- What the host or the platform does that is no instruction. -/
theorem KeptByMoves.hostMove_other {x : Input} {s t : State} (hs : P s) (h : hostMove x s = .other (.next t)) :
    P t := by
  cases x with
  | op op =>
    simp only [hostMove] at h
    split at h <;> simp at h
  | line l =>
    exact hP.runLine l s t hs (Move.other.inj h)
  | readIn a => exact hP.hostReadIn a s t hs (Move.other.inj h)
  | writeIn a b => exact hP.writeIn a b s t hs (Move.other.inj h)
  | readOut a => exact hP.hostReadOut a s t hs (Move.other.inj h)
  | writeOut a b => exact hP.writeOut a b s t hs (Move.other.inj h)
  | reset =>
    cases h
    exact hP.reset s hs

/-- What the elementary moves keep, every step keeps. -/
theorem KeptByMoves.step : Keeps P step := by
  intro s t hs h
  have hpass : P s.passTurn := hP.hostSide s _ ⟨rfl, rfl, rfl, rfl, rfl, rfl, rfl⟩ hs
  obtain ⟨-, ho⟩ | ⟨x, rest, -, -, hmove⟩ | ⟨j, -, hj, hmove⟩ | ⟨j, -, hj, hmove⟩ | ⟨j, -, hj, ho⟩ :=
    step_cases h
  · cases ho
    exact hs
  · have htaken : P { s.passTurn with inputs := rest } :=
      hP.hostSide s _ ⟨rfl, rfl, rfl, rfl, rfl, rfl, rfl⟩ hs
    obtain ⟨i, hi, ho⟩ | ho := hmove
    · obtain ⟨op, hop⟩ := hostMove_run hi
      exact hP.exec_hostOp hop _ t htaken ho.symm
    · exact hP.hostMove_other htaken ho
  · obtain ⟨hf, ho⟩ | ⟨hf, htodo, ho⟩ | ⟨x, rest, hf, htodo, ho⟩ := hmove
    · cases ho
      exact hP.brFatal s.passTurn j hj hf hpass
    · exact hP.brEnd s.passTurn t j hj hf htodo hpass ho.symm
    · exact hP.brItem s.passTurn t j x rest hj hf htodo hpass ho.symm
  · obtain ⟨htodo, ho⟩ | ⟨x, rest, htodo, ho⟩ := hmove
    · exact hP.nbEnd s.passTurn t j hj htodo hpass ho.symm
    · exact hP.nbItem s.passTurn t j x rest hj htodo hpass ho.symm
  · exact hP.finishFx s.passTurn t hpass ho.symm

end

end Sys2Proof.Machine

/-! The invariant of the machine: what each operation on memory, on a bank and on the writer of a Nibbler command keeps
of it, and O53. -/

namespace Sys2Proof.Machine

/-! ## Memory in canonical form -/

theorem mem_put {m : Memory} {base : Nat} {bytes : List Byte} {c : Host.Cell} (h : c ∈ m.put base bytes) :
    c ∈ m ∨ (base ≤ c.1 ∧ c.1 < base + bytes.length) := by
  simp only [Memory.put, List.mem_append, List.mem_filter] at h
  obtain (⟨hc, -⟩ | hc) | ⟨hc, -⟩ := h
  · exact .inl hc
  · exact .inr ⟨(cells_mem hc).1, (cells_mem hc).2.1⟩
  · exact .inl hc

theorem mem_cut {m : Memory} {lo hi : Nat} {c : Host.Cell} :
    c ∈ m.cut lo hi ↔ c ∈ m ∧ (c.1 < lo ∨ hi ≤ c.1) := by
  simp [Memory.cut]

theorem mem_draws_cut {d : Draws} {lo hi : Nat} {c : Nat × Nat} :
    c ∈ d.cut lo hi ↔ c ∈ d ∧ (c.1 < lo ∨ hi ≤ c.1) := by
  simp [Draws.cut]

theorem mem_draws_put {d : Draws} {lo n k : Nat} {c : Nat × Nat} (h : c ∈ d.put lo n k) :
    c ∈ d ∨ (lo ≤ c.1 ∧ c.1 < lo + n) := by
  simp only [Draws.put, List.mem_append, List.mem_filter, List.mem_map, List.mem_range] at h
  obtain (⟨hc, -⟩ | ⟨i, hi, rfl⟩) | ⟨hc, -⟩ := h
  · exact .inl hc
  · exact .inr ⟨Nat.le_add_right _ _, Nat.add_lt_add_left hi _⟩
  · exact .inl hc

theorem State.MemOk.storeIn {s t : State} {a : Nat} {b : Byte} (h : s.MemOk) (hst : s.storeIn a b = .next t) :
    t.MemOk := by
  obtain ⟨hin, hout, hdraws, hdisj⟩ := h
  obtain ⟨ha, rfl⟩ := storeIn_eq_next.mp hst
  exact ⟨put_wf hin (by simpa using ha), hout, hdraws, hdisj⟩

theorem State.MemOk.storeOut {s t : State} {base : Nat} {bytes : List Byte} (h : s.MemOk)
    (hst : s.storeOut base bytes = .next t) : t.MemOk := by
  obtain ⟨hin, hout, hdraws, hdisj⟩ := h
  obtain ⟨hb, rfl⟩ := storeOut_eq_next.mp hst
  refine ⟨hin, put_wf hout hb, draws_cut_wf hdraws, fun d hd c hc => ?_⟩
  obtain ⟨hd, hrange⟩ := mem_draws_cut.mp hd
  obtain hc | hc := mem_put hc
  · exact hdisj d hd c hc
  · omega

theorem State.MemOk.scrambleOut {s : State} {lo n : Nat} (h : s.MemOk) (hn : lo + n ≤ spaceSize ∨ n = 0) :
    (s.scrambleOut lo n).MemOk := by
  obtain ⟨hin, hout, hdraws, hdisj⟩ := h
  refine ⟨hin, cut_wf hout, draws_put_wf hdraws hn, fun d hd c hc => ?_⟩
  obtain ⟨hc, hrange⟩ := mem_cut.mp hc
  obtain hd | hd := mem_draws_put hd
  · exact hdisj d hd c hc
  · omega

/-! ## The writer's slot (R33, R172) -/

/-- A free slot is a byte of the body whose low nibble is 0 (R33). -/
def Writer.SlotOk (w : Writer) : Prop :=
  ∀ k ∈ w.slot, k < w.body.length ∧ (w.body.getD k 0x00#8).extractLsb' 0 4 = 0#4

theorem Writer.SlotOk.start : Writer.start.SlotOk := by
  rintro k ⟨⟩

theorem lowNibble_append_zero (x : Nibble) : (x ++ 0#4 : Byte).extractLsb' 0 4 = 0#4 := by
  revert x
  decide

theorem Writer.SlotOk.putNibble (x : Nibble) (w : Writer) : (putNibble x w).SlotOk := by
  unfold Sys2Proof.Machine.putNibble
  split
  · rintro k ⟨⟩
  · rintro k ⟨⟩
    simpa using lowNibble_append_zero x

theorem Writer.SlotOk.putByte {w : Writer} (b : Byte) (h : w.SlotOk) : (putByte b w).SlotOk := by
  intro k hk
  obtain ⟨hlt, hlow⟩ := h k hk
  refine ⟨?_, ?_⟩
  · simpa [Sys2Proof.Machine.putByte] using Nat.lt_succ_of_lt hlt
  · rw [Sys2Proof.Machine.putByte, List.getD_append _ _ _ _ hlt, hlow]

theorem Writer.SlotOk.putNibbles {w : Writer} (xs : List Nibble) (h : w.SlotOk) : (putNibbles xs w).SlotOk := by
  induction xs generalizing w with
  | nil => exact h
  | cons x xs ih => exact ih (.putNibble x w)

theorem Writer.SlotOk.putBytes {w : Writer} (bs : List Byte) (h : w.SlotOk) : (putBytes bs w).SlotOk := by
  induction bs generalizing w with
  | nil => exact h
  | cons b bs ih => exact ih (h.putByte b)

theorem writeLen_eq_some {v : Int} {w w' : Writer} :
    writeLen v w = some w' ↔ 0 ≤ v ∧ v ≤ nbLenMax ∧ w' = putNibbles (lenNibbles v.toNat) w := by
  unfold writeLen
  split <;> rename_i h
  · simp only [reduceCtorEq, false_iff]
    omega
  · simp only [Option.some.injEq, @eq_comm _ _ w']
    exact ⟨fun hw => ⟨by omega, by omega, hw⟩, fun ⟨_, _, hw⟩ => hw⟩

theorem emitLitRun_eq_some {bytes : List Byte} {w w' : Writer} :
    emitLitRun bytes w = some w' ↔
      ∃ u, writeLen ((bytes.length : Int) - 1) w = some u ∧ w' = putBytes bytes u := by
  unfold emitLitRun
  split <;> rename_i h <;> simp [h, @eq_comm _ _ w']

theorem Writer.SlotOk.emitItem {bias : Nat} {x : NbItem} {w w' : Writer} (h : w.SlotOk)
    (hx : emitItem bias x w = some w') : w'.SlotOk := by
  cases x with
  | lenField4 v =>
    cases hx
    exact h.putNibbles _
  | lenField8 v =>
    cases hx
    exact h.putNibbles _
  | lenField16 v =>
    cases hx
    exact h.putNibbles _
  | run n =>
    obtain ⟨-, -, rfl⟩ := writeLen_eq_some.mp hx
    exact h.putNibbles _
  | litRun bytes =>
    obtain ⟨u, hu, rfl⟩ := emitLitRun_eq_some.mp hx
    obtain ⟨-, -, rfl⟩ := writeLen_eq_some.mp hu
    exact (h.putNibbles _).putBytes bytes

/-! ## Status registers and the codes of errors -/

theorem Status.Ok.idle : Status.idle.Ok := by decide
theorem Status.Ok.busy : Status.busy.Ok := by decide
theorem Status.Ok.done : Status.done.Ok := by decide
theorem Status.Ok.failed {e : ErrCode} (he : e ≠ .ok) : (Status.failed e).Ok := ⟨by simp [Status.failed, he], rfl⟩

@[simp] theorem Status.busy_st : Status.busy.st = .busy := rfl
@[simp] theorem Status.done_st : Status.done.st = .done := rfl
@[simp] theorem Status.failed_st (e : ErrCode) : (Status.failed e).st = .failed := rfl

/-- A code of class 1: an error, and not a fatal one (R251). -/
def ErrCode.IsPlain (e : ErrCode) : Prop := e ≠ .ok ∧ e.isFatal = false

theorem brFullError_plain {p : Params} {x : EncArgs} {e : ErrCode} (h : brFullError p x = some e) : e.IsPlain := by
  unfold brFullError at h
  split_ifs at h <;> cases h <;> exact ⟨by decide, rfl⟩

theorem brPartError_plain {p : Params} {x : EncArgs} {e : ErrCode} (h : brPartError p x = some e) : e.IsPlain := by
  unfold brPartError at h
  split_ifs at h <;> cases h <;> exact ⟨by decide, rfl⟩

theorem nbEncError_plain {x : EncArgs} {e : ErrCode} (h : nbEncError x = some e) : e.IsPlain := by
  unfold nbEncError at h
  split_ifs at h <;> cases h <;> exact ⟨by decide, rfl⟩

theorem fxError_plain {x : FxArgs} {e : ErrCode} (h : fxError x = some e) : e.IsPlain := by
  unfold fxError at h
  split_ifs at h <;> cases h <;> exact ⟨by decide, rfl⟩

theorem badCmd_plain : ErrCode.badCmd.IsPlain := ⟨by decide, rfl⟩

/-! ## The preconditions, when all of them hold -/

theorem brFullError_eq_none {p : Params} {x : EncArgs} :
    brFullError p x = none ↔
      x.inPresent = true ∧ 0 ≤ x.inBase ∧ x.inBase + brFullLen ≤ x.inCap ∧ x.outPresent = true ∧
        0 ≤ x.outBase ∧ x.outBase + brNeed p brFullLen ≤ x.outCap := by
  unfold brFullError
  split_ifs with h1 h2 h3 h4
  · simp [h1]
  · simp only [false_iff]
    omega
  · simp [h3]
  · simp only [false_iff]
    omega
  · simp only [Bool.not_eq_false] at h1 h3
    exact iff_of_true rfl ⟨h1, by omega, by omega, h3, by omega, by omega⟩

theorem brPartError_eq_none {p : Params} {x : EncArgs} :
    brPartError p x = none ↔
      x.inPresent = true ∧ (0 ≤ x.inLen ∧ x.inLen < brFullLen) ∧ 0 ≤ x.inBase ∧ x.inBase + x.inLen ≤ x.inCap ∧
        x.outPresent = true ∧ 0 ≤ x.outBase ∧ x.outBase + brNeed p x.inLen.toNat ≤ x.outCap := by
  unfold brPartError
  split_ifs with h1 h2 h3 h4 h5
  · simp [h1]
  · simp only [false_iff]
    omega
  · simp only [false_iff]
    omega
  · simp [h4]
  · simp only [false_iff]
    omega
  · simp only [Bool.not_eq_false] at h1 h4
    exact iff_of_true rfl ⟨h1, ⟨by omega, by omega⟩, by omega, by omega, h4, by omega, by omega⟩

theorem nbEncError_eq_none {x : EncArgs} :
    nbEncError x = none ↔
      x.inPresent = true ∧ (0 ≤ x.inLen ∧ x.inLen ≤ nbMax) ∧ 0 ≤ x.inBase ∧ x.inBase + x.inLen ≤ x.inCap ∧
        x.outPresent = true ∧ 0 ≤ x.outBase ∧ x.outBase + x.inLen + nbOutSlack ≤ x.outCap := by
  unfold nbEncError
  split_ifs with h1 h2 h3 h4 h5
  · simp [h1]
  · simp only [false_iff]
    omega
  · simp only [false_iff]
    omega
  · simp [h4]
  · simp only [false_iff]
    omega
  · simp only [Bool.not_eq_false] at h1 h4
    exact iff_of_true rfl ⟨h1, ⟨by omega, by omega⟩, by omega, by omega, h4, by omega, by omega⟩

theorem fxError_eq_none {x : FxArgs} :
    fxError x = none ↔
      x.present = true ∧ (1 ≤ x.lastBits ∧ x.lastBits ≤ 8) ∧ 0 ≤ x.addr ∧ x.addr < x.cap := by
  unfold fxError
  split_ifs with h1 h2 h3
  · simp [h1]
  · simp only [false_iff]
    omega
  · simp only [false_iff]
    omega
  · simp only [Bool.not_eq_false] at h1
    exact iff_of_true rfl ⟨h1, ⟨by omega, by omega⟩, by omega, by omega⟩

/-! ## The invariant, a bank at a time -/

/-- The units' statuses and running commands, the memory and the parameters are the same: at most operand, result and
session registers and the host's side differ. -/
structure State.SameRuns (s t : State) : Prop where
  brStatus : t.br.status = s.br.status
  brJob : t.br.job = s.br.job
  nbStatus : t.nb.status = s.nb.status
  nbJob : t.nb.job = s.nb.job
  fxStatus : t.fx.status = s.fx.status
  fxJob : t.fx.job = s.fx.job
  inMem : t.inMem = s.inMem
  outMem : t.outMem = s.outMem
  outDraws : t.outDraws = s.outDraws
  params : t.params = s.params

theorem State.SameMachine.sameRuns {s t : State} (h : s.SameMachine t) : s.SameRuns t where
  brStatus := by rw [h.br]
  brJob := by rw [h.br]
  nbStatus := by rw [h.nb]
  nbJob := by rw [h.nb]
  fxStatus := by rw [h.fx]
  fxJob := by rw [h.fx]
  inMem := h.inMem
  outMem := h.outMem
  outDraws := h.outDraws
  params := h.params

/-- The host writes operand registers and nothing else (R223). -/
theorem setReg_sameRuns (s : State) (r : Reg) (v : Word) : s.SameRuns (s.setReg r v) := by
  cases r <;> exact ⟨rfl, rfl, rfl, rfl, rfl, rfl, rfl, rfl, rfl, rfl⟩

theorem State.Inv.congr {s t : State} (h : s.Inv) (hst : s.SameRuns t) : t.Inv := by
  obtain ⟨brStatus, brJob, nbStatus, nbJob, fxStatus, fxJob, inMem, outMem, outDraws, -⟩ := hst
  constructor
  · simpa only [State.MemOk, inMem, outMem, outDraws] using h.mem
  · simpa only [brStatus] using h.brStatus
  · simpa only [nbStatus] using h.nbStatus
  · simpa only [fxStatus] using h.fxStatus
  · simpa only [State.BusyOk, brStatus, nbStatus, fxStatus, brJob, nbJob, fxJob] using h.busy
  · simpa only [brJob] using h.brJob
  · simpa only [nbJob] using h.nbJob
  · simpa only [fxJob] using h.fxJob
  · simpa only [State.WindowsOk, brJob, nbJob, fxJob] using h.windows

/-- Memory may change as long as it stays canonical. -/
theorem State.Inv.withMemory {s t : State} (h : s.Inv) (hmem : t.MemOk) (hbr : t.br = s.br) (hnb : t.nb = s.nb)
    (hfx : t.fx = s.fx) : t.Inv := by
  constructor
  · exact hmem
  · simpa only [hbr] using h.brStatus
  · simpa only [hnb] using h.nbStatus
  · simpa only [hfx] using h.fxStatus
  · simpa only [State.BusyOk, hbr, hnb, hfx] using h.busy
  · simpa only [hbr] using h.brJob
  · simpa only [hnb] using h.nbJob
  · simpa only [hfx] using h.fxJob
  · simpa only [State.WindowsOk, hbr, hnb, hfx] using h.windows

/-- The windows of the BitRat command `j` are apart from those of the other units (R75). -/
def State.BrApart (s : State) (j : BrJob) : Prop :=
  (∀ k ∈ s.nb.job, j.outWindow.meets k.outWindow = false) ∧ ∀ f ∈ s.fx.job, j.inWindow.meets f.window = false

/-- The windows of the Nibbler command `k` are apart from those of the other units (R75). -/
def State.NbApart (s : State) (k : NbJob) : Prop :=
  (∀ j ∈ s.br.job, j.outWindow.meets k.outWindow = false) ∧ ∀ f ∈ s.fx.job, k.inWindow.meets f.window = false

theorem Window.meets_comm (v w : Window) : v.meets w = w.meets v := by
  simp only [Window.meets, Nat.max_comm, Nat.min_comm]

theorem br_outWindow_mem {s : State} {j : BrJob} (hj : s.br.job = some j) : j.outWindow ∈ s.outWindows := by
  simp [State.outWindows, hj]

theorem nb_outWindow_mem {s : State} {j : NbJob} (hj : s.nb.job = some j) : j.outWindow ∈ s.outWindows := by
  simp [State.outWindows, hj]

theorem br_inWindow_mem {s : State} {j : BrJob} (hj : s.br.job = some j) : j.inWindow ∈ s.inWindows := by
  simp [State.inWindows, hj]

theorem nb_inWindow_mem {s : State} {j : NbJob} (hj : s.nb.job = some j) : j.inWindow ∈ s.inWindows := by
  simp [State.inWindows, hj]

theorem fx_window_mem {s : State} {f : FxJob} (hf : s.fx.job = some f) : f.window ∈ s.fxWindows := by
  simp [State.fxWindows, hf]

theorem State.FreeForBr.apart {s : State} {j : BrJob} (h : s.FreeForBr j) : s.BrApart j := by
  obtain ⟨hout, hin⟩ := h
  rw [List.any_eq_false] at hout hin
  refine ⟨fun k hk => ?_, fun f hf => ?_⟩
  · rw [Window.meets_comm]
    exact Bool.eq_false_iff.mpr (hout _ (nb_outWindow_mem hk))
  · rw [Window.meets_comm]
    exact Bool.eq_false_iff.mpr (hin _ (fx_window_mem hf))

theorem State.FreeForNb.apart {s : State} {j : NbJob} (h : s.FreeForNb j) : s.NbApart j := by
  obtain ⟨hout, hin⟩ := h
  rw [List.any_eq_false] at hout hin
  refine ⟨fun k hk => ?_, fun f hf => ?_⟩
  · exact Bool.eq_false_iff.mpr (hout _ (br_outWindow_mem hk))
  · rw [Window.meets_comm]
    exact Bool.eq_false_iff.mpr (hin _ (fx_window_mem hf))

theorem State.Inv.brApart {s : State} {j : BrJob} (h : s.Inv) (hj : s.br.job = some j) : s.BrApart j :=
  ⟨h.windows.1 j hj, fun f hf => h.windows.2.1 f hf j hj⟩

theorem State.Inv.nbApart {s : State} {j : NbJob} (h : s.Inv) (hj : s.nb.job = some j) : s.NbApart j :=
  ⟨fun k hk => h.windows.1 k hk j hj, fun f hf => h.windows.2.2 f hf j hj⟩

/-- A new BitRat bank. -/
theorem State.Inv.withBr {s : State} {b : BrBank} (h : s.Inv) (hstatus : b.status.Ok)
    (hbusy : b.status.st = .busy ↔ b.job.isSome) (hjob : ∀ j ∈ b.job, j.Ok ∧ s.BrApart j) :
    State.Inv { s with br := b } :=
  { h with
    brStatus := hstatus
    busy := ⟨hbusy, h.busy.2⟩
    brJob := fun j hj => (hjob j hj).1
    windows := ⟨fun j hj => (hjob j hj).2.1, fun f hf j hj => (hjob j hj).2.2 f hf, h.windows.2.2⟩ }

/-- A new Nibbler bank. -/
theorem State.Inv.withNb {s : State} {b : NbBank} (h : s.Inv) (hstatus : b.status.Ok)
    (hbusy : b.status.st = .busy ↔ b.job.isSome) (hjob : ∀ j ∈ b.job, j.Ok ∧ s.NbApart j) :
    State.Inv { s with nb := b } :=
  { h with
    nbStatus := hstatus
    busy := ⟨h.busy.1, hbusy, h.busy.2.2⟩
    nbJob := fun j hj => (hjob j hj).1
    windows := ⟨fun j hj k hk => (hjob k hk).2.1 j hj, h.windows.2.1, fun f hf j hj => (hjob j hj).2.2 f hf⟩ }

/-- A new FIXLAST bank. -/
theorem State.Inv.withFx {s : State} {b : FxBank} (h : s.Inv) (hstatus : b.status.Ok)
    (hbusy : b.status.st = .busy ↔ b.job.isSome) (hjob : ∀ f ∈ b.job, f.Ok ∧ s.FreeForFx f) :
    State.Inv { s with fx := b } := by
  have hfree : ∀ f ∈ b.job, ∀ w ∈ s.inWindows, w.meets f.window = false := fun f hf w hw =>
    Bool.eq_false_iff.mpr (List.any_eq_false.mp (hjob f hf).2 w hw)
  exact
    { h with
      fxStatus := hstatus
      busy := ⟨h.busy.1, h.busy.2.1, hbusy⟩
      fxJob := fun f hf => (hjob f hf).1
      windows :=
        ⟨h.windows.1,
          fun f hf j hj => hfree f hf _ (br_inWindow_mem hj),
          fun f hf j hj => hfree f hf _ (nb_inWindow_mem hj)⟩ }

/-! ## Each move keeps the invariant -/

theorem State.Inv.br_idle {s : State} (h : s.Inv) (hst : s.br.status.st ≠ .busy) : s.br.job = none := by
  simpa [hst] using h.busy.1

theorem State.Inv.nb_idle {s : State} (h : s.Inv) (hst : s.nb.status.st ≠ .busy) : s.nb.job = none := by
  simpa [hst] using h.busy.2.1

theorem State.Inv.fx_idle {s : State} (h : s.Inv) (hst : s.fx.status.st ≠ .busy) : s.fx.job = none := by
  simpa [hst] using h.busy.2.2

theorem State.Inv.failBr {s : State} {e : ErrCode} (h : s.Inv) (hst : s.br.status.st ≠ .busy) (he : e.IsPlain) :
    (s.failCommand .br e).Inv := by
  refine h.withBr (.failed he.1) ?_ ?_ <;> simp [h.br_idle hst]

theorem State.Inv.failNb {s : State} {e : ErrCode} (h : s.Inv) (hst : s.nb.status.st ≠ .busy) (he : e.IsPlain) :
    (s.failCommand .nb e).Inv := by
  refine h.withNb (.failed he.1) ?_ ?_ <;> simp [h.nb_idle hst]

theorem State.Inv.failFx {s : State} {e : ErrCode} (h : s.Inv) (hst : s.fx.status.st ≠ .busy) (he : e.IsPlain) :
    (s.failCommand .fx e).Inv := by
  refine h.withFx (.failed he.1) ?_ ?_ <;> simp [h.fx_idle hst]

theorem State.Inv.launchBr {s t : State} {j : BrJob} (h : s.Inv) (hj : j.Ok) (hl : launchBr j s = .next t) :
    t.Inv := by
  obtain ⟨hfree, rfl⟩ := launchBr_eq_next.mp hl
  refine h.withBr .busy (by simp) ?_
  rintro _ ⟨⟩
  exact ⟨hj, hfree.apart⟩

theorem State.Inv.launchNb {s t : State} {j : NbJob} (h : s.Inv) (hj : j.Ok) (hl : launchNb j s = .next t) :
    t.Inv := by
  obtain ⟨hfree, rfl⟩ := launchNb_eq_next.mp hl
  refine h.withNb .busy (by simp) ?_
  rintro _ ⟨⟩
  exact ⟨hj, hfree.apart⟩

theorem State.Inv.launchFx {s t : State} {j : FxJob} (h : s.Inv) (hj : j.Ok) (hl : launchFx j s = .next t) :
    t.Inv := by
  obtain ⟨hfree, rfl⟩ := launchFx_eq_next.mp hl
  refine h.withFx .busy (by simp) ?_
  rintro _ ⟨⟩
  exact ⟨hj, hfree⟩

/-- A buffer's capacity is below the size of a space, as its register has 31 bits (R23). -/
theorem capacity_lt (c : BitVec 31) : c.toNat < spaceSize := c.isLt

theorem brFullJob_ok {s : State} (h : brFullError s.params (brArgs s.br) = none) : (brFullJob s).Ok := by
  obtain ⟨-, hin, hincap, -, hout, houtcap⟩ := brFullError_eq_none.mp h
  have h1 := capacity_lt s.br.inCap
  have h2 := capacity_lt s.br.outCap
  simp only [brArgs] at hin hincap hout houtcap
  constructor <;> simp only [brFullJob, brArgs] <;> omega

theorem brPartJob_ok {s : State} (h : brPartError s.params (brArgs s.br) = none) : (brPartJob s).Ok := by
  obtain ⟨-, ⟨hlen, -⟩, hin, hincap, -, hout, houtcap⟩ := brPartError_eq_none.mp h
  have h1 := capacity_lt s.br.inCap
  have h2 := capacity_lt s.br.outCap
  simp only [brArgs] at hlen hin hincap hout houtcap
  constructor <;> simp only [brPartJob, brArgs] <;> omega

theorem nbEncJob_ok {s : State} (h : nbEncError (nbArgs s.nb) = none) : (nbEncJob s).Ok := by
  obtain ⟨-, ⟨hlen, -⟩, hin, hincap, -, hout, houtcap⟩ := nbEncError_eq_none.mp h
  have h1 := capacity_lt s.nb.inCap
  have h2 := capacity_lt s.nb.outCap
  simp only [nbArgs] at hlen hin hincap hout houtcap
  refine ⟨?_, ?_, Writer.SlotOk.start⟩ <;> simp only [nbEncJob, nbArgs, nbNeed] <;> omega

theorem fxJob_ok {s : State} (h : fxError (fxArgs s.fx) = none) : (fxJob s).Ok := by
  obtain ⟨-, ⟨hlo, hhi⟩, haddr, hcap⟩ := fxError_eq_none.mp h
  have h1 := capacity_lt s.fx.cap
  simp only [fxArgs] at hlo hhi haddr hcap
  refine ⟨?_, ?_, ?_⟩ <;> simp only [fxJob, fxArgs] <;> omega

theorem State.Inv.scrambleOut {s : State} {lo n : Nat} (h : s.Inv) (hn : lo + n ≤ spaceSize ∨ n = 0) :
    (s.scrambleOut lo n).Inv :=
  h.withMemory (h.mem.scrambleOut hn) rfl rfl rfl

theorem State.Inv.storeOut {s t : State} {base : Nat} {bytes : List Byte} (h : s.Inv)
    (hst : s.storeOut base bytes = .next t) : t.Inv := by
  have hmem := h.mem.storeOut hst
  obtain ⟨-, rfl⟩ := storeOut_eq_next.mp hst
  exact h.withMemory hmem rfl rfl rfl

theorem State.Inv.storeIn {s t : State} {a : Nat} {b : Byte} (h : s.Inv) (hst : s.storeIn a b = .next t) :
    t.Inv := by
  have hmem := h.mem.storeIn hst
  obtain ⟨-, rfl⟩ := storeIn_eq_next.mp hst
  exact h.withMemory hmem rfl rfl rfl

theorem State.Inv.brItem {s t : State} {j : BrJob} {x : BrItem} {rest : List BrItem} (h : s.Inv)
    (hj : s.br.job = some j) (hx : runBrItem x (s.withBrTodo j rest) = .next t) : t.Inv := by
  rw [runBrItem_eq_emit, emitBr_eq_next] at hx
  obtain ⟨_, ⟨⟩, rfl⟩ := hx
  refine h.withBr h.brStatus (by simpa [hj] using h.busy.1) ?_
  have hapart := h.brApart hj
  rintro _ ⟨⟩
  exact ⟨h.brJob j hj, hapart⟩

theorem State.Inv.failFatalBr {s : State} {j : BrJob} {e : ErrCode} (h : s.Inv) (hj : s.br.job = some j)
    (he : e ≠ .ok) : (s.failFatalBr j e).Inv := by
  have hscr := h.scrambleOut (.inl (h.brJob j hj).2)
  refine (hscr.withBr (b := (s.failFatalBr j e).br) (.failed he) ?_ ?_).congr
    ⟨rfl, rfl, rfl, rfl, rfl, rfl, rfl, rfl, rfl, rfl⟩ <;> simp

theorem State.Inv.failFatalNb {s : State} {j : NbJob} {e : ErrCode} (h : s.Inv) (hj : s.nb.job = some j)
    (he : e ≠ .ok) : (s.failFatalNb j e).Inv := by
  have hscr := h.scrambleOut (.inl (h.nbJob j hj).2.1)
  refine (hscr.withNb (b := (s.failFatalNb j e).nb) (.failed he) ?_ ?_).congr
    ⟨rfl, rfl, rfl, rfl, rfl, rfl, rfl, rfl, rfl, rfl⟩ <;> simp

/-- What the output window holds beyond the stream becomes unspecified, which the spaces have room for. -/
theorem rest_of_window {base n need : Nat} (h : base + need ≤ spaceSize) :
    base + n + (need - n) ≤ spaceSize ∨ need - n = 0 := by
  omega

theorem State.Inv.brEnd {s t : State} {j : BrJob} {m : Byte} (h : s.Inv) (hj : s.br.job = some j)
    (hx : execBrChunkMask m s = .next t) : t.Inv := by
  obtain ⟨k, u, hk, hu, rfl⟩ := execBrChunkMask_eq_next.mp hx
  obtain rfl : j = k := Option.some.inj (hj.symm.trans hk)
  have hscr := (h.storeOut hu).scrambleOut (rest_of_window (n := j.out.length) (h.brJob j hj).2)
  refine hscr.withBr .done ?_ ?_ <;> simp

theorem State.Inv.nbEnd {s t : State} {j : NbJob} {mark : Mark} {n : BitVec 14} (h : s.Inv)
    (hj : s.nb.job = some j) (hx : execNbHeader mark n s = .next t) : t.Inv := by
  obtain ⟨k, u, hk, hu, rfl⟩ := execNbHeader_eq_next.mp hx
  obtain rfl : j = k := Option.some.inj (hj.symm.trans hk)
  have hscr := (h.storeOut hu).scrambleOut (rest_of_window (n := 2 + j.body.length) (h.nbJob j hj).2.1)
  refine hscr.withNb .done ?_ ?_ <;> simp

theorem State.Inv.withNbTodo {s : State} {j : NbJob} (rest : List NbItem) (h : s.Inv) (hj : s.nb.job = some j) :
    (s.withNbTodo j rest).Inv := by
  refine h.withNb h.nbStatus (by simpa [hj] using h.busy.2.1) ?_
  have hapart := h.nbApart hj
  rintro _ ⟨⟩
  exact ⟨h.nbJob j hj, hapart⟩

theorem State.Inv.runNbItem {s t : State} {x : NbItem} (h : s.Inv) (hx : runNbItem x s = .next t) : t.Inv := by
  rw [runNbItem_eq_emit, emitNb_eq_next] at hx
  obtain ⟨j, hj, ⟨-, rfl⟩ | ⟨w, hw, rfl⟩⟩ := hx
  · exact h.failFatalNb hj (by decide)
  · obtain ⟨hin, hout, hold⟩ := h.nbJob j hj
    have hold : j.writer.SlotOk := hold
    have hapart := h.nbApart hj
    refine h.withNb h.nbStatus (by simpa [hj] using h.busy.2.1) ?_
    rintro _ ⟨⟩
    exact ⟨⟨hin, hout, hold.emitItem hw⟩, hapart⟩

theorem State.Inv.finishFx {s t : State} (h : s.Inv) (hx : finishFx s = .next t) : t.Inv := by
  obtain ⟨-, rfl⟩ | ⟨j, u, hj, hu, rfl⟩ := finishFx_eq_next.mp hx
  · exact h
  · refine (h.storeIn hu).withFx .done ?_ ?_ <;> simp

/-! ## The platform's reset -/

theorem abandonBr_inv {s : State} (h : s.Inv) : s.abandonBr.Inv := by
  unfold State.abandonBr
  split
  · exact h
  · rename_i j hj
    exact h.scrambleOut (.inl (h.brJob j hj).2)

theorem abandonNb_inv {s : State} (h : s.Inv) : s.abandonNb.Inv := by
  unfold State.abandonNb
  split
  · exact h
  · rename_i j hj
    exact h.scrambleOut (.inl (h.nbJob j hj).2.1)

theorem abandonFx_inv {s : State} (h : s.Inv) : s.abandonFx.Inv := by
  unfold State.abandonFx
  split
  · exact h
  · rename_i j hj
    obtain ⟨hin, hout, hdraws, hdisj⟩ := h.mem
    refine h.withMemory ⟨?_, hout, hdraws, hdisj⟩ rfl rfl rfl
    have haddr : j.addr < spaceSize := (h.fxJob j hj).1
    dsimp only
    split
    · exact put_wf hin (by simpa using haddr)
    · exact hin

theorem platformReset_inv {s : State} (h : s.Inv) : (platformReset s).Inv := by
  have hmem := (abandonFx_inv (abandonNb_inv (abandonBr_inv h))).mem
  constructor
  · exact hmem
  · exact .idle
  · exact .idle
  · exact .idle
  · exact ⟨iff_of_false nofun nofun, iff_of_false nofun nofun, iff_of_false nofun nofun⟩
  · rintro _ ⟨⟩
  · rintro _ ⟨⟩
  · rintro _ ⟨⟩
  · exact ⟨by rintro _ ⟨⟩, by rintro _ ⟨⟩, by rintro _ ⟨⟩⟩

/-! ## All moves together -/

theorem inv_keptByMoves : KeptByMoves State.Inv where
  hostSide _ _ hst h := h.congr hst.sameRuns
  setReg r v s h := h.congr (setReg_sameRuns s r v)
  writeIn a b s t h hx := by
    unfold hostWriteIn at hx
    split at hx
    · cases hx
    · exact h.storeIn hx
  writeOut a b s t h hx := by
    unfold hostWriteOut at hx
    split at hx
    · cases hx
    · exact h.storeOut hx
  startBrFull s t h hx := by
    obtain ⟨hst, ⟨e, he, rfl⟩ | ⟨he, hl⟩⟩ := startBrFull_eq_next.mp hx
    · exact h.failBr hst (brFullError_plain he)
    · exact h.launchBr (brFullJob_ok he) hl
  startBrPart s t h hx := by
    obtain ⟨hst, ⟨e, he, rfl⟩ | ⟨he, hl⟩⟩ := startBrPart_eq_next.mp hx
    · exact h.failBr hst (brPartError_plain he)
    · exact h.launchBr (brPartJob_ok he) hl
  badBrCmd s t h hx := by
    obtain ⟨hst, rfl⟩ := badBrCmd_eq_next.mp hx
    exact h.failBr hst badCmd_plain
  startNbEnc s t h hx := by
    obtain ⟨hst, ⟨e, he, rfl⟩ | ⟨he, hl⟩⟩ := startNbEnc_eq_next.mp hx
    · exact h.failNb hst (nbEncError_plain he)
    · exact h.launchNb (nbEncJob_ok he) hl
  badNbCmd s t h hx := by
    obtain ⟨hst, rfl⟩ := badNbCmd_eq_next.mp hx
    exact h.failNb hst badCmd_plain
  startFixlast s t h hx := by
    obtain ⟨hst, ⟨e, he, rfl⟩ | ⟨he, hl⟩⟩ := startFixlast_eq_next.mp hx
    · exact h.failFx hst (fxError_plain he)
    · exact h.launchFx (fxJob_ok he) hl
  badFxCmd s t h hx := by
    obtain ⟨hst, rfl⟩ := badFxCmd_eq_next.mp hx
    exact h.failFx hst badCmd_plain
  brFatal s j hj _ h := h.failFatalBr hj (by decide)
  brItem s t j x rest hj _ _ h hx := h.brItem hj hx
  brEnd s t j hj _ _ h hx := h.brEnd hj hx
  nbItem s t j x rest hj _ h hx := (h.withNbTodo rest hj).runNbItem hx
  nbEnd s t j hj _ h hx := h.nbEnd hj hx
  finishFx s t h hx := h.finishFx hx
  reset s h := platformReset_inv h

/-- Settles O53: every elementary move keeps the invariant, so every step does. -/
theorem stepKeepsInv : Obligations.StepKeepsInv := by
  unfold Obligations.StepKeepsInv
  exact inv_keptByMoves.step

end Sys2Proof.Machine

/-! Reset, the moves of the machine, and the registers of a `BUSY` unit: O5, O6, O7, O8, O9, O12, O14 and O35. -/

namespace Sys2Proof.Machine

/-! ## Who moves, and what the move is -/

theorem step_of_run {s u : State} {i : Instr} (h : nextMove s = .run i u) : step s = exec i u := by
  rw [step, h]

theorem step_of_other {s : State} {o : Out} (h : nextMove s = .other o) : step s = o := by
  rw [step, h]

theorem nextMove_host {s : State} {x : Input} {rest : List Input} (hm : mover s = some .host)
    (hi : s.inputs = x :: rest) : nextMove s = hostMove x { s.passTurn with inputs := rest } := by
  simp only [nextMove, hm, hi]

theorem nextMove_br {s : State} {j : BrJob} (hm : mover s = some .br) (hj : s.br.job = some j) :
    nextMove s = brMove j s.passTurn := by
  simp only [nextMove, hm, hj]

theorem nextMove_nb {s : State} {j : NbJob} (hm : mover s = some .nb) (hj : s.nb.job = some j) :
    nextMove s = nbMove j s.passTurn := by
  simp only [nextMove, hm, hj]

theorem nextMove_fx {s : State} (hm : mover s = some .fx) : nextMove s = .other (finishFx s.passTurn) := by
  simp only [nextMove, hm]

/-- A step of the host on a bus cycle or a pseudo-command runs what it decodes to. -/
theorem step_host_op {s : State} {op : HostOp} {rest : List Input} {i : Instr} (hm : mover s = some .host)
    (hi : s.inputs = .op op :: rest) (hd : decode s.params.nbRunBias (.host op) = .ok i) :
    step s = exec i { s.passTurn with inputs := rest } := by
  refine step_of_run ((nextMove_host hm hi).trans ?_)
  simp only [hostMove, State.passTurn_params, hd]

theorem step_host_reset {s : State} {rest : List Input} (hm : mover s = some .host)
    (hi : s.inputs = .reset :: rest) : step s = .next (platformReset { s.passTurn with inputs := rest }) :=
  step_of_other (nextMove_host hm hi)

theorem step_br_item {s : State} {j : BrJob} {x : BrItem} {rest : List BrItem} (hm : mover s = some .br)
    (hj : s.br.job = some j) (hf : j.tierFault = false) (htodo : j.todo = x :: rest) :
    step s = exec x.instr (s.passTurn.withBrTodo j rest) := by
  refine step_of_run ((nextMove_br hm hj).trans ?_)
  simp only [brMove, hf, htodo, Bool.false_eq_true, if_false]

theorem step_br_end {s : State} {j : BrJob} (hm : mover s = some .br) (hj : s.br.job = some j)
    (hf : j.tierFault = false) (htodo : j.todo = []) : step s = exec (.brChunkMask j.mask) s.passTurn := by
  refine step_of_run ((nextMove_br hm hj).trans ?_)
  simp only [brMove, hf, htodo, Bool.false_eq_true, if_false]

theorem step_nb_item {s : State} {j : NbJob} {x : NbItem} {rest : List NbItem} (hm : mover s = some .nb)
    (hj : s.nb.job = some j) (htodo : j.todo = x :: rest) :
    step s = exec x.instr (s.passTurn.withNbTodo j rest) := by
  refine step_of_run ((nextMove_nb hm hj).trans ?_)
  simp only [nbMove, htodo]

theorem step_nb_end {s : State} {j : NbJob} (hm : mover s = some .nb) (hj : s.nb.job = some j)
    (htodo : j.todo = []) :
    step s = exec (.nbHeader j.mark (BitVec.ofNat 14 j.body.length)) s.passTurn := by
  refine step_of_run ((nextMove_nb hm hj).trans ?_)
  simp only [nbMove, htodo]

theorem step_fx {s : State} (hm : mover s = some .fx) : step s = finishFx s.passTurn :=
  step_of_other (nextMove_fx hm)

/-! Whoever is alone with something to do moves. -/

theorem mover_quiet_host {s : State} {x : Input} {rest : List Input} (hq : s.Quiet) (hi : s.inputs = x :: rest) :
    mover s = some .host := by
  obtain ⟨hbr, hnb, hfx⟩ := hq
  exact mover_single (by simp [readyAgents, hi, hbr, hnb, hfx])

theorem mover_br_alone {s : State} (hi : s.inputs = []) (hbr : s.br.job.isSome) (hnb : s.nb.job = none)
    (hfx : s.fx.job = none) : mover s = some .br :=
  mover_single (by simp [readyAgents, hi, hbr, hnb, hfx])

theorem mover_nb_alone {s : State} (hi : s.inputs = []) (hbr : s.br.job = none) (hnb : s.nb.job.isSome)
    (hfx : s.fx.job = none) : mover s = some .nb :=
  mover_single (by simp [readyAgents, hi, hbr, hnb, hfx])

theorem mover_fx_alone {s : State} (hi : s.inputs = []) (hbr : s.br.job = none) (hnb : s.nb.job = none)
    (hfx : s.fx.job.isSome) : mover s = some .fx :=
  mover_single (by simp [readyAgents, hi, hbr, hnb, hfx])

/-- Settles O7: nobody is ready, so nobody moves. -/
theorem idleMachineStays : Obligations.IdleMachineStays := by
  unfold Obligations.IdleMachineStays
  rintro s ⟨hbr, hnb, hfx⟩ hi
  have hm : mover s = none := mover_eq_none.mpr (by simp [readyAgents, hi, hbr, hnb, hfx])
  simp only [step, nextMove, hm]

/-- Settles O8: the host's move on an operation that decodes, and the host that is alone. -/
theorem stepRunsHostInstruction : Obligations.StepRunsHostInstruction := by
  unfold Obligations.StepRunsHostInstruction
  intro s op rest i hi hd
  exact ⟨fun hm => step_host_op hm hi hd, fun hq => mover_quiet_host hq hi⟩

/-- Settles O9: the step of each engine in each of its two forms, and the engine that is alone. -/
theorem stepRunsEngineItem : Obligations.StepRunsEngineItem := by
  unfold Obligations.StepRunsEngineItem
  intro s
  exact
    ⟨fun _ _ _ hm hj hf htodo => step_br_item hm hj hf htodo, fun _ hm hj hf htodo => step_br_end hm hj hf htodo,
      fun _ _ _ hm hj htodo => step_nb_item hm hj htodo, fun _ hm hj htodo => step_nb_end hm hj htodo, step_fx,
      mover_br_alone, mover_nb_alone, mover_fx_alone⟩

/-! ## Commands that are rejected or refused -/

theorem startBrFull_rejected {s : State} {e : ErrCode} (hst : s.br.status.st ≠ .busy)
    (he : brFullError s.params (brArgs s.br) = some e) : startBrFull s = .next (s.failCommand .br e) :=
  startBrFull_eq_next.mpr ⟨hst, .inl ⟨e, he, rfl⟩⟩

theorem startBrPart_rejected {s : State} {e : ErrCode} (hst : s.br.status.st ≠ .busy)
    (he : brPartError s.params (brArgs s.br) = some e) : startBrPart s = .next (s.failCommand .br e) :=
  startBrPart_eq_next.mpr ⟨hst, .inl ⟨e, he, rfl⟩⟩

theorem startNbEnc_rejected {s : State} {e : ErrCode} (hst : s.nb.status.st ≠ .busy)
    (he : nbEncError (nbArgs s.nb) = some e) : startNbEnc s = .next (s.failCommand .nb e) :=
  startNbEnc_eq_next.mpr ⟨hst, .inl ⟨e, he, rfl⟩⟩

theorem startFixlast_rejected {s : State} {e : ErrCode} (hst : s.fx.status.st ≠ .busy)
    (he : fxError (fxArgs s.fx) = some e) : startFixlast s = .next (s.failCommand .fx e) :=
  startFixlast_eq_next.mpr ⟨hst, .inl ⟨e, he, rfl⟩⟩

theorem startBrFull_busy {s : State} (h : s.br.status.st = .busy) : startBrFull s = .refused (.busyAccess .br) :=
  if_pos h

theorem startBrPart_busy {s : State} (h : s.br.status.st = .busy) : startBrPart s = .refused (.busyAccess .br) :=
  if_pos h

theorem badBrCmd_busy {s : State} (h : s.br.status.st = .busy) : badBrCmd s = .refused (.busyAccess .br) :=
  if_pos h

theorem startNbEnc_busy {s : State} (h : s.nb.status.st = .busy) : startNbEnc s = .refused (.busyAccess .nb) :=
  if_pos h

theorem badNbCmd_busy {s : State} (h : s.nb.status.st = .busy) : badNbCmd s = .refused (.busyAccess .nb) :=
  if_pos h

theorem startFixlast_busy {s : State} (h : s.fx.status.st = .busy) : startFixlast s = .refused (.busyAccess .fx) :=
  if_pos h

theorem badFxCmd_busy {s : State} (h : s.fx.status.st = .busy) : badFxCmd s = .refused (.busyAccess .fx) :=
  if_pos h

/-! ## The registers of a `BUSY` unit -/

/-- A read of a register with storage (R224). -/
theorem execRegrd_reg (r : Reg) (s : State) :
    execRegrd r.offset s =
      if r.isStatus then .next (s.reply (s.reg r))
      else if s.busy (bankOf r.offset) then .refused (.busyAccess (bankOf r.offset))
      else .next (s.reply (s.reg r)) := by
  simp only [execRegrd, (offset_ok r).1, regAt_offset, Option.isSome_none, Bool.false_eq_true, if_false]

theorem execRegwr_busy {r : Reg} {v : Word} {s : State} (h : s.busy (bankOf r.offset) = true) :
    execRegwr r.offset v s = .refused (.busyAccess (bankOf r.offset)) := by
  rw [execRegwr_reg, writeOther, if_pos h]

theorem writeBrCmd_busy {v : Word} {s : State} (h : s.br.status.st = .busy) :
    writeBrCmd v s = .refused (.busyAccess .br) := by
  simp only [writeBrCmd, startBrFull_busy h, startBrPart_busy h, badBrCmd_busy h, ite_self]

theorem writeNbCmd_busy {v : Word} {s : State} (h : s.nb.status.st = .busy) :
    writeNbCmd v s = .refused (.busyAccess .nb) := by
  simp only [writeNbCmd, startNbEnc_busy h, badNbCmd_busy h, ite_self]

theorem writeFxCmd_busy {v : Word} {s : State} (h : s.fx.status.st = .busy) :
    writeFxCmd v s = .refused (.busyAccess .fx) := by
  simp only [writeFxCmd, startFixlast_busy h, badFxCmd_busy h, ite_self]

/-- Settles O12: the access to each class of register, then the commands of each unit. -/
theorem busyUnitRefuses : Obligations.BusyUnitRefuses := by
  unfold Obligations.BusyUnitRefuses
  intro s v op ign
  refine ⟨fun r hr => ?_, fun r hbusy _ => execRegwr_busy hbusy, fun r hbusy _ hr => ?_, fun h => ?_, fun h => ?_,
    fun h => ?_⟩
  · exact (execRegrd_reg r s).trans (if_pos hr)
  · refine (execRegrd_reg r s).trans ?_
    simp only [hr, hbusy, Bool.false_eq_true, if_false, if_true]
  · exact ⟨writeBrCmd_busy h, startBrFull_busy h, startBrPart_busy h, badBrCmd_busy h⟩
  · exact ⟨writeNbCmd_busy h, startNbEnc_busy h, badNbCmd_busy h⟩
  · exact ⟨writeFxCmd_busy h, startFixlast_busy h, badFxCmd_busy h⟩

/-! ## The layout of `STATUS` (R24) -/

/-- The bits of a status word from the three codes. -/
def statusBits (fatal : Bool) (err : BitVec 4) (st : BitVec 2) : Word :=
  0#23 ++ BitVec.ofBool fatal ++ err ++ 0#2 ++ st

theorem Status.word_eq (x : Status) : x.word = statusBits x.fatal x.err.code x.st.code := rfl

theorem statusBits_fields :
    ∀ (fatal : Bool) (err : BitVec 4) (st : BitVec 2),
      (statusBits fatal err st).extractLsb' 0 2 = st ∧ (statusBits fatal err st).extractLsb' 4 4 = err ∧
      (statusBits fatal err st).getLsbD 8 = fatal ∧
      statusBits fatal err st &&& 0x1F3#32 = statusBits fatal err st := by
  decide

/-- Settles O14: the fields for every value of the three codes, then the twelve words. -/
theorem statusLayout : Obligations.StatusLayout := by
  unfold Obligations.StatusLayout
  refine ⟨fun x => ?_, by decide⟩
  rw [Status.word_eq]
  exact statusBits_fields x.fatal x.err.code x.st.code

/-! ## Reset -/

/-- The three banks are at their reset values but for the session registers (R38). -/
structure State.BanksReset (t : State) : Prop where
  br : ∃ i o m, t.br = { BrBank.reset with icur := i, ocur := o, matchByte := m }
  nb : ∃ i o x, t.nb = { NbBank.reset with icur := i, ocur := o, slot := x }
  fx : t.fx = FxBank.reset

theorem reset_banksReset : State.reset.BanksReset := ⟨⟨_, _, _, rfl⟩, ⟨_, _, _, rfl⟩, rfl⟩

theorem platformReset_banksReset (s : State) : (platformReset s).BanksReset :=
  ⟨⟨_, _, _, rfl⟩, ⟨_, _, _, rfl⟩, rfl⟩

theorem State.BanksReset.reg_eq_zero {t : State} (h : t.BanksReset) (r : Reg) (hr : r.isSession = false) :
    t.reg r = 0#32 := by
  obtain ⟨⟨_, _, _, hbr⟩, ⟨_, _, _, hnb⟩, hfx⟩ := h
  cases r with
  | brIcur | brOcur | brMatch | nbIcur | nbOcur | nbSlot => cases hr
  | _ =>
    simp only [State.reg, hbr, hnb, hfx]
    rfl

theorem State.BanksReset.quiet {t : State} (h : t.BanksReset) : t.Quiet := by
  obtain ⟨⟨_, _, _, hbr⟩, ⟨_, _, _, hnb⟩, hfx⟩ := h
  rw [State.Quiet, hbr, hnb, hfx]
  exact ⟨rfl, rfl, rfl⟩

/-- With no operand programmed every command is rejected, its input buffer being absent (R38). -/
theorem State.BanksReset.rejects {t : State} (h : t.BanksReset) :
    startBrFull t = .next (t.failCommand .br .inAbsent) ∧ startBrPart t = .next (t.failCommand .br .inAbsent) ∧
      startNbEnc t = .next (t.failCommand .nb .inAbsent) ∧
      startFixlast t = .next (t.failCommand .fx .inAbsent) := by
  obtain ⟨⟨_, _, _, hbr⟩, ⟨_, _, _, hnb⟩, hfx⟩ := h
  have hbrSt : t.br.status.st ≠ .busy := by rw [hbr]; nofun
  have hnbSt : t.nb.status.st ≠ .busy := by rw [hnb]; nofun
  have hfxSt : t.fx.status.st ≠ .busy := by rw [hfx]; nofun
  refine ⟨startBrFull_rejected hbrSt ?_, startBrPart_rejected hbrSt ?_, startNbEnc_rejected hnbSt ?_,
    startFixlast_rejected hfxSt ?_⟩
  · rw [hbr]; rfl
  · rw [hbr]; rfl
  · rw [hnb]; rfl
  · rw [hfx]; rfl

/-- Settles O5: after either reset the banks are at their reset values, whatever the session registers hold. -/
theorem resetRegisters : Obligations.ResetRegisters := by
  unfold Obligations.ResetRegisters
  refine ⟨reset_banksReset.reg_eq_zero, fun s => (platformReset_banksReset s).reg_eq_zero, ?_⟩
  intro s t ign ht
  have hbanks : t.BanksReset := by
    obtain rfl | rfl := ht
    · exact reset_banksReset
    · exact platformReset_banksReset s
  exact hbanks.rejects

theorem reset_inv : State.reset.Inv where
  mem := ⟨⟨.nil, nofun⟩, ⟨.nil, nofun⟩, ⟨.nil, nofun⟩, nofun⟩
  brStatus := .idle
  nbStatus := .idle
  fxStatus := .idle
  busy := by decide
  brJob := nofun
  nbJob := nofun
  fxJob := nofun
  windows := ⟨nofun, nofun, nofun⟩

/-- Settles O6: memory is empty, no command runs, and the parameters are the defaults. -/
theorem resetMeetsInvariants : Obligations.ResetMeetsInvariants := by
  unfold Obligations.ResetMeetsInvariants
  exact
    ⟨reset_inv,
      { bias := by decide, br := rfl, nb := rfl, fx := rfl, tier := nofun, fits := nofun },
      { bias := by decide, slack := by decide, br := nofun, nb := nofun }⟩

/-! ## The platform's reset of a machine that has run (R290 to R292) -/

/-- Abandoning an encoder's command reaches `OUT` alone. -/
theorem abandonBr_eq (s : State) :
    ∃ out draws n, s.abandonBr = { s with outMem := out, outDraws := draws, freeCount := n } := by
  unfold State.abandonBr
  split <;> exact ⟨_, _, _, rfl⟩

theorem abandonNb_eq (s : State) :
    ∃ out draws n, s.abandonNb = { s with outMem := out, outDraws := draws, freeCount := n } := by
  unfold State.abandonNb
  split <;> exact ⟨_, _, _, rfl⟩

/-- Abandoning FIXLAST reaches `IN` alone. -/
theorem abandonFx_eq (s : State) : ∃ inp n, s.abandonFx = { s with inMem := inp, freeCount := n } := by
  unfold State.abandonFx
  split <;> exact ⟨_, _, rfl⟩

/-- The platform's reset leaves the parameters and the host's side. -/
theorem platformReset_eq (s : State) :
    ∃ br nb fx inp out draws n,
      platformReset s =
        { s with br := br, nb := nb, fx := fx, inMem := inp, outMem := out, outDraws := draws, freeCount := n } := by
  obtain ⟨_, _, _, hbr⟩ := abandonBr_eq s
  obtain ⟨_, _, _, hnb⟩ := abandonNb_eq s.abandonBr
  obtain ⟨_, _, hfx⟩ := abandonFx_eq s.abandonBr.abandonNb
  rw [platformReset, hfx, hnb, hbr]
  exact ⟨_, _, _, _, _, _, _, rfl⟩

theorem abandonBr_readOut {s : State} {a : Nat} (h : ∀ j ∈ s.br.job, j.outWindow.holds a = false) :
    s.abandonBr.readOut a = s.readOut a := by
  unfold State.abandonBr
  split
  · rfl
  · rename_i j hj
    exact readOut_scrambleOut_outside s (Window.holds_eq_false.mp (h j hj))

theorem abandonNb_readOut {s : State} {a : Nat} (h : ∀ j ∈ s.nb.job, j.outWindow.holds a = false) :
    s.abandonNb.readOut a = s.readOut a := by
  unfold State.abandonNb
  split
  · rfl
  · rename_i j hj
    exact readOut_scrambleOut_outside s (Window.holds_eq_false.mp (h j hj))

/-- The byte of an abandoned FIXLAST is old or new, every other byte of `IN` as it was. -/
theorem abandonFx_readIn (s : State) (a : Nat) :
    s.abandonFx.readIn a = s.readIn a ∨
      ∃ f, s.fx.job = some f ∧ a = f.addr ∧ s.abandonFx.readIn a = fixByte (s.readIn a) f.bits := by
  unfold State.abandonFx
  split
  · exact .inl rfl
  · rename_i f hf
    simp only [State.readIn]
    split
    · rw [get_put]
      by_cases ha : a = f.addr
      · subst ha
        exact .inr ⟨f, hf, rfl, by simp⟩
      · refine .inl (if_neg ?_)
        simp only [List.length_singleton]
        omega
    · exact .inl rfl

/-- `OUT` outside the output windows of the abandoned commands is as it was (R291). -/
theorem platformReset_readOut {s : State} {a : Nat} (h : ∀ w ∈ s.outWindows, w.holds a = false) :
    (platformReset s).readOut a = s.readOut a := by
  obtain ⟨_, _, _, hbr⟩ := abandonBr_eq s
  obtain ⟨_, _, hfx⟩ := abandonFx_eq s.abandonBr.abandonNb
  calc (platformReset s).readOut a = s.abandonBr.abandonNb.abandonFx.readOut a := readOut_congr rfl rfl a
    _ = s.abandonBr.abandonNb.readOut a := by rw [hfx]; exact readOut_congr rfl rfl a
    _ = s.abandonBr.readOut a := abandonNb_readOut fun j hj => h _ (nb_outWindow_mem (by rw [hbr] at hj; exact hj))
    _ = s.readOut a := abandonBr_readOut fun j hj => h _ (br_outWindow_mem hj)

/-- `IN` is as it was but for the byte of an abandoned FIXLAST, old or new (R291, R292). -/
theorem platformReset_readIn (s : State) (a : Nat) :
    (platformReset s).readIn a = s.readIn a ∨
      ∃ f, s.fx.job = some f ∧ a = f.addr ∧ (platformReset s).readIn a = fixByte (s.readIn a) f.bits := by
  obtain ⟨_, _, _, hbr⟩ := abandonBr_eq s
  obtain ⟨_, _, _, hnb⟩ := abandonNb_eq s.abandonBr
  have hpast : (platformReset s).readIn a = s.abandonBr.abandonNb.abandonFx.readIn a := readIn_congr rfl a
  have hin : s.abandonBr.abandonNb.readIn a = s.readIn a := by rw [hnb, hbr]; exact readIn_congr rfl a
  have hjob : s.abandonBr.abandonNb.fx.job = s.fx.job := by rw [hnb, hbr]
  rw [hpast, ← hin, ← hjob]
  exact abandonFx_readIn _ a

/-- Settles O35: the banks, `IN`, `OUT` and the rest of the state after the reset, each by its own lemma. -/
theorem platformResetEffect : Obligations.PlatformResetEffect := by
  unfold Obligations.PlatformResetEffect
  intro s rest hi hm
  have hbanks := platformReset_banksReset { s.passTurn with inputs := rest }
  have hin := platformReset_readIn { s.passTurn with inputs := rest }
  refine ⟨_, step_host_reset hm hi, ?_, hbanks.quiet, hbanks.reg_eq_zero, fun a ha => ?_, fun f hf => ?_,
    fun a ha => platformReset_readOut ha, ?_⟩
  · obtain ⟨_, _, _, _, _, _, _, h⟩ := platformReset_eq { s.passTurn with inputs := rest }
    rw [h]
  · obtain h | ⟨f, hf, rfl, -⟩ := hin a
    · exact h
    · exact absurd rfl (ha f hf)
  · obtain h | ⟨g, hg, -, h⟩ := hin f.addr
    · exact .inl h
    · obtain rfl : f = g := Option.some.inj (hf.symm.trans hg)
      exact .inr h
  · obtain ⟨_, _, _, _, _, _, _, h⟩ := platformReset_eq { s.passTurn with inputs := rest }
    rw [h]
    exact ⟨rfl, rfl, rfl, rfl⟩

end Sys2Proof.Machine

/-! The BitRat functions: `matchByte` follows the bytes processed (R28), O39; and the largest stream of each tier
(R143). -/

namespace Sys2Proof.Machine

/-! ## Sub-units -/

@[simp] theorem pieces_length (k c : Nat) (d : List Byte) : (pieces k c d).length = c := by
  induction c generalizing d with
  | zero => rfl
  | succ c ih => simp [pieces, ih]

/-- The pieces put together again are the bytes they were cut from. -/
theorem pieces_flatten (k c : Nat) (d : List Byte) : (pieces k c d).flatten = d.take (k * c) := by
  induction c generalizing d with
  | zero => simp [pieces]
  | succ c ih => rw [pieces, List.flatten_cons, ih, Nat.mul_succ, Nat.add_comm, List.take_add]

theorem length_le_of_mem_pieces {k c : Nat} {d p : List Byte} (h : p ∈ pieces k c d) : p.length ≤ k := by
  induction c generalizing d with
  | zero => cases h
  | succ c ih =>
    obtain rfl | h := List.mem_cons.mp h
    · exact List.length_take_le k d
    · exact ih h

/-! ## `matchByte` (R28) -/

theorem matchAfter_append (m : Byte) (a b : List Byte) : matchAfter m (a ++ b) = matchAfter (matchAfter m a) b := by
  induction a generalizing m with
  | nil => rfl
  | cons x a ih => exact ih _

/-- A value `matchByte` can have (R9, R28). -/
def IsSeed (m : Byte) : Prop := m = 0x00#8 ∨ m = 0xFF#8

theorem isSeed_ext (b : BitVec 1) : IsSeed (ext b) := by
  unfold IsSeed ext
  split
  · exact .inl rfl
  · exact .inr rfl

theorem IsSeed.ext_lsb {m : Byte} (h : IsSeed m) : ext (lsb m) = m := by
  obtain rfl | rfl := h <;> rfl

/-- From a seed on, `matchByte` is given by the last byte alone. -/
theorem matchAfter_eq {m : Byte} (hm : IsSeed m) (d : List Byte) :
    matchAfter m d = if d = [] then m else ext (lsb (d.getLastD 0x00#8)) := by
  induction d generalizing m with
  | nil => rfl
  | cons b bs ih =>
    have hb : (if b = m then m else ext (lsb b)) = ext (lsb b) := by
      split
      · rename_i h
        rw [h, hm.ext_lsb]
      · rfl
    rw [matchAfter, hb, ih (isSeed_ext _), if_neg (List.cons_ne_nil b bs)]
    cases bs with
    | nil => rfl
    | cons c cs => simp

theorem matchAfter_of_ne_nil {m : Byte} (hm : IsSeed m) {d : List Byte} (hd : d ≠ []) :
    matchAfter m d = ext (lsb (d.getLastD 0x00#8)) := by
  rw [matchAfter_eq hm, if_neg hd]

theorem isSeed_matchAfter {m : Byte} (hm : IsSeed m) (d : List Byte) : IsSeed (matchAfter m d) := by
  rw [matchAfter_eq hm]
  split
  · exact hm
  · exact isSeed_ext _

theorem groupFrom_m (d : List Byte) (i : Nat) (m : Byte) : (groupFrom d i m).m = matchAfter m d := by
  induction d generalizing i m with
  | nil => rfl
  | cons b bs ih =>
    rw [groupFrom, matchAfter]
    split
    · exact ih _ _
    · exact ih _ _

theorem groupItem_m (d : List Byte) (m : Byte) : (groupItem d m).m = matchAfter m d := by
  rw [← groupFrom_m d 0 m]
  unfold groupItem group
  dsimp only
  split <;> rfl

/-- A walk hands `matchByte` from sub-unit to sub-unit (R130). -/
theorem walk_m {f : List Byte → Byte → Tier} {ds : List (List Byte)}
    (hf : ∀ d ∈ ds, ∀ m, (f d m).m = matchAfter m d) (i : Nat) (m : Byte) :
    (walk f ds i m).m = matchAfter m ds.flatten := by
  induction ds generalizing i m with
  | nil => rfl
  | cons d ds ih =>
    obtain ⟨hd, hds⟩ := List.forall_mem_cons.mp hf
    rw [walk, List.flatten_cons, matchAfter_append, ← hd]
    exact ih hds _ _

theorem sectionOf_m (w : Walk) : (sectionOf w).m = w.m := by
  unfold sectionOf
  split <;> rfl

theorem blockStructured_m (d : List Byte) (m : Byte) (hd : d.length ≤ 32) :
    (blockStructured d m).m = matchAfter m d := calc
  (blockStructured d m).m = matchAfter m (pieces brGroupLen 4 d).flatten := walk_m (fun d _ => groupItem_m d) 0 m
  _ = matchAfter m d := by rw [pieces_flatten, List.take_of_length_le (show d.length ≤ brGroupLen * 4 from hd)]

theorem block_m (d : List Byte) (m : Byte) (hd : d.length ≤ 32) : (block d m).m = matchAfter m d := by
  rw [← blockStructured_m d m hd, block]
  split <;> rfl

theorem pair_m (d : List Byte) (m : Byte) (hd : d.length ≤ brPairLen) : (pair d m).m = matchAfter m d := by
  have hsnd : (block (d.drop 32) (block (d.take 32) m).m).m = matchAfter m d := by
    have hrest : (d.drop 32).length ≤ 32 := by
      simp only [List.length_drop, brPairLen] at hd ⊢
      omega
    rw [block_m _ _ hrest, block_m _ _ (List.length_take_le 32 d), ← matchAfter_append, List.take_append_drop]
  rw [← hsnd, pair]
  split <;> rfl

theorem fullSection_m (d : List Byte) (m : Byte) (hd : d.length ≤ brSectionLen) :
    (fullSection d m).m = matchAfter m d := by
  rw [fullSection, sectionOf_m, walk_m (fun p hp m => pair_m p m (length_le_of_mem_pieces hp)), pieces_flatten,
    List.take_of_length_le (show d.length ≤ brPairLen * 8 from hd)]

theorem tailPair_m (d : List Byte) (m : Byte) : (tailPair d m).m = matchAfter m d := by
  have hwalk : (walk groupItem (pieces brGroupLen ((d.length + 7) / 8) d) 0 m).m = matchAfter m d := by
    rw [walk_m (fun p _ => groupItem_m p), pieces_flatten, List.take_of_length_le (by simp only [brGroupLen]; omega)]
  rw [← hwalk, tailPair]
  split <;> rfl

theorem walkWithTail_m {f g : List Byte → Byte → Tier} {k : Nat} {d : List Byte}
    (hf : ∀ p : List Byte, p.length ≤ k → ∀ m, (f p m).m = matchAfter m p)
    (hg : ∀ (p : List Byte) (m : Byte), (g p m).m = matchAfter m p) (q : Nat) (m : Byte) :
    (walkWithTail f g k q d m).m = matchAfter m d := by
  have hwhole : (walk f (pieces k q d) 0 m).m = matchAfter m (d.take (k * q)) := by
    rw [walk_m fun p hp => hf p (length_le_of_mem_pieces hp), pieces_flatten]
  unfold walkWithTail
  dsimp only
  split
  · rename_i hle
    rw [hwhole, List.take_of_length_le hle]
  · rw [hg, hwhole, ← matchAfter_append, List.take_append_drop]

theorem tailSection_m (d : List Byte) (m : Byte) : (tailSection d m).m = matchAfter m d := by
  rw [tailSection, sectionOf_m, walkWithTail_m (fun p hp m => pair_m p m hp) tailPair_m]

theorem encodeFull_m (prev : BitVec 1) (d : List Byte) (hd : d.length ≤ 4096) :
    (encodeFull prev d).m = matchAfter (ext prev) d := by
  rw [encodeFull, walk_m (fun p hp m => fullSection_m p m (length_le_of_mem_pieces hp)), pieces_flatten,
    List.take_of_length_le (show d.length ≤ brSectionLen * 8 from hd)]

theorem encodePart_m (prev : BitVec 1) (d : List Byte) : (encodePart prev d).m = matchAfter (ext prev) d :=
  walkWithTail_m (fun p hp m => fullSection_m p m hp) tailSection_m _ _

theorem encodeChunk_m (prev : BitVec 1) (d : List Byte) : (encodeChunk prev d).m = matchAfter (ext prev) d := by
  unfold encodeChunk
  split
  · exact encodeFull_m prev d (by omega)
  · exact encodePart_m prev d

/-- Settles O39: at every tier the exit value is `matchAfter` of the bytes processed. -/
theorem matchByteLaw : Obligations.MatchByteLaw := by
  unfold Obligations.MatchByteLaw
  refine ⟨fun prev d _ => ?_, fun d m hd hm => ?_, fun f lo hi d m hf hlo hhi hm => ?_⟩
  · rw [encodeChunk_m, matchAfter_eq (isSeed_ext prev)]
  · rw [block_m d m (by omega), matchAfter_of_ne_nil hm (by rintro rfl; cases hd)]
  · have hne : 1 ≤ lo → d ≠ [] := by
      rintro hlo' rfl
      exact absurd hlo (Nat.not_le.mpr hlo')
    simp only [List.mem_cons, Prod.mk.injEq, List.not_mem_nil, or_false] at hf
    obtain ⟨rfl, rfl, rfl⟩ | ⟨rfl, rfl, rfl⟩ | ⟨rfl, rfl, rfl⟩ | ⟨rfl, rfl, rfl⟩ | ⟨rfl, rfl, rfl⟩ := hf
    · rw [groupItem_m, matchAfter_of_ne_nil hm (hne (by decide))]
    · rw [pair_m d m hhi, matchAfter_of_ne_nil hm (hne (by decide))]
    · rw [fullSection_m d m hhi, matchAfter_of_ne_nil hm (hne (by decide))]
    · rw [tailPair_m, matchAfter_of_ne_nil hm (hne (by decide))]
    · rw [tailSection_m, matchAfter_of_ne_nil hm (hne (by decide))]

/-! ## The largest streams (R143) -/

@[simp] theorem brBytes_nil : brBytes [] = [] := rfl

@[simp] theorem brBytes_cons (x : BrItem) (xs : List BrItem) : brBytes (x :: xs) = brItemBytes x ++ brBytes xs :=
  List.flatMap_cons

@[simp] theorem brBytes_append (xs ys : List BrItem) : brBytes (xs ++ ys) = brBytes xs ++ brBytes ys :=
  List.flatMap_append

@[simp] theorem brBytes_literals (ds : List Byte) : brBytes (ds.map .literal) = ds := by
  induction ds with
  | nil => rfl
  | cons d ds ih => rw [List.map_cons, brBytes_cons, ih]; rfl

theorem maskBytes_length_le (g : Byte) : (maskBytes g).length ≤ 1 := by
  unfold maskBytes
  split <;> simp

theorem groupFrom_lits_length_le (d : List Byte) (i : Nat) (m : Byte) : (groupFrom d i m).lits.length ≤ d.length := by
  induction d generalizing i m with
  | nil => exact Nat.le_refl _
  | cons b bs ih =>
    rw [groupFrom]
    split
    · exact (ih _ _).trans (Nat.le_succ _)
    · exact Nat.succ_le_succ (ih _ _)

/-- A group writes at most its mask and all its bytes (R132). -/
theorem groupItem_size (d : List Byte) (m : Byte) : (brBytes (groupItem d m).items).length ≤ d.length + 1 := by
  have hlits : (group d m).lits.length ≤ d.length := groupFrom_lits_length_le d 0 m
  have hmask := maskBytes_length_le (group d m).mask
  unfold groupItem
  dsimp only
  split
  · simp
  · simp only [brBytes_cons, brBytes_literals, brItemBytes, List.length_append]
    omega

/-- The sizes of a walk's sub-units add up. -/
theorem walk_size {f : List Byte → Byte → Tier} {size : List Byte → Nat} {ds : List (List Byte)}
    (hf : ∀ d ∈ ds, ∀ m, (brBytes (f d m).items).length ≤ size d) (i : Nat) (m : Byte) :
    (brBytes (walk f ds i m).items).length ≤ (ds.map size).sum := by
  induction ds generalizing i m with
  | nil => exact Nat.le_refl _
  | cons d ds ih =>
    obtain ⟨hd, hds⟩ := List.forall_mem_cons.mp hf
    rw [walk, List.map_cons, List.sum_cons]
    simp only [brBytes_append, List.length_append]
    exact Nat.add_le_add (hd m) (ih hds _ _)

theorem walk_pieces_size {f : List Byte → Byte → Tier} {k bound : Nat}
    (hf : ∀ p : List Byte, p.length ≤ k → ∀ m, (brBytes (f p m).items).length ≤ bound) (c : Nat) (d : List Byte)
    (i : Nat) (m : Byte) : (brBytes (walk f (pieces k c d) i m).items).length ≤ bound * c := by
  have h := walk_size (ds := pieces k c d) (size := fun _ => bound) (fun p hp => hf p (length_le_of_mem_pieces hp)) i m
  simpa [Nat.mul_comm] using h

/-- Groups write at most their masks and their bytes. -/
theorem walk_groups_size (k c : Nat) (d : List Byte) (i : Nat) (m : Byte) :
    (brBytes (walk groupItem (pieces k c d) i m).items).length ≤ d.length + c := by
  have h := walk_size (ds := pieces k c d) (fun p _ => groupItem_size p) i m
  have hsum : ∀ ds : List (List Byte), (ds.map fun p => p.length + 1).sum = ds.flatten.length + ds.length := by
    intro ds
    induction ds with
    | nil => rfl
    | cons p ds ih => simp only [List.map_cons, List.sum_cons, ih, List.flatten_cons, List.length_append,
        List.length_cons]; omega
  rw [hsum, pieces_flatten, pieces_length, List.length_take] at h
  omega

theorem block_size (d : List Byte) (m : Byte) (hd : d.length ≤ 32) : (brBytes (block d m).items).length ≤ 33 := by
  unfold block
  dsimp only
  split
  · simpa [brItemBytes, escapeBytes] using Nat.lt_succ_of_le hd
  · rename_i h
    simp only [brEscLimit] at h
    omega

theorem pair_size (d : List Byte) (m : Byte) (hd : d.length ≤ 64) : (brBytes (pair d m).items).length ≤ 67 := by
  have h0 := block_size (d.take 32) m (by simp)
  have h1 := block_size (d.drop 32) (block (d.take 32) m).m (by simp; omega)
  have hmask := maskBytes_length_le
    ((block (d.take 32) m).mask ++ (block (d.drop 32) (block (d.take 32) m).m).mask)
  unfold pair
  dsimp only [brBlockLen]
  split
  · simp
  · simp only [brBytes_cons, brBytes_append, brItemBytes, List.length_append]
    omega

theorem sectionOf_size (w : Walk) : (brBytes (sectionOf w).items).length ≤ 1 + (brBytes w.items).length := by
  have hmask := maskBytes_length_le w.mask
  unfold sectionOf
  split
  · simp
  · simp only [brBytes_cons, brItemBytes, List.length_append]
    omega

theorem fullSection_size (d : List Byte) (m : Byte) : (brBytes (fullSection d m).items).length ≤ 537 := by
  have hpairs := walk_pieces_size (k := brPairLen) (fun p hp m => pair_size p m hp) 8 d 0 m
  have hsec := sectionOf_size (walk pair (pieces brPairLen 8 d) 0 m)
  rw [fullSection]
  omega

theorem tailPair_size (d : List Byte) (m : Byte) :
    (brBytes (tailPair d m).items).length ≤ 1 + d.length + (d.length + 7) / 8 := by
  have hgroups := walk_groups_size brGroupLen ((d.length + 7) / 8) d 0 m
  have hmask := maskBytes_length_le (walk groupItem (pieces brGroupLen ((d.length + 7) / 8) d) 0 m).mask
  unfold tailPair
  dsimp only
  split
  · simp
  · simp only [brBytes_cons, brItemBytes, List.length_append]
    omega

theorem walkWithTail_size {f g : List Byte → Byte → Tier} {k bound tail : Nat} {d : List Byte} {q : Nat}
    (hf : ∀ p : List Byte, p.length ≤ k → ∀ m, (brBytes (f p m).items).length ≤ bound)
    (hg : ∀ m, (brBytes (g (d.drop (k * q)) m).items).length ≤ tail) (m : Byte) :
    (brBytes (walkWithTail f g k q d m).items).length ≤ bound * q + if d.length ≤ k * q then 0 else tail := by
  have hwhole := walk_pieces_size hf q d 0 m
  unfold walkWithTail
  dsimp only
  split
  · exact hwhole
  · have htail := hg (walk f (pieces k q d) 0 m).m
    simp only [brBytes_append, List.length_append]
    omega

theorem tailSection_size (d : List Byte) (m : Byte) :
    (brBytes (tailSection d m).items).length ≤
      1 + 67 * (d.length / 64) +
        if d.length % 64 = 0 then 0 else 1 + d.length % 64 + (d.length % 64 + 7) / 8 := by
  have htail (m : Byte) := tailPair_size (d.drop (brPairLen * (d.length / brPairLen))) m
  have hunits := walkWithTail_size (fun p (hp : p.length ≤ brPairLen) m => pair_size p m hp) htail m
  have hsec := sectionOf_size (walkWithTail pair tailPair brPairLen (d.length / brPairLen) d m)
  rw [tailSection]
  simp only [brPairLen, List.length_drop] at hunits hsec ⊢
  split_ifs at hunits ⊢ <;> omega

/-- The largest stream of a full chunk. -/
theorem encodeFull_size (prev : BitVec 1) (d : List Byte) : (brBytes (encodeFull prev d).items).length ≤ 4296 :=
  walk_pieces_size (k := brSectionLen) (bound := 537) (fun p _ m => fullSection_size p m) 8 d 0 (ext prev)

/-- `W(n)` bounds the stream of a partial chunk. -/
theorem encodePart_size (prev : BitVec 1) (d : List Byte) :
    (brBytes (encodePart prev d).items).length ≤ brWorst d.length := by
  have htail (m : Byte) := tailSection_size (d.drop (brSectionLen * (d.length / brSectionLen))) m
  have h := walkWithTail_size (fun p (_ : p.length ≤ brSectionLen) m => fullSection_size p m) htail (ext prev)
  have hrest : d.length - 512 * (d.length / 512) = d.length % 512 := by omega
  simp only [brSectionLen, List.length_drop, hrest] at h
  refine h.trans ?_
  rw [brWorst]
  split_ifs <;> omega

theorem brWorst_le (n : Nat) : brWorst n ≤ n + n / 8 + 3 := by
  unfold brWorst
  split_ifs <;> omega

end Sys2Proof.Machine

/-! The Nibbler functions: the segments of a chunk have lengths their fields can hold, and what they put into the body
is counted in nibbles (R173 to R187). O45. -/

namespace Sys2Proof.Machine

/-! ## The two scans -/

theorem le_scanRun (d : List Byte) (v : Byte) (fuel j : Nat) : j ≤ scanRun d v fuel j := by
  induction fuel generalizing j with
  | zero => exact Nat.le_refl j
  | succ fuel ih =>
    rw [scanRun]
    split
    · exact (Nat.le_succ j).trans (ih (j + 1))
    · exact Nat.le_refl j

/-- A run ends in the run-eligible region (R178, R181). -/
theorem scanRun_le (d : List Byte) (v : Byte) (fuel : Nat) {j : Nat} (hj : j ≤ runEnd d) :
    scanRun d v fuel j ≤ runEnd d := by
  induction fuel generalizing j with
  | zero => exact hj
  | succ fuel ih =>
    rw [scanRun]
    split
    · rename_i h
      exact ih h.1
    · exact hj

theorem le_scanLiteral (d : List Byte) (fuel i : Nat) : i ≤ scanLiteral d fuel i := by
  induction fuel generalizing i with
  | zero => exact Nat.le_refl i
  | succ fuel ih =>
    rw [scanLiteral]
    split
    · exact (Nat.le_succ i).trans (ih (i + 1))
    · exact Nat.le_refl i

theorem scanLiteral_le (d : List Byte) (fuel : Nat) {i : Nat} (hi : i ≤ d.length) :
    scanLiteral d fuel i ≤ d.length := by
  induction fuel generalizing i with
  | zero => exact hi
  | succ fuel ih =>
    rw [scanLiteral]
    split
    · rename_i h
      exact ih h.1
    · exact hi

/-- With enough fuel a literal run that ends before the chunk does ends where a run starts (R182). -/
theorem runStartsAt_scanLiteral (d : List Byte) {fuel i : Nat} (hfuel : d.length ≤ i + fuel)
    (hend : scanLiteral d fuel i < d.length) : runStartsAt d (scanLiteral d fuel i) = true := by
  induction fuel generalizing i with
  | zero =>
    rw [scanLiteral] at hend
    omega
  | succ fuel ih =>
    rw [scanLiteral] at hend ⊢
    split
    · rename_i h
      rw [if_pos h] at hend
      exact ih (by omega) hend
    · rename_i h
      rw [if_neg h] at hend
      simpa [hend] using h

theorem add_three_le_of_runStartsAt {d : List Byte} {i : Nat} (h : runStartsAt d i = true) : i + 3 ≤ runEnd d := by
  simp only [runStartsAt, Bool.and_eq_true, decide_eq_true_eq] at h
  obtain ⟨⟨⟨⟨-, hroom⟩, -⟩, -⟩, -⟩ := h
  exact hroom

/-! ## The segments -/

/-- Where the literal run that starts at `s` ends (R182). -/
abbrev literalEnd (d : List Byte) (s : Nat) : Nat := scanLiteral d d.length (s + 1)

/-- Where the run that follows the literal run from `s` ends (R181). -/
abbrev nextRunEnd (d : List Byte) (s : Nat) : Nat :=
  scanRun d (at_ d (literalEnd d s - 1)) d.length (literalEnd d s + 3)

theorem segmentsFrom_succ (d : List Byte) (fuel s : Nat) :
    segmentsFrom d (fuel + 1) s =
      if s < d.length then
        if literalEnd d s < d.length then
          .litRun ((d.take (literalEnd d s)).drop s) :: .run (nextRunEnd d s - literalEnd d s)
            :: segmentsFrom d fuel (nextRunEnd d s)
        else [.litRun ((d.take (literalEnd d s)).drop s)]
      else [] := rfl

theorem lt_literalEnd (d : List Byte) (s : Nat) : s < literalEnd d s := le_scanLiteral d d.length (s + 1)

theorem literalEnd_le {d : List Byte} {s : Nat} (hs : s < d.length) : literalEnd d s ≤ d.length :=
  scanLiteral_le d d.length hs

theorem literal_length {d : List Byte} {s : Nat} (hs : s < d.length) :
    ((d.take (literalEnd d s)).drop s).length = literalEnd d s - s := by
  rw [List.length_drop, List.length_take, Nat.min_eq_left (literalEnd_le hs)]

/-- The run after a literal run has 3 bytes or more and ends before the tail. -/
theorem nextRunEnd_bounds {d : List Byte} {s : Nat} (h : literalEnd d s < d.length) :
    literalEnd d s + 3 ≤ nextRunEnd d s ∧ nextRunEnd d s + 3 ≤ d.length := by
  have hroom := add_three_le_of_runStartsAt (runStartsAt_scanLiteral d (by omega) h)
  have hend : nextRunEnd d s ≤ runEnd d := scanRun_le d _ d.length hroom
  have hge : literalEnd d s + 3 ≤ nextRunEnd d s := le_scanRun d _ d.length _
  simp only [runEnd, nbTail] at hend
  exact ⟨hge, by omega⟩

/-- Where a leading run ends (R179). -/
abbrev leadingRunEnd (d : List Byte) : Nat := scanRun d (at_ d 0) d.length 3

theorem segments_eq (d : List Byte) :
    segments d =
      if leadsWithRun d then .run (leadingRunEnd d) :: segmentsFrom d d.length (leadingRunEnd d)
      else segmentsFrom d d.length 0 := rfl

theorem leadingRunEnd_bounds {d : List Byte} (h : leadsWithRun d = true) :
    3 ≤ leadingRunEnd d ∧ leadingRunEnd d + 3 ≤ d.length := by
  simp only [leadsWithRun, Bool.and_eq_true] at h
  obtain ⟨⟨⟨hroom, -⟩, -⟩, -⟩ := h
  have hend : leadingRunEnd d ≤ runEnd d := scanRun_le d _ d.length (of_decide_eq_true hroom)
  have hge : 3 ≤ leadingRunEnd d := le_scanRun d _ d.length 3
  simp only [runEnd, nbTail] at hend
  exact ⟨hge, by omega⟩

/-- What a segment of a chunk of `n` bytes can be (R189). -/
def SegmentOk (n : Nat) : NbItem → Prop
  | .run r => 3 ≤ r ∧ r + 3 ≤ n
  | .litRun bytes => 1 ≤ bytes.length ∧ bytes.length ≤ n
  | .lenField4 _ | .lenField8 _ | .lenField16 _ => False

theorem literal_ok {d : List Byte} {s : Nat} (hs : s < d.length) :
    SegmentOk d.length (.litRun ((d.take (literalEnd d s)).drop s)) := by
  have hlt := lt_literalEnd d s
  have hle := literalEnd_le hs
  simp only [SegmentOk, literal_length hs]
  omega

theorem segmentsFrom_ok (d : List Byte) (fuel s : Nat) : ∀ x ∈ segmentsFrom d fuel s, SegmentOk d.length x := by
  induction fuel generalizing s with
  | zero => exact nofun
  | succ fuel ih =>
    rw [segmentsFrom_succ]
    split
    · rename_i hs
      split
      · rename_i hrun
        have hb := nextRunEnd_bounds hrun
        refine List.forall_mem_cons.mpr ⟨literal_ok hs, List.forall_mem_cons.mpr ⟨?_, ih _⟩⟩
        exact ⟨by omega, by omega⟩
      · exact List.forall_mem_singleton.mpr (literal_ok hs)
    · exact nofun

theorem segments_ok (d : List Byte) : ∀ x ∈ segments d, SegmentOk d.length x := by
  rw [segments_eq]
  split
  · rename_i h
    exact List.forall_mem_cons.mpr ⟨leadingRunEnd_bounds h, segmentsFrom_ok d _ _⟩
  · exact segmentsFrom_ok d _ _

/-- A segment of a chunk of at most 8192 bytes has a value its length field can hold (R177, R260). -/
theorem SegmentOk.fits {bias n : Nat} {x : NbItem} (h : SegmentOk n x) (hbias : bias ≤ nbRunMin) (hn : n ≤ nbMax) :
    ItemFits bias x := by
  simp only [nbRunMin, nbMax] at hbias hn
  cases x with
  | run r =>
    obtain ⟨hlo, hhi⟩ := h
    simp only [ItemFits, nbLenMax]
    omega
  | litRun bytes =>
    obtain ⟨hlo, hhi⟩ := h
    simp only [ItemFits, nbLenMax]
    omega
  | lenField4 | lenField8 | lenField16 => trivial

/-! ## The body in nibbles -/

/-- The nibbles written so far: two a byte of the body, but one for a byte whose low nibble is free (R171). -/
def Writer.nibbles (w : Writer) : Int := 2 * w.body.length - if w.slot.isSome then 1 else 0

theorem nibbles_start : Writer.start.nibbles = 0 := rfl

theorem nibbles_putNibble (x : Nibble) (w : Writer) : (putNibble x w).nibbles = w.nibbles + 1 := by
  unfold putNibble Writer.nibbles
  split <;> rename_i h
  · simp [h]
  · simp [h]
    omega

theorem nibbles_putByte (b : Byte) (w : Writer) : (putByte b w).nibbles = w.nibbles + 2 := by
  unfold putByte Writer.nibbles
  dsimp only
  rw [List.length_append, List.length_singleton]
  split <;> omega

theorem nibbles_putNibbles (xs : List Nibble) (w : Writer) : (putNibbles xs w).nibbles = w.nibbles + xs.length := by
  induction xs generalizing w with
  | nil => exact (Int.add_zero _).symm
  | cons x xs ih =>
    rw [putNibbles, ih, nibbles_putNibble, List.length_cons]
    push_cast
    ring

theorem nibbles_putBytes (bs : List Byte) (w : Writer) : (putBytes bs w).nibbles = w.nibbles + 2 * bs.length := by
  induction bs generalizing w with
  | nil => exact (Int.add_zero _).symm
  | cons b bs ih =>
    rw [putBytes, ih, nibbles_putByte, List.length_cons]
    push_cast
    ring

theorem lenNibbles_length (v : Nat) :
    (lenNibbles v).length = if v ≤ 7 then 1 else if v ≤ 71 then 2 else 4 := by
  unfold lenNibbles
  split
  · rfl
  · split <;> rfl

/-- The nibbles an item puts into the body. -/
def itemNibbles (bias : Nat) : NbItem → Nat
  | .lenField4 _ => 1
  | .lenField8 _ => 2
  | .lenField16 _ => 4
  | .run n => (lenNibbles (n - bias)).length
  | .litRun bytes => (lenNibbles (bytes.length - 1)).length + 2 * bytes.length

/-- The nibbles a sequence of items puts into the body. -/
def itemsNibbles (bias : Nat) (xs : List NbItem) : Nat := (xs.map (itemNibbles bias)).sum

/-- A value `WriteLen` accepts is written (R173). -/
theorem writeLen_of_fits {v : Nat} (hv : v ≤ nbLenMax) (w : Writer) :
    writeLen v w = some (putNibbles (lenNibbles v) w) :=
  writeLen_eq_some.mpr ⟨Int.natCast_nonneg v, by exact_mod_cast hv, rfl⟩

/-- An item whose value fits is written, with as many nibbles as it has. -/
theorem emitItem_of_fits {bias : Nat} {x : NbItem} (h : ItemFits bias x) (w : Writer) :
    ∃ w', emitItem bias x w = some w' ∧ w'.nibbles = w.nibbles + itemNibbles bias x := by
  cases x with
  | lenField4 v => exact ⟨_, rfl, nibbles_putNibbles _ _⟩
  | lenField8 v => exact ⟨_, rfl, nibbles_putNibbles _ _⟩
  | lenField16 v => exact ⟨_, rfl, nibbles_putNibbles _ _⟩
  | run n =>
    obtain ⟨hlo, hhi⟩ := h
    have hcast : (n : Int) - bias = ((n - bias : Nat) : Int) := by omega
    refine ⟨_, ?_, nibbles_putNibbles (lenNibbles (n - bias)) w⟩
    rw [emitItem, emitRun, hcast, writeLen_of_fits (by omega)]
  | litRun bytes =>
    obtain ⟨hlo, hhi⟩ := h
    have hcast : (bytes.length : Int) - 1 = ((bytes.length - 1 : Nat) : Int) := by omega
    have hwrite := writeLen_of_fits (v := bytes.length - 1) (by omega) w
    refine ⟨_, emitLitRun_eq_some.mpr ⟨_, by rw [hcast, hwrite], rfl⟩, ?_⟩
    rw [nibbles_putBytes, nibbles_putNibbles, itemNibbles]
    push_cast
    ring

theorem emitItems_of_fits {bias : Nat} {xs : List NbItem} (h : ∀ x ∈ xs, ItemFits bias x) (w : Writer) :
    ∃ w', emitItems bias xs w = some w' ∧ w'.nibbles = w.nibbles + itemsNibbles bias xs := by
  induction xs generalizing w with
  | nil => exact ⟨w, rfl, (Int.add_zero _).symm⟩
  | cons x xs ih =>
    obtain ⟨hx, hxs⟩ := List.forall_mem_cons.mp h
    obtain ⟨u, hu, hnu⟩ := emitItem_of_fits hx w
    obtain ⟨v, hv, hnv⟩ := ih hxs u
    refine ⟨v, by rw [emitItems, hu, ← hv], ?_⟩
    rw [hnv, hnu, itemsNibbles, itemsNibbles, List.map_cons, List.sum_cons]
    push_cast
    ring

theorem Writer.SlotOk.emitItems {bias : Nat} {xs : List NbItem} {w w' : Writer} (h : w.SlotOk)
    (hx : emitItems bias xs w = some w') : w'.SlotOk := by
  induction xs generalizing w with
  | nil =>
    cases hx
    exact h
  | cons x xs ih =>
    rw [Sys2Proof.Machine.emitItems] at hx
    split at hx
    · cases hx
    · rename_i u hu
      exact ih (h.emitItem hu) hx

/-! ## What the segments cost -/

/-- A literal run costs at most 4 nibbles more than the bytes it stands for. -/
theorem itemNibbles_litRun_le (bias : Nat) (bytes : List Byte) :
    itemNibbles bias (.litRun bytes) ≤ 2 * bytes.length + 4 := by
  simp only [itemNibbles, lenNibbles_length]
  split_ifs <;> omega

/-- A run saves at least 5 nibbles of the bytes it stands for, which pays for the literal run after it. -/
theorem itemNibbles_run_le (bias : Nat) {n : Nat} (hn : 3 ≤ n) : itemNibbles bias (.run n) + 5 ≤ 2 * n := by
  simp only [itemNibbles, lenNibbles_length]
  split_ifs <;> omega

@[simp] theorem itemsNibbles_nil (bias : Nat) : itemsNibbles bias [] = 0 := rfl

@[simp] theorem itemsNibbles_cons (bias : Nat) (x : NbItem) (xs : List NbItem) :
    itemsNibbles bias (x :: xs) = itemNibbles bias x + itemsNibbles bias xs := by
  simp [itemsNibbles]

theorem segmentsFrom_nibbles (bias : Nat) (d : List Byte) (fuel : Nat) {s : Nat} (hs : s ≤ d.length) :
    itemsNibbles bias (segmentsFrom d fuel s) ≤ 2 * (d.length - s) + 4 := by
  induction fuel generalizing s with
  | zero => exact Nat.zero_le _
  | succ fuel ih =>
    rw [segmentsFrom_succ]
    split
    · rename_i hlt
      have hlit := itemNibbles_litRun_le bias ((d.take (literalEnd d s)).drop s)
      have hend := literalEnd_le hlt
      have hstart := lt_literalEnd d s
      rw [literal_length hlt] at hlit
      split
      · rename_i hrun
        have hb := nextRunEnd_bounds hrun
        have hcost := itemNibbles_run_le bias (n := nextRunEnd d s - literalEnd d s) (by omega)
        have hrest := ih (s := nextRunEnd d s) (by omega)
        simp only [itemsNibbles_cons]
        omega
      · simp only [itemsNibbles_cons, itemsNibbles_nil]
        omega
    · exact Nat.zero_le _

theorem segments_nibbles (bias : Nat) (d : List Byte) : itemsNibbles bias (segments d) ≤ 2 * d.length + 4 := by
  rw [segments_eq]
  split
  · rename_i h
    have hb := leadingRunEnd_bounds h
    have hcost := itemNibbles_run_le bias hb.1
    have hrest := segmentsFrom_nibbles bias d d.length (s := leadingRunEnd d) (by omega)
    rw [itemsNibbles_cons]
    omega
  · exact segmentsFrom_nibbles bias d d.length (Nat.zero_le _)

/-- A chunk with no run is one literal run. -/
theorem segments_eq_litRun {d : List Byte} (hd : d ≠ []) (h : ∀ x ∈ segments d, isRun x = false) :
    segments d = [.litRun d] := by
  rw [segments_eq] at h ⊢
  split at h
  · cases h _ List.mem_cons_self
  · rename_i hlead
    rw [if_neg hlead]
    have hpos : 0 < d.length := List.length_pos_of_ne_nil hd
    obtain ⟨fuel, hfuel⟩ : ∃ fuel, d.length = fuel + 1 := ⟨d.length - 1, by omega⟩
    have hcons := segmentsFrom_succ d fuel 0
    rw [← hfuel, if_pos hpos] at hcons
    rw [hcons] at h ⊢
    split at h
    · cases h _ (List.mem_cons_of_mem _ List.mem_cons_self)
    · rename_i hend
      rw [if_neg hend, List.drop_zero, List.take_of_length_le (Nat.not_lt.mp hend)]

/-! ## The whole stream -/

/-- The writer's state after all the segments of a chunk that `NB.ENC` accepts: there is no fatal error (R260), and
the body is at most 2 bytes longer than the chunk (R187). -/
theorem emit_segments {bias : Nat} {d : List Byte} (hbias : bias ≤ nbRunMin) (hd : d.length ≤ nbMax) :
    ∃ w, emitItems bias (segments d) Writer.start = some w ∧ w.SlotOk ∧ w.body.length ≤ d.length + 2 ∧
      w.nibbles = itemsNibbles bias (segments d) := by
  obtain ⟨w, hw, hn⟩ := emitItems_of_fits (fun x hx => (segments_ok d x hx).fits hbias hd) Writer.start
  rw [nibbles_start, Int.zero_add] at hn
  refine ⟨w, hw, Writer.SlotOk.start.emitItems hw, ?_, hn⟩
  have hcost := segments_nibbles bias d
  rw [Writer.nibbles] at hn
  split at hn <;> omega

theorem nbEncode_of_emit {p : Params} {d : List Byte} {w : Writer}
    (hw : emitItems p.nbRunBias (segments d) Writer.start = some w) :
    nbEncode p d =
      some (headerBytes (markOf p.nbEmptyMarker d) (BitVec.ofNat 14 w.body.length) ++ w.body, w.slot) := by
  rw [nbEncode, hw]

/-- Settles O45: the writer's state after all segments gives the stream's size and its slot. -/
theorem nibblerSizeBound : Obligations.NibblerSizeBound := by
  unfold Obligations.NibblerSizeBound
  intro p d hbias hd
  obtain ⟨w, hw, hslot, hlen, hn⟩ := emit_segments (d := d) hbias hd
  refine ⟨_, _, nbEncode_of_emit hw, ?_, fun h73 hruns => ?_, fun k hk => ?_⟩
  · rw [List.length_append, headerBytes_length]
    omega
  · have hne : d ≠ [] := by
      rintro rfl
      simp at h73
    rw [segments_eq_litRun hne hruns, itemsNibbles_cons, itemsNibbles_nil, itemNibbles, lenNibbles_length,
      if_neg (by omega), if_neg (by omega), Writer.nibbles] at hn
    rw [List.length_append, headerBytes_length]
    split at hn <;> omega
  · obtain ⟨hlt, hlow⟩ := hslot k hk
    rw [List.length_append, headerBytes_length]
    refine ⟨by omega, ?_⟩
    rw [List.getD_append_right _ _ _ _ (by simp), headerBytes_length, Nat.add_sub_cancel_left, hlow]

end Sys2Proof.Machine

/-! The three encoder commands: how they start (O21, O22, O23), how they end (O29, O30), and from the write of `CMD`
to the end (O47, O48, O49). -/

namespace Sys2Proof.Machine

/-! ## Operands as numbers (R93) -/

/-- An operand that is not negative is the same number read signed and unsigned. -/
theorem toInt_eq_toNat_of_nonneg {v : Word} (h : 0 ≤ v.toInt) : v.toInt = v.toNat := by
  rw [BitVec.toInt_eq_toNat_cond] at h ⊢
  split at h <;> omega

theorem toNat_toInt_of_nonneg {v : Word} (h : 0 ≤ v.toInt) : v.toInt.toNat = v.toNat := by
  rw [toInt_eq_toNat_of_nonneg h, Int.toNat_natCast]

@[simp] theorem toWord_toNat (v : Word) : toWord v.toNat = v := by
  simp [toWord]

theorem toWord_add (m n : Nat) : toWord (m + n) = toWord m + toWord n := BitVec.ofNat_add m n

theorem toNat_toWord {n : Nat} (h : n ≤ spaceSize) : (toWord n).toNat = n := by
  rw [toWord, BitVec.toNat_ofNat, Nat.mod_eq_of_lt (lt_of_le_of_lt h (by decide))]

/-! ## The command with its operands latched -/

/-- A BitRat command over `n` bytes with the tree `w`, its base addresses those of the operand registers, about to
write its first item (R137, R141). -/
def State.brJobOf (s : State) (n : Nat) (w : Walk) (width : BitVec 4) : BrJob :=
  { inBase := s.br.inBase.toNat, len := n, outBase := s.br.outBase.toNat, need := brNeed s.params n
    tierFault := false, todo := w.items, out := [], mask := w.mask, width := width, matchEnd := w.m }

/-- The tree of `BR.FULL` over the operands of `s`. -/
abbrev State.fullWalk (s : State) : Walk := encodeFull s.br.prev (s.readInBytes s.br.inBase.toNat 4096)

/-- The tree of `BR.PART` over the first `n` bytes of the input buffer of `s`. -/
abbrev State.partWalk (s : State) (n : Nat) : Walk := encodePart s.br.prev (s.readInBytes s.br.inBase.toNat n)

theorem brFullJob_eq {s : State} (h : brFullError s.params (brArgs s.br) = none) :
    brFullJob s = s.brJobOf 4096 s.fullWalk 8#4 := by
  obtain ⟨-, hin, -, -, hout, -⟩ := brFullError_eq_none.mp h
  simp only [brFullJob, brArgs, toNat_toInt_of_nonneg hin, toNat_toInt_of_nonneg hout]
  rfl

/-- A partial chunk has as many sections as 512 goes into its length, rounded up (R101). -/
theorem partWidth_eq (n : Nat) : partWidth n = (n + 511) / 512 := by
  unfold partWidth
  split <;> rename_i h <;> simp only [brSectionLen] at h ⊢ <;> omega

/-- No tail tier is ever given the length of the next tier (R260). -/
theorem tierFault_eq_false (n : Nat) : tierFault n = false := by
  have h1 : n % brSectionLen < brSectionLen := Nat.mod_lt _ (by decide)
  have h2 : n % brSectionLen % brPairLen < brPairLen := Nat.mod_lt _ (by decide)
  simp only [tierFault, Bool.or_eq_false_iff, decide_eq_false_iff_not]
  omega

theorem brPartJob_eq {s : State} {n : Nat} (h : brPartError s.params (brArgs s.br) = none)
    (hn : s.br.inLen.toInt = n) :
    brPartJob s = s.brJobOf n (s.partWalk n) (BitVec.ofNat 4 ((n + 511) / 512)) := by
  obtain ⟨-, -, hin, -, -, hout, -⟩ := brPartError_eq_none.mp h
  simp only [brPartJob, brArgs, toNat_toInt_of_nonneg hin, toNat_toInt_of_nonneg hout, hn, Int.toNat_natCast,
    tierFault_eq_false, partWidth_eq]
  rfl

/-- A Nibbler command over the bytes `d`, its base addresses those of the operand registers, about to write its first
segment (R186). -/
def State.nbJobOf (s : State) (d : List Byte) : NbJob :=
  { inBase := s.nb.inBase.toNat, len := d.length, outBase := s.nb.outBase.toNat, need := d.length + 4
    todo := segments d, body := [], slot := none, mark := markOf s.params.nbEmptyMarker d }

theorem readInBytes_length (s : State) (base n : Nat) : (s.readInBytes base n).length = n := by
  simp [State.readInBytes]

theorem nbEncJob_eq {s : State} {n : Nat} (h : nbEncError (nbArgs s.nb) = none) (hn : s.nb.inLen.toInt = n) :
    nbEncJob s = s.nbJobOf (s.readInBytes s.nb.inBase.toNat n) := by
  obtain ⟨-, -, hin, -, -, hout, -⟩ := nbEncError_eq_none.mp h
  simp only [nbEncJob, nbArgs, toNat_toInt_of_nonneg hin, toNat_toInt_of_nonneg hout, hn, Int.toNat_natCast,
    State.nbJobOf, readInBytes_length]
  rfl

/-! ## The starts (R225) -/

/-- The state in which the BitRat command `j` has started (R27, R225). -/
def State.brStarted (s : State) (j : BrJob) : State :=
  { s with br := { s.br with
    status := Status.busy, icur := toWord j.inBase, ocur := toWord j.outBase, matchByte := ext s.br.prev
    job := some j } }

/-- The state in which the Nibbler command `j` has started (R32, R225). -/
def State.nbStarted (s : State) (j : NbJob) : State :=
  { s with nb := { s.nb with
    status := Status.busy, icur := toWord j.inBase, ocur := toWord j.outBase, slot := 0#32, job := some j } }

theorem startBrFull_starts {s : State} (hst : s.br.status.st ≠ .busy)
    (he : brFullError s.params (brArgs s.br) = none) (hfree : s.FreeForBr (brFullJob s)) :
    startBrFull s = .next (s.brStarted (s.brJobOf 4096 s.fullWalk 8#4)) :=
  startBrFull_eq_next.mpr ⟨hst, .inr ⟨he, launchBr_eq_next.mpr ⟨hfree, by rw [brFullJob_eq he]; rfl⟩⟩⟩

theorem startBrPart_starts {s : State} {n : Nat} (hst : s.br.status.st ≠ .busy)
    (he : brPartError s.params (brArgs s.br) = none) (hn : s.br.inLen.toInt = n)
    (hfree : s.FreeForBr (brPartJob s)) :
    startBrPart s = .next (s.brStarted (s.brJobOf n (s.partWalk n) (BitVec.ofNat 4 ((n + 511) / 512)))) :=
  startBrPart_eq_next.mpr ⟨hst, .inr ⟨he, launchBr_eq_next.mpr ⟨hfree, by rw [brPartJob_eq he hn]; rfl⟩⟩⟩

theorem startNbEnc_starts {s : State} {n : Nat} (hst : s.nb.status.st ≠ .busy)
    (he : nbEncError (nbArgs s.nb) = none) (hn : s.nb.inLen.toInt = n) (hfree : s.FreeForNb (nbEncJob s)) :
    startNbEnc s = .next (s.nbStarted (s.nbJobOf (s.readInBytes s.nb.inBase.toNat n))) :=
  startNbEnc_eq_next.mpr ⟨hst, .inr ⟨he, launchNb_eq_next.mpr ⟨hfree, by rw [nbEncJob_eq he hn]; rfl⟩⟩⟩

/-- Settles O21: the operands meet R253, so the command starts. -/
theorem brFullStarts : Obligations.BrFullStarts := by
  unfold Obligations.BrFullStarts
  rintro s ign _ hst hbuf hin hincap hout houtcap hfree rfl
  have he : brFullError s.params (brArgs s.br) = none := by
    rw [brFullError_eq_none]
    simp only [brArgs, hbuf]
    exact ⟨by decide, hin, hincap, by decide, hout, houtcap⟩
  have hstart := startBrFull_starts hst he hfree
  simp only [State.brStarted, State.brJobOf, toWord_toNat] at hstart
  exact hstart

/-- Settles O22: the operands meet R254, so the command starts. -/
theorem brPartStarts : Obligations.BrPartStarts := by
  unfold Obligations.BrPartStarts
  rintro s ign n _ hst hbuf hlen hn hin hincap hout houtcap hfree rfl
  have he : brPartError s.params (brArgs s.br) = none := by
    rw [brPartError_eq_none]
    simp only [brArgs, hbuf, hlen, Int.toNat_natCast]
    exact ⟨by decide, ⟨Int.natCast_nonneg n, by exact_mod_cast hn⟩, hin, hincap, by decide, hout, houtcap⟩
  have hstart := startBrPart_starts hst he hlen hfree
  simp only [State.brStarted, State.brJobOf, toWord_toNat] at hstart
  exact hstart

/-- Settles O23: the operands meet R255, so the command starts. -/
theorem nbEncStarts : Obligations.NbEncStarts := by
  unfold Obligations.NbEncStarts
  rintro s ign n _ hst hbuf hlen hn hin hincap hout houtcap hfree rfl
  have he : nbEncError (nbArgs s.nb) = none := by
    rw [nbEncError_eq_none]
    simp only [nbArgs, hbuf, hlen]
    exact ⟨by decide, ⟨Int.natCast_nonneg n, by exact_mod_cast hn⟩, hin, hincap, by decide, hout, houtcap⟩
  have hstart := startNbEnc_starts hst he hlen hfree
  simp only [State.nbStarted, State.nbJobOf, toWord_toNat, readInBytes_length] at hstart
  exact hstart

/-! ## The ends (R226) -/

/-- A sequence read back byte by byte. -/
theorem readOutBytes_eq {s : State} {base : Nat} {bytes : List Byte}
    (h : ∀ i, i < bytes.length → s.readOut (base + i) = bytes.getD i 0x00#8) :
    s.readOutBytes base bytes.length = bytes := by
  refine List.ext_getElem (by simp [State.readOutBytes]) fun i h1 h2 => ?_
  simp only [State.readOutBytes, List.getElem_map, List.getElem_range, h i h2, List.getD_eq_getElem _ _ h2]

/-- The stream stored at the end of a command stands in `OUT`, whatever becomes of the bytes after it (R68). -/
theorem readOut_storeOut_scrambleOut_inside {s u : State} {base n i : Nat} {bytes : List Byte}
    (hstore : s.storeOut base bytes = .next u) (hi : i < bytes.length) :
    (u.scrambleOut (base + bytes.length) n).readOut (base + i) = bytes.getD i 0x00#8 := by
  rw [readOut_scrambleOut_outside u (by omega), readOut_storeOut hstore, if_pos (by omega), Nat.add_sub_cancel_left]
  rfl

/-- The BitRat command `j` of `s` has ended in `t` with the chunk mask `m`. -/
structure State.BrEnded (s t : State) (j : BrJob) (m : Byte) : Prop where
  bank : t.br = s.br.finish j m
  stream : t.readOutBytes j.outBase j.out.length = j.out
  frame : s.BrFrame j.outWindow t
  params : t.params = s.params
  turn : t.turn = s.turn

/-- The Nibbler command `j` of `s` has ended in `t` with the header of `mark` and `n`. -/
structure State.NbEnded (s t : State) (j : NbJob) (mark : Mark) (n : BitVec 14) : Prop where
  bank : t.nb = s.nb.finish j
  stream : ∀ i, i < 2 + j.body.length → t.readOut (j.outBase + i) = (headerBytes mark n ++ j.body).getD i 0x00#8
  frame : s.NbFrame j.outWindow t
  params : t.params = s.params
  turn : t.turn = s.turn

/-- A stream that fits a window inside `OUT` can be stored. -/
theorem exists_storeOut (s : State) {base need : Nat} {bytes : List Byte} (hfit : bytes.length ≤ need)
    (hroom : base + need ≤ spaceSize) : ∃ u, s.storeOut base bytes = .next u :=
  ⟨_, storeOut_eq_next.mpr ⟨by omega, rfl⟩⟩

theorem execBrChunkMask_ends {s : State} {j : BrJob} (m : Byte) (hj : s.br.job = some j)
    (hfit : j.out.length ≤ j.need) (hroom : j.outBase + j.need ≤ spaceSize) :
    ∃ t, execBrChunkMask m s = .next t ∧ s.BrEnded t j m := by
  obtain ⟨u, hu⟩ := exists_storeOut s hfit hroom
  have hx := (execBrChunkMask_eq_next (m := m)).mpr ⟨j, u, hj, hu, rfl⟩
  have hstream := readOutBytes_eq fun i hi => readOut_storeOut_scrambleOut_inside (n := j.need - j.out.length) hu hi
  have hframe := brFrame_execBrChunkMask hj hfit hx
  obtain ⟨-, rfl⟩ := storeOut_eq_next.mp hu
  exact ⟨_, hx, { bank := rfl, stream := hstream, frame := hframe, params := rfl, turn := rfl }⟩

theorem execNbHeader_ends {s : State} {j : NbJob} (mark : Mark) (n : BitVec 14) (hj : s.nb.job = some j)
    (hfit : 2 + j.body.length ≤ j.need) (hroom : j.outBase + j.need ≤ spaceSize) :
    ∃ t, execNbHeader mark n s = .next t ∧ s.NbEnded t j mark n := by
  have hlen : (headerBytes mark n ++ j.body).length = 2 + j.body.length := by
    rw [List.length_append, headerBytes_length]
  obtain ⟨u, hu⟩ := exists_storeOut s (hlen ▸ hfit) hroom
  have hx := (execNbHeader_eq_next (mark := mark) (n := n)).mpr ⟨j, u, hj, hu, rfl⟩
  have hstream (i : Nat) (hi : i < 2 + j.body.length) :=
    readOut_storeOut_scrambleOut_inside (n := j.need - (2 + j.body.length)) hu (hlen.symm ▸ hi)
  rw [hlen] at hstream
  have hframe := nbFrame_execNbHeader hj hfit hx
  obtain ⟨-, rfl⟩ := storeOut_eq_next.mp hu
  exact ⟨_, hx, { bank := rfl, stream := hstream, frame := hframe, params := rfl, turn := rfl }⟩

theorem window_outside {base need a : Nat} {w : Window} (hw : w = { lo := base, hi := base + need })
    (h : a < base ∨ base + need ≤ a) : w.holds a = false := by
  rw [Window.holds_eq_false, hw]
  exact h

/-- Settles O29: a stream that fits its window is stored, and the end keeps the frame of the unit. -/
theorem brChunkMaskEnds : Obligations.BrChunkMaskEnds := by
  unfold Obligations.BrChunkMaskEnds
  intro s m j hj hfit hroom
  obtain ⟨t, hx, hend⟩ := execBrChunkMask_ends m hj hfit hroom
  obtain ⟨hinputs, hreplies, htotal, hkept⟩ := hend.frame.host
  exact ⟨t, hx, hend.bank, hend.stream, fun a ha => hend.frame.readOut a (window_outside rfl ha), hend.frame.readIn,
    hend.frame.nb, hend.frame.fx, hend.params, hinputs, hreplies, htotal, hkept, hend.turn⟩

/-- The first header byte: `MARK` above the high bits of `BODYLEN` (R106, R185). -/
theorem headerBytes_head (mark : Mark) (n : BitVec 14) :
    (headerBytes mark n).getD 0 0x00#8 = encodeMark mark ++ n.extractLsb' 8 6 := by
  generalize hx : n.extractLsb' 8 6 = x
  cases mark <;> simp only [headerBytes, encodeMark, List.getD_cons_zero, hx] <;> clear hx <;> revert x <;> decide

/-- Settles O30: as O29, the header's two bytes and the body read off the stored stream. -/
theorem nbHeaderEnds : Obligations.NbHeaderEnds := by
  unfold Obligations.NbHeaderEnds
  intro s mark n j hj hfit hroom
  obtain ⟨t, hx, hend⟩ := execNbHeader_ends mark n hj hfit hroom
  obtain ⟨hinputs, hreplies, htotal, hkept⟩ := hend.frame.host
  refine ⟨t, hx, ?_, ?_, ?_, ?_, fun a ha => hend.frame.readOut a (window_outside rfl ha), hend.frame.readIn,
    hend.frame.br, hend.frame.fx, hend.params, hinputs, hreplies, htotal, hkept, hend.turn⟩
  · rw [hend.bank, NbBank.finish]
    cases j.slot <;> rfl
  · exact (hend.stream 0 (by omega)).trans (headerBytes_head mark n)
  · exact hend.stream 1 (by omega)
  · refine readOutBytes_eq fun i hi => ?_
    rw [Nat.add_assoc, hend.stream (2 + i) (by omega), List.getD_append_right _ _ _ _ (by simp), headerBytes_length,
      Nat.add_sub_cancel_left]

end Sys2Proof.Machine

/-! Whole commands, from the write of `CMD` to the end: O47, O48, O49. -/

namespace Sys2Proof.Machine

/-! ## Runs -/

/-- Some number of steps leads from `s` to `t`. -/
def Reaches (s t : State) : Prop := ∃ k, Host.Core.run Sys2Proof.core k s = .next t

theorem Reaches.refl (s : State) : Reaches s s := ⟨0, rfl⟩

theorem run_succ {s t : State} (h : step s = .next t) (k : Nat) :
    Host.Core.run Sys2Proof.core (k + 1) s = Host.Core.run Sys2Proof.core k t := by
  have hcore : Sys2Proof.core.step s = .next t := h
  simp only [Host.Core.run, hcore]

theorem Reaches.step {s t u : State} (h : step s = .next t) (htu : Reaches t u) : Reaches s u := by
  obtain ⟨k, hk⟩ := htu
  exact ⟨k + 1, (run_succ h k).trans hk⟩

theorem Reaches.trans {s t u : State} (hst : Reaches s t) (htu : Reaches t u) : Reaches s u := by
  obtain ⟨k, hk⟩ := hst
  induction k generalizing s with
  | zero =>
    cases hk
    exact htu
  | succ k ih =>
    simp only [Host.Core.run] at hk
    split at hk
    · rename_i v hs
      exact .step hs (ih hk)
    · cases hk
    · cases hk

/-! ## The host's write of `CMD` -/

/-- With nothing running no window is in the way. -/
theorem State.Quiet.freeForBr {s : State} (h : s.Quiet) (j : BrJob) : s.FreeForBr j := by
  obtain ⟨hbr, hnb, hfx⟩ := h
  simp [State.FreeForBr, State.outWindows, State.fxWindows, hbr, hnb, hfx]

theorem State.Quiet.freeForNb {s : State} (h : s.Quiet) (j : NbJob) : s.FreeForNb j := by
  obtain ⟨hbr, hnb, hfx⟩ := h
  simp [State.FreeForNb, State.outWindows, State.fxWindows, hbr, hnb, hfx]

/-- The step in which the host has taken its last operation off the list. -/
abbrev State.lastTaken (s : State) : State := { s.passTurn with inputs := [] }

/-- The last thing the host does is a write of `BR_CMD` (R225). -/
theorem step_writeBrCmd {s : State} {v : Word} (hq : s.Quiet) (hi : s.inputs = [.op (.write 0x000#32 v)]) :
    step s = writeBrCmd v s.lastTaken := by
  rw [step_host_op (mover_quiet_host hq hi) hi (i := decodeBrCmd v) rfl, exec_decodeBrCmd]

/-- The last thing the host does is a write of `NB_CMD` (R225). -/
theorem step_writeNbCmd {s : State} {v : Word} (hq : s.Quiet) (hi : s.inputs = [.op (.write 0x100#32 v)]) :
    step s = writeNbCmd v s.lastTaken := by
  rw [step_host_op (mover_quiet_host hq hi) hi (i := decodeNbCmd v) rfl, exec_decodeNbCmd]

/-! ## The BitRat engine alone -/

/-- One item more: its bytes are staged, and nothing but the running command, the turn and the count of free values
has changed. -/
theorem step_br_emits {s : State} {j : BrJob} {x : BrItem} {rest : List BrItem} (hm : mover s = some .br)
    (hj : s.br.job = some j) (hf : j.tierFault = false) (htodo : j.todo = x :: rest) :
    ∃ u, step s = .next u ∧ u.br.job = some { j with todo := rest, out := j.out ++ brItemBytes x } ∧
      u = { s with br := { s.br with job := u.br.job }, turn := u.turn, freeCount := u.freeCount } := by
  have hstep := step_br_item hm hj hf htodo
  rw [exec_brItem, runBrItem_eq_emit] at hstep
  exact ⟨_, hstep.trans (emitBr_eq_next.mpr ⟨{ j with todo := rest }, rfl, rfl⟩), rfl, rfl⟩

/-- Alone, the BitRat engine comes to have written all the items of its command. -/
theorem reaches_brItems {s : State} {j : BrJob} (hi : s.inputs = []) (hnb : s.nb.job = none)
    (hfx : s.fx.job = none) (hj : s.br.job = some j) (hf : j.tierFault = false) :
    ∃ u, Reaches s u ∧ u.br.job = some { j with todo := [], out := j.out ++ brBytes j.todo } ∧
      u = { s with br := { s.br with job := u.br.job }, turn := u.turn, freeCount := u.freeCount } := by
  obtain ⟨todo, htodo⟩ : ∃ todo, j.todo = todo := ⟨_, rfl⟩
  induction todo generalizing s j with
  | nil =>
    refine ⟨s, .refl s, ?_, rfl⟩
    rw [hj, htodo, brBytes_nil, List.append_nil, ← htodo]
  | cons x rest ih =>
    have hm : mover s = some .br := mover_br_alone hi (by rw [hj]; rfl) hnb hfx
    obtain ⟨v, hstep, hvj, hv⟩ := step_br_emits hm hj hf htodo
    obtain ⟨u, hreach, huj, hu⟩ :=
      ih (by rw [hv]; exact hi) (by rw [hv]; exact hnb) (by rw [hv]; exact hfx) hvj hf rfl
    refine ⟨u, .step hstep hreach, ?_, ?_⟩
    · rw [huj, htodo, brBytes_cons, List.append_assoc]
    · rw [hu, hv]

/-- The results of a BitRat command over the operands of `s`, read off its end in `t` (R26, R27, R68). -/
theorem brEncoded_of_finish {s t : State} {b : BrBank} {j : BrJob} {n : Nat} {w : Walk} {width : BitVec 4}
    (hjob : j = { s.brJobOf n w width with todo := [], out := brBytes w.items }) (hbank : t.br = b.finish j w.mask)
    (hstream : t.readOutBytes j.outBase j.out.length = j.out)
    (hframe : State.BrFrame j.outWindow { s with inputs := [] } t) (hparams : t.params = s.params)
    (hsize : (brBytes w.items).length ≤ brNeed s.params n) (hin : s.br.inBase.toNat + n ≤ spaceSize)
    (hout : s.br.outBase.toNat + brNeed s.params n ≤ spaceSize) (hm : IsSeed w.m) :
    BrEncoded s t n w width.toNat := by
  subst hjob
  have hwritten : t.br.written.toNat = (brBytes w.items).length := by
    rw [hbank]
    exact toNat_toWord (n := (brBytes w.items).length) (by omega)
  obtain ⟨-, hreplies, htotal, hkept⟩ := hframe.host
  exact
    { status := by rw [hbank]; rfl
      idle := by rw [hbank]; rfl
      mask := by rw [hbank]; rfl
      maskw := by rw [hbank]; rfl
      written := hwritten
      consumed := by rw [hbank]; exact toNat_toWord (n := n) (by omega)
      last := by rw [hbank]; rfl
      icur := by
        rw [hbank]
        exact (toWord_add _ _).trans (congrArg (· + _) (toWord_toNat _))
      ocur := by
        rw [hbank]
        exact (toWord_add _ _).trans (congrArg (· + _) (toWord_toNat _))
      matchByte := by rw [hbank]; exact hm.ext_lsb.symm
      stream := by rw [hwritten]; exact hstream
      outside := fun a ha => hframe.readOut a (window_outside rfl ha)
      input := hframe.readIn
      operands := hframe.operands
      nb := hframe.nb
      fx := hframe.fx
      params := hparams
      replies := hreplies
      hostTotal := htotal
      hostKept := hkept }

/-- A BitRat command that the host's last operation starts, with nothing else running, comes to its end with every
result as the rule gives it (R226). -/
theorem br_command_runs {s : State} {n : Nat} {w : Walk} {width : BitVec 4} (hq : s.Quiet)
    (hstep : step s = .next (s.lastTaken.brStarted (s.brJobOf n w width)))
    (hsize : (brBytes w.items).length ≤ brNeed s.params n) (hin : s.br.inBase.toNat + n ≤ spaceSize)
    (hout : s.br.outBase.toNat + brNeed s.params n ≤ spaceSize) (hm : IsSeed w.m) :
    ∃ t, Reaches s t ∧ t.inputs = [] ∧ BrEncoded s t n w width.toNat := by
  obtain ⟨-, hnb, hfx⟩ := hq
  obtain ⟨u, hreach, huj, hu⟩ :=
    reaches_brItems (s := s.lastTaken.brStarted (s.brJobOf n w width)) rfl hnb hfx rfl rfl
  have hmover : mover u = some .br := by
    refine mover_br_alone ?_ (by rw [huj]; rfl) ?_ ?_ <;> rw [hu]
    · rfl
    · exact hnb
    · exact hfx
  obtain ⟨t, ht, hend⟩ := execBrChunkMask_ends (s := u.passTurn) w.mask huj hsize hout
  have hlast : step u = .next t := (step_br_end hmover huj rfl rfl).trans ht
  have hframe : State.BrFrame _ { s with inputs := [] } t :=
    State.BrFrame.trans
      (.of_bank _ (by rw [hu]; exact ⟨rfl, rfl, rfl, rfl, rfl, rfl, rfl⟩) (by rw [hu]; rfl)) hend.frame
  refine ⟨t, .step hstep (hreach.trans (.step hlast (.refl t))), hframe.host.1, ?_⟩
  exact brEncoded_of_finish rfl hend.bank hend.stream hframe (hend.params.trans (by rw [hu]; rfl)) hsize hin hout hm


/-! ## `BR.FULL` and `BR.PART` -/

/-- A slack of 3 or more leaves room for the largest stream (R66, R143). -/
theorem brNeed_of_slack {p : Params} (hslack : 3 ≤ p.brOutSlack) (n : Nat) : n + n / 8 + 3 ≤ brNeed p n :=
  Nat.add_le_add_left hslack _

theorem isSeed_fullWalk (s : State) : IsSeed s.fullWalk.m := by
  rw [encodeFull_m _ _ (by rw [readInBytes_length])]
  exact isSeed_matchAfter (isSeed_ext _) _

theorem isSeed_partWalk (s : State) (n : Nat) : IsSeed (s.partWalk n).m := by
  rw [encodePart_m]
  exact isSeed_matchAfter (isSeed_ext _) _

/-- Settles O47: the tree of a full chunk fits the window, so the command runs to its end. -/
theorem brFullRun : Obligations.BrFullRun := by
  unfold Obligations.BrFullRun
  intro s v hq hst hi hv he hslack
  have hstep : step s = .next (s.lastTaken.brStarted (s.brJobOf 4096 s.fullWalk 8#4)) := by
    rw [step_writeBrCmd hq hi, writeBrCmd, cmdOp, if_pos hv]
    exact startBrFull_starts (s := s.lastTaken) hst he (State.Quiet.freeForBr (s := s.lastTaken) hq _)
  have hok := brFullJob_ok he
  rw [brFullJob_eq he] at hok
  have hsize : (brBytes s.fullWalk.items).length ≤ brNeed s.params 4096 :=
    (encodeFull_size _ _).trans ((by decide : 4296 ≤ 4096 + 4096 / 8 + 3).trans (brNeed_of_slack hslack _))
  obtain ⟨t, ⟨k, hk⟩, hti, henc⟩ := br_command_runs hq hstep hsize hok.1 hok.2 (isSeed_fullWalk s)
  exact ⟨k, t, hk, hti, henc⟩

/-- Settles O48: as O47, with the length taken from its register. -/
theorem brPartRun : Obligations.BrPartRun := by
  unfold Obligations.BrPartRun
  intro s v hq hst hi hv he hslack
  obtain ⟨-, ⟨hlen, hlt⟩, -⟩ := brPartError_eq_none.mp he
  have hn : s.br.inLen.toInt = s.br.inLen.toNat := toInt_eq_toNat_of_nonneg hlen
  have hlt : s.br.inLen.toNat < 4096 := by
    simp only [brArgs, hn, brFullLen] at hlt
    exact_mod_cast hlt
  generalize s.br.inLen.toNat = n at hn hlt ⊢
  have hstep : step s =
      .next (s.lastTaken.brStarted (s.brJobOf n (s.partWalk n) (BitVec.ofNat 4 ((n + 511) / 512)))) := by
    rw [step_writeBrCmd hq hi, writeBrCmd, cmdOp, hv, if_neg (by decide), if_pos rfl]
    exact startBrPart_starts (s := s.lastTaken) hst he hn (State.Quiet.freeForBr (s := s.lastTaken) hq _)
  have hok := brPartJob_ok he
  rw [brPartJob_eq he hn] at hok
  have hsize : (brBytes (s.partWalk n).items).length ≤ brNeed s.params n := by
    have hworst := encodePart_size s.br.prev (s.readInBytes s.br.inBase.toNat n)
    rw [readInBytes_length] at hworst
    exact hworst.trans ((brWorst_le n).trans (brNeed_of_slack hslack n))
  obtain ⟨t, ⟨k, hk⟩, hti, henc⟩ := br_command_runs hq hstep hsize hok.1 hok.2 (isSeed_partWalk s n)
  have hwidth : (BitVec.ofNat 4 ((n + 511) / 512)).toNat = (n + 511) / 512 := by
    rw [BitVec.toNat_ofNat, Nat.mod_eq_of_lt (by omega)]
  rw [hwidth] at henc
  exact ⟨k, t, hk, hti, henc⟩

/-! ## `NB.ENC` -/

/-- One segment more: the writer's new state is staged, and nothing but the running command, the turn and the count of
free values has changed. -/
theorem step_nb_emits {s : State} {j : NbJob} {x : NbItem} {rest : List NbItem} {w : Writer}
    (hm : mover s = some .nb) (hj : s.nb.job = some j) (htodo : j.todo = x :: rest)
    (hw : emitItem s.params.nbRunBias x j.writer = some w) :
    ∃ u, step s = .next u ∧ u.nb.job = some { j with todo := rest, body := w.body, slot := w.slot } ∧
      u = { s with nb := { s.nb with job := u.nb.job }, turn := u.turn, freeCount := u.freeCount } := by
  have hstep := step_nb_item hm hj htodo
  rw [exec_nbItem, runNbItem_eq_emit] at hstep
  exact ⟨_, hstep.trans (emitNb_eq_next.mpr ⟨{ j with todo := rest }, rfl, .inr ⟨w, hw, rfl⟩⟩), rfl, rfl⟩

/-- Alone, the Nibbler engine comes to have written all the segments of its command. -/
theorem reaches_nbItems {s : State} {j : NbJob} {w : Writer} (hi : s.inputs = []) (hbr : s.br.job = none)
    (hfx : s.fx.job = none) (hj : s.nb.job = some j)
    (hw : emitItems s.params.nbRunBias j.todo j.writer = some w) :
    ∃ u, Reaches s u ∧ u.nb.job = some { j with todo := [], body := w.body, slot := w.slot } ∧
      u = { s with nb := { s.nb with job := u.nb.job }, turn := u.turn, freeCount := u.freeCount } := by
  obtain ⟨todo, htodo⟩ : ∃ todo, j.todo = todo := ⟨_, rfl⟩
  rw [htodo] at hw
  induction todo generalizing s j with
  | nil =>
    cases hw
    refine ⟨s, .refl s, ?_, rfl⟩
    rw [hj, ← htodo]
    rfl
  | cons x rest ih =>
    rw [emitItems] at hw
    split at hw
    · cases hw
    · rename_i w1 hw1
      have hm : mover s = some .nb := mover_nb_alone hi hbr (by rw [hj]; rfl) hfx
      obtain ⟨v, hstep, hvj, hv⟩ := step_nb_emits hm hj htodo hw1
      obtain ⟨u, hreach, huj, hu⟩ := ih (by rw [hv]; exact hi) (by rw [hv]; exact hbr) (by rw [hv]; exact hfx) hvj
        (by rw [hv]; exact hw) rfl
      exact ⟨u, .step hstep hreach, huj, by rw [hu, hv]⟩

/-- The results of a Nibbler command over the operands of `s`, read off its end in `t` (R31, R32, R68). -/
theorem nbEncoded_of_finish {s t : State} {b : NbBank} {j : NbJob} {d : List Byte} {w : Writer} {st : List Byte}
    (hjob : j = { s.nbJobOf d with todo := [], body := w.body, slot := w.slot }) (hbank : t.nb = b.finish j)
    (hlen : st.length = 2 + w.body.length)
    (hstream : ∀ i, i < 2 + w.body.length → t.readOut (s.nb.outBase.toNat + i) = st.getD i 0x00#8)
    (hframe : State.NbFrame j.outWindow { s with inputs := [] } t) (hparams : t.params = s.params)
    (hslot : w.SlotOk) (hsize : w.body.length ≤ d.length + 2)
    (hout : s.nb.outBase.toNat + (d.length + 4) ≤ spaceSize) : NbEncoded s t d.length st w.slot := by
  subst hjob
  have hwritten : t.nb.written.toNat = st.length := by
    rw [hbank, hlen]
    exact toNat_toWord (n := 2 + w.body.length) (by omega)
  obtain ⟨-, hreplies, htotal, hkept⟩ := hframe.host
  exact
    { status := by rw [hbank]; rfl
      idle := by rw [hbank]; rfl
      written := hwritten
      consumed := by rw [hbank]; exact toNat_toWord (n := d.length) (by omega)
      icur := by
        rw [hbank]
        exact (toWord_add _ _).trans (congrArg (· + _) (toWord_toNat _))
      ocur := by
        rw [hbank, NbBank.finish_ocur, Nat.add_assoc]
        exact (toWord_add _ _).trans (congrArg (· + _) (toWord_toNat _))
      slotFree := fun k hk => by
        have hlt := (hslot k hk).1
        rw [hbank, NbBank.finish_slot, hk]
        exact toNat_toWord (n := s.nb.outBase.toNat + 2 + k) (by omega)
      slotNone := fun hnone => by rw [hbank, NbBank.finish_slot, hnone]; rfl
      stream := by
        rw [hwritten]
        exact readOutBytes_eq fun i hi => hstream i (hlen ▸ hi)
      outside := fun a ha => hframe.readOut a (window_outside rfl ha)
      input := hframe.readIn
      operands := hframe.operands
      br := hframe.br
      fx := hframe.fx
      params := hparams
      replies := hreplies
      hostTotal := htotal
      hostKept := hkept }

/-- A Nibbler command that the host's last operation starts, with nothing else running, comes to its end with every
result as the rule gives it (R226). -/
theorem nb_command_runs {s : State} {d : List Byte} {w : Writer} (hq : s.Quiet)
    (hstep : step s = .next (s.lastTaken.nbStarted (s.nbJobOf d)))
    (hw : emitItems s.params.nbRunBias (segments d) Writer.start = some w) (hslot : w.SlotOk)
    (hsize : w.body.length ≤ d.length + 2)
    (hout : s.nb.outBase.toNat + (d.length + 4) ≤ spaceSize) :
    ∃ t, Reaches s t ∧ t.inputs = [] ∧
      NbEncoded s t d.length
        (headerBytes (markOf s.params.nbEmptyMarker d) (BitVec.ofNat 14 w.body.length) ++ w.body) w.slot := by
  obtain ⟨hbr, -, hfx⟩ := hq
  obtain ⟨u, hreach, huj, hu⟩ := reaches_nbItems (s := s.lastTaken.nbStarted (s.nbJobOf d)) rfl hbr hfx rfl hw
  have hmover : mover u = some .nb := by
    refine mover_nb_alone ?_ ?_ (by rw [huj]; rfl) ?_ <;> rw [hu]
    · rfl
    · exact hbr
    · exact hfx
  have hfit : 2 + w.body.length ≤ d.length + 4 := by omega
  obtain ⟨t, ht, hend⟩ := execNbHeader_ends (s := u.passTurn) (markOf s.params.nbEmptyMarker d)
    (BitVec.ofNat 14 w.body.length) huj hfit hout
  have hlast : step u = .next t := (step_nb_end hmover huj rfl).trans ht
  have hframe : State.NbFrame _ { s with inputs := [] } t :=
    State.NbFrame.trans (.of_bank _ (by rw [hu]; exact ⟨rfl, rfl, rfl, rfl, rfl, rfl⟩) (by rw [hu]; rfl)) hend.frame
  refine ⟨t, .step hstep (hreach.trans (.step hlast (.refl t))), hframe.host.1, ?_⟩
  exact nbEncoded_of_finish rfl hend.bank (by rw [List.length_append, headerBytes_length]) hend.stream hframe
    (hend.params.trans (by rw [hu]; rfl)) hslot hsize hout

/-- Settles O49: the segments of the chunk have no fatal error and fit the window, so the command runs to its end. -/
theorem nbEncRun : Obligations.NbEncRun := by
  unfold Obligations.NbEncRun
  intro s v hq hst hi hv he hbias
  obtain ⟨-, ⟨hlen, hle⟩, -⟩ := nbEncError_eq_none.mp he
  have hn : s.nb.inLen.toInt = s.nb.inLen.toNat := toInt_eq_toNat_of_nonneg hlen
  have hle : s.nb.inLen.toNat ≤ nbMax := by
    simp only [nbArgs, hn] at hle
    exact_mod_cast hle
  have hstep : step s =
      .next (s.lastTaken.nbStarted (s.nbJobOf (s.readInBytes s.nb.inBase.toNat s.nb.inLen.toNat))) := by
    rw [step_writeNbCmd hq hi, writeNbCmd, cmdOp, if_pos hv]
    exact startNbEnc_starts (s := s.lastTaken) hst he hn (State.Quiet.freeForNb (s := s.lastTaken) hq _)
  have hok := nbEncJob_ok he
  rw [nbEncJob_eq he hn] at hok
  have hdlen := readInBytes_length s s.nb.inBase.toNat s.nb.inLen.toNat
  generalize s.readInBytes s.nb.inBase.toNat s.nb.inLen.toNat = d at hstep hok hdlen ⊢
  obtain ⟨w, hw, hslot, hsize, -⟩ := emit_segments (d := d) hbias (hdlen ▸ hle)
  obtain ⟨t, ⟨k, hk⟩, hti, henc⟩ := nb_command_runs hq hstep hw hslot hsize hok.2.1
  rw [hdlen] at henc
  exact ⟨k, t, _, _, hk, hti, nbEncode_of_emit hw, henc⟩

end Sys2Proof.Machine

/-! Uses the rules give no meaning, and the host's accesses to the buffers: O13, O28, O31 and O34. -/

namespace Sys2Proof.Machine

/-! ## Commands whose windows conflict (R73, R75) -/

theorem launchBr_conflict {j : BrJob} {s : State} (h : ¬ s.FreeForBr j) :
    launchBr j s = .refused .windowConflict :=
  if_pos (by simpa only [State.FreeForBr, ← Bool.or_eq_false_iff, Bool.not_eq_false] using h)

theorem launchNb_conflict {j : NbJob} {s : State} (h : ¬ s.FreeForNb j) :
    launchNb j s = .refused .windowConflict :=
  if_pos (by simpa only [State.FreeForNb, ← Bool.or_eq_false_iff, Bool.not_eq_false] using h)

theorem launchFx_conflict {j : FxJob} {s : State} (h : ¬ s.FreeForFx j) :
    launchFx j s = .refused .windowConflict :=
  if_pos (by simpa only [State.FreeForFx, Bool.not_eq_false] using h)

theorem startBrFull_launches {s : State} (hst : s.br.status.st ≠ .busy)
    (he : brFullError s.params (brArgs s.br) = none) : startBrFull s = launchBr (brFullJob s) s := by
  rw [startBrFull, if_neg hst, he]

theorem startBrPart_launches {s : State} (hst : s.br.status.st ≠ .busy)
    (he : brPartError s.params (brArgs s.br) = none) : startBrPart s = launchBr (brPartJob s) s := by
  rw [startBrPart, if_neg hst, he]

theorem startNbEnc_launches {s : State} (hst : s.nb.status.st ≠ .busy) (he : nbEncError (nbArgs s.nb) = none) :
    startNbEnc s = launchNb (nbEncJob s) s := by
  rw [startNbEnc, if_neg hst, he]

theorem startFixlast_launches {s : State} (hst : s.fx.status.st ≠ .busy) (he : fxError (fxArgs s.fx) = none) :
    startFixlast s = launchFx (fxJob s) s := by
  rw [startFixlast, if_neg hst, he]

/-! ## Offsets that are none (R64, R223) -/

theorem offsetError_isSome {off : Word} (h : off.toNat % 4 ≠ 0 ∨ 0x300 ≤ off.toNat) :
    (offsetError off).isSome = true := by
  have haligned : off.extractLsb' 0 2 = 0#2 → off.toNat % 4 = 0 := fun h0 => by
    simpa using congrArg BitVec.toNat h0
  unfold offsetError
  split_ifs with h1 h2
  · rfl
  · have := haligned (not_not.mp h1)
    omega
  · rfl

theorem execRegwr_badOffset {off v : Word} {s : State} (h : (offsetError off).isSome = true) :
    execRegwr off v s = .refused (.badOffset off) :=
  if_pos h

theorem execRegrd_badOffset {off : Word} {s : State} (h : (offsetError off).isSome = true) :
    execRegrd off s = .refused (.badOffset off) :=
  if_pos h

/-- Settles O13: each command comes to its launch, which is refused; an offset that is none is refused first. -/
theorem undefinedUseRefused : Obligations.UndefinedUseRefused := by
  unfold Obligations.UndefinedUseRefused
  intro s ign off v
  refine ⟨fun hst he hfree => ?_, fun hst he hfree => ?_, fun hst he hfree => ?_, fun hst he hfree => ?_,
    fun hoff => ?_⟩
  · exact (startBrFull_launches hst he).trans (launchBr_conflict hfree)
  · exact (startBrPart_launches hst he).trans (launchBr_conflict hfree)
  · exact (startNbEnc_launches hst he).trans (launchNb_conflict hfree)
  · exact (startFixlast_launches hst he).trans (launchFx_conflict hfree)
  · have herr := offsetError_isSome hoff
    exact ⟨execRegwr_badOffset herr, execRegrd_badOffset herr⟩

/-! ## Items with no command running (R61) -/

theorem emitBr_idle {s : State} (h : s.br.job = none) (bytes : List Byte) :
    emitBr bytes s = .refused (.noRunningCommand .br) := by
  rw [emitBr, h]

theorem emitNb_idle {s : State} (h : s.nb.job = none) (f : Writer → Option Writer) :
    emitNb f s = .refused (.noRunningCommand .nb) := by
  rw [emitNb, h]

theorem execBrChunkMask_idle {s : State} (h : s.br.job = none) (m : Byte) :
    execBrChunkMask m s = .refused (.noRunningCommand .br) := by
  rw [execBrChunkMask, h]

theorem execNbHeader_idle {s : State} (h : s.nb.job = none) (mark : Mark) (n : BitVec 14) :
    execNbHeader mark n s = .refused (.noRunningCommand .nb) := by
  rw [execNbHeader, h]

/-- Settles O28: an item's instruction appends to the running command, and there is none. -/
theorem itemsNeedARunningCommand : Obligations.ItemsNeedARunningCommand := by
  unfold Obligations.ItemsNeedARunningCommand
  refine fun s => ⟨fun hbr => ⟨fun x => ?_, execBrChunkMask_idle hbr⟩,
    fun hnb => ⟨fun x => ?_, execNbHeader_idle hnb⟩⟩
  · rw [exec_brItem, runBrItem_eq_emit, emitBr_idle hbr]
  · rw [exec_nbItem, runNbItem_eq_emit, emitNb_idle hnb]

/-! ## The two fatal errors (R258, R259) -/

theorem writeLen_eq_none {v : Int} (h : v < 0 ∨ nbLenMax < v) (w : Writer) : writeLen v w = none :=
  if_pos h

theorem emitLitRun_eq_none {bytes : List Byte} (h : bytes = [] ∨ 8192 < bytes.length) (w : Writer) :
    emitLitRun bytes w = none := by
  have hrange : (bytes.length : Int) - 1 < 0 ∨ nbLenMax < (bytes.length : Int) - 1 := by
    obtain rfl | h := h
    · exact .inl (by decide)
    · exact .inr (by simp only [nbLenMax]; omega)
  rw [emitLitRun, writeLen_eq_none hrange]

/-- A value the writer cannot hold ends the running command with `F_LEN_RANGE` (R177). -/
theorem emitNb_fatal {f : Writer → Option Writer} {s : State} {j : NbJob} (hj : s.nb.job = some j)
    (hf : f j.writer = none) : emitNb f s = .next (s.failFatalNb j .fLenRange) :=
  emitNb_eq_next.mpr ⟨j, hj, .inl ⟨hf, rfl⟩⟩

theorem exec_nb_fatal {s : State} {j : NbJob} {i : Instr} (hj : s.nb.job = some j)
    (hi : (∃ n, i = .nbRun n ∧ (n < s.params.nbRunBias ∨ 8191 + s.params.nbRunBias < n)) ∨
      ∃ bytes, i = .nbLitRun bytes ∧ (bytes = [] ∨ 8192 < bytes.length)) :
    exec i s = .next (s.failFatalNb j .fLenRange) := by
  obtain ⟨n, rfl, hn⟩ | ⟨bytes, rfl, hbytes⟩ := hi
  · exact emitNb_fatal hj (writeLen_eq_none (by simp only [nbLenMax]; omega) _)
  · exact emitNb_fatal hj (emitLitRun_eq_none hbytes _)

theorem step_br_fatal {s : State} {j : BrJob} (hm : mover s = some .br) (hj : s.br.job = some j)
    (hf : j.tierFault = true) : step s = .next (s.passTurn.failFatalBr j .fTier) := by
  refine step_of_other ((nextMove_br hm hj).trans ?_)
  rw [brMove, if_pos hf]

/-- Settles O31: each cause leads to its fatal error, which keeps the frame of the unit. -/
theorem fatalErrorEffect : Obligations.FatalErrorEffect := by
  unfold Obligations.FatalErrorEffect
  refine ⟨fun s j i hj hi => ?_, fun s j hm hj hf => ?_⟩
  · have hframe := nbFrame_failFatalNb s j .fLenRange
    exact ⟨_, exec_nb_fatal hj hi, rfl, rfl, hframe.operands, hframe.br, hframe.fx, hframe.readIn,
      fun a ha => hframe.readOut a (window_outside rfl ha)⟩
  · have hframe := (brFrame_passTurn _ s).trans (brFrame_failFatalBr s.passTurn j .fTier)
    exact ⟨_, step_br_fatal hm hj hf, rfl, rfl, hframe.operands, hframe.nb, hframe.fx, hframe.readIn,
      fun a ha => hframe.readOut a (window_outside rfl ha)⟩

/-! ## The host's accesses to `IN` and `OUT` (R61, R69, R73) -/

/-- The state in which the host has taken the head of its list, `rest` being left. -/
abbrev State.hostTaken (s : State) (rest : List Input) : State := { s.passTurn with inputs := rest }

/-- A byte stored in `OUT` is the only byte that changes. -/
theorem storeOut_byte {s t : State} {a : Nat} {b : Byte} (h : s.storeOut a [b] = .next t) :
    t.readOut a = b ∧ (∀ c, c ≠ a → t.readOut c = s.readOut c) ∧ ∀ c, t.readIn c = s.readIn c := by
  refine ⟨?_, fun c hc => ?_, fun c => ?_⟩
  · rw [readOut_storeOut h, if_pos (by simp)]
    simp
  · rw [readOut_storeOut h, if_neg (by rw [List.length_singleton]; omega)]
  · obtain ⟨-, rfl⟩ := storeOut_eq_next.mp h
    exact readIn_congr rfl c

/-- A byte stored in `IN` is the only byte that changes. -/
theorem storeIn_byte {s t : State} {a : Nat} {b : Byte} (h : s.storeIn a b = .next t) :
    t.readIn a = b ∧ (∀ c, c ≠ a → t.readIn c = s.readIn c) ∧ ∀ c, t.readOut c = s.readOut c := by
  refine ⟨?_, fun c hc => ?_, fun c => ?_⟩
  · rw [readIn_storeIn h, if_pos rfl]
  · rw [readIn_storeIn h, if_neg hc]
  · obtain ⟨-, rfl⟩ := storeIn_eq_next.mp h
    exact readOut_congr rfl rfl c

theorem step_host_writeOut {s : State} {a : Nat} {b : Byte} {rest : List Input} (hm : mover s = some .host)
    (hi : s.inputs = .writeOut a b :: rest) : step s = hostWriteOut a b (s.hostTaken rest) :=
  step_of_other (nextMove_host hm hi)

theorem step_host_writeIn {s : State} {a : Nat} {b : Byte} {rest : List Input} (hm : mover s = some .host)
    (hi : s.inputs = .writeIn a b :: rest) : step s = hostWriteIn a b (s.hostTaken rest) :=
  step_of_other (nextMove_host hm hi)

theorem step_host_readOut {s : State} {a : Nat} {rest : List Input} (hm : mover s = some .host)
    (hi : s.inputs = .readOut a :: rest) : step s = hostReadOut a (s.hostTaken rest) :=
  step_of_other (nextMove_host hm hi)

theorem step_host_readIn {s : State} {a : Nat} {rest : List Input} (hm : mover s = some .host)
    (hi : s.inputs = .readIn a :: rest) : step s = hostReadIn a (s.hostTaken rest) :=
  step_of_other (nextMove_host hm hi)

/-- Some window of a list holds an address, or none does. -/
theorem any_holds_eq_true {ws : List Window} {a : Nat} (h : ∃ w ∈ ws, w.holds a = true) :
    ws.any (fun w => w.holds a) = true :=
  List.any_eq_true.mpr h

theorem any_holds_eq_false {ws : List Window} {a : Nat} (h : ∀ w ∈ ws, w.holds a = false) :
    ws.any (fun w => w.holds a) = false :=
  List.any_eq_false.mpr fun w hw => Bool.eq_false_iff.mp (h w hw)

theorem hostWriteOut_conflict {s : State} {a : Nat} {b : Byte} (h : ∃ w ∈ s.outWindows, w.holds a = true) :
    hostWriteOut a b s = .refused .windowConflict :=
  if_pos (any_holds_eq_true h)

theorem hostWriteIn_conflict {s : State} {a : Nat} {b : Byte}
    (h : ∃ w ∈ s.inWindows ++ s.fxWindows, w.holds a = true) :
    hostWriteIn a b s = .refused .windowConflict := by
  rw [hostWriteIn, ← List.any_append, if_pos (any_holds_eq_true h)]

theorem hostWriteOut_free {s : State} {a : Nat} {b : Byte} (ha : a < spaceSize)
    (h : ∀ w ∈ s.outWindows, w.holds a = false) :
    ∃ t, s.storeOut a [b] = .next t ∧ hostWriteOut a b s = .next t := by
  obtain ⟨t, ht⟩ := exists_storeOut s (bytes := [b]) (Nat.le_refl 1) (Nat.succ_le_of_lt ha)
  refine ⟨t, ht, ?_⟩
  rw [hostWriteOut, any_holds_eq_false h, if_neg Bool.false_ne_true, ht]

theorem hostWriteIn_free {s : State} {a : Nat} {b : Byte} (ha : a < spaceSize)
    (h : ∀ w ∈ s.inWindows ++ s.fxWindows, w.holds a = false) :
    ∃ t, s.storeIn a b = .next t ∧ hostWriteIn a b s = .next t := by
  have hstore := storeIn_eq_next.mpr (⟨ha, rfl⟩ : a < spaceSize ∧ _ = { s with inMem := s.inMem.put a [b] })
  refine ⟨_, hstore, ?_⟩
  rw [hostWriteIn, ← List.any_append, any_holds_eq_false h, if_neg Bool.false_ne_true, hstore]

/-- The answer to a read outside the windows is the byte (R61). -/
theorem hostReadOut_free {s : State} {a : Nat} (ha : a < spaceSize) (h : ∀ w ∈ s.outWindows, w.holds a = false) :
    hostReadOut a s = .next (s.reply ((s.readOut a).setWidth 32)) := by
  rw [hostReadOut, if_pos ha, any_holds_eq_false h, if_neg Bool.false_ne_true]

theorem hostReadIn_free {s : State} {a : Nat} (ha : a < spaceSize) (h : ∀ w ∈ s.fxWindows, w.holds a = false) :
    hostReadIn a s = .next (s.reply ((s.readIn a).setWidth 32)) := by
  rw [hostReadIn, if_pos ha, any_holds_eq_false h, if_neg Bool.false_ne_true]

/-- The state after a read whose answer is a free byte (R69, U2). -/
abbrev State.freeReply (s : State) : State :=
  { s.reply ((Config.freeByte s.freeCount).setWidth 32) with freeCount := s.freeCount + 1 }

theorem hostReadOut_window {s : State} {a : Nat} (ha : a < spaceSize) (h : ∃ w ∈ s.outWindows, w.holds a = true) :
    hostReadOut a s = .next s.freeReply := by
  rw [hostReadOut, if_pos ha, if_pos (any_holds_eq_true h)]

theorem hostReadIn_window {s : State} {a : Nat} (ha : a < spaceSize) (h : ∃ w ∈ s.fxWindows, w.holds a = true) :
    hostReadIn a s = .next s.freeReply := by
  rw [hostReadIn, if_pos ha, if_pos (any_holds_eq_true h)]

/-- A read takes the host's operation off its list and adds the answer to the replies, and no more. -/
theorem hostRead_frame (s : State) (rest : List Input) (v : Word) (n : Nat) :
    { (s.hostTaken rest).reply v with freeCount := n }.inputs = rest ∧
      { (s.hostTaken rest).reply v with freeCount := n }.replies = s.replies ++ [v] ∧
      s.SameUnits { (s.hostTaken rest).reply v with freeCount := n } ∧
      s.SameMemory { (s.hostTaken rest).reply v with freeCount := n } :=
  ⟨rfl, rfl, ⟨rfl, rfl, rfl, rfl, rfl, rfl⟩, readIn_congr rfl, readOut_congr rfl rfl⟩

/-- Settles O34: writes and reads outside the windows, reads inside, writes inside. -/
theorem hostMemoryAccess : Obligations.HostMemoryAccess := by
  unfold Obligations.HostMemoryAccess
  intro s a b rest hm ha
  refine ⟨fun hi hw => ?_, fun hi hw => ?_, fun hi hw => ?_, fun hi hw => ?_, fun hi hw => ?_, fun hi hw => ?_,
    fun hi hw => ?_, fun hi hw => ?_⟩
  · obtain ⟨t, hstore, ht⟩ := hostWriteOut_free (s := s.hostTaken rest) (b := b) ha hw
    have hbytes := storeOut_byte hstore
    obtain ⟨-, rfl⟩ := storeOut_eq_next.mp hstore
    exact ⟨_, (step_host_writeOut hm hi).trans ht, rfl, rfl, ⟨rfl, rfl, rfl, rfl, rfl, rfl⟩, hbytes⟩
  · obtain ⟨t, hstore, ht⟩ := hostWriteIn_free (s := s.hostTaken rest) (b := b) ha hw
    have hbytes := storeIn_byte hstore
    obtain ⟨-, rfl⟩ := storeIn_eq_next.mp hstore
    exact ⟨_, (step_host_writeIn hm hi).trans ht, rfl, rfl, ⟨rfl, rfl, rfl, rfl, rfl, rfl⟩, hbytes⟩
  · exact ⟨_, (step_host_readOut hm hi).trans (hostReadOut_free ha hw), hostRead_frame s rest _ _⟩
  · exact ⟨_, (step_host_readIn hm hi).trans (hostReadIn_free ha hw), hostRead_frame s rest _ _⟩
  · exact ⟨_, _, (step_host_readOut hm hi).trans (hostReadOut_window ha hw), hostRead_frame s rest _ _⟩
  · exact ⟨_, _, (step_host_readIn hm hi).trans (hostReadIn_window ha hw), hostRead_frame s rest _ _⟩
  · exact (step_host_writeOut hm hi).trans (hostWriteOut_conflict hw)
  · exact (step_host_writeIn hm hi).trans (hostWriteIn_conflict hw)

end Sys2Proof.Machine

/-! What a running encoder has staged and has still to write fits its output window: kept by every elementary move, and
O55. -/

namespace Sys2Proof.Machine

/-! ## The room of a command -/

/-- The bytes staged and the bytes of the items still to be written fit the output window (R66). -/
def BrJob.HasRoom (j : BrJob) : Prop := j.out.length + (brBytes j.todo).length ≤ j.need

/-- The header and the body the command comes to have fit the output window (R67). -/
def NbJob.HasRoom (bias : Nat) (j : NbJob) : Prop :=
  ∀ w, emitItems bias j.todo j.writer = some w → 2 + w.body.length ≤ j.need

theorem State.Fits.br_hasRoom {s : State} {j : BrJob} (h : s.Fits) (hj : s.br.job = some j) : j.HasRoom := h.br j hj

theorem State.Fits.nb_hasRoom {s : State} {j : NbJob} (h : s.Fits) (hj : s.nb.job = some j) :
    j.HasRoom s.params.nbRunBias :=
  h.nb j hj

/-- `Fits` goes over to a state with the same parameters in which every running command is one of before or has
room. -/
theorem State.Fits.of_jobs {s t : State} (h : s.Fits) (hparams : t.params = s.params)
    (hbr : t.br.job = s.br.job ∨ ∀ j ∈ t.br.job, j.HasRoom)
    (hnb : t.nb.job = s.nb.job ∨ ∀ j ∈ t.nb.job, j.HasRoom s.params.nbRunBias) : t.Fits where
  bias := by rw [hparams]; exact h.bias
  slack := by rw [hparams]; exact h.slack
  br := by
    obtain hbr | hbr := hbr
    · rw [hbr]
      exact h.br
    · exact hbr
  nb := by
    rw [hparams]
    obtain hnb | hnb := hnb
    · rw [hnb]
      exact h.nb
    · exact hnb

theorem State.Fits.congr {s t : State} (h : s.Fits) (hst : s.SameRuns t) : t.Fits :=
  h.of_jobs hst.params (.inl hst.brJob) (.inl hst.nbJob)

/-! ## A command that starts has room (R143, R187) -/

theorem brFullJob_hasRoom {s : State} (h : s.Fits) : (brFullJob s).HasRoom := by
  have hroom := brNeed_of_slack h.slack brFullLen
  have hsize := encodeFull_size s.br.prev (s.readInBytes (brArgs s.br).inBase.toNat brFullLen)
  simp only [BrJob.HasRoom, brFullJob, List.length_nil, Nat.zero_add]
  exact hsize.trans ((by decide : 4296 ≤ brFullLen + brFullLen / 8 + 3).trans hroom)

theorem brPartJob_hasRoom {s : State} (h : s.Fits) : (brPartJob s).HasRoom := by
  have hsize := encodePart_size s.br.prev
    (s.readInBytes (brArgs s.br).inBase.toNat (brArgs s.br).inLen.toNat)
  rw [readInBytes_length] at hsize
  simp only [BrJob.HasRoom, brPartJob, List.length_nil, Nat.zero_add]
  exact hsize.trans ((brWorst_le _).trans (brNeed_of_slack h.slack _))

theorem nbEncJob_hasRoom {s : State} (h : s.Fits) (he : nbEncError (nbArgs s.nb) = none) :
    (nbEncJob s).HasRoom s.params.nbRunBias := by
  obtain ⟨-, ⟨hlo, hhi⟩, -⟩ := nbEncError_eq_none.mp he
  have hlen := readInBytes_length s (nbArgs s.nb).inBase.toNat (nbArgs s.nb).inLen.toNat
  obtain ⟨v, hv, -, hsize, -⟩ := emit_segments h.bias (hlen.trans_le (by omega))
  intro w hw
  obtain rfl : v = w := Option.some.inj (hv.symm.trans hw)
  rw [hlen] at hsize
  simp only [nbEncJob, nbNeed, nbOutSlack]
  omega

/-! ## A command that writes an item keeps its room -/

theorem BrJob.HasRoom.item {j : BrJob} {x : BrItem} {rest : List BrItem} (h : j.HasRoom) (htodo : j.todo = x :: rest) :
    BrJob.HasRoom { j with todo := rest, out := j.out ++ brItemBytes x } := by
  simp only [BrJob.HasRoom, htodo, brBytes_cons, List.length_append] at h ⊢
  omega

theorem emitItems_cons {bias : Nat} {x : NbItem} {xs : List NbItem} {w w' : Writer}
    (h : emitItem bias x w = some w') : emitItems bias (x :: xs) w = emitItems bias xs w' := by
  rw [emitItems, h]

theorem NbJob.HasRoom.item {bias : Nat} {j : NbJob} {x : NbItem} {rest : List NbItem} {w : Writer}
    (h : j.HasRoom bias) (htodo : j.todo = x :: rest) (hw : emitItem bias x j.writer = some w) :
    NbJob.HasRoom bias { j with todo := rest, body := w.body, slot := w.slot } := fun v hv =>
  h v (by rw [htodo, emitItems_cons hw]; exact hv)

/-! ## Each move keeps the room -/

theorem State.Fits.launchBr {s t : State} {j : BrJob} (h : s.Fits) (hj : j.HasRoom) (hl : launchBr j s = .next t) :
    t.Fits := by
  obtain ⟨-, rfl⟩ := launchBr_eq_next.mp hl
  exact h.of_jobs rfl (.inr (by rintro _ ⟨⟩; exact hj)) (.inl rfl)

theorem State.Fits.launchNb {s t : State} {j : NbJob} (h : s.Fits) (hj : j.HasRoom s.params.nbRunBias)
    (hl : launchNb j s = .next t) : t.Fits := by
  obtain ⟨-, rfl⟩ := launchNb_eq_next.mp hl
  exact h.of_jobs rfl (.inl rfl) (.inr (by rintro _ ⟨⟩; exact hj))

theorem State.Fits.brItem {s t : State} {j : BrJob} {x : BrItem} {rest : List BrItem} (h : s.Fits)
    (hj : s.br.job = some j) (htodo : j.todo = x :: rest) (hx : runBrItem x (s.withBrTodo j rest) = .next t) :
    t.Fits := by
  rw [runBrItem_eq_emit, emitBr_eq_next] at hx
  obtain ⟨_, ⟨⟩, rfl⟩ := hx
  exact h.of_jobs rfl (.inr (by rintro _ ⟨⟩; exact (h.br_hasRoom hj).item htodo)) (.inl rfl)

theorem State.Fits.nbItem {s t : State} {j : NbJob} {x : NbItem} {rest : List NbItem} (h : s.Fits)
    (hj : s.nb.job = some j) (htodo : j.todo = x :: rest) (hx : runNbItem x (s.withNbTodo j rest) = .next t) :
    t.Fits := by
  rw [runNbItem_eq_emit, emitNb_eq_next] at hx
  obtain ⟨_, ⟨⟩, ⟨-, rfl⟩ | ⟨w, hw, rfl⟩⟩ := hx
  · exact h.of_jobs rfl (.inl rfl) (.inr nofun)
  · exact h.of_jobs rfl (.inl rfl) (.inr (by rintro _ ⟨⟩; exact (h.nb_hasRoom hj).item htodo hw))

theorem State.Fits.brEnd {s t : State} {m : Byte} (h : s.Fits) (hx : execBrChunkMask m s = .next t) : t.Fits := by
  obtain ⟨j, u, -, hu, rfl⟩ := execBrChunkMask_eq_next.mp hx
  obtain ⟨-, rfl⟩ := storeOut_eq_next.mp hu
  exact h.of_jobs rfl (.inr nofun) (.inl rfl)

theorem State.Fits.nbEnd {s t : State} {mark : Mark} {n : BitVec 14} (h : s.Fits)
    (hx : execNbHeader mark n s = .next t) : t.Fits := by
  obtain ⟨j, u, -, hu, rfl⟩ := execNbHeader_eq_next.mp hx
  obtain ⟨-, rfl⟩ := storeOut_eq_next.mp hu
  exact h.of_jobs rfl (.inl rfl) (.inr nofun)

theorem State.Fits.storeIn {s t : State} {a : Nat} {b : Byte} (h : s.Fits) (hst : s.storeIn a b = .next t) :
    t.Fits := by
  obtain ⟨-, rfl⟩ := storeIn_eq_next.mp hst
  exact h.of_jobs rfl (.inl rfl) (.inl rfl)

theorem State.Fits.storeOut {s t : State} {base : Nat} {bytes : List Byte} (h : s.Fits)
    (hst : s.storeOut base bytes = .next t) : t.Fits := by
  obtain ⟨-, rfl⟩ := storeOut_eq_next.mp hst
  exact h.of_jobs rfl (.inl rfl) (.inl rfl)

theorem State.Fits.failCommand {s : State} (h : s.Fits) (u : Bank) (e : ErrCode) : (s.failCommand u e).Fits := by
  cases u <;> exact h.of_jobs rfl (.inl rfl) (.inl rfl)

theorem State.Fits.finishFx {s t : State} (h : s.Fits) (hx : finishFx s = .next t) : t.Fits := by
  obtain ⟨-, rfl⟩ | ⟨j, u, -, hu, rfl⟩ := finishFx_eq_next.mp hx
  · exact h
  · exact (h.storeIn hu).of_jobs rfl (.inl rfl) (.inl rfl)

theorem platformReset_fits {s : State} (h : s.Fits) : (platformReset s).Fits := by
  obtain ⟨hbr, hnb, -⟩ := (platformReset_banksReset s).quiet
  refine h.of_jobs ?_ (.inr (by rw [hbr]; nofun)) (.inr (by rw [hnb]; nofun))
  obtain ⟨_, _, _, _, _, _, _, hreset⟩ := platformReset_eq s
  rw [hreset]

theorem fits_keptByMoves : KeptByMoves State.Fits where
  hostSide _ _ hst h := h.congr hst.sameRuns
  setReg r v s h := h.congr (setReg_sameRuns s r v)
  writeIn a b s t h hx := by
    unfold hostWriteIn at hx
    split at hx
    · cases hx
    · exact h.storeIn hx
  writeOut a b s t h hx := by
    unfold hostWriteOut at hx
    split at hx
    · cases hx
    · exact h.storeOut hx
  startBrFull s t h hx := by
    obtain ⟨-, ⟨e, -, rfl⟩ | ⟨-, hl⟩⟩ := startBrFull_eq_next.mp hx
    · exact h.failCommand .br e
    · exact h.launchBr (brFullJob_hasRoom h) hl
  startBrPart s t h hx := by
    obtain ⟨-, ⟨e, -, rfl⟩ | ⟨-, hl⟩⟩ := startBrPart_eq_next.mp hx
    · exact h.failCommand .br e
    · exact h.launchBr (brPartJob_hasRoom h) hl
  badBrCmd s t h hx := by
    obtain ⟨-, rfl⟩ := badBrCmd_eq_next.mp hx
    exact h.failCommand .br _
  startNbEnc s t h hx := by
    obtain ⟨-, ⟨e, -, rfl⟩ | ⟨he, hl⟩⟩ := startNbEnc_eq_next.mp hx
    · exact h.failCommand .nb e
    · exact h.launchNb (nbEncJob_hasRoom h he) hl
  badNbCmd s t h hx := by
    obtain ⟨-, rfl⟩ := badNbCmd_eq_next.mp hx
    exact h.failCommand .nb _
  startFixlast s t h hx := by
    obtain ⟨-, ⟨e, -, rfl⟩ | ⟨-, hl⟩⟩ := startFixlast_eq_next.mp hx
    · exact h.failCommand .fx e
    · obtain ⟨-, rfl⟩ := launchFx_eq_next.mp hl
      exact h.of_jobs rfl (.inl rfl) (.inl rfl)
  badFxCmd s t h hx := by
    obtain ⟨-, rfl⟩ := badFxCmd_eq_next.mp hx
    exact h.failCommand .fx _
  brFatal s j _ _ h := h.of_jobs rfl (.inr nofun) (.inl rfl)
  brItem s t j x rest hj _ htodo h hx := h.brItem hj htodo hx
  brEnd s t j _ _ _ h hx := h.brEnd hx
  nbItem s t j x rest hj htodo h hx := h.nbItem hj htodo hx
  nbEnd s t j _ _ h hx := h.nbEnd hx
  finishFx s t h hx := h.finishFx hx
  reset s h := platformReset_fits h

/-- Settles O55: a command that starts has room, a running one keeps it, so every step does. -/
theorem stepKeepsFits : Obligations.StepKeepsFits := by
  unfold Obligations.StepKeepsFits
  exact fits_keptByMoves.step

end Sys2Proof.Machine

/-! The order of the engines' moves (R75): what each unit's bank becomes is a function of that bank alone, a command
that ends reaches its own output window alone, so two orders with the same moves agree. O59 and O60. -/

namespace Sys2Proof.Machine

/-! ## What an encoder's command leaves in `OUT` -/

/-- What an encoder's command that has ended leaves in `OUT`: its output window and the stream that stands at the
window's start; the rest of the window is unspecified (R68). -/
structure Stored where
  window : Window
  stream : List Byte

/-- The stream fits the window, and the window lies in the space (R60, R66, R67). -/
structure Stored.InRange (r : Stored) : Prop where
  fits : r.window.lo + r.stream.length ≤ r.window.hi
  room : r.window.hi ≤ spaceSize

/-- The stream a running BitRat command comes to. -/
def BrJob.stream (j : BrJob) : List Byte := j.out ++ brBytes j.todo

/-- The stream a running Nibbler command comes to, if it has no fatal error. -/
def NbJob.stream (bias : Nat) (j : NbJob) : List Byte :=
  match emitItems bias j.todo j.writer with
  | none => []
  | some w => headerBytes j.mark (BitVec.ofNat 14 w.body.length) ++ w.body

/-- What a running BitRat command comes to leave in `OUT`. -/
def BrJob.stored (j : BrJob) : Stored := { window := j.outWindow, stream := j.stream }

/-- What a running Nibbler command comes to leave in `OUT`. -/
def NbJob.stored (bias : Nat) (j : NbJob) : Stored := { window := j.outWindow, stream := j.stream bias }

theorem BrJob.stream_of_end {j : BrJob} (h : j.todo = []) : j.stream = j.out := by
  rw [BrJob.stream, h, brBytes_nil, List.append_nil]

theorem NbJob.stream_of_emit {bias : Nat} {j : NbJob} {w : Writer} (h : emitItems bias j.todo j.writer = some w) :
    j.stream bias = headerBytes j.mark (BitVec.ofNat 14 w.body.length) ++ w.body := by
  rw [NbJob.stream, h]

theorem NbJob.emit_of_end {bias : Nat} {j : NbJob} (h : j.todo = []) :
    emitItems bias j.todo j.writer = some j.writer := by
  rw [h]
  rfl

theorem NbJob.stream_of_end {bias : Nat} {j : NbJob} (h : j.todo = []) :
    j.stream bias = headerBytes j.mark (BitVec.ofNat 14 j.body.length) ++ j.body := by
  rw [NbJob.stream_of_emit (NbJob.emit_of_end h), NbJob.writer]

/-! ## The banks after the moves of their own engines -/

/-- The BitRat bank after a move of its engine that is no fatal error (R137). -/
def BrBank.next (b : BrBank) : BrBank :=
  match b.job with
  | none => b
  | some j =>
    match j.todo with
    | [] => b.finish j j.mask
    | x :: rest => { b with job := some { j with todo := rest, out := j.out ++ brItemBytes x } }

/-- The Nibbler bank after a move of its engine that is no fatal error (R190). -/
def NbBank.next (bias : Nat) (b : NbBank) : NbBank :=
  match b.job with
  | none => b
  | some j =>
    match j.todo with
    | [] => b.finish j
    | x :: rest =>
      match emitItem bias x j.writer with
      | none => b
      | some w => { b with job := some { j with todo := rest, body := w.body, slot := w.slot } }

/-- The FIXLAST bank after a move of its engine (R221). -/
def FxBank.next (b : FxBank) : FxBank :=
  match b.job with
  | none => b
  | some _ => { b with status := Status.done, job := none }

theorem BrBank.next_of_idle {b : BrBank} (h : b.job = none) : b.next = b := by
  rw [BrBank.next, h]

theorem BrBank.next_of_end {b : BrBank} {j : BrJob} (hj : b.job = some j) (htodo : j.todo = []) :
    b.next = b.finish j j.mask := by
  simp only [BrBank.next, hj, htodo]

theorem BrBank.next_of_item {b : BrBank} {j : BrJob} {x : BrItem} {rest : List BrItem} (hj : b.job = some j)
    (htodo : j.todo = x :: rest) :
    b.next = { b with job := some { j with todo := rest, out := j.out ++ brItemBytes x } } := by
  simp only [BrBank.next, hj, htodo]

theorem NbBank.next_of_idle {bias : Nat} {b : NbBank} (h : b.job = none) : b.next bias = b := by
  rw [NbBank.next, h]

theorem NbBank.next_of_end {bias : Nat} {b : NbBank} {j : NbJob} (hj : b.job = some j) (htodo : j.todo = []) :
    b.next bias = b.finish j := by
  simp only [NbBank.next, hj, htodo]

theorem NbBank.next_of_item {bias : Nat} {b : NbBank} {j : NbJob} {x : NbItem} {rest : List NbItem} {w : Writer}
    (hj : b.job = some j) (htodo : j.todo = x :: rest) (hw : emitItem bias x j.writer = some w) :
    b.next bias = { b with job := some { j with todo := rest, body := w.body, slot := w.slot } } := by
  simp only [NbBank.next, hj, htodo, hw]

theorem FxBank.next_of_idle {b : FxBank} (h : b.job = none) : b.next = b := by
  rw [FxBank.next, h]

theorem FxBank.next_of_running {b : FxBank} {f : FxJob} (h : b.job = some f) :
    b.next = { b with status := Status.done, job := none } := by
  rw [FxBank.next, h]

/-- Two numbers of moves that both come to where nothing moves any more come to the same. -/
theorem iterate_eq_of_fixed {α : Type} {f : α → α} {x : α} {m n : Nat} (hm : f (f^[m] x) = f^[m] x)
    (hn : f (f^[n] x) = f^[n] x) : f^[m] x = f^[n] x := by
  wlog hle : m ≤ n generalizing m n
  · exact (this hn hm (Nat.le_of_not_le hle)).symm
  · rw [← Nat.sub_add_cancel hle, Function.iterate_add_apply, Function.iterate_fixed hm]

/-! ## What moves keep of a running command -/

/-- A BitRat command that runs after a move ran before it, and comes to the same. -/
theorem BrBank.next_running {b : BrBank} {j : BrJob} (h : b.next.job = some j) :
    ∃ i, b.job = some i ∧ j.stored = i.stored ∧ j.tierFault = i.tierFault := by
  cases hi : b.job with
  | none =>
    rw [BrBank.next_of_idle hi, hi] at h
    cases h
  | some i =>
    refine ⟨i, rfl, ?_⟩
    cases htodo : i.todo with
    | nil =>
      rw [BrBank.next_of_end hi htodo] at h
      cases h
    | cons x rest =>
      rw [BrBank.next_of_item hi htodo] at h
      cases h
      refine ⟨?_, rfl⟩
      simp only [BrJob.stored, BrJob.outWindow, BrJob.stream, htodo, brBytes_cons, List.append_assoc]

/-- A Nibbler command that runs after a move ran before it, and comes to the same. -/
theorem NbBank.next_running {bias : Nat} {b : NbBank} {k : NbJob} (h : (b.next bias).job = some k) :
    ∃ i, b.job = some i ∧ k.stored bias = i.stored bias ∧
      emitItems bias k.todo k.writer = emitItems bias i.todo i.writer := by
  cases hi : b.job with
  | none =>
    rw [NbBank.next_of_idle hi, hi] at h
    cases h
  | some i =>
    refine ⟨i, rfl, ?_⟩
    cases htodo : i.todo with
    | nil =>
      rw [NbBank.next_of_end hi htodo] at h
      cases h
    | cons x rest =>
      cases hw : emitItem bias x i.writer with
      | none =>
        simp only [NbBank.next, hi, htodo, hw, Option.some.injEq] at h
        subst h
        exact ⟨rfl, by rw [htodo]⟩
      | some w =>
        rw [NbBank.next_of_item hi htodo hw] at h
        cases h
        have hemit : emitItems bias i.todo i.writer = emitItems bias rest w := by rw [htodo, emitItems_cons hw]
        refine ⟨?_, htodo ▸ hemit.symm⟩
        simp only [NbJob.stored, NbJob.outWindow, NbJob.stream, hemit]
        rfl

theorem FxBank.next_running {b : FxBank} {f : FxJob} (h : b.next.job = some f) : b.job = some f := by
  cases hf : b.job with
  | none => rwa [FxBank.next_of_idle hf, hf] at h
  | some g =>
    rw [FxBank.next_of_running hf] at h
    cases h

theorem BrBank.iterate_running {b : BrBank} {n : Nat} {j : BrJob} (h : (BrBank.next^[n] b).job = some j) :
    ∃ i, b.job = some i ∧ j.stored = i.stored ∧ j.tierFault = i.tierFault := by
  induction n generalizing j with
  | zero => exact ⟨j, h, rfl, rfl⟩
  | succ n ih =>
    rw [Function.iterate_succ_apply'] at h
    obtain ⟨k, hk, hstored, htier⟩ := BrBank.next_running h
    obtain ⟨i, hi, hstored', htier'⟩ := ih hk
    exact ⟨i, hi, hstored.trans hstored', htier.trans htier'⟩

theorem NbBank.iterate_running {bias : Nat} {b : NbBank} {n : Nat} {k : NbJob}
    (h : ((NbBank.next bias)^[n] b).job = some k) :
    ∃ i, b.job = some i ∧ k.stored bias = i.stored bias ∧
      emitItems bias k.todo k.writer = emitItems bias i.todo i.writer := by
  induction n generalizing k with
  | zero => exact ⟨k, h, rfl, rfl⟩
  | succ n ih =>
    rw [Function.iterate_succ_apply'] at h
    obtain ⟨l, hl, hstored, hemit⟩ := NbBank.next_running h
    obtain ⟨i, hi, hstored', hemit'⟩ := ih hl
    exact ⟨i, hi, hstored.trans hstored', hemit.trans hemit'⟩

theorem FxBank.iterate_running {b : FxBank} {n : Nat} {f : FxJob} (h : (FxBank.next^[n] b).job = some f) :
    b.job = some f := by
  induction n with
  | zero => exact h
  | succ n ih =>
    rw [Function.iterate_succ_apply'] at h
    exact ih (FxBank.next_running h)

/-- When a BitRat command has ended, `BR_WRITTEN` is the length of its stream (R26). -/
theorem BrBank.iterate_written {b : BrBank} {n : Nat} {j : BrJob} (hj : b.job = some j)
    (h : (BrBank.next^[n] b).job = none) : (BrBank.next^[n] b).written = toWord j.stream.length := by
  induction n with
  | zero => exact absurd (hj.symm.trans h) (by simp)
  | succ n ih =>
    rw [Function.iterate_succ_apply'] at h ⊢
    cases hi : (BrBank.next^[n] b).job with
    | none =>
      rw [BrBank.next_of_idle hi]
      exact ih hi
    | some i =>
      obtain ⟨k, hk, hstored, -⟩ := BrBank.iterate_running hi
      obtain rfl : j = k := Option.some.inj (hj.symm.trans hk)
      cases htodo : i.todo with
      | cons x rest =>
        rw [BrBank.next_of_item hi htodo] at h
        cases h
      | nil =>
        have hstream : i.stream = j.stream := congrArg Stored.stream hstored
        rw [BrBank.next_of_end hi htodo, BrBank.finish_written, ← hstream, BrJob.stream_of_end htodo]

/-- When a Nibbler command has ended, `NB_WRITTEN` is the length of its stream (R31). -/
theorem NbBank.iterate_written {bias : Nat} {b : NbBank} {n : Nat} {j : NbJob} (hj : b.job = some j)
    (h : ((NbBank.next bias)^[n] b).job = none) :
    ((NbBank.next bias)^[n] b).written = toWord (j.stream bias).length := by
  induction n with
  | zero => exact absurd (hj.symm.trans h) (by simp)
  | succ n ih =>
    rw [Function.iterate_succ_apply'] at h ⊢
    cases hi : ((NbBank.next bias)^[n] b).job with
    | none =>
      rw [NbBank.next_of_idle hi]
      exact ih hi
    | some i =>
      obtain ⟨k, hk, hstored, -⟩ := NbBank.iterate_running hi
      obtain rfl : j = k := Option.some.inj (hj.symm.trans hk)
      cases htodo : i.todo with
      | cons x rest =>
        cases hw : emitItem bias x i.writer with
        | none => simp [NbBank.next, hi, htodo, hw] at h
        | some w =>
          rw [NbBank.next_of_item hi htodo hw] at h
          cases h
      | nil =>
        have hstream : i.stream bias = j.stream bias := congrArg Stored.stream hstored
        rw [NbBank.next_of_end hi htodo, NbBank.finish_written, ← hstream, NbJob.stream_of_end htodo,
          List.length_append, headerBytes_length]

/-! ## What moves of the engines do to the state -/

/-- The encoder commands of `s` that have ended in `t`, with what they leave in `OUT`. -/
def State.Ended (s t : State) (r : Stored) : Prop :=
  (t.br.job = none ∧ ∃ j, s.br.job = some j ∧ r = j.stored) ∨
    (t.nb.job = none ∧ ∃ k, s.nb.job = some k ∧ r = k.stored s.params.nbRunBias)

/-- `OUT` in `t` is that of `s` with `R` left in it. -/
structure State.OutAfter (s : State) (R : Stored → Prop) (t : State) : Prop where
  outside : ∀ a, (∀ r, R r → r.window.holds a = false) → t.readOut a = s.readOut a
  inside : ∀ r, R r → ∀ i, i < r.stream.length → t.readOut (r.window.lo + i) = r.stream.getD i 0x00#8

/-- `IN[a]` once the FIXLAST command of `s` has come to `job` (R221). -/
def State.inAfter (s : State) (job : Option FxJob) (a : Nat) : Byte :=
  match s.fx.job, job with
  | some f, none => if a = f.addr then fixByte (s.readIn a) f.bits else s.readIn a
  | _, _ => s.readIn a

/-- The engines have made the moves `σ` between `s` and `t`, a move of an engine with nothing to do being none: each
bank is what its own moves make of it, the commands that have ended have left their bytes in `OUT` and `IN`, and the
rest is as it was (R2, R61, R75). -/
structure State.Moved (s : State) (σ : List Agent) (t : State) : Prop where
  br : t.br = BrBank.next^[σ.count .br] s.br
  nb : t.nb = (NbBank.next s.params.nbRunBias)^[σ.count .nb] s.nb
  fx : t.fx = FxBank.next^[σ.count .fx] s.fx
  readIn : ∀ a, t.readIn a = s.inAfter t.fx.job a
  readOut : s.OutAfter (s.Ended t) t
  params : t.params = s.params
  host : s.SameHostSide t

/-- The running commands come to their ends without a fatal error and inside their windows, which are apart. -/
structure State.Ready (s : State) : Prop where
  br : ∀ j, s.br.job = some j → j.tierFault = false ∧ j.stored.InRange
  nb : ∀ k, s.nb.job = some k →
    (∃ w, emitItems s.params.nbRunBias k.todo k.writer = some w) ∧ (k.stored s.params.nbRunBias).InRange
  fx : ∀ f, s.fx.job = some f → f.addr < spaceSize
  apart : ∀ j k, s.br.job = some j → s.nb.job = some k → j.outWindow.meets k.outWindow = false

theorem State.Fits.br_inRange {s : State} {j : BrJob} (h : s.Fits) (hinv : s.Inv) (hj : s.br.job = some j) :
    j.stored.InRange where
  fits := by
    have hroom := h.br_hasRoom hj
    simp only [BrJob.HasRoom, BrJob.stored, BrJob.outWindow, BrJob.stream, List.length_append] at hroom ⊢
    omega
  room := (hinv.brJob j hj).2

theorem State.Fits.nb_inRange {s : State} {k : NbJob} {w : Writer} (h : s.Fits) (hinv : s.Inv)
    (hk : s.nb.job = some k) (hw : emitItems s.params.nbRunBias k.todo k.writer = some w) :
    (k.stored s.params.nbRunBias).InRange where
  fits := by
    have hroom := h.nb_hasRoom hk w hw
    simp only [NbJob.stored, NbJob.outWindow, NbJob.stream_of_emit hw, List.length_append, headerBytes_length]
    omega
  room := (hinv.nbJob k hk).2.1

theorem State.Ready.of_invariants {s : State} (hinv : s.Inv) (hfatal : s.NoFatal) (hfits : s.Fits) : s.Ready where
  br j hj := ⟨hfatal.tier j hj, hfits.br_inRange hinv hj⟩
  nb k hk := by
    obtain ⟨w, hw, -⟩ := emitItems_of_fits (hfatal.fits k hk) k.writer
    exact ⟨⟨w, hw⟩, hfits.nb_inRange hinv hk hw⟩
  fx f hf := (hinv.fxJob f hf).1
  apart j k hj hk := hinv.windows.1 j hj k hk

/-! ## Moves one after the other -/

theorem State.inAfter_self (s : State) (a : Nat) : s.inAfter s.fx.job a = s.readIn a := by
  unfold State.inAfter
  cases s.fx.job <;> rfl

theorem State.not_ended_self {s : State} (r : Stored) : ¬ s.Ended s r := by
  rintro (⟨hnone, j, hj, -⟩ | ⟨hnone, k, hk, -⟩)
  · exact absurd (hj.symm.trans hnone) (by simp)
  · exact absurd (hk.symm.trans hnone) (by simp)

/-- Nothing is left in `OUT` by no command. -/
theorem State.OutAfter.of_none {s t : State} {R : Stored → Prop} (hR : ∀ r, ¬ R r)
    (h : ∀ a, t.readOut a = s.readOut a) : s.OutAfter R t :=
  ⟨fun a _ => h a, fun r hr => absurd hr (hR r)⟩

/-- What is left later stands outside what was left before. -/
theorem State.OutAfter.trans {s t u : State} {R R' : Stored → Prop} (h : s.OutAfter R t) (h' : t.OutAfter R' u)
    (hapart : ∀ r r', R r → R' r' → ∀ i, i < r.stream.length → r'.window.holds (r.window.lo + i) = false) :
    s.OutAfter (fun r => R r ∨ R' r) u where
  outside a ha := by
    rw [h'.outside a fun r hr => ha r (.inr hr), h.outside a fun r hr => ha r (.inl hr)]
  inside r hr i hi := by
    obtain hr | hr := hr
    · rw [h'.outside _ fun r' hr' => hapart r r' hr hr' i hi, h.inside r hr i hi]
    · exact h'.inside r hr i hi

theorem State.Moved.nil (s : State) (turn : Agent) (n : Nat) :
    s.Moved [] { s with turn := turn, freeCount := n } where
  br := rfl
  nb := rfl
  fx := rfl
  readIn a := (s.inAfter_self a).symm
  readOut := .of_none s.not_ended_self fun a => readOut_congr rfl rfl a
  params := rfl
  host := ⟨rfl, rfl, rfl, rfl⟩

section

variable {s t u : State} {σ τ : List Agent}

/-- A BitRat command that runs after some moves ran before them, and comes to the same. -/
theorem State.Moved.br_running {j : BrJob} (h : s.Moved σ t) (hj : t.br.job = some j) :
    ∃ i, s.br.job = some i ∧ j.stored = i.stored ∧ j.tierFault = i.tierFault := by
  rw [h.br] at hj
  exact BrBank.iterate_running hj

/-- A Nibbler command that runs after some moves ran before them, and comes to the same. -/
theorem State.Moved.nb_running {k : NbJob} (h : s.Moved σ t) (hk : t.nb.job = some k) :
    ∃ i, s.nb.job = some i ∧ k.stored s.params.nbRunBias = i.stored s.params.nbRunBias ∧
      emitItems s.params.nbRunBias k.todo k.writer = emitItems s.params.nbRunBias i.todo i.writer := by
  rw [h.nb] at hk
  exact NbBank.iterate_running hk

theorem State.Moved.fx_running {f : FxJob} (h : s.Moved σ t) (hf : t.fx.job = some f) : s.fx.job = some f := by
  rw [h.fx] at hf
  exact FxBank.iterate_running hf

theorem State.Moved.ready (h : s.Moved σ t) (hs : s.Ready) : t.Ready where
  br j hj := by
    obtain ⟨i, hi, hstored, htier⟩ := h.br_running hj
    rw [hstored, htier]
    exact hs.br i hi
  nb k hk := by
    obtain ⟨i, hi, hstored, hemit⟩ := h.nb_running hk
    rw [h.params, hstored, hemit]
    exact hs.nb i hi
  fx f hf := hs.fx f (h.fx_running hf)
  apart j k hj hk := by
    obtain ⟨i, hi, hj', -⟩ := h.br_running hj
    obtain ⟨l, hl, hk', -⟩ := h.nb_running hk
    have hjw : j.outWindow = i.outWindow := congrArg Stored.window hj'
    have hkw : k.outWindow = l.outWindow := congrArg Stored.window hk'
    rw [hjw, hkw]
    exact hs.apart i l hi hl

theorem State.Moved.br_idle (h : s.Moved σ t) (hs : s.br.job = none) : t.br.job = none := by
  rw [h.br, Function.iterate_fixed (BrBank.next_of_idle hs), hs]

theorem State.Moved.nb_idle (h : s.Moved σ t) (hs : s.nb.job = none) : t.nb.job = none := by
  rw [h.nb, Function.iterate_fixed (NbBank.next_of_idle hs), hs]

theorem State.Moved.fx_idle (h : s.Moved σ t) (hs : s.fx.job = none) : t.fx.job = none := by
  rw [h.fx, Function.iterate_fixed (FxBank.next_of_idle hs), hs]

/-- What has ended after two sequences of moves ended in the first or in the second. -/
theorem State.Moved.ended_iff (h : s.Moved σ t) (h' : t.Moved τ u) (r : Stored) :
    s.Ended u r ↔ s.Ended t r ∨ t.Ended u r := by
  constructor
  · rintro (⟨hnone, j, hj, rfl⟩ | ⟨hnone, k, hk, rfl⟩)
    · cases ht : t.br.job with
      | none => exact .inl (.inl ⟨ht, j, hj, rfl⟩)
      | some i =>
        obtain ⟨l, hl, hstored, -⟩ := h.br_running ht
        obtain rfl : j = l := Option.some.inj (hj.symm.trans hl)
        exact .inr (.inl ⟨hnone, i, ht, hstored.symm⟩)
    · cases ht : t.nb.job with
      | none => exact .inl (.inr ⟨ht, k, hk, rfl⟩)
      | some i =>
        obtain ⟨l, hl, hstored, -⟩ := h.nb_running ht
        obtain rfl : k = l := Option.some.inj (hk.symm.trans hl)
        exact .inr (.inr ⟨hnone, i, ht, by rw [h.params, hstored]⟩)
  · rintro ((⟨hnone, j, hj, rfl⟩ | ⟨hnone, k, hk, rfl⟩) | (⟨hnone, i, hi, rfl⟩ | ⟨hnone, i, hi, rfl⟩))
    · exact .inl ⟨h'.br_idle hnone, j, hj, rfl⟩
    · exact .inr ⟨h'.nb_idle hnone, k, hk, rfl⟩
    · obtain ⟨j, hj, hstored, -⟩ := h.br_running hi
      exact .inl ⟨hnone, j, hj, hstored⟩
    · obtain ⟨k, hk, hstored, -⟩ := h.nb_running hi
      exact .inr ⟨hnone, k, hk, by rw [h.params, hstored]⟩

/-- An address inside a stored stream lies outside a window that is apart. -/
theorem holds_eq_false_of_apart {r : Stored} {w : Window} {i : Nat} (hr : r.InRange)
    (hmeets : r.window.meets w = false) (hi : i < r.stream.length) : w.holds (r.window.lo + i) = false := by
  have hfits := hr.fits
  simp only [Window.meets, decide_eq_false_iff_not] at hmeets
  rw [Window.holds_eq_false]
  omega

/-- Commands that end in different sequences of moves are those of different units, whose windows are apart (R75). -/
theorem State.Moved.ended_apart (h : s.Moved σ t) (hs : s.Ready) {r r' : Stored} (hr : s.Ended t r)
    (hr' : t.Ended u r') {i : Nat} (hi : i < r.stream.length) : r'.window.holds (r.window.lo + i) = false := by
  obtain ⟨hnone, j, hj, rfl⟩ | ⟨hnone, k, hk, rfl⟩ := hr
  · obtain ⟨-, l, hl, -⟩ | ⟨-, l, hl, rfl⟩ := hr'
    · exact absurd (hl.symm.trans hnone) (by simp)
    · obtain ⟨k, hk, hstored, -⟩ := h.nb_running hl
      rw [h.params, hstored]
      exact holds_eq_false_of_apart (hs.br j hj).2 (hs.apart j k hj hk) hi
  · obtain ⟨-, l, hl, rfl⟩ | ⟨-, l, hl, -⟩ := hr'
    · obtain ⟨j, hj, hstored, -⟩ := h.br_running hl
      rw [hstored]
      refine holds_eq_false_of_apart (hs.nb k hk).2 ?_ hi
      rw [Window.meets_comm]
      exact hs.apart j k hj hk
    · exact absurd (hl.symm.trans hnone) (by simp)

theorem State.Moved.inAfter_trans (h : s.Moved σ t) (h' : t.Moved τ u) (a : Nat) :
    t.inAfter u.fx.job a = s.inAfter u.fx.job a := by
  have hin := h.readIn a
  cases ht : t.fx.job with
  | some f =>
    have hs := h.fx_running ht
    have hsame : t.readIn a = s.readIn a := by rw [hin, ht, ← hs, s.inAfter_self]
    simp only [State.inAfter, ht, hs, hsame]
  | none =>
    rw [h'.fx_idle ht, ← ht, t.inAfter_self, hin]

theorem State.Moved.trans (h : s.Moved σ t) (h' : t.Moved τ u) (hs : s.Ready) : s.Moved (σ ++ τ) u where
  br := by rw [h'.br, h.br, List.count_append, Nat.add_comm, Function.iterate_add_apply]
  nb := by rw [h'.nb, h.nb, h.params, List.count_append, Nat.add_comm, Function.iterate_add_apply]
  fx := by rw [h'.fx, h.fx, List.count_append, Nat.add_comm, Function.iterate_add_apply]
  readIn a := (h'.readIn a).trans (h.inAfter_trans h' a)
  readOut := by
    have hended : s.Ended u = fun r => s.Ended t r ∨ t.Ended u r := funext fun r => propext (h.ended_iff h' r)
    rw [hended]
    exact h.readOut.trans h'.readOut fun r r' hr hr' i hi => h.ended_apart hs hr hr' hi
  params := h'.params.trans h.params
  host := by simp only [State.SameHostSide, h'.host, h.host, and_self]

end

/-! ## The move of each engine -/

/-- What the BitRat engine does next with its command `j`, which has no fatal error (R137). -/
def brAction (j : BrJob) (s : State) : Out :=
  match j.todo with
  | [] => execBrChunkMask j.mask s
  | x :: rest => runBrItem x (s.withBrTodo j rest)

/-- What the Nibbler engine does next with its command `k` (R190). -/
def nbAction (k : NbJob) (s : State) : Out :=
  match k.todo with
  | [] => execNbHeader k.mark (BitVec.ofNat 14 k.body.length) s
  | x :: rest => runNbItem x (s.withNbTodo k rest)

theorem brAction_of_end {j : BrJob} (h : j.todo = []) (s : State) : brAction j s = execBrChunkMask j.mask s := by
  rw [brAction, h]

theorem brAction_of_item {j : BrJob} {x : BrItem} {rest : List BrItem} (h : j.todo = x :: rest) (s : State) :
    brAction j s = runBrItem x (s.withBrTodo j rest) := by
  rw [brAction, h]

theorem nbAction_of_end {k : NbJob} (h : k.todo = []) (s : State) :
    nbAction k s = execNbHeader k.mark (BitVec.ofNat 14 k.body.length) s := by
  rw [nbAction, h]

theorem nbAction_of_item {k : NbJob} {x : NbItem} {rest : List NbItem} (h : k.todo = x :: rest) (s : State) :
    nbAction k s = runNbItem x (s.withNbTodo k rest) := by
  rw [nbAction, h]

theorem step_brAction {s : State} {j : BrJob} (hm : mover s = some .br) (hj : s.br.job = some j)
    (hf : j.tierFault = false) : step s = brAction j s.passTurn := by
  cases htodo : j.todo with
  | nil => exact (step_br_end hm hj hf htodo).trans (brAction_of_end htodo _).symm
  | cons x rest => rw [step_br_item hm hj hf htodo, brAction_of_item htodo, exec_brItem]

theorem step_nbAction {s : State} {k : NbJob} (hm : mover s = some .nb) (hk : s.nb.job = some k) :
    step s = nbAction k s.passTurn := by
  cases htodo : k.todo with
  | nil => exact (step_nb_end hm hk htodo).trans (nbAction_of_end htodo _).symm
  | cons x rest => rw [step_nb_item hm hk htodo, nbAction_of_item htodo, exec_nbItem]

/-- A state whose BitRat bank has moved and in which at most the window of a command that has ended differs. -/
theorem State.Moved.of_br {s t : State} {w : Window} (hbank : t.br = s.br.next) (hframe : s.BrFrame w t)
    (hout : s.OutAfter (s.Ended t) t) (hparams : t.params = s.params) : s.Moved [.br] t where
  br := hbank
  nb := hframe.nb
  fx := hframe.fx
  readIn a := by rw [hframe.fx, s.inAfter_self, hframe.readIn]
  readOut := hout
  params := hparams
  host := hframe.host

/-- A state whose Nibbler bank has moved and in which at most the window of a command that has ended differs. -/
theorem State.Moved.of_nb {s t : State} {w : Window} (hbank : t.nb = s.nb.next s.params.nbRunBias)
    (hframe : s.NbFrame w t) (hout : s.OutAfter (s.Ended t) t) (hparams : t.params = s.params) : s.Moved [.nb] t where
  br := hframe.br
  nb := hbank
  fx := hframe.fx
  readIn a := by rw [hframe.fx, s.inAfter_self, hframe.readIn]
  readOut := hout
  params := hparams
  host := hframe.host

/-- No encoder's command ends while both go on as before. -/
theorem State.not_ended_of_jobs {s t : State} (hbr : s.br.job.isSome → t.br.job.isSome)
    (hnb : s.nb.job.isSome → t.nb.job.isSome) (r : Stored) : ¬ s.Ended t r := by
  rintro (⟨hnone, j, hj, -⟩ | ⟨hnone, k, hk, -⟩)
  · simp [hj, hnone] at hbr
  · simp [hk, hnone] at hnb

/-- The command that ends in a move is its unit's. -/
theorem State.ended_br_iff {s t : State} {j : BrJob} (hj : s.br.job = some j) (hend : t.br.job = none)
    (hnb : t.nb = s.nb) (r : Stored) : s.Ended t r ↔ r = j.stored := by
  constructor
  · rintro (⟨-, i, hi, rfl⟩ | ⟨hnone, k, hk, -⟩)
    · rw [Option.some.inj (hi.symm.trans hj)]
    · simp [hnb, hk] at hnone
  · rintro rfl
    exact .inl ⟨hend, j, hj, rfl⟩

theorem State.ended_nb_iff {s t : State} {k : NbJob} (hk : s.nb.job = some k) (hend : t.nb.job = none)
    (hbr : t.br = s.br) (r : Stored) : s.Ended t r ↔ r = k.stored s.params.nbRunBias := by
  constructor
  · rintro (⟨hnone, j, hj, -⟩ | ⟨-, i, hi, rfl⟩)
    · simp [hbr, hj] at hnone
    · rw [Option.some.inj (hi.symm.trans hk)]
  · rintro rfl
    exact .inr ⟨hend, k, hk, rfl⟩

/-- One command has ended and left its stream in its window. -/
theorem State.OutAfter.of_one {s t : State} {R : Stored → Prop} {r : Stored} (hR : ∀ q, R q ↔ q = r)
    (hout : ∀ a, r.window.holds a = false → t.readOut a = s.readOut a)
    (hin : ∀ i, i < r.stream.length → t.readOut (r.window.lo + i) = r.stream.getD i 0x00#8) : s.OutAfter R t where
  outside a ha := hout a (ha r ((hR r).mpr rfl))
  inside q hq := by
    rw [(hR q).mp hq]
    exact hin

/-- A byte of a sequence read back. -/
theorem readOut_of_readOutBytes {s : State} {base i : Nat} {bytes : List Byte}
    (h : s.readOutBytes base bytes.length = bytes) (hi : i < bytes.length) :
    s.readOut (base + i) = bytes.getD i 0x00#8 := by
  have hbyte := congrArg (fun l => l[i]?) h
  simp only [State.readOutBytes, List.getElem?_map, List.getElem?_range hi, Option.map_some] at hbyte
  rw [List.getD_eq_getElem?_getD, ← hbyte, Option.getD_some]

/-- The BitRat engine's move, be it an item or the end of the command. -/
theorem brAction_moved {s : State} {j : BrJob} (hs : s.Ready) (hj : s.br.job = some j) :
    ∃ t, brAction j s = .next t ∧ s.Moved [.br] t := by
  have hrange := (hs.br j hj).2
  cases htodo : j.todo with
  | nil =>
    have hstream : j.stored.stream = j.out := BrJob.stream_of_end htodo
    have hfit : j.out.length ≤ j.need := by
      have := hrange.fits
      rw [hstream] at this
      exact Nat.le_of_add_le_add_left this
    obtain ⟨t, ht, hend⟩ := execBrChunkMask_ends j.mask hj hfit hrange.room
    have hidle : t.br.job = none := by rw [hend.bank, BrBank.finish_job]
    refine ⟨t, (brAction_of_end htodo s).trans ht, .of_br ?_ hend.frame ?_ hend.params⟩
    · rw [hend.bank, BrBank.next_of_end hj htodo]
    · refine .of_one (State.ended_br_iff hj hidle hend.frame.nb) hend.frame.readOut fun i hi => ?_
      rw [hstream] at hi ⊢
      exact readOut_of_readOutBytes hend.stream hi
  | cons x rest =>
    have hitem := brAction_of_item htodo s
    rw [runBrItem_eq_emit] at hitem
    refine ⟨_, hitem.trans (emitBr_eq_next.mpr ⟨{ j with todo := rest }, rfl, rfl⟩),
      .of_br ?_ (.of_bank j.outWindow ?_ rfl) ?_ rfl⟩
    · exact (BrBank.next_of_item hj htodo).symm
    · exact ⟨rfl, rfl, rfl, rfl, rfl, rfl, rfl⟩
    · exact .of_none (State.not_ended_of_jobs (fun _ => rfl) id) fun a => readOut_congr rfl rfl a

/-- The Nibbler engine's move, be it a segment or the end of the command. -/
theorem nbAction_moved {s : State} {k : NbJob} (hs : s.Ready) (hk : s.nb.job = some k) :
    ∃ t, nbAction k s = .next t ∧ s.Moved [.nb] t := by
  obtain ⟨⟨w, hw⟩, hrange⟩ := hs.nb k hk
  cases htodo : k.todo with
  | nil =>
    have hstream : (k.stored s.params.nbRunBias).stream =
        headerBytes k.mark (BitVec.ofNat 14 k.body.length) ++ k.body := NbJob.stream_of_end htodo
    have hlen : (k.stored s.params.nbRunBias).stream.length = 2 + k.body.length := by
      rw [hstream, List.length_append, headerBytes_length]
    have hfit : 2 + k.body.length ≤ k.need := by
      have := hrange.fits
      rw [hlen] at this
      exact Nat.le_of_add_le_add_left this
    obtain ⟨t, ht, hend⟩ := execNbHeader_ends k.mark (BitVec.ofNat 14 k.body.length) hk hfit hrange.room
    have hidle : t.nb.job = none := by rw [hend.bank, NbBank.finish_job]
    refine ⟨t, (nbAction_of_end htodo s).trans ht, .of_nb ?_ hend.frame ?_ hend.params⟩
    · rw [hend.bank, NbBank.next_of_end hk htodo]
    · refine .of_one (State.ended_nb_iff hk hidle hend.frame.br) hend.frame.readOut fun i hi => ?_
      rw [hlen] at hi
      rw [hstream]
      exact hend.stream i hi
  | cons x rest =>
    cases hx : emitItem s.params.nbRunBias x k.writer with
    | none => simp [htodo, emitItems, hx] at hw
    | some v =>
      have hitem := nbAction_of_item htodo s
      rw [runNbItem_eq_emit] at hitem
      refine ⟨_, hitem.trans (emitNb_eq_next.mpr ⟨{ k with todo := rest }, rfl, .inr ⟨v, hx, rfl⟩⟩),
        .of_nb ?_ (.of_bank k.outWindow ?_ rfl) ?_ rfl⟩
      · exact (NbBank.next_of_item hk htodo hx).symm
      · exact ⟨rfl, rfl, rfl, rfl, rfl, rfl⟩
      · exact .of_none (State.not_ended_of_jobs id fun _ => rfl) fun a => readOut_congr rfl rfl a

/-- The FIXLAST engine's move, the end of its command. -/
theorem finishFx_moved {s : State} {f : FxJob} (hs : s.Ready) (hf : s.fx.job = some f) :
    ∃ t, finishFx s = .next t ∧ s.Moved [.fx] t := by
  have hstore := storeIn_eq_next.mpr
    (⟨hs.fx f hf, rfl⟩ : f.addr < spaceSize ∧
      _ = { s with inMem := s.inMem.put f.addr [fixByte (s.readIn f.addr) f.bits] })
  have hread := readIn_storeIn hstore
  refine ⟨_, finishFx_eq_next.mpr (.inr ⟨f, _, hf, hstore, rfl⟩), ?_⟩
  exact
    { br := rfl
      nb := rfl
      fx := (FxBank.next_of_running hf).symm
      readIn := fun a => by
        simp only [State.inAfter, hf]
        refine (hread a).trans ?_
        split
        · rename_i ha
          rw [ha]
        · rfl
      readOut := .of_none (State.not_ended_of_jobs id id) fun a => readOut_congr rfl rfl a
      params := rfl
      host := ⟨rfl, rfl, rfl, rfl⟩ }

/-! ## Sequences of moves -/

/-- An engine with nothing to do is passed over. -/
theorem State.Moved.of_idle {s : State} {a : Agent} (h : s.engineRuns a = false) : s.Moved [a] s where
  br := by
    cases a with
    | br => exact (BrBank.next_of_idle (by simpa [State.engineRuns] using h)).symm
    | _ => rfl
  nb := by
    cases a with
    | nb => exact (NbBank.next_of_idle (by simpa [State.engineRuns] using h)).symm
    | _ => rfl
  fx := by
    cases a with
    | fx => exact (FxBank.next_of_idle (by simpa [State.engineRuns] using h)).symm
    | _ => rfl
  readIn a := (s.inAfter_self a).symm
  readOut := .of_none s.not_ended_self fun _ => rfl
  params := rfl
  host := ⟨rfl, rfl, rfl, rfl⟩

/-- A step in which the turn is given to a running engine is its move. -/
theorem step_moved {s : State} {a : Agent} (hs : s.Ready) (ha : s.engineRuns a = true) :
    ∃ t, step { s with turn := a } = .next t ∧ s.Moved [a] t := by
  have hm := mover_of_engineRuns ha
  have hnil : s.Moved [] { s with turn := a }.passTurn := .nil s _ _
  have hready := hnil.ready hs
  cases a with
  | host => cases ha
  | br =>
    obtain ⟨j, hj⟩ := Option.isSome_iff_exists.mp ha
    obtain ⟨t, ht, hmoved⟩ := brAction_moved hready hj
    exact ⟨t, (step_brAction hm hj (hs.br j hj).1).trans ht, hnil.trans hmoved hs⟩
  | nb =>
    obtain ⟨k, hk⟩ := Option.isSome_iff_exists.mp ha
    obtain ⟨t, ht, hmoved⟩ := nbAction_moved hready hk
    exact ⟨t, (step_nbAction hm hk).trans ht, hnil.trans hmoved hs⟩
  | fx =>
    obtain ⟨f, hf⟩ := Option.isSome_iff_exists.mp ha
    obtain ⟨t, ht, hmoved⟩ := finishFx_moved hready hf
    exact ⟨t, (step_fx hm).trans ht, hnil.trans hmoved hs⟩

theorem runEngines_moved {s : State} (σ : List Agent) (hs : s.Ready) :
    ∃ t, runEngines σ s = .next t ∧ s.Moved σ t := by
  induction σ generalizing s with
  | nil => exact ⟨s, rfl, .nil s s.turn s.freeCount⟩
  | cons a σ ih =>
    rw [runEngines_cons]
    cases ha : s.engineRuns a with
    | true =>
      obtain ⟨u, hu, hsu⟩ := step_moved hs ha
      obtain ⟨t, ht, hut⟩ := ih (hsu.ready hs)
      exact ⟨t, by rw [if_pos rfl, hu, andThen_next, ht], hsu.trans hut hs⟩
    | false =>
      obtain ⟨t, ht, hst⟩ := ih hs
      exact ⟨t, by rw [if_neg Bool.false_ne_true, ht], (State.Moved.of_idle ha).trans hst hs⟩

theorem finishBr_of_idle {s : State} (h : s.br.job = none) (n : Nat) : finishBr n s = .next s := by
  cases n with
  | zero => rfl
  | succ n => rw [finishBr, h]

theorem finishNb_of_idle {s : State} (h : s.nb.job = none) (n : Nat) : finishNb n s = .next s := by
  cases n with
  | zero => rfl
  | succ n => rw [finishNb, h]

/-- The BitRat engine makes one move and goes on. -/
theorem finishBr_of_action {s t : State} {j : BrJob} {n : Nat} (hj : s.br.job = some j) (hf : j.tierFault = false)
    (ht : brAction j s = .next t) : finishBr (n + 1) s = finishBr n t := by
  simp only [finishBr, hj, hf, Bool.false_eq_true, if_false]
  cases htodo : j.todo with
  | nil =>
    rw [brAction_of_end htodo] at ht
    obtain ⟨k, u, -, -, rfl⟩ := execBrChunkMask_eq_next.mp ht
    exact ht.trans (finishBr_of_idle rfl n).symm
  | cons x rest =>
    rw [brAction_of_item htodo] at ht
    exact congrArg (fun o => andThen o (finishBr n)) ht

/-- The Nibbler engine makes one move and goes on. -/
theorem finishNb_of_action {s t : State} {k : NbJob} {n : Nat} (hk : s.nb.job = some k)
    (ht : nbAction k s = .next t) : finishNb (n + 1) s = finishNb n t := by
  simp only [finishNb, hk]
  cases htodo : k.todo with
  | nil =>
    rw [nbAction_of_end htodo] at ht
    obtain ⟨l, u, -, -, rfl⟩ := execNbHeader_eq_next.mp ht
    exact ht.trans (finishNb_of_idle rfl n).symm
  | cons x rest =>
    rw [nbAction_of_item htodo] at ht
    exact congrArg (fun o => andThen o (finishNb n)) ht

theorem finishBr_moved {s : State} (n : Nat) (hs : s.Ready) :
    ∃ t, finishBr n s = .next t ∧ s.Moved (List.replicate n .br) t := by
  induction n generalizing s with
  | zero => exact ⟨s, rfl, .nil s s.turn s.freeCount⟩
  | succ n ih =>
    cases hj : s.br.job with
    | none =>
      obtain ⟨t, ht, hst⟩ := ih hs
      obtain rfl := next_eq_next.mp ((finishBr_of_idle hj n).symm.trans ht)
      have hidle : t.engineRuns .br = false := by rw [State.engineRuns, hj, Option.isSome_none]
      exact ⟨t, finishBr_of_idle hj _, (State.Moved.of_idle hidle).trans hst hs⟩
    | some j =>
      obtain ⟨u, hu, hsu⟩ := brAction_moved hs hj
      obtain ⟨t, ht, hut⟩ := ih (hsu.ready hs)
      exact ⟨t, (finishBr_of_action hj (hs.br j hj).1 hu).trans ht, hsu.trans hut hs⟩

theorem finishNb_moved {s : State} (n : Nat) (hs : s.Ready) :
    ∃ t, finishNb n s = .next t ∧ s.Moved (List.replicate n .nb) t := by
  induction n generalizing s with
  | zero => exact ⟨s, rfl, .nil s s.turn s.freeCount⟩
  | succ n ih =>
    cases hk : s.nb.job with
    | none =>
      obtain ⟨t, ht, hst⟩ := ih hs
      obtain rfl := next_eq_next.mp ((finishNb_of_idle hk n).symm.trans ht)
      have hidle : t.engineRuns .nb = false := by rw [State.engineRuns, hk, Option.isSome_none]
      exact ⟨t, finishNb_of_idle hk _, (State.Moved.of_idle hidle).trans hst hs⟩
    | some k =>
      obtain ⟨u, hu, hsu⟩ := nbAction_moved hs hk
      obtain ⟨t, ht, hut⟩ := ih (hsu.ready hs)
      exact ⟨t, (finishNb_of_action hk hu).trans ht, hsu.trans hut hs⟩

/-! ## Two orders agree -/

section

variable {s t u : State} {σ τ : List Agent}

theorem State.Moved.br_written {j : BrJob} (h : s.Moved σ t) (hs : s.Ready) (hj : s.br.job = some j)
    (hend : t.br.job = none) : t.br.written.toNat = j.stored.stream.length := by
  obtain ⟨-, hfits, hroom⟩ := hs.br j hj
  have hlen : j.stored.stream.length ≤ spaceSize := (Nat.le_add_left _ _).trans (hfits.trans hroom)
  rw [h.br] at hend ⊢
  rw [BrBank.iterate_written hj hend]
  exact toNat_toWord hlen

theorem State.Moved.nb_written {k : NbJob} (h : s.Moved σ t) (hs : s.Ready) (hk : s.nb.job = some k)
    (hend : t.nb.job = none) : t.nb.written.toNat = (k.stored s.params.nbRunBias).stream.length := by
  obtain ⟨-, hfits, hroom⟩ := hs.nb k hk
  have hlen : (k.stored s.params.nbRunBias).stream.length ≤ spaceSize := (Nat.le_add_left _ _).trans (hfits.trans hroom)
  rw [h.nb] at hend ⊢
  rw [NbBank.iterate_written hk hend]
  exact toNat_toWord hlen

/-- In two states that the same commands have ended in, a specified byte of `OUT` is the same (R75). -/
theorem State.OutAfter.agree {R : Stored → Prop} (ht : s.OutAfter R t) (hu : s.OutAfter R u) {a : Nat}
    (ha : ∀ r, R r → a < r.window.lo + r.stream.length ∨ r.window.hi ≤ a) : t.readOut a = u.readOut a := by
  by_cases hin : ∃ r, R r ∧ r.window.holds a = true
  · obtain ⟨r, hr, hholds⟩ := hin
    simp only [Window.holds, Bool.and_eq_true, decide_eq_true_eq] at hholds
    obtain ⟨hlo, hhi⟩ := hholds
    obtain ⟨i, rfl⟩ := Nat.exists_eq_add_of_le hlo
    have hi : i < r.stream.length := by
      have := ha r hr
      omega
    rw [ht.inside r hr i hi, hu.inside r hr i hi]
  · have hout : ∀ r, R r → r.window.holds a = false := fun r hr =>
      Bool.eq_false_iff.mpr fun hholds => hin ⟨r, hr, hholds⟩
    rw [ht.outside a hout, hu.outside a hout]

/-- Moves that bring the banks to the same bring everything the host can learn to the same. -/
theorem State.Moved.agree (hs : s.Ready) (ht : s.Moved σ t) (hu : s.Moved τ u) (hbr : t.br = u.br)
    (hnb : t.nb = u.nb) (hfx : t.fx = u.fx) : s.AgreeAfter t u := by
  obtain ⟨tinputs, treplies, ttotal, tkept⟩ := ht.host
  obtain ⟨uinputs, ureplies, utotal, ukept⟩ := hu.host
  refine ⟨hbr, hnb, hfx, fun a => ?_, fun a hbrOut hnbOut => ?_, ht.params.trans hu.params.symm,
    tinputs.trans uinputs.symm, treplies.trans ureplies.symm, ttotal.trans utotal.symm, tkept.trans ukept.symm⟩
  · rw [ht.readIn, hu.readIn, hfx]
  · have hended : s.Ended u = s.Ended t := by
      funext r
      rw [State.Ended, State.Ended, hbr, hnb]
    refine ht.readOut.agree (hended ▸ hu.readOut) ?_
    rintro r (⟨hend, j, hj, rfl⟩ | ⟨hend, k, hk, rfl⟩)
    · rw [← ht.br_written hs hj hend]
      exact hbrOut j hj hend
    · rw [← ht.nb_written hs hk hend]
      exact hnbOut k hk hend

/-- The same moves in another order agree. -/
theorem State.Moved.agree_of_perm (hs : s.Ready) (ht : s.Moved σ t) (hu : s.Moved τ u) (h : σ.Perm τ) :
    s.AgreeAfter t u :=
  ht.agree hs hu (by rw [ht.br, hu.br, h.count_eq]) (by rw [ht.nb, hu.nb, h.count_eq])
    (by rw [ht.fx, hu.fx, h.count_eq])

theorem State.Moved.br_eq_of_idle (ht : s.Moved σ t) (hu : s.Moved τ u) (htj : t.br.job = none)
    (huj : u.br.job = none) : t.br = u.br := by
  rw [ht.br] at htj ⊢
  rw [hu.br] at huj ⊢
  exact iterate_eq_of_fixed (BrBank.next_of_idle htj) (BrBank.next_of_idle huj)

theorem State.Moved.nb_eq_of_idle (ht : s.Moved σ t) (hu : s.Moved τ u) (htj : t.nb.job = none)
    (huj : u.nb.job = none) : t.nb = u.nb := by
  rw [ht.nb] at htj ⊢
  rw [hu.nb] at huj ⊢
  exact iterate_eq_of_fixed (NbBank.next_of_idle htj) (NbBank.next_of_idle huj)

theorem State.Moved.fx_eq_of_idle (ht : s.Moved σ t) (hu : s.Moved τ u) (htj : t.fx.job = none)
    (huj : u.fx.job = none) : t.fx = u.fx := by
  rw [ht.fx] at htj ⊢
  rw [hu.fx] at huj ⊢
  exact iterate_eq_of_fixed (FxBank.next_of_idle htj) (FxBank.next_of_idle huj)

/-- Any moves that bring every command to its end agree. -/
theorem State.Moved.agree_of_quiet (hs : s.Ready) (ht : s.Moved σ t) (hu : s.Moved τ u) (htq : t.Quiet)
    (huq : u.Quiet) : s.AgreeAfter t u := by
  obtain ⟨tbr, tnb, tfx⟩ := htq
  obtain ⟨ubr, unb, ufx⟩ := huq
  exact ht.agree hs hu (ht.br_eq_of_idle hu tbr ubr) (ht.nb_eq_of_idle hu tnb unb) (ht.fx_eq_of_idle hu tfx ufx)

end

/-- Settles O60: either pair of orders has made the same moves, or moves past which nothing moves. -/
theorem engineOrderIsFree : Obligations.EngineOrderIsFree := by
  unfold Obligations.EngineOrderIsFree
  intro s hinv hfatal hfits
  have hs := State.Ready.of_invariants hinv hfatal hfits
  refine ⟨fun σ τ hperm => ?_, fun σ τ t u ht hu htq huq => ?_⟩
  · obtain ⟨t, ht, hst⟩ := runEngines_moved σ hs
    obtain ⟨u, hu, hsu⟩ := runEngines_moved τ hs
    exact ⟨t, u, ht, hu, hst.agree_of_perm hs hsu hperm⟩
  · obtain ⟨t', ht', hst⟩ := runEngines_moved σ hs
    obtain rfl := next_eq_next.mp (ht.symm.trans ht')
    obtain ⟨u', hu', hsu⟩ := runEngines_moved τ hs
    obtain rfl := next_eq_next.mp (hu.symm.trans hu')
    exact hst.agree_of_quiet hs hsu htq huq

theorem brMovesLeft_congr {s t : State} (h : t.br = s.br) : t.brMovesLeft = s.brMovesLeft := by
  rw [State.brMovesLeft, State.brMovesLeft, h]

theorem nbMovesLeft_congr {s t : State} (h : t.nb = s.nb) : t.nbMovesLeft = s.nbMovesLeft := by
  rw [State.nbMovesLeft, State.nbMovesLeft, h]

/-- Settles O59: the two orders have the same moves. -/
theorem enginesDoNotInterfere : Obligations.EnginesDoNotInterfere := by
  unfold Obligations.EnginesDoNotInterfere
  intro s hinv hfatal hfits
  have hs := State.Ready.of_invariants hinv hfatal hfits
  obtain ⟨x, hx, hsx⟩ := finishBr_moved s.brMovesLeft hs
  obtain ⟨t, ht, hxt⟩ := finishNb_moved x.nbMovesLeft (hsx.ready hs)
  obtain ⟨y, hy, hsy⟩ := finishNb_moved s.nbMovesLeft hs
  obtain ⟨u, hu, hyu⟩ := finishBr_moved y.brMovesLeft (hsy.ready hs)
  refine ⟨t, u, by rw [hx, andThen_next, ht], by rw [hy, andThen_next, hu], ?_⟩
  have hxnb : x.nb = s.nb := by rw [hsx.nb, List.count_replicate]; rfl
  have hybr : y.br = s.br := by rw [hsy.br, List.count_replicate]; rfl
  rw [nbMovesLeft_congr hxnb] at hxt
  rw [brMovesLeft_congr hybr] at hyu
  obtain ⟨hbr, hnb, hfx, hin, hout, -⟩ :=
    (hsx.trans hxt hs).agree_of_perm hs (hsy.trans hyu hs) List.perm_append_comm
  exact ⟨hbr, hnb, hfx, hin, fun a hj hk => hout a (fun j h _ => hj j h) (fun k h _ => hk k h)⟩

end Sys2Proof.Machine

/-! The encodings (R90 to R115): the decoder and the encoder are inverse to one another. O1, O2, O3, O4. -/

namespace Sys2Proof.Machine

/-! ## Fields of a word -/

section

variable {m n : Nat}

theorem toNat_append_eq (x : BitVec m) (y : BitVec n) : (x ++ y).toNat = x.toNat * 2 ^ n + y.toNat := by
  rw [BitVec.toNat_append, ← Nat.shiftLeft_add_eq_or_of_lt y.isLt, Nat.shiftLeft_eq]

theorem toNat_extract (x : BitVec n) (start len : Nat) :
    (x.extractLsb' start len).toNat = x.toNat / 2 ^ start % 2 ^ len := by
  rw [BitVec.extractLsb'_toNat, Nat.shiftRight_eq_div_pow]

theorem extract_low (x : BitVec m) (y : BitVec n) : (x ++ y).extractLsb' 0 n = y :=
  (BitVec.extractLsb'_append_eq_of_add_le (by omega)).trans BitVec.extractLsb'_eq_self

theorem extract_high (x : BitVec m) (y : BitVec n) : (x ++ y).extractLsb' n m = x :=
  (BitVec.extractLsb'_append_eq_of_le (Nat.le_refl n)).trans (by rw [Nat.sub_self, BitVec.extractLsb'_eq_self])

theorem append_extract (x : BitVec (m + n)) : x.extractLsb' n m ++ x.extractLsb' 0 n = x :=
  (BitVec.extractLsb'_append_extractLsb'_eq_extractLsb' (by omega)).trans BitVec.extractLsb'_eq_self

/-- Bits set above a number are added to it. -/
theorem or_eq_add (a : Nat) {i b : Nat} (hb : b < 2 ^ i) : a * 2 ^ i ||| b = a * 2 ^ i + b := by
  rw [← Nat.shiftLeft_eq, Nat.shiftLeft_add_eq_or_of_lt hb]

end

/-! ## Length fields (R109, R115) -/

/-- The nibbles of the length field of `v` as numbers, first to last (R109). -/
def fieldCodes (v : Nat) : List Nat :=
  if v ≤ 7 then [v]
  else if v ≤ 71 then [8 + (v - 8) / 16, (v - 8) % 16]
  else [12 + (v - 8) / 4096, (v - 8) / 256 % 16, (v - 8) / 16 % 16, (v - 8) % 16]

theorem field4Nibbles_codes (v : BitVec 3) : (field4Nibbles v).map BitVec.toNat = [v.toNat] := by
  rw [field4Nibbles, List.map_singleton]
  exact congrArg (fun k => [k]) ((toNat_append_eq 0#1 v).trans (by simp))

theorem field8Nibbles_codes (w : BitVec 6) :
    (field8Nibbles w).map BitVec.toNat = [8 + w.toNat / 16, w.toNat % 16] := by
  simp only [field8Nibbles, List.map_cons, List.map_nil, toNat_append_eq, toNat_extract, List.cons.injEq, and_true]
  simp
  omega

theorem field16Nibbles_codes (w : BitVec 13) :
    (field16Nibbles w).map BitVec.toNat =
      [12 + w.toNat / 4096, w.toNat / 256 % 16, w.toNat / 16 % 16, w.toNat % 16] := by
  simp only [field16Nibbles, List.map_cons, List.map_nil, toNat_append_eq, toNat_extract, List.cons.injEq, and_true]
  simp
  omega

theorem fieldNibbles_codes {v : Nat} (hv : v ≤ nbLenMax) : (fieldNibbles v).map BitVec.toNat = fieldCodes v := by
  simp only [nbLenMax] at hv
  unfold fieldNibbles fieldCodes
  split_ifs
  · rw [field4Nibbles_codes, BitVec.toNat_ofNat, Nat.mod_eq_of_lt (by omega)]
  · rw [field8Nibbles_codes, BitVec.toNat_ofNat, Nat.mod_eq_of_lt (by omega)]
  · rw [field16Nibbles_codes, BitVec.toNat_ofNat, Nat.mod_eq_of_lt (by omega)]

theorem lenNibbles_codes {v : Nat} (hv : v ≤ nbLenMax) : (lenNibbles v).map BitVec.toNat = fieldCodes v := by
  simp only [nbLenMax] at hv
  unfold lenNibbles fieldCodes
  split_ifs
  · simp only [lenNibbles4, List.map_cons, List.map_nil, BitVec.toNat_ofNat, List.cons.injEq, and_true]
    omega
  · have hor : 128 ||| (v - 8) = 128 + (v - 8) := or_eq_add 1 (i := 7) (by omega)
    simp only [lenNibbles8, List.map_cons, List.map_nil, toNat_extract, BitVec.toNat_or, BitVec.toNat_ofNat,
      Nat.reducePow, Nat.reduceMod, Nat.mod_eq_of_lt (show v - 8 < 256 by omega), hor, List.cons.injEq, and_true]
    omega
  · have hor : 49152 ||| (v - 8) = 49152 + (v - 8) := or_eq_add 3 (i := 14) (by omega)
    simp only [lenNibbles16, List.map_cons, List.map_nil, toNat_extract, BitVec.toNat_or, BitVec.toNat_ofNat,
      Nat.reducePow, Nat.reduceMod, Nat.mod_eq_of_lt (show v - 8 < 65536 by omega), hor, List.cons.injEq, and_true]
    omega

theorem map_toNat_injective : Function.Injective (List.map (BitVec.toNat (w := 4))) :=
  List.map_injective_iff.mpr fun _ _ => BitVec.eq_of_toNat_eq

/-- The writer's nibbles are the encoder's (R109, R173). -/
theorem lenNibbles_eq_fieldNibbles {v : Nat} (hv : v ≤ nbLenMax) : lenNibbles v = fieldNibbles v :=
  map_toNat_injective ((lenNibbles_codes hv).trans (fieldNibbles_codes hv).symm)

theorem decodeField_field4 (v : BitVec 3) : decodeField (field4Nibbles v) = .ok (.lenField4 v) := by
  revert v
  decide

theorem decodeField_field8 (w : BitVec 6) : decodeField (field8Nibbles w) = .ok (.lenField8 w) := by
  have hcount (x : BitVec 2) : fieldNibbleCount (2#2 ++ x) = 2 := by revert x; decide
  simp only [field8Nibbles, decodeField, hcount, if_pos]
  congr 2
  rw [extract_low]
  exact append_extract (m := 2) (n := 4) w

theorem decodeField_field16 {w : BitVec 13} (hw : w.toNat ≤ 8183) :
    decodeField (field16Nibbles w) = .ok (.lenField16 w) := by
  have hcount (x : BitVec 1) :
      fieldNibbleCount (6#3 ++ x) = 4 ∧ (6#3 ++ x : Nibble).extractLsb' 1 1 ≠ 1#1 := by revert x; decide
  have hjoin : (6#3 ++ w.extractLsb' 12 1 : Nibble).extractLsb' 0 1 ++ w.extractLsb' 8 4 ++ w.extractLsb' 4 4
      ++ w.extractLsb' 0 4 = w := by
    refine BitVec.eq_of_toNat_eq ?_
    simp only [extract_low, toNat_append_eq, toNat_extract]
    omega
  simp only [field16Nibbles, decodeField, (hcount _).1, (hcount _).2, if_pos, if_false, hjoin, hw]

/-- A field has one encoding, the nibbles it was read from, and is well formed. -/
theorem encode_decodeField (bias : Nat) {ns : List Nibble} {f : NbItem} (h : decodeField ns = .ok f) :
    encode bias f.instr = .nbField ns ∧ f.instr.wellFormed = true := by
  unfold decodeField at h
  split at h
  · rename_i a
    split at h
    · rename_i hcount
      cases h
      have ha : fieldNibbleCount a = 1 → a = 0#1 ++ a.extractLsb' 0 3 := by revert a; decide
      refine ⟨congrArg Wire.nbField ?_, rfl⟩
      rw [field4Nibbles, ← ha hcount]
    · cases h
  · rename_i a b
    split at h
    · rename_i hcount
      cases h
      have ha : fieldNibbleCount a = 2 → a = 2#2 ++ a.extractLsb' 0 2 := by clear hcount; revert a; decide
      refine ⟨congrArg Wire.nbField ?_, rfl⟩
      rw [field8Nibbles, extract_high, extract_low, ← ha hcount]
    · cases h
  · rename_i a b c d
    dsimp only at h
    split_ifs at h with hcount hbit hw
    cases h
    have ha : fieldNibbleCount a = 4 → a.extractLsb' 1 1 ≠ 1#1 → a.toNat = 12 + (a.extractLsb' 0 1).toNat := by
      clear hcount hbit hw; revert a; decide
    refine ⟨congrArg Wire.nbField (map_toNat_injective ?_), decide_eq_true hw⟩
    rw [field16Nibbles_codes]
    simp only [List.map_cons, List.map_nil, toNat_append_eq, ha hcount hbit, List.cons.injEq, and_true]
    omega
  · cases h

/-- The field of a value reads back as the value. -/
theorem decodeField_fieldNibbles {v : Nat} (hv : v ≤ nbLenMax) :
    ∃ f, decodeField (fieldNibbles v) = .ok f ∧ fieldValue f = v := by
  simp only [nbLenMax] at hv
  unfold fieldNibbles
  split_ifs
  · exact ⟨_, decodeField_field4 _, Nat.mod_eq_of_lt (show v < 8 by omega)⟩
  · refine ⟨_, decodeField_field8 _, ?_⟩
    rw [fieldValue, BitVec.toNat_ofNat]
    omega
  · have hlt : (BitVec.ofNat 13 (v - 8)).toNat = v - 8 := Nat.mod_eq_of_lt (show v - 8 < 8192 by omega)
    refine ⟨_, decodeField_field16 (by rw [hlt]; omega), ?_⟩
    rw [fieldValue, hlt]
    omega


theorem fieldNibbles_length (v : Nat) : (fieldNibbles v).length = if v ≤ 7 then 1 else if v ≤ 71 then 2 else 4 := by
  unfold fieldNibbles
  split_ifs <;> rfl

/-- The first nibble of a field announces how many there are (R115). -/
theorem fieldNibbleCount_fieldNibbles {v : Nat} (hv : v ≤ nbLenMax) :
    fieldNibbleCount ((fieldNibbles v).headD 0#4) = (fieldNibbles v).length := by
  have hhead : ((fieldNibbles v).headD 0#4).toNat = (fieldCodes v).headD 0 := by
    rw [← fieldNibbles_codes hv]
    cases fieldNibbles v <;> rfl
  rw [fieldNibbles_length, fieldNibbleCount, hhead, fieldCodes]
  simp only [nbLenMax] at hv
  split_ifs <;> simp only [List.headD_cons] at * <;> omega

/-- Settles O4: the fields of the writer and of the decoder, tier by tier. -/
theorem fieldRoundTrip : Obligations.FieldRoundTrip := by
  unfold Obligations.FieldRoundTrip
  intro v hv
  exact ⟨lenNibbles_eq_fieldNibbles hv, decodeField_fieldNibbles hv, (fieldNibbleCount_fieldNibbles hv).symm,
    fieldNibbles_length v⟩

/-! ## Register offsets and command words (R22, R90, R223) -/

theorem offsetError_eq_none {off : Word} : offsetError off = none ↔ isRegOffset off = true := by
  unfold offsetError isRegOffset
  split_ifs with halign hrange <;> simp_all

theorem isCmdOffset_eq_false {off : Word} :
    isCmdOffset off = false ↔ off ≠ 0x000#32 ∧ off ≠ 0x100#32 ∧ off ≠ 0x200#32 := by
  simp [isCmdOffset, and_assoc]

@[simp] theorem cmdOp_cmdWord (op : BitVec 3) (ign : BitVec 29) : cmdOp (cmdWord op ign) = op := extract_low ign op

@[simp] theorem cmdIgnored_cmdWord (op : BitVec 3) (ign : BitVec 29) : cmdIgnored (cmdWord op ign) = ign :=
  extract_high ign op

theorem cmdWord_fields (v : Word) : cmdWord (cmdOp v) (cmdIgnored v) = v := append_extract (m := 29) (n := 3) v

/-- What a word decodes to in a command register encodes to that word there, and is well formed (R90 to R92). -/
theorem encode_decodeBrCmd (bias : Nat) (v : Word) :
    encode bias (decodeBrCmd v) = .host (.write 0x000#32 v) ∧ (decodeBrCmd v).wellFormed = true := by
  have hword := cmdWord_fields v
  unfold decodeBrCmd
  split_ifs with h1 h2
  · rw [h1] at hword
    exact ⟨by rw [encode, hword], rfl⟩
  · rw [h2] at hword
    exact ⟨by rw [encode, hword], rfl⟩
  · exact ⟨by rw [encode, hword], by simp [Instr.wellFormed, h1, h2]⟩

theorem encode_decodeNbCmd (bias : Nat) (v : Word) :
    encode bias (decodeNbCmd v) = .host (.write 0x100#32 v) ∧ (decodeNbCmd v).wellFormed = true := by
  have hword := cmdWord_fields v
  unfold decodeNbCmd
  split_ifs with h1
  · rw [h1] at hword
    exact ⟨by rw [encode, hword], rfl⟩
  · exact ⟨by rw [encode, hword], by simp [Instr.wellFormed, h1]⟩

theorem encode_decodeFxCmd (bias : Nat) (v : Word) :
    encode bias (decodeFxCmd v) = .host (.write 0x200#32 v) ∧ (decodeFxCmd v).wellFormed = true := by
  have hword := cmdWord_fields v
  unfold decodeFxCmd
  split_ifs with h1
  · rw [h1] at hword
    exact ⟨by rw [encode, hword], rfl⟩
  · exact ⟨by rw [encode, hword], by simp [Instr.wellFormed, h1]⟩

/-! ## Host operations -/

theorem decodeHostOp_write {off v : Word} (h : isRegOffset off = true) :
    decodeHostOp (.write off v) =
      if off = 0x000#32 then .ok (decodeBrCmd v)
      else if off = 0x100#32 then .ok (decodeNbCmd v)
      else if off = 0x200#32 then .ok (decodeFxCmd v)
      else .ok (.regwr off v) := by
  simp only [decodeHostOp, offsetError_eq_none.mpr h]

theorem decodeHostOp_read {off : Word} (h : isRegOffset off = true) : decodeHostOp (.read off) = .ok (.regrd off) := by
  simp only [decodeHostOp, offsetError_eq_none.mpr h]

/-- What a host operation decodes to encodes to that operation, and is well formed. -/
theorem encode_decodeHostOp (bias : Nat) {op : HostOp} {i : Instr} (h : decodeHostOp op = .ok i) :
    encode bias i = .host op ∧ i.wellFormed = true := by
  cases op with
  | write off v =>
    cases hoff : offsetError off with
    | some e => simp [decodeHostOp, hoff] at h
    | none =>
      have hreg := offsetError_eq_none.mp hoff
      rw [decodeHostOp_write hreg] at h
      split_ifs at h with hbr hnb hfx <;> cases h
      · exact hbr ▸ encode_decodeBrCmd bias v
      · exact hnb ▸ encode_decodeNbCmd bias v
      · exact hfx ▸ encode_decodeFxCmd bias v
      · exact ⟨rfl, by simp [Instr.wellFormed, hreg, isCmdOffset_eq_false.mpr ⟨hbr, hnb, hfx⟩]⟩
  | read off =>
    cases hoff : offsetError off with
    | some e => simp [decodeHostOp, hoff] at h
    | none =>
      have hreg := offsetError_eq_none.mp hoff
      rw [decodeHostOp_read hreg] at h
      cases h
      exact ⟨rfl, hreg⟩
  | compress codec a n => cases codec <;> cases h <;> exact ⟨rfl, rfl⟩

/-! ## The header (R106) -/

theorem decodeMark_encodeMark (m : Mark) : decodeMark (encodeMark m) = some m := by cases m <;> rfl

theorem encodeMark_decodeMark {b : BitVec 2} {m : Mark} (h : decodeMark b = some m) : encodeMark m = b := by
  revert b m
  decide

theorem headerWord_join (h : BitVec 16) : h.extractLsb' 8 8 ++ h.extractLsb' 0 8 = h :=
  append_extract (m := 8) (n := 8) h

theorem decodeHeader_encodeHeader {mark : Mark} {n : BitVec 14} (hn : n.toNat ≤ 8194) :
    decodeHeader (encodeHeader mark n) = .ok (.nbHeader mark n) := by
  simp only [encodeHeader, decodeHeader, headerWord_join]
  rw [extract_high, extract_low, decodeMark_encodeMark]
  exact if_pos hn

theorem encodeHeader_of_decode {hi lo : Byte} {i : Instr} (h : decodeHeader [hi, lo] = .ok i) :
    ∃ mark n, i = .nbHeader mark n ∧ n.toNat ≤ 8194 ∧ encodeHeader mark n = [hi, lo] := by
  simp only [decodeHeader] at h
  split at h
  · cases h
  · rename_i mark hmark
    split_ifs at h with hlen
    cases h
    refine ⟨_, _, rfl, hlen, ?_⟩
    have hjoin : encodeMark mark ++ (hi ++ lo : BitVec 16).extractLsb' 0 14 = hi ++ lo := by
      rw [encodeMark_decodeMark hmark]
      exact append_extract (m := 2) (n := 14) (hi ++ lo : BitVec 16)
    simp only [encodeHeader, hjoin]
    rw [extract_high, extract_low]

/-! ## Masks of the BitRat stream (R96 to R100) -/

theorem append_eq_zero (a b : Nibble) : (a ++ b : Byte) = 0#8 ↔ a = 0#4 ∧ b = 0#4 := by
  revert a b
  decide

theorem decode_brPairMask {a b : Nibble} (h : a ≠ 0#4 ∨ b ≠ 0#4) :
    decodeBrByte .pairMask (a ++ b) = .ok (.brPairMask a b) := by
  rw [decodeBrByte, if_neg (by rw [append_eq_zero]; tauto), extract_high, extract_low]

theorem encode_decodeBrByte (bias : Nat) {place : BrPlace} {b : Byte} {i : Instr} (h : decodeBrByte place b = .ok i) :
    encode bias i = .brByte place b ∧ i.wellFormed = true := by
  cases place with
  | pairMask =>
    rw [decodeBrByte] at h
    split_ifs at h with hb
    cases h
    have hjoin : (b.extractLsb' 4 4 ++ b.extractLsb' 0 4 : Byte) = b := append_extract (m := 4) (n := 4) b
    have hzero := append_eq_zero (b.extractLsb' 4 4) (b.extractLsb' 0 4)
    rw [hjoin] at hzero
    refine ⟨by rw [encode, hjoin], ?_⟩
    simp only [Instr.wellFormed, Bool.or_eq_true, bne_iff_ne]
    tauto
  | groupMask | tailPairMask | sectionMask =>
    rw [decodeBrByte] at h
    split_ifs at h with hb
    cases h
    exact ⟨rfl, bne_iff_ne.mpr hb⟩
  | chunkMask | literal =>
    cases h
    exact ⟨rfl, rfl⟩

theorem encode_decodeBrBlock (bias : Nat) {bytes : List Byte} {i : Instr} (h : decodeBrBlock bytes = .ok i) :
    encode bias i = .brBlock bytes ∧ i.wellFormed = true := by
  cases bytes with
  | nil => cases h
  | cons flag raw =>
    rw [decodeBrBlock] at h
    split_ifs at h with hform
    cases h
    obtain ⟨rfl, hlen⟩ := hform
    exact ⟨rfl, beq_iff_eq.mpr hlen⟩

/-! ## All of it -/

theorem decodeRun_fieldNibbles {bias n : Nat} (hbias : bias ≤ nbRunMin) (hlo : 3 ≤ n) (hhi : n ≤ nbLenMax) :
    decodeRun bias (fieldNibbles (n - bias)) = .ok (.nbRun n) := by
  simp only [nbRunMin, nbLenMax] at hbias hhi
  obtain ⟨f, hf, hv⟩ := decodeField_fieldNibbles (v := n - bias) (by simp only [nbLenMax]; omega)
  have hn : fieldValue f + bias = n := by omega
  simp only [decodeRun, hf, hn]
  exact if_neg (by omega)

theorem decodeLiterals_fieldNibbles {bytes : List Byte} (hlo : 1 ≤ bytes.length) (hhi : bytes.length ≤ 8192) :
    decodeLiterals (fieldNibbles (bytes.length - 1)) bytes = .ok (.nbLitRun bytes) := by
  obtain ⟨f, hf, hv⟩ := decodeField_fieldNibbles (v := bytes.length - 1) (by simp only [nbLenMax]; omega)
  simp only [decodeLiterals, hf]
  exact if_pos (by omega)

/-- Settles O2: constructor by constructor, each by the round trip of its part of the encoding. -/
theorem decodeEncodeAgree : Obligations.DecodeEncodeAgree := by
  unfold Obligations.DecodeEncodeAgree
  intro bias i hbias hwf
  cases i with
  | brFull ign | brPart ign =>
    rw [encode, decode, decodeHostOp_write (by decide), if_pos rfl, decodeBrCmd, cmdOp_cmdWord, cmdIgnored_cmdWord]
    rfl
  | nbEnc ign =>
    rw [encode, decode, decodeHostOp_write (by decide)]
    simp [decodeNbCmd]
  | fxFixlast ign =>
    rw [encode, decode, decodeHostOp_write (by decide)]
    simp [decodeFxCmd]
  | reservedBr op ign =>
    simp only [Instr.wellFormed, Bool.and_eq_true, bne_iff_ne] at hwf
    rw [encode, decode, decodeHostOp_write (by decide)]
    simp [decodeBrCmd, hwf]
  | reservedNb op ign =>
    have hop : op ≠ 1#3 := bne_iff_ne.mp hwf
    rw [encode, decode, decodeHostOp_write (by decide)]
    simp [decodeNbCmd, hop]
  | reservedFx op ign =>
    have hop : op ≠ 1#3 := bne_iff_ne.mp hwf
    rw [encode, decode, decodeHostOp_write (by decide)]
    simp [decodeFxCmd, hop]
  | regwr off v =>
    simp only [Instr.wellFormed, Bool.and_eq_true, Bool.not_eq_true'] at hwf
    obtain ⟨hreg, hcmd⟩ := hwf
    obtain ⟨hbr, hnb, hfx⟩ := isCmdOffset_eq_false.mp hcmd
    rw [encode, decode, decodeHostOp_write hreg, if_neg hbr, if_neg hnb, if_neg hfx]
  | regrd off => exact decodeHostOp_read hwf
  | compressBr a n | compressNb a n => rfl
  | brGroupMask g | brTailPairMask g | brSectionMask g => exact if_neg (bne_iff_ne.mp hwf)
  | brPairMask a b =>
    simp only [Instr.wellFormed, Bool.or_eq_true, bne_iff_ne] at hwf
    exact decode_brPairMask hwf
  | brChunkMask m | brLiteral m => rfl
  | brEscapeBlock raw => exact if_pos ⟨rfl, beq_iff_eq.mp hwf⟩
  | nbHeader mark n => exact decodeHeader_encodeHeader (of_decide_eq_true hwf)
  | nbLenField4 v => rw [encode, decode, decodeField_field4]; rfl
  | nbLenField8 w => rw [encode, decode, decodeField_field8]; rfl
  | nbLenField16 w => rw [encode, decode, decodeField_field16 (of_decide_eq_true hwf)]; rfl
  | nbRun n =>
    simp only [Instr.wellFormed, Bool.and_eq_true, decide_eq_true_eq] at hwf
    exact decodeRun_fieldNibbles hbias hwf.1 hwf.2
  | nbLitRun bytes =>
    simp only [Instr.wellFormed, Bool.and_eq_true, decide_eq_true_eq] at hwf
    exact decodeLiterals_fieldNibbles hwf.1 hwf.2

/-- Settles O3: place by place, each by the round trip of its part of the decoder. -/
theorem encodeDecodeAgree : Obligations.EncodeDecodeAgree := by
  unfold Obligations.EncodeDecodeAgree
  intro bias w i h hrun hlits
  cases w with
  | host op => exact encode_decodeHostOp bias h
  | brByte place b => exact encode_decodeBrByte bias h
  | brBlock bytes => exact encode_decodeBrBlock bias h
  | nbHead bytes =>
    rw [decode] at h
    match bytes, h with
    | [hi, lo], h =>
      obtain ⟨mark, n, rfl, hn, henc⟩ := encodeHeader_of_decode h
      exact ⟨congrArg _ henc, decide_eq_true hn⟩
  | nbField ns =>
    rw [decode] at h
    split at h
    · cases h
    · rename_i f hf
      cases h
      exact encode_decodeField bias hf
  | nbRunField ns => exact absurd rfl (hrun ns)
  | nbLiterals ns bytes => exact absurd rfl (hlits ns bytes)

/-- Settles O1: the decoder evaluated on each word. -/
theorem sampleWordsDecode : Obligations.SampleWordsDecode := by
  unfold Obligations.SampleWordsDecode
  decide

end Sys2Proof.Machine

/-! The reader of R118 gives back what the BitRat encoder was given: every tier reads back its own sub-unit, and the
tiers above put the sub-units together. O43. -/

namespace Sys2Proof.Machine

/-! ## Bits of a mask (R7) -/

@[simp] theorem maskHas_zero (i : Nat) : maskHas 0x00#8 i = false := by simp [maskHas]

@[simp] theorem maskHas_or (g h : Byte) (i : Nat) : maskHas (g ||| h) i = (maskHas g i || maskHas h i) := by
  simp [maskHas]

theorem maskHas_of_le (g : Byte) {i : Nat} (hi : 8 ≤ i) : maskHas g i = false := BitVec.getMsbD_of_ge g i hi

theorem maskHas_maskBit (p : Bool) {i : Nat} (hi : i < 8) (j : Nat) :
    maskHas (maskBit p i) j = (p && decide (i = j)) := by
  by_cases hj : j < 8
  · have hall : ∀ p : Bool, ∀ i < 8, ∀ j < 8, maskHas (maskBit p i) j = (p && decide (i = j)) := by decide
    exact hall p i hi j hj
  · rw [maskHas_of_le _ (by omega), decide_eq_false (by omega), Bool.and_false]

theorem eq_zero_of_maskHas {g : Byte} (h : ∀ j, maskHas g j = false) : g = 0x00#8 :=
  BitVec.eq_of_getMsbD_eq fun j _ => (h j).trans (maskHas_zero j).symm

/-- No bit of the mask is 1 from bit `units` on if no sub-unit from there on is present. -/
theorem and_ones_shift_eq_zero {g : Byte} {units : Nat} (h : ∀ j, units ≤ j → maskHas g j = false) :
    g &&& (0xFF#8 >>> units) = 0x00#8 := by
  refine BitVec.eq_of_getMsbD_eq fun i hi => ?_
  have hones : (0xFF#8).getMsbD (i - units) = true := by
    have hall : ∀ i < 8, (0xFF#8).getMsbD i = true := by decide
    exact hall _ (by omega)
  have hg := h i
  simp only [maskHas] at hg
  by_cases hunits : units ≤ i
  · simp [hg hunits]
  · simp [hunits]

/-! ## Reading one mask -/

/-- What a tier puts into the stream if its mask is `g` and its sub-units put `bytes`. -/
structure Tier.Masked (t : Tier) (g : Byte) (bytes : List Byte) : Prop where
  present : t.present = (g != 0x00#8)
  stream : brBytes t.items = maskBytes g ++ bytes

/-- A tier that writes its mask and its items if the mask is not zero, and nothing otherwise. -/
theorem Tier.masked_ite {g : Byte} {items : List BrItem} {x : BrItem} {m m' : Byte} (hx : brItemBytes x = maskBytes g)
    (hsilent : g = 0x00#8 → items = []) :
    Tier.Masked (if g = 0x00#8 then { present := false, items := [], m := m }
      else { present := true, items := x :: items, m := m' }) g (brBytes items) := by
  split
  · rename_i hg
    exact ⟨by simp [hg], by simp [hg, hsilent hg, maskBytes]⟩
  · rename_i hg
    exact ⟨by simp [hg], by rw [brBytes_cons, hx]⟩

/-- A tier of that form that is not present writes nothing. -/
theorem Tier.silent_ite {g : Byte} {items : List BrItem} {m m' : Byte}
    (h : Tier.present (if g = 0x00#8 then { present := false, items := [], m := m }
      else { present := true, items := items, m := m' }) = false) :
    Tier.items (if g = 0x00#8 then { present := false, items := [], m := m }
      else { present := true, items := items, m := m' }) = [] := by
  by_cases hg : g = 0x00#8
  · rw [if_pos hg]
  · rw [if_neg hg] at h
    cases h

theorem Tier.Masked.readMask {t : Tier} {g : Byte} {bytes : List Byte} (h : t.Masked g bytes) {units : Nat}
    (hbits : ∀ j, units ≤ j → maskHas g j = false) (st : List Byte) :
    readMask t.present units (brBytes t.items ++ st) = some (g, bytes ++ st) := by
  rw [h.present, h.stream]
  by_cases hg : g = 0x00#8
  · simp [Sys2Proof.Machine.readMask, maskBytes, hg]
  · simp [Sys2Proof.Machine.readMask, maskBytes, hg, and_ones_shift_eq_zero hbits]

/-! ## Walks -/

/-- A unit that is not present adds nothing to the stream (R130). -/
def SilentIfAbsent (f : List Byte → Byte → Tier) : Prop := ∀ d m, (f d m).present = false → (f d m).items = []

/-- Reading what `f` wrote of the sub-unit `d` gives `d` back. -/
def ReadsBack (r : Bool → Byte → List Byte → Option Read) (f : List Byte → Byte → Tier) (d : List Byte) : Prop :=
  ∀ m st, r (f d m).present m (brBytes (f d m).items ++ st) = some { out := d, m := (f d m).m, rest := st }

section

variable {f g : List Byte → Byte → Tier} {r : Bool → Byte → List Byte → Option Read}

/-- A walk sets bits of its own sub-units only. -/
theorem maskHas_walk_outside {ds : List (List Byte)} {i j : Nat} {m : Byte} (hlen : i + ds.length ≤ 8)
    (hj : j < i ∨ i + ds.length ≤ j) : maskHas (walk f ds i m).mask j = false := by
  induction ds generalizing i m with
  | nil => exact maskHas_zero j
  | cons d ds ih =>
    rw [List.length_cons] at hlen hj
    rw [walk, maskHas_or, maskHas_maskBit _ (by omega), ih (by omega) (by omega), decide_eq_false (by omega)]
    simp

theorem maskHas_walk_cons {d : List Byte} {ds : List (List Byte)} {i : Nat} {m : Byte} (hlen : i + ds.length < 8) :
    maskHas (walk f (d :: ds) i m).mask i = (f d m).present := by
  rw [walk, maskHas_or, maskHas_maskBit _ (by omega), maskHas_walk_outside (by omega) (by omega)]
  simp

theorem walk_silent (hf : SilentIfAbsent f) {ds : List (List Byte)} {i : Nat} {m : Byte} (hlen : i + ds.length ≤ 8)
    (h : (walk f ds i m).mask = 0x00#8) : (walk f ds i m).items = [] := by
  induction ds generalizing i m with
  | nil => rfl
  | cons d ds ih =>
    rw [List.length_cons] at hlen
    have hd : (f d m).present = false := by
      rw [← maskHas_walk_cons (show i + ds.length < 8 by omega), h, maskHas_zero]
    rw [walk] at h ⊢
    dsimp only at h ⊢
    rw [hf d m hd, ih (by omega) (BitVec.or_eq_zero_iff.mp h).2, List.append_nil]

/-- The reader of a walk is given a mask that has the walk's bits for its sub-units. -/
theorem readUnits_walk {mask : Byte} {ds : List (List Byte)} {i : Nat} {m : Byte} (st : List Byte)
    (hr : ∀ d ∈ ds, ReadsBack r f d) (hlen : i + ds.length ≤ 8)
    (hmask : ∀ j, i ≤ j → j < i + ds.length → maskHas mask j = maskHas (walk f ds i m).mask j) :
    readUnits r mask ds.length i m (brBytes (walk f ds i m).items ++ st) =
      some { out := ds.flatten, m := (walk f ds i m).m, rest := st } := by
  induction ds generalizing i m with
  | nil => rfl
  | cons d ds ih =>
    obtain ⟨hd, hds⟩ := List.forall_mem_cons.mp hr
    rw [List.length_cons] at hlen hmask ⊢
    have hhead : maskHas mask i = (f d m).present :=
      (hmask i (Nat.le_refl i) (by omega)).trans (maskHas_walk_cons (by omega))
    have hrest (j : Nat) (hij : i + 1 ≤ j) (hj : j < i + 1 + ds.length) :
        maskHas mask j = maskHas (walk f ds (i + 1) (f d m).m).mask j := by
      rw [hmask j (by omega) (by omega), walk, maskHas_or, maskHas_maskBit _ (by omega), decide_eq_false (by omega),
        Bool.and_false, Bool.false_or]
    have hih := ih hds (i := i + 1) (m := (f d m).m) (by omega) hrest
    simp only [readUnits, walk, brBytes_append, List.append_assoc, hhead, hd m, hih, List.flatten_cons]

/-! ## Walks with a shorter last sub-unit -/

theorem length_eq_of_mem_pieces {k c : Nat} {d p : List Byte} (hd : k * c ≤ d.length) (h : p ∈ pieces k c d) :
    p.length = k := by
  induction c generalizing d with
  | zero => cases h
  | succ c ih =>
    rw [Nat.mul_succ] at hd
    obtain rfl | h := List.mem_cons.mp h
    · exact List.length_take_of_le (by omega)
    · exact ih (by rw [List.length_drop]; omega) h

variable {k : Nat} {d : List Byte} {m : Byte}

/-- The walk over the whole sub-units of `d` and then over what is left. -/
abbrev walkAll (f g : List Byte → Byte → Tier) (k : Nat) (d : List Byte) (m : Byte) : Walk :=
  walkWithTail f g k (d.length / k) d m

theorem walkAll_of_dvd (hk : d.length % k = 0) :
    walkAll f g k d m = walk f (pieces k (d.length / k) d) 0 m :=
  if_pos (Nat.mul_div_cancel' (Nat.dvd_of_mod_eq_zero hk)).ge

/-- The walk over the whole sub-units of `d`, and the shorter one after them. -/
theorem walkAll_of_not_dvd (hk : d.length % k ≠ 0) :
    walkAll f g k d m =
      { mask := (walk f (pieces k (d.length / k) d) 0 m).mask |||
          maskBit (g (d.drop (k * (d.length / k))) (walk f (pieces k (d.length / k) d) 0 m).m).present (d.length / k)
        items := (walk f (pieces k (d.length / k) d) 0 m).items ++
          (g (d.drop (k * (d.length / k))) (walk f (pieces k (d.length / k) d) 0 m).m).items
        m := (g (d.drop (k * (d.length / k))) (walk f (pieces k (d.length / k) d) 0 m).m).m } := by
  have hdiv := Nat.div_add_mod d.length k
  exact if_neg (by omega)

/-- There are at most 8 sub-units, counting a shorter last one. -/
theorem units_lt (hk : d.length % k ≠ 0) (hd : d.length ≤ 8 * k) : d.length / k < 8 := by
  refine Nat.div_lt_of_lt_mul (lt_of_le_of_ne (by rwa [Nat.mul_comm]) fun heq => hk ?_)
  rw [heq, Nat.mul_mod_right]

/-- A sub-unit that does not exist has no bit in the mask. -/
theorem maskHas_walkAll_outside (hd : d.length ≤ 8 * k) {j : Nat} (hj : d.length ≤ k * j) :
    maskHas (walkAll f g k d m).mask j = false := by
  have hq : d.length / k ≤ j := Nat.div_le_of_le_mul hj
  have hwhole : maskHas (walk f (pieces k (d.length / k) d) 0 m).mask j = false := by
    have hle : d.length / k ≤ 8 := Nat.div_le_of_le_mul (by rwa [Nat.mul_comm])
    exact maskHas_walk_outside (by simpa using hle) (.inr (by simpa using hq))
  by_cases hmod : d.length % k = 0
  · rwa [walkAll_of_dvd hmod]
  · have hne : d.length / k ≠ j := by
      rintro rfl
      have hdiv := Nat.div_add_mod d.length k
      omega
    rw [walkAll_of_not_dvd hmod, maskHas_or, hwhole, maskHas_maskBit _ (units_lt hmod hd), decide_eq_false hne]
    simp

theorem walkAll_silent (hf : SilentIfAbsent f) (hg : SilentIfAbsent g) (hd : d.length ≤ 8 * k)
    (h : (walkAll f g k d m).mask = 0x00#8) : (walkAll f g k d m).items = [] := by
  have hle : 0 + (pieces k (d.length / k) d).length ≤ 8 := by
    rw [pieces_length, Nat.zero_add]
    exact Nat.div_le_of_le_mul (by rwa [Nat.mul_comm])
  by_cases hmod : d.length % k = 0
  · rw [walkAll_of_dvd hmod] at h ⊢
    exact walk_silent hf hle h
  · rw [walkAll_of_not_dvd hmod] at h ⊢
    obtain ⟨hwhole, hbit⟩ := BitVec.or_eq_zero_iff.mp h
    have htail : (g (d.drop (k * (d.length / k))) (walk f (pieces k (d.length / k) d) 0 m).m).present = false := by
      have hhas := maskHas_maskBit
        (g (d.drop (k * (d.length / k))) (walk f (pieces k (d.length / k) d) 0 m).m).present (units_lt hmod hd)
        (d.length / k)
      rw [hbit] at hhas
      simpa using hhas.symm
    exact List.append_eq_nil_iff.mpr ⟨walk_silent hf hle hwhole, hg _ _ htail⟩

/-- The reader of such a walk, given its mask. -/
theorem readUnitsTail_walkAll {r' : Nat → Bool → Byte → List Byte → Option Read} (st : List Byte)
    (hr : ∀ p : List Byte, p.length = k → ReadsBack r f p)
    (hr' : ∀ p : List Byte, p.length = d.length % k → ReadsBack (r' (d.length % k)) g p) (hd : d.length ≤ 8 * k) :
    readUnitsTail r r' (walkAll f g k d m).mask (d.length / k) (d.length % k) m
        (brBytes (walkAll f g k d m).items ++ st) =
      some { out := d, m := (walkAll f g k d m).m, rest := st } := by
  have hdiv := Nat.div_add_mod d.length k
  have hpieces : ∀ p ∈ pieces k (d.length / k) d, ReadsBack r f p := fun p hp =>
    hr p (length_eq_of_mem_pieces (Nat.mul_div_le d.length k) hp)
  have hle : 0 + (pieces k (d.length / k) d).length ≤ 8 := by
    rw [pieces_length, Nat.zero_add]
    exact Nat.div_le_of_le_mul (by rwa [Nat.mul_comm])
  by_cases hmod : d.length % k = 0
  · have hread := readUnits_walk (m := m) st hpieces hle fun _ _ _ => rfl
    rw [pieces_length, pieces_flatten, List.take_of_length_le (by omega)] at hread
    rw [walkAll_of_dvd hmod, readUnitsTail, hread]
    exact if_pos hmod
  · rw [walkAll_of_not_dvd hmod]
    generalize hw : walk f (pieces k (d.length / k) d) 0 m = w
    have htail := hr' (d.drop (k * (d.length / k))) (by rw [List.length_drop]; omega) w.m st
    generalize g (d.drop (k * (d.length / k))) w.m = t at htail ⊢
    have hq := units_lt hmod hd
    have hread := readUnits_walk (m := m) (mask := w.mask ||| maskBit t.present (d.length / k)) (brBytes t.items ++ st)
      hpieces hle fun j _ hj => by
        rw [pieces_length, Nat.zero_add] at hj
        rw [hw, maskHas_or, maskHas_maskBit _ hq, decide_eq_false (by omega), Bool.and_false, Bool.or_false]
    have hbit : maskHas (w.mask ||| maskBit t.present (d.length / k)) (d.length / k) = t.present := by
      rw [maskHas_or, maskHas_maskBit _ hq, ← hw,
        maskHas_walk_outside hle (.inr (by rw [pieces_length, Nat.zero_add]))]
      simp
    rw [pieces_length, pieces_flatten, hw] at hread
    simp only [readUnitsTail, brBytes_append, List.append_assoc, hread, hmod, if_false, hbit, htail,
      List.take_append_drop]

end

/-! ## Groups (R131, R132) -/

/-- A byte of a group as a sub-unit of one byte: present if it is a literal. -/
def byteUnit (d : List Byte) (m : Byte) : Tier :=
  if d.headD m = m then { present := false, items := [], m := m }
  else { present := true, items := d.map .literal, m := ext (lsb (d.headD m)) }

/-- A group is the walk over its bytes (R131). -/
theorem groupFrom_eq_walk (d : List Byte) (i : Nat) (m : Byte) :
    walk byteUnit (d.map fun b => [b]) i m =
      { mask := (groupFrom d i m).mask, items := (groupFrom d i m).lits.map .literal, m := (groupFrom d i m).m } := by
  induction d generalizing i m with
  | nil => rfl
  | cons b bs ih =>
    rw [List.map_cons, walk, groupFrom, byteUnit, List.headD_cons]
    split
    · simp [ih, maskBit]
    · simp [ih]

/-- Reading a byte of a group: a literal, or what `matchByte` says. -/
def readByte (present : Bool) (m : Byte) (st : List Byte) : Option Read :=
  if present then
    match st with
    | [] => none
    | b :: rest => some { out := [b], m := ext (lsb b), rest := rest }
  else some { out := [m], m := m, rest := st }

theorem readLits_eq_readUnits (mask : Byte) (k i : Nat) (m : Byte) (st : List Byte) :
    readLits mask k i m st = readUnits readByte mask k i m st := by
  induction k generalizing i m st with
  | zero => rfl
  | succ k ih =>
    by_cases hbit : maskHas mask i = true
    · cases st with
      | nil => simp [readLits, readUnits, readByte, hbit]
      | cons b rest =>
        simp only [readLits, readUnits, readByte, hbit, if_true, ih]
        rfl
    · simp only [readLits, readUnits, readByte, hbit, ih]
      rfl

theorem readsBack_byte (b : Byte) : ReadsBack readByte byteUnit [b] := by
  intro m st
  rw [byteUnit, List.headD_cons]
  split
  · rename_i h
    rw [h]
    rfl
  · rfl

theorem byteUnit_silent : SilentIfAbsent byteUnit := by
  intro d m h
  unfold byteUnit at h ⊢
  split <;> simp_all

theorem group_eq_walk (d : List Byte) (m : Byte) :
    walk byteUnit (d.map fun b => [b]) 0 m =
      { mask := (group d m).mask, items := (group d m).lits.map .literal, m := (group d m).m } :=
  groupFrom_eq_walk d 0 m

theorem groupItem_silent : SilentIfAbsent groupItem := fun _ _ => Tier.silent_ite

theorem groupItem_masked {d : List Byte} (hd : d.length ≤ 8) (m : Byte) :
    (groupItem d m).Masked (group d m).mask (group d m).lits := by
  have hsilent := walk_silent (ds := d.map fun b => [b]) (i := 0) (m := m) byteUnit_silent (by simpa using hd)
  rw [group_eq_walk] at hsilent
  have hmasked := Tier.masked_ite (x := .groupMask (group d m).mask) (m := (group d m).m) (m' := (group d m).m) rfl
    hsilent
  rwa [brBytes_literals] at hmasked

theorem readsBack_group {d : List Byte} (hd : d.length ≤ 8) : ReadsBack (readGroup d.length) groupItem d := by
  intro m st
  have hlen : 0 + (d.map fun b => [b]).length ≤ 8 := by simpa using hd
  have hbits (j : Nat) (hj : d.length ≤ j) : maskHas (group d m).mask j = false := by
    have hout := maskHas_walk_outside (f := byteUnit) (m := m) (j := j) hlen (.inr (by simpa using hj))
    rwa [group_eq_walk] at hout
  have hread := readUnits_walk (f := byteUnit) (r := readByte) (m := m) (mask := (group d m).mask) st
    (List.forall_mem_map.mpr fun b _ => readsBack_byte b) hlen fun j _ _ => by rw [group_eq_walk]
  rw [group_eq_walk, List.length_map, brBytes_literals] at hread
  have hm : (groupItem d m).m = (group d m).m := by rw [groupItem_m, group, groupFrom_m]
  have hflat : (d.map fun b => [b]).flatten = d := List.flatMap_singleton' d
  rw [readGroup, (groupItem_masked hd m).readMask hbits st, hm]
  simp only [readLits_eq_readUnits, hread, hflat]

/-! ## Tail pairs and blocks (R133, R134, R139) -/

/-- The groups of a pair, the last one perhaps shorter, are its whole groups and then the rest. -/
theorem walk_append (f : List Byte → Byte → Tier) (ds es : List (List Byte)) (i : Nat) (m : Byte) :
    walk f (ds ++ es) i m =
      { mask := (walk f ds i m).mask ||| (walk f es (i + ds.length) (walk f ds i m).m).mask
        items := (walk f ds i m).items ++ (walk f es (i + ds.length) (walk f ds i m).m).items
        m := (walk f es (i + ds.length) (walk f ds i m).m).m } := by
  induction ds generalizing i m with
  | nil => simp [walk]
  | cons d ds ih =>
    simp only [List.cons_append, walk, ih, List.length_cons, List.append_assoc, BitVec.or_assoc]
    rw [Nat.add_right_comm, Nat.add_assoc i ds.length 1]

theorem pieces_succ_last (k c : Nat) (d : List Byte) :
    pieces k (c + 1) d = pieces k c d ++ [(d.drop (k * c)).take k] := by
  induction c generalizing d with
  | zero => simp [pieces]
  | succ c ih =>
    rw [pieces, ih, List.drop_drop, pieces, List.cons_append, Nat.mul_succ, Nat.add_comm k]

theorem walk_groups_eq_walkAll (d : List Byte) (m : Byte) :
    walk groupItem (pieces 8 ((d.length + 7) / 8) d) 0 m = walkAll groupItem groupItem 8 d m := by
  by_cases hmod : d.length % 8 = 0
  · rw [walkAll_of_dvd hmod, show (d.length + 7) / 8 = d.length / 8 by omega]
  · have hlast : (d.drop (8 * (d.length / 8))).take 8 = d.drop (8 * (d.length / 8)) :=
      List.take_of_length_le (by rw [List.length_drop]; omega)
    rw [walkAll_of_not_dvd hmod, show (d.length + 7) / 8 = d.length / 8 + 1 by omega, pieces_succ_last, walk_append,
      hlast, pieces_length]
    simp [walk]

theorem tailPair_masked {d : List Byte} (hd : d.length ≤ 64) (m : Byte) :
    (tailPair d m).Masked (walkAll groupItem groupItem 8 d m).mask
      (brBytes (walkAll groupItem groupItem 8 d m).items) := by
  have h := Tier.masked_ite (x := .tailPairMask (walkAll groupItem groupItem 8 d m).mask)
    (m := (walkAll groupItem groupItem 8 d m).m) (m' := (walkAll groupItem groupItem 8 d m).m) rfl
    (walkAll_silent groupItem_silent groupItem_silent hd)
  rw [← walk_groups_eq_walkAll] at h ⊢
  exact h

theorem tailPair_silent : SilentIfAbsent tailPair := fun _ _ => Tier.silent_ite

theorem readsBack_tailPair {d : List Byte} (hd : d.length ≤ 64) : ReadsBack (readTailPair d.length) tailPair d := by
  intro m st
  have hread := readUnitsTail_walkAll (f := groupItem) (g := groupItem) (r := readGroup 8) (r' := readGroup) (k := 8)
    (d := d) (m := m) st (fun p hp => hp ▸ readsBack_group hp.le)
    (fun p hp => hp ▸ readsBack_group (by omega)) hd
  have hm : (tailPair d m).m = (walkAll groupItem groupItem 8 d m).m := by
    rw [tailPair_m, walkWithTail_m (fun p _ => groupItem_m p) groupItem_m]
  rw [readTailPair, (tailPair_masked hd m).readMask
    (fun j hj => maskHas_walkAll_outside hd (by omega)) st, hm]
  exact hread

/-- The walk over the four groups of a block (R133). -/
abbrev blockWalk (d : List Byte) (m : Byte) : Walk := walk groupItem (pieces brGroupLen 4 d) 0 m

theorem maskHas_blockMask (d : List Byte) (m : Byte) {j : Nat} (hj : j < 4) :
    maskHas ((blockStructured d m).mask ++ 0#4) j = maskHas (blockWalk d m).mask j := by
  have hall : ∀ g : Byte, ∀ j < 4, maskHas (g.extractLsb' 4 4 ++ 0#4) j = maskHas g j := by decide
  exact hall _ j hj

theorem blockStructured_silent {d : List Byte} {m : Byte} (h : (blockStructured d m).mask = 0#4) :
    (blockStructured d m).items = [] := by
  have hlen : 0 + (pieces brGroupLen 4 d).length ≤ 8 := by simp
  refine walk_silent groupItem_silent hlen (eq_zero_of_maskHas fun j => ?_)
  by_cases hj : j < 4
  · rw [← maskHas_blockMask d m hj, h]
    exact maskHas_zero j
  · exact maskHas_walk_outside hlen (.inr (by simpa using Nat.not_lt.mp hj))

theorem block_of_escape {d : List Byte} {m : Byte} (h : 32 < (brBytes (blockStructured d m).items).length) :
    block d m = { mask := 0xF#4, items := [.escapeBlock d], m := (blockStructured d m).m } := if_pos h

theorem block_of_structured {d : List Byte} {m : Byte} (h : (brBytes (blockStructured d m).items).length ≤ 32) :
    block d m = blockStructured d m := if_neg (Nat.not_lt.mpr h)

/-- Only the structured form of a block is all zeros: an escape form has the mask `1111` (R134). -/
theorem block_silent {d : List Byte} {m : Byte} (h : (block d m).mask = 0#4) : (block d m).items = [] := by
  by_cases hesc : 32 < (brBytes (blockStructured d m).items).length
  · rw [block_of_escape hesc] at h
    cases h
  · rw [block_of_structured (Nat.not_lt.mp hesc)] at h ⊢
    exact blockStructured_silent h

/-- A group that is present begins with its mask, which is not zero (R96). -/
theorem groupItem_head {d : List Byte} {m : Byte} (hd : d.length ≤ 8) (h : (groupItem d m).present = true)
    (st : List Byte) : (brBytes (groupItem d m).items ++ st).head? ≠ some 0x00#8 := by
  obtain ⟨hpresent, hstream⟩ := groupItem_masked hd m
  have hg : (group d m).mask ≠ 0x00#8 := by simpa [h] using hpresent.symm
  rw [hstream, maskBytes, if_neg hg]
  simpa using hg

/-- A block in structured form whose mask is `1111` does not begin as an escape form does (R102, R105). -/
theorem blockStructured_head {d : List Byte} {m : Byte} (h : (blockStructured d m).mask = 0xF#4) (st : List Byte) :
    (brBytes (blockStructured d m).items ++ st).head? ≠ some 0x00#8 := by
  have hbit : maskHas (blockWalk d m).mask 0 = true := by
    rw [← maskHas_blockMask d m (by decide), h]
    decide
  have hpieces : pieces brGroupLen 4 d = d.take 8 :: pieces brGroupLen 3 (d.drop 8) := rfl
  have hpresent : (groupItem (d.take 8) m).present = true := by
    rw [← hbit, blockWalk, hpieces, maskHas_walk_cons (by simp)]
  have hhead := groupItem_head (List.length_take_le 8 d) hpresent
  simp only [blockStructured, hpieces, walk, brBytes_append, List.append_assoc]
  exact hhead _

/-- A block reads back in either form. -/
theorem readBlock_block {d : List Byte} (hd : d.length = 32) (m : Byte) (st : List Byte) :
    readBlock (block d m).mask m (brBytes (block d m).items ++ st) =
      some { out := d, m := (block d m).m, rest := st } := by
  by_cases hesc : 32 < (brBytes (blockStructured d m).items).length
  · rw [block_m d m hd.le, block_of_escape hesc]
    simp [readBlock, brItemBytes, escapeBytes, hd, brBlockLen]
  · rw [block_of_structured (Nat.not_lt.mp hesc), readBlock, if_neg fun h => blockStructured_head h.1 st h.2]
    have hpieces : ∀ p ∈ pieces brGroupLen 4 d, ReadsBack (readGroup brGroupLen) groupItem p := fun p hp => by
      have hp8 : p.length = 8 := length_eq_of_mem_pieces (show brGroupLen * 4 ≤ d.length from hd.ge) hp
      rw [show brGroupLen = p.length from hp8.symm]
      exact readsBack_group hp8.le
    have hread := readUnits_walk (m := m) (mask := (blockStructured d m).mask ++ 0#4) st hpieces (by simp)
      fun j _ hj => maskHas_blockMask d m (by simpa using hj)
    rwa [pieces_length, pieces_flatten, List.take_of_length_le (show d.length ≤ brGroupLen * 4 from hd.le)] at hread

/-! ## Pairs, sections and chunks (R135 to R137, R140, R141) -/

theorem pair_silent : SilentIfAbsent pair := fun _ _ => Tier.silent_ite

theorem readsBack_pair {d : List Byte} (hd : d.length = 64) : ReadsBack readPair pair d := by
  intro m st
  have hfst : (d.take brBlockLen).length = 32 := List.length_take_of_le (by simp [brBlockLen, hd])
  have hsnd : (d.drop brBlockLen).length = 32 := by simp [brBlockLen, hd]
  have hm : (pair d m).m = (block (d.drop brBlockLen) (block (d.take brBlockLen) m).m).m := by
    unfold pair
    dsimp only
    split <;> rfl
  have hmasked : (pair d m).Masked ((block (d.take brBlockLen) m).mask ++
      (block (d.drop brBlockLen) (block (d.take brBlockLen) m).m).mask)
      (brBytes ((block (d.take brBlockLen) m).items ++
        (block (d.drop brBlockLen) (block (d.take brBlockLen) m).m).items)) :=
    Tier.masked_ite (x := .pairMask _ _) rfl fun h => by
      obtain ⟨h0, h1⟩ := (append_eq_zero _ _).mp h
      rw [block_silent h0, block_silent h1, List.append_nil]
  rw [readPair, hmasked.readMask (fun j hj => maskHas_of_le _ hj), hm]
  simp only [extract_high, extract_low, brBytes_append, List.append_assoc, readBlock_block hfst, readBlock_block hsnd,
    List.take_append_drop]

theorem sectionOf_masked {w : Walk} (h : w.mask = 0x00#8 → w.items = []) :
    (sectionOf w).Masked w.mask (brBytes w.items) :=
  Tier.masked_ite (x := .sectionMask w.mask) rfl h

theorem tailSection_eq (d : List Byte) (m : Byte) : tailSection d m = sectionOf (walkAll pair tailPair 64 d m) := rfl

theorem readsBack_tailSection {d : List Byte} (hd : d.length ≤ 512) :
    ReadsBack (readSection d.length) tailSection d := by
  intro m st
  have hread := readUnitsTail_walkAll (f := pair) (g := tailPair) (r := readPair) (r' := readTailPair) (k := 64)
    (d := d) (m := m) st (fun p hp => readsBack_pair hp) (fun p hp => hp ▸ readsBack_tailPair (by omega)) hd
  have hmasked := sectionOf_masked (walkAll_silent (k := 64) (m := m) pair_silent tailPair_silent hd)
  rw [readSection, tailSection_eq, sectionOf_m,
    hmasked.readMask (fun j hj => maskHas_walkAll_outside hd (by omega))]
  exact hread

/-- A full section is a tail section of 512 bytes (R142). -/
theorem fullSection_eq_tailSection {d : List Byte} (hd : d.length = 512) : fullSection d = tailSection d := by
  funext m
  rw [tailSection_eq, walkAll_of_dvd (by omega), hd]
  rfl

theorem readsBack_fullSection {d : List Byte} (hd : d.length = 512) :
    ReadsBack (readSection brSectionLen) fullSection d := by
  intro m st
  rw [fullSection_eq_tailSection hd, show brSectionLen = d.length from hd.symm]
  exact readsBack_tailSection hd.le m st

theorem encodePart_eq (prev : BitVec 1) (d : List Byte) :
    encodePart prev d = walkAll fullSection tailSection 512 d (ext prev) := rfl

/-- A full chunk is a partial one of 4096 bytes (R142). -/
theorem encodeFull_eq_encodePart (prev : BitVec 1) {d : List Byte} (hd : d.length = 4096) :
    encodeFull prev d = encodePart prev d := by
  rw [encodePart_eq, walkAll_of_dvd (by omega), hd]
  rfl

theorem encodeChunk_eq_encodePart (prev : BitVec 1) (d : List Byte) : encodeChunk prev d = encodePart prev d := by
  unfold encodeChunk
  split
  · rename_i hd
    exact encodeFull_eq_encodePart prev hd
  · rfl

theorem readBitRat_encodePart (prev : BitVec 1) {d : List Byte} (hd : d.length ≤ 4096) :
    readBitRat d.length prev (encodePart prev d).mask (brBytes (encodePart prev d).items) = some d := by
  have hread := readUnitsTail_walkAll (f := fullSection) (g := tailSection) (r := readSection brSectionLen)
    (r' := readSection) (k := 512) (d := d) (m := ext prev) [] (fun p hp => readsBack_fullSection hp)
    (fun p hp => hp ▸ readsBack_tailSection (by omega)) hd
  rw [List.append_nil] at hread
  rw [encodePart_eq, readBitRat, hread]
  rfl

/-! ## The chunks of an input (R229) -/

theorem readKept_cons {c : KeptChunk} {cs : List KeptChunk} {st rest d ds : List Byte}
    (hlen : c.streamLen.toNat = st.length) (hd : readBitRat c.chunkLen.toNat c.prev c.mask st = some d)
    (hds : readKept cs rest = some ds) : readKept (c :: cs) (st ++ rest) = some (d ++ ds) := by
  simp only [readKept, hlen, List.take_left, List.drop_left, hd, hds]

theorem readKept_brLoop (prev : BitVec 1) {d : List Byte} {fuel : Nat} (hd : d.length < 4096 * fuel) :
    readKept (brLoopKept fuel prev d) (brLoopStream fuel prev d) = some d := by
  induction fuel generalizing prev d with
  | zero => omega
  | succ fuel ih =>
    rw [brLoopKept, brLoopStream]
    by_cases hfull : 4096 ≤ d.length
    · have hlen : (d.take 4096).length = 4096 := List.length_take_of_le hfull
      have hsize := encodeFull_size prev (d.take 4096)
      have hchunk := readBitRat_encodePart prev hlen.le
      rw [← encodeFull_eq_encodePart prev hlen, hlen] at hchunk
      rw [if_pos hfull, if_pos hfull]
      have hrest := ih (lsb (encodeFull prev (d.take 4096)).m) (d := d.drop 4096) (by rw [List.length_drop]; omega)
      have hcons := readKept_cons (c := {
        prev := prev, mask := (encodeFull prev (d.take 4096)).mask
        streamLen := BitVec.ofNat 32 (brBytes (encodeFull prev (d.take 4096)).items).length
        chunkLen := 4096#32 }) (Nat.mod_eq_of_lt (by omega)) hchunk hrest
      rwa [List.take_append_drop] at hcons
    · rw [if_neg hfull, if_neg hfull]
      by_cases hnil : d = []
      · rw [if_pos hnil, if_pos hnil, hnil]
        rfl
      · rw [if_neg hnil, if_neg hnil]
        have hsize := (encodePart_size prev d).trans (brWorst_le d.length)
        have hlen : (BitVec.ofNat 32 d.length).toNat = d.length := Nat.mod_eq_of_lt (by omega)
        have hchunk := readBitRat_encodePart prev (d := d) (by omega)
        rw [← hlen] at hchunk
        have hcons := readKept_cons (cs := []) (rest := []) (ds := []) (c := {
          prev := prev, mask := (encodePart prev d).mask
          streamLen := BitVec.ofNat 32 (brBytes (encodePart prev d).items).length
          chunkLen := BitVec.ofNat 32 d.length }) (Nat.mod_eq_of_lt (by omega)) hchunk rfl
        simpa using hcons

/-- Settles O43: the reader of every tier gives back its sub-unit, and the loop keeps what the reader needs. -/
theorem readBitRatInvertsEncoder : Obligations.ReadBitRatInvertsEncoder := by
  unfold Obligations.ReadBitRatInvertsEncoder
  refine ⟨fun prev d hd => ?_, fun prev d fuel hd => readKept_brLoop prev hd⟩
  rw [encodeChunk_eq_encodePart]
  exact readBitRat_encodePart prev hd

end Sys2Proof.Machine

/-! Groups and blocks of the BitRat stream: which bytes are literals (R131, R138 (b)), O37; the escape rule (R134),
O38. -/

namespace Sys2Proof.Machine

/-! ## The escape rule -/

/-- A walk in which a sub-unit is absent writes at most what the others can. -/
theorem walk_size_of_absent {f : List Byte → Byte → Tier} {bound : Nat} {ds : List (List Byte)} {i j : Nat} {m : Byte}
    (hf : SilentIfAbsent f) (hsize : ∀ d ∈ ds, ∀ m, (brBytes (f d m).items).length ≤ bound) (hlen : i + ds.length ≤ 8)
    (hij : i ≤ j) (hj : j < i + ds.length) (h : maskHas (walk f ds i m).mask j = false) :
    (brBytes (walk f ds i m).items).length + bound ≤ bound * ds.length := by
  induction ds generalizing i m with
  | nil =>
    rw [List.length_nil] at hj
    omega
  | cons d ds ih =>
    obtain ⟨hd, hds⟩ := List.forall_mem_cons.mp hsize
    rw [List.length_cons] at hlen hj
    simp only [walk, brBytes_append, List.length_append, List.length_cons, Nat.mul_succ]
    obtain rfl | hne := Nat.eq_or_lt_of_le hij
    · rw [maskHas_walk_cons (by omega)] at h
      have hrest := walk_size (size := fun _ => bound) hds (i + 1) (f d m).m
      rw [hf d m h, brBytes_nil, List.length_nil]
      simp only [List.map_const', List.sum_replicate, smul_eq_mul, Nat.mul_comm] at hrest
      omega
    · rw [walk, maskHas_or] at h
      have hrest := ih hds (i := i + 1) (m := (f d m).m) (by omega) hne (by omega) (Bool.or_eq_false_iff.mp h).2
      have := hd m
      omega

theorem blockStructured_items (d : List Byte) (m : Byte) :
    (blockStructured d m).items = (walk groupItem (pieces brGroupLen 4 d) 0 m).items := rfl

/-- A block whose structured form is longer than 32 bytes has all four groups (R134). -/
theorem blockStructured_mask_of_long {d : List Byte} {m : Byte}
    (h : 32 < (brBytes (blockStructured d m).items).length) : (blockStructured d m).mask = 0xF#4 := by
  have hbits : ∀ j < 4, maskHas ((blockStructured d m).mask ++ 0#4) j = true := fun j hj => by
    rw [maskHas_blockMask d m hj]
    by_contra habsent
    have hsize : ∀ p ∈ pieces brGroupLen 4 d, ∀ m, (brBytes (groupItem p m).items).length ≤ 9 := fun p hp m =>
      (groupItem_size p m).trans (Nat.succ_le_succ (length_le_of_mem_pieces hp))
    have hshort := walk_size_of_absent groupItem_silent hsize (i := 0) (m := m) (by simp) (Nat.zero_le j)
      (by simpa using hj) (Bool.eq_false_of_not_eq_true habsent)
    rw [pieces_length] at hshort
    rw [blockStructured_items] at h
    omega
  have hall : ∀ x : Nibble, (∀ j < 4, maskHas (x ++ 0#4) j = true) → x = 0xF#4 := by decide
  exact hall _ hbits

/-- Settles O38: the two forms of a block, and its size. -/
theorem blockEscape : Obligations.BlockEscape := by
  unfold Obligations.BlockEscape
  intro d m hd
  refine ⟨by rw [block_m d m hd.le, blockStructured_m d m hd.le], block_of_structured, fun hlong => ?_,
    block_size d m hd.le⟩
  rw [block_of_escape hlong]
  exact ⟨rfl, List.append_nil _, blockStructured_mask_of_long hlong⟩

/-! ## Literals of a group -/

/-- From a seed on, a byte is a literal if it differs from `matchByte`, and sets it either way (R131, R138 (b)). -/
theorem groupFrom_cons {b m : Byte} (hm : IsSeed m) (ds : List Byte) (i : Nat) :
    groupFrom (b :: ds) i m =
      { mask := maskBit (b != m) i ||| (groupFrom ds (i + 1) (ext (lsb b))).mask
        lits := if b != m then b :: (groupFrom ds (i + 1) (ext (lsb b))).lits
          else (groupFrom ds (i + 1) (ext (lsb b))).lits
        m := (groupFrom ds (i + 1) (ext (lsb b))).m } := by
  rw [groupFrom]
  by_cases h : b = m
  · simp [h, hm.ext_lsb, maskBit]
  · have hne : (b != m) = true := bne_iff_ne.mpr h
    simp [h, hne]

theorem isLiteralAt_zero (b m : Byte) (ds : List Byte) : isLiteralAt (b :: ds) m 0 = (b != m) := rfl

theorem isLiteralAt_succ (b m : Byte) (ds : List Byte) (i : Nat) :
    isLiteralAt (b :: ds) m (i + 1) = isLiteralAt ds (ext (lsb b)) i := by
  cases i <;> rfl

theorem maskHas_groupFrom_before {d : List Byte} {i j : Nat} {m : Byte} (hlen : i + d.length ≤ 8) (hj : j < i) :
    maskHas (groupFrom d i m).mask j = false := by
  have h := maskHas_walk_outside (f := byteUnit) (ds := d.map fun b => [b]) (m := m) (by simpa using hlen) (.inl hj)
  rwa [groupFrom_eq_walk] at h

theorem maskHas_groupFrom {d : List Byte} {i j : Nat} {m : Byte} (hm : IsSeed m) (hlen : i + d.length ≤ 8) :
    maskHas (groupFrom d i m).mask (i + j) = (decide (j < d.length) && isLiteralAt d m j) := by
  induction d generalizing i j m with
  | nil => simp [groupFrom]
  | cons b ds ih =>
    rw [List.length_cons] at hlen
    rw [groupFrom_cons hm, maskHas_or, maskHas_maskBit _ (by omega)]
    cases j with
    | zero =>
      rw [maskHas_groupFrom_before (by omega) (by omega), isLiteralAt_zero]
      simp
    | succ j =>
      have hih := ih (i := i + 1) (j := j) (isSeed_ext (lsb b)) (by omega)
      rw [Nat.add_right_comm, Nat.add_assoc] at hih
      rw [hih, isLiteralAt_succ, decide_eq_false (by omega), Bool.and_false, Bool.false_or]
      simp

theorem groupFrom_lits {d : List Byte} {i : Nat} {m : Byte} (hm : IsSeed m) :
    (groupFrom d i m).lits = ((List.range d.length).filter (isLiteralAt d m)).map (fun i => d.getD i 0x00#8) := by
  induction d generalizing i m with
  | nil => rfl
  | cons b ds ih =>
    have hshift : isLiteralAt (b :: ds) m ∘ Nat.succ = isLiteralAt ds (ext (lsb b)) :=
      funext fun i => isLiteralAt_succ b m ds i
    rw [groupFrom_cons hm, ih (isSeed_ext (lsb b)), List.length_cons, List.range_succ_eq_map, List.filter_cons,
      isLiteralAt_zero, List.filter_map, hshift]
    split <;> simp [Function.comp_def]

/-- Settles O37: the walk over the bytes of the group, from its first on. -/
theorem groupLiterals : Obligations.GroupLiterals := by
  unfold Obligations.GroupLiterals
  intro d m hpos hlen hm
  refine ⟨fun i _ => ?_, groupFrom_lits hm, ?_⟩
  · have hbit := maskHas_groupFrom (d := d) (i := 0) (j := i) hm (by omega)
    rw [Nat.zero_add] at hbit
    change maskHas (groupFrom d 0 m).mask i = true ↔ _
    rw [hbit, Bool.and_eq_true, decide_eq_true_eq]
  · have hne : d ≠ [] := List.length_pos_iff.mp hpos
    rw [group, groupFrom_m, matchAfter_of_ne_nil hm hne]

end Sys2Proof.Machine

/-! The segments of a chunk (R178 to R183): where each begins and ends, and the laws of R189. O44. -/

namespace Sys2Proof.Machine

/-! ## Runs -/

/-- The bytes from `i` to `j` have the value `v`, and the run ends there because the next byte differs or the tail
begins (R181). -/
structure RunOf (d : List Byte) (v : Byte) (i j : Nat) : Prop where
  same : ∀ k, i ≤ k → k < j → at_ d k = v
  stop : at_ d j ≠ v ∨ j + 3 = d.length

theorem at_scanRun {d : List Byte} {v : Byte} {fuel j k : Nat} (hj : j ≤ k) (hk : k < scanRun d v fuel j) :
    at_ d k = v := by
  induction fuel generalizing j with
  | zero =>
    rw [scanRun] at hk
    omega
  | succ fuel ih =>
    rw [scanRun] at hk
    split at hk
    · rename_i h
      obtain rfl | hlt := Nat.eq_or_lt_of_le hj
      · exact h.2
      · exact ih hlt hk
    · omega

theorem scanRun_stops {d : List Byte} {v : Byte} {fuel j : Nat} (hfuel : runEnd d ≤ j + fuel) :
    at_ d (scanRun d v fuel j) ≠ v ∨ runEnd d ≤ scanRun d v fuel j := by
  induction fuel generalizing j with
  | zero => exact .inr hfuel
  | succ fuel ih =>
    rw [scanRun]
    split
    · exact ih (by omega)
    · rename_i h
      by_cases hj : j < runEnd d
      · exact .inl fun hv => h ⟨hj, hv⟩
      · exact .inr (Nat.not_lt.mp hj)

/-- A scan from inside the run-eligible region, over bytes known to have the value before it (R179, R181). -/
theorem runOf_scanRun {d : List Byte} {v : Byte} {i : Nat} (hi : i + 3 ≤ runEnd d)
    (h0 : at_ d i = v) (h1 : at_ d (i + 1) = v) (h2 : at_ d (i + 2) = v) :
    RunOf d v i (scanRun d v d.length (i + 3)) where
  same k hik hk := by
    by_cases hlt : k < i + 3
    · obtain rfl | rfl | rfl : k = i ∨ k = i + 1 ∨ k = i + 2 := by omega
      · exact h0
      · exact h1
      · exact h2
    · exact at_scanRun (Nat.not_lt.mp hlt) hk
  stop := by
    have hle := scanRun_le d v d.length hi
    have hroom : runEnd d ≤ d.length := Nat.sub_le _ _
    refine (scanRun_stops (v := v) (fuel := d.length) (j := i + 3) (by omega)).imp_right fun hge => ?_
    simp only [runEnd, nbTail] at *
    omega

/-- The three bytes of the condition of R180. -/
theorem runOf_of_runStartsAt {d : List Byte} {i : Nat} (h : runStartsAt d i = true) :
    RunOf d (at_ d (i - 1)) i (scanRun d (at_ d (i - 1)) d.length (i + 3)) := by
  simp only [runStartsAt, Bool.and_eq_true, beq_iff_eq, decide_eq_true_eq] at h
  obtain ⟨⟨⟨⟨-, hroom⟩, h0⟩, h1⟩, h2⟩ := h
  exact runOf_scanRun hroom h0 h1 h2

/-- The three bytes of the condition of R179. -/
theorem runOf_of_leadsWithRun {d : List Byte} (h : leadsWithRun d = true) :
    RunOf d (at_ d 0) 0 (leadingRunEnd d) := by
  simp only [leadsWithRun, Bool.and_eq_true, beq_iff_eq, decide_eq_true_eq] at h
  obtain ⟨⟨⟨hroom, -⟩, h1⟩, h2⟩ := h
  exact runOf_scanRun (i := 0) hroom rfl h1 h2

/-! ## The segments and where they stand -/

/-- The segments of `d` from byte `s` on, a literal run first: each stands for the bytes it was made of, and each run
repeats the byte before it. -/
inductive SegmentedFrom (d : List Byte) : Nat → List NbItem → Prop
  | last {s : Nat} (hs : s < d.length) : SegmentedFrom d s [.litRun (d.drop s)]
  | more {s i j : Nat} {rest : List NbItem} (hsi : s < i) (hij : i + 3 ≤ j) (hj : j + 3 ≤ d.length)
      (hrun : RunOf d (at_ d (i - 1)) i j) (hrest : SegmentedFrom d j rest) :
      SegmentedFrom d s (.litRun ((d.take i).drop s) :: .run (j - i) :: rest)

theorem segmentedFrom_segmentsFrom {d : List Byte} {fuel s : Nat} (hs : s < d.length) (hfuel : d.length ≤ s + fuel) :
    SegmentedFrom d s (segmentsFrom d fuel s) := by
  induction fuel generalizing s with
  | zero => omega
  | succ fuel ih =>
    rw [segmentsFrom_succ, if_pos hs]
    have hlt := lt_literalEnd d s
    split
    · rename_i hend
      obtain ⟨hge, hle⟩ := nextRunEnd_bounds hend
      have hstart := runStartsAt_scanLiteral d (fuel := d.length) (i := s + 1) (by omega) hend
      exact .more hlt hge hle (runOf_of_runStartsAt hstart) (ih (by omega) (by omega))
    · rename_i hend
      rw [List.take_of_length_le (Nat.not_lt.mp hend)]
      exact .last hs

/-- The segments of a chunk that is not empty: a literal run from its first byte on, or a leading run and then a
literal run (R179, R186). -/
theorem segments_cases {d : List Byte} (hd : d ≠ []) :
    (leadsWithRun d = false ∧ SegmentedFrom d 0 (segments d)) ∨
      (leadsWithRun d = true ∧ ∃ rest, segments d = .run (leadingRunEnd d) :: rest ∧
        SegmentedFrom d (leadingRunEnd d) rest) := by
  rw [segments_eq]
  cases hlead : leadsWithRun d with
  | false => exact .inl ⟨rfl, segmentedFrom_segmentsFrom (List.length_pos_of_ne_nil hd) (by omega)⟩
  | true =>
    obtain ⟨-, hle⟩ := leadingRunEnd_bounds hlead
    exact .inr ⟨rfl, _, rfl, segmentedFrom_segmentsFrom (by omega) (by omega)⟩

section

variable {d : List Byte} {s : Nat} {xs : List NbItem}

/-- The first segment is a literal run, of bytes that stand at `s`. -/
theorem SegmentedFrom.head (h : SegmentedFrom d s xs) :
    ∃ bytes rest, xs = .litRun bytes :: rest ∧ bytes ≠ [] ∧ bytes.headD 0x00#8 = at_ d s := by
  cases h with
  | last hs =>
    refine ⟨_, _, rfl, List.ne_nil_of_length_pos (by rw [List.length_drop]; omega), ?_⟩
    rw [List.headD_eq_head?_getD, List.head?_drop, at_, List.getD_eq_getElem?_getD]
  | more hsi hij hj hrun hrest =>
    refine ⟨_, _, rfl, List.ne_nil_of_length_pos (by rw [List.length_drop, List.length_take]; omega), ?_⟩
    rw [List.headD_eq_head?_getD, List.head?_drop, List.getElem?_take_of_lt hsi, at_, List.getD_eq_getElem?_getD]

theorem SegmentedFrom.alternate (h : SegmentedFrom d s xs) (hs : s = 0 ∨ s + 3 ≤ d.length) :
    alternate (min d.length 3) xs = true := by
  induction h with
  | @last s hlt =>
    simp only [Sys2Proof.Machine.alternate, List.length_drop, decide_eq_true_eq]
    omega
  | more hsi hij hj hrun hrest ih =>
    obtain ⟨bytes, rest, rfl, -, -⟩ := hrest.head
    exact ih (.inr hj)

theorem SegmentedFrom.length (h : SegmentedFrom d s xs) : s + (xs.map segmentLength).sum = d.length := by
  induction h with
  | last hlt =>
    simp [segmentLength]
    omega
  | more hsi hij hj hrun hrest ih =>
    simp [segmentLength]
    omega

/-- The bytes from `i` on, if the first of them are a run. -/
theorem RunOf.drop {v : Byte} {i j : Nat} (h : RunOf d v i j) (hij : i ≤ j) (hj : j ≤ d.length) :
    List.replicate (j - i) v ++ d.drop j = d.drop i := by
  have hlen : ((d.drop i).take (j - i)).length = j - i := by
    rw [List.length_take, List.length_drop]
    omega
  have htake : (d.drop i).take (j - i) = List.replicate (j - i) v := by
    refine List.ext_getElem (by rw [hlen, List.length_replicate]) fun k hk _ => ?_
    rw [hlen] at hk
    have hat := h.same (i + k) (by omega) (by omega)
    rw [at_, List.getD_eq_getElem _ _ (by omega)] at hat
    simpa using hat
  calc List.replicate (j - i) v ++ d.drop j
      = (d.drop i).take (j - i) ++ (d.drop i).drop (j - i) := by
        rw [htake, List.drop_drop, Nat.add_sub_cancel' hij]
    _ = d.drop i := List.take_append_drop _ _

/-- The bytes of a literal run, of the run after it, and of what follows. -/
theorem literal_run_rest {i j : Nat} (hsi : s < i) (hij : i ≤ j) (hj : j ≤ d.length)
    (hrun : RunOf d (at_ d (i - 1)) i j) :
    (d.take i).drop s ++ (List.replicate (j - i) (at_ d (i - 1)) ++ d.drop j) = d.drop s := by
  have hsplit : (d.drop s).drop (i - s) = d.drop i := by rw [List.drop_drop, Nat.add_sub_cancel' hsi.le]
  rw [hrun.drop hij hj, List.drop_take, ← hsplit, List.take_append_drop]

/-- A run repeats the last byte of the literal run before it (R112). -/
theorem literal_getLastD {i : Nat} (hsi : s < i) (hi : i ≤ d.length) (last : Byte) :
    ((d.take i).drop s).getLastD last = at_ d (i - 1) := by
  have hlen : ((d.take i).drop s).length = i - s := by
    rw [List.length_drop, List.length_take]
    omega
  rw [List.getLastD_eq_getLast?, List.getLast?_eq_getElem?, hlen, List.getElem?_drop,
    List.getElem?_take_of_lt (by omega),
    show s + (i - s - 1) = i - 1 by omega, at_, List.getD_eq_getElem?_getD, List.getElem?_eq_getElem (by omega)]
  rfl

theorem SegmentedFrom.expand (h : SegmentedFrom d s xs) (last : Byte) : expandSegments last xs = d.drop s := by
  induction h generalizing last with
  | last hlt => exact List.append_nil _
  | more hsi hij hj hrun hrest ih =>
    rw [expandSegments, expandSegments, ih, literal_getLastD hsi (by omega)]
    exact literal_run_rest hsi (by omega) (by omega) hrun

/-- A literal run after a run begins with another byte, or the run reached the tail (R189 (d)). -/
theorem SegmentedFrom.after_run (h : SegmentedFrom d s xs) {pre post : List NbItem} {n : Nat} {bytes : List Byte}
    (hx : xs = pre ++ .run n :: .litRun bytes :: post) :
    bytes.headD 0x00#8 ≠ d.getD (s + (pre.map segmentLength).sum) 0x00#8 ∨
      s + (pre.map segmentLength).sum + n = d.length - 3 := by
  induction h generalizing pre with
  | last hlt =>
    have hlen := congrArg List.length hx
    simp at hlen
    omega
  | @more s i j rest hsi hij hj hrun hrest ih =>
    have hsum : s + ((d.take i).drop s).length = i := by
      rw [List.length_drop, List.length_take]
      omega
    match pre, hx with
    | [x], hx =>
      simp only [List.cons_append, List.nil_append, List.cons.injEq, NbItem.run.injEq] at hx
      obtain ⟨rfl, rfl, rfl⟩ := hx
      obtain ⟨_, _, hr, -, hhead⟩ := hrest.head
      cases hr
      have hvalue : at_ d i = at_ d (i - 1) := hrun.same i (Nat.le_refl i) (by omega)
      simp only [List.map_cons, List.map_nil, List.sum_cons, List.sum_nil, segmentLength, Nat.add_zero, hsum]
      change _ ≠ at_ d i ∨ _
      rw [hhead, hvalue]
      exact hrun.stop.imp_right fun h => by omega
    | x :: y :: pre, hx =>
      simp only [List.cons_append, List.cons.injEq] at hx
      obtain ⟨rfl, rfl, hx⟩ := hx
      have hih := ih hx
      have hpos : s + (((d.take i).drop s).length + ((j - i) + (pre.map segmentLength).sum)) =
          j + (pre.map segmentLength).sum := by omega
      simpa only [List.map_cons, List.sum_cons, segmentLength, hpos] using hih

end

/-- `MARK` of a chunk that leads with a run gives the run's value (R107, R179). -/
theorem markValue_markOf {d : List Byte} (h : leadsWithRun d = true) (empty : Mark) :
    markValue (markOf empty d) = at_ d 0 := by
  obtain ⟨hge, hle⟩ := leadingRunEnd_bounds h
  have hne : d.length ≠ 0 := by omega
  rw [markOf, if_neg hne, if_pos h]
  simp only [leadsWithRun, isRunByte, Bool.and_eq_true, Bool.or_eq_true, beq_iff_eq] at h
  obtain ⟨⟨⟨-, h0 | h0⟩, -⟩, -⟩ := h <;> rw [h0] <;> rfl

/-- Settles O44: the laws of the segments from the first literal run on, and the leading run before it. -/
theorem segmentsLaws : Obligations.SegmentsLaws := by
  unfold Obligations.SegmentsLaws
  intro d empty hd
  have hruns : ∀ n, .run n ∈ segments d → 3 ≤ n ∧ n + 3 ≤ d.length := fun n hn => segments_ok d _ hn
  obtain ⟨-, hseg⟩ | ⟨hlead, rest, hcons, hseg⟩ := segments_cases hd
  · refine ⟨hseg.alternate (.inl rfl), ?_, hruns, hseg.expand _, fun pre n bytes post hx => ?_⟩
    · rw [← hseg.length, Nat.zero_add]
    · simpa only [Nat.zero_add] using hseg.after_run hx
  · obtain ⟨hge, hle⟩ := leadingRunEnd_bounds hlead
    have hrun := runOf_of_leadsWithRun hlead
    obtain ⟨lit, tail, hrest, -, hhead⟩ := hseg.head
    rw [hcons] at hruns ⊢
    refine ⟨?_, ?_, hruns, ?_, fun pre n bytes post hx => ?_⟩
    · have halt := hseg.alternate (.inr hle)
      rw [hrest] at halt ⊢
      exact halt
    · rw [List.map_cons, List.sum_cons]
      exact hseg.length
    · rw [expandSegments, hseg.expand, markValue_markOf hlead]
      exact hrun.drop (Nat.zero_le _) (by omega)
    · match pre, hx with
      | [], hx =>
        simp only [hrest, List.nil_append, List.cons.injEq, NbItem.run.injEq, NbItem.litRun.injEq] at hx
        obtain ⟨rfl, rfl, -⟩ := hx
        rw [hhead, List.map_nil, List.sum_nil, Nat.zero_add]
        exact hrun.stop.imp_right fun h => by omega
      | x :: pre, hx =>
        simp only [List.cons_append, List.cons.injEq] at hx
        obtain ⟨rfl, hx⟩ := hx
        exact hseg.after_run hx

end Sys2Proof.Machine

/-! The reader of R119 gives back what the Nibbler encoder was given. The reader stands in the body where the writer
stood, with the free slot of the writer as the nibble it still holds: each thing the writer puts is then what the
reader takes. O46. -/

namespace Sys2Proof.Machine

/-! ## The reader's place -/

/-- The reader of `body` where the writer had come to `w` (R119, R171). -/
def Writer.reader (w : Writer) (body : List Byte) : Nibbles :=
  { rest := body.drop w.body.length, slot := w.slot.map fun k => (body.getD k 0x00#8).extractLsb' 0 4 }

/-- `body` is what the writer's body can become: the bytes written stay, but for the low nibble of the free slot
(R172). -/
structure Writer.Leads (w : Writer) (body : List Byte) : Prop where
  length : w.body.length ≤ body.length
  high : ∀ i < w.body.length, (body.getD i 0x00#8).extractLsb' 4 4 = (w.body.getD i 0x00#8).extractLsb' 4 4
  same : ∀ i < w.body.length, w.slot ≠ some i → body.getD i 0x00#8 = w.body.getD i 0x00#8

theorem Writer.Leads.self (w : Writer) : w.Leads w.body := ⟨Nat.le_refl _, fun _ _ => rfl, fun _ _ _ => rfl⟩

theorem Writer.reader_self_rest (w : Writer) : (w.reader w.body).rest = [] := List.drop_length

theorem putNibble_of_slot {x : Nibble} {w : Writer} {k : Nat} (h : w.slot = some k) :
    putNibble x w = { body := w.body.set k (w.body.getD k 0x00#8 ||| (0#4 ++ x)), slot := none } := by
  rw [putNibble, h]

theorem putNibble_of_none {x : Nibble} {w : Writer} (h : w.slot = none) :
    putNibble x w = { body := w.body ++ [x ++ 0#4], slot := some w.body.length } := by
  rw [putNibble, h]

theorem or_low_nibble_high (b : Byte) (x : Nibble) : (b ||| (0#4 ++ x)).extractLsb' 4 4 = b.extractLsb' 4 4 := by
  rw [BitVec.extractLsb'_or, extract_high, BitVec.or_zero]

theorem or_low_nibble_low {b : Byte} (hb : b.extractLsb' 0 4 = 0#4) (x : Nibble) :
    (b ||| (0#4 ++ x)).extractLsb' 0 4 = x := by
  rw [BitVec.extractLsb'_or, extract_low, hb, BitVec.zero_or]

/-- A nibble the writer puts is one the reader takes. -/
theorem takeNibble_reader {x : Nibble} {w : Writer} {body : List Byte} (hslot : w.SlotOk)
    (h : (putNibble x w).Leads body) :
    w.Leads body ∧ takeNibble (w.reader body) = some (x, (putNibble x w).reader body) := by
  cases hs : w.slot with
  | some k =>
    obtain ⟨hk, hlow⟩ := hslot k hs
    rw [putNibble_of_slot hs] at h ⊢
    obtain ⟨hlen, hhigh, hsame⟩ := h
    simp only [List.length_set] at hlen hhigh hsame
    have hget (i : Nat) (hi : i < w.body.length) :
        (w.body.set k (w.body.getD k 0x00#8 ||| (0#4 ++ x))).getD i 0x00#8 =
          if k = i then w.body.getD k 0x00#8 ||| (0#4 ++ x) else w.body.getD i 0x00#8 := by
      rw [List.getD_eq_getElem?_getD, List.getElem?_set]
      split <;> simp_all
    refine ⟨⟨hlen, fun i hi => ?_, fun i hi hne => ?_⟩, ?_⟩
    · rw [hhigh i hi, hget i hi]
      split
      · rename_i hki
        rw [or_low_nibble_high, hki]
      · rfl
    · rw [hsame i hi nofun, hget i hi, if_neg fun hki => hne (by rw [hs, hki])]
    · have hx : (body.getD k 0x00#8).extractLsb' 0 4 = x := by
        rw [hsame k hk nofun, hget k hk, if_pos rfl, or_low_nibble_low hlow]
      simp only [Writer.reader, hs, takeNibble, Option.map_some, Option.map_none, List.length_set, hx]
  | none =>
    rw [putNibble_of_none hs] at h ⊢
    obtain ⟨hlen, hhigh, hsame⟩ := h
    simp only [List.length_append, List.length_singleton] at hlen hhigh hsame
    have hget (i : Nat) (hi : i < w.body.length) : (w.body ++ [x ++ 0#4]).getD i 0x00#8 = w.body.getD i 0x00#8 :=
      List.getD_append _ _ _ _ hi
    have hlast : (body.getD w.body.length 0x00#8).extractLsb' 4 4 = x := by
      rw [hhigh _ (Nat.lt_succ_self _), List.getD_append_right _ _ _ _ (Nat.le_refl _), Nat.sub_self]
      exact extract_high x 0#4
    have hdrop : body.drop w.body.length = body.getD w.body.length 0x00#8 :: body.drop (w.body.length + 1) := by
      rw [List.drop_eq_getElem_cons hlen, List.getD_eq_getElem _ _ hlen]
    refine ⟨⟨Nat.le_of_succ_le hlen, fun i hi => ?_, fun i hi _ => ?_⟩, ?_⟩
    · rw [hhigh i (Nat.lt_succ_of_lt hi), hget i hi]
    · rw [hsame i (Nat.lt_succ_of_lt hi) (by simpa using hi.ne'), hget i hi]
    · simp only [Writer.reader, hs, takeNibble, Option.map_some, Option.map_none, hdrop, hlast, List.length_append,
        List.length_singleton]

/-- A byte the writer puts is the next byte of the reader, whose nibble stays. -/
theorem reader_putByte {b : Byte} {w : Writer} {body : List Byte} (hslot : w.SlotOk) (h : (putByte b w).Leads body) :
    w.Leads body ∧ (w.reader body).rest = b :: ((putByte b w).reader body).rest ∧
      (w.reader body).slot = ((putByte b w).reader body).slot := by
  obtain ⟨hlen, hhigh, hsame⟩ := h
  simp only [putByte, List.length_append, List.length_singleton] at hlen hhigh hsame
  have hget (i : Nat) (hi : i < w.body.length) : (w.body ++ [b]).getD i 0x00#8 = w.body.getD i 0x00#8 :=
    List.getD_append _ _ _ _ hi
  have hnew : body.getD w.body.length 0x00#8 = b := by
    have hne : w.slot ≠ some w.body.length := fun hs => Nat.lt_irrefl _ (hslot _ hs).1
    rw [hsame _ (Nat.lt_succ_self _) hne, List.getD_append_right _ _ _ _ (Nat.le_refl _), Nat.sub_self]
    rfl
  refine ⟨⟨Nat.le_of_succ_le hlen, fun i hi => ?_, fun i hi hne => ?_⟩, ?_, rfl⟩
  · rw [hhigh i (Nat.lt_succ_of_lt hi), hget i hi]
  · rw [hsame i (Nat.lt_succ_of_lt hi) hne, hget i hi]
  · simp only [Writer.reader, putByte, List.length_append, List.length_singleton]
    rw [List.drop_eq_getElem_cons hlen, ← hnew, List.getD_eq_getElem _ _ hlen]

theorem reader_putBytes {bs : List Byte} {w : Writer} {body : List Byte} (hslot : w.SlotOk)
    (h : (putBytes bs w).Leads body) :
    w.Leads body ∧ (w.reader body).rest = bs ++ ((putBytes bs w).reader body).rest ∧
      (w.reader body).slot = ((putBytes bs w).reader body).slot := by
  induction bs generalizing w with
  | nil => exact ⟨h, rfl, rfl⟩
  | cons b bs ih =>
    obtain ⟨hleads, hrest, hs⟩ := ih (hslot.putByte b) h
    obtain ⟨hleads', hrest', hs'⟩ := reader_putByte hslot hleads
    exact ⟨hleads', by rw [hrest', hrest]; rfl, hs'.trans hs⟩

/-! ## Fields -/

theorem takeNibbles_reader {xs : List Nibble} {w : Writer} {body : List Byte} (hslot : w.SlotOk)
    (h : (putNibbles xs w).Leads body) (acc : Nat) :
    w.Leads body ∧ takeNibbles xs.length acc (w.reader body) =
      some (xs.foldl (fun k x => k * 16 + x.toNat) acc, (putNibbles xs w).reader body) := by
  induction xs generalizing w acc with
  | nil => exact ⟨h, rfl⟩
  | cons x xs ih =>
    obtain ⟨hleads, htake⟩ := ih (.putNibble x w) h (acc * 16 + x.toNat)
    obtain ⟨hleads', htake'⟩ := takeNibble_reader hslot hleads
    refine ⟨hleads', ?_⟩
    simp only [List.length_cons, takeNibbles, htake', htake, List.foldl_cons, putNibbles]

/-- The nibbles of a field and their values, tier by tier (R174 to R176). -/
theorem lenNibbles_cases {v : Nat} (hv : v ≤ nbLenMax) :
    (∃ a, lenNibbles v = [a] ∧ a.toNat < 8 ∧ v = a.toNat) ∨
      (∃ a b, lenNibbles v = [a, b] ∧ 8 ≤ a.toNat ∧ a.toNat < 12 ∧ v = 8 + ((a.toNat - 8) * 16 + b.toNat)) ∨
      ∃ a b c e, lenNibbles v = [a, b, c, e] ∧ 12 ≤ a.toNat ∧ a.toNat < 14 ∧
        v = 8 + ((((a.toNat - 12) * 16 + b.toNat) * 16 + c.toNat) * 16 + e.toNat) := by
  have hcodes := lenNibbles_codes hv
  simp only [nbLenMax] at hv
  unfold fieldCodes at hcodes
  split_ifs at hcodes with h7 h71
  · obtain ⟨a, hns⟩ : ∃ a, lenNibbles v = [a] := ⟨_, if_pos h7⟩
    simp only [hns, List.map_cons, List.map_nil, List.cons.injEq, and_true] at hcodes
    exact .inl ⟨a, hns, by omega, hcodes.symm⟩
  · obtain ⟨a, b, hns⟩ : ∃ a b, lenNibbles v = [a, b] := ⟨_, _, (if_neg h7).trans (if_pos h71)⟩
    simp only [hns, List.map_cons, List.map_nil, List.cons.injEq, and_true] at hcodes
    exact .inr (.inl ⟨a, b, hns, by omega, by omega, by omega⟩)
  · obtain ⟨a, b, c, e, hns⟩ : ∃ a b c e, lenNibbles v = [a, b, c, e] :=
      ⟨_, _, _, _, (if_neg h7).trans (if_neg h71)⟩
    simp only [hns, List.map_cons, List.map_nil, List.cons.injEq, and_true] at hcodes
    exact .inr (.inr ⟨a, b, c, e, hns, by omega, by omega, by omega⟩)

/-- A field the writer puts is one the reader takes, with its value (R115, R119). -/
theorem takeField_reader {v : Nat} {w : Writer} {body : List Byte} (hv : v ≤ nbLenMax) (hslot : w.SlotOk)
    (h : (putNibbles (lenNibbles v) w).Leads body) :
    w.Leads body ∧ takeField (w.reader body) = some (v, (putNibbles (lenNibbles v) w).reader body) := by
  obtain ⟨a, hns, hlt, hvalue⟩ | ⟨a, b, hns, hge, hlt, hvalue⟩ | ⟨a, b, c, e, hns, hge, hlt, hvalue⟩ :=
    lenNibbles_cases hv <;> rw [hns] at h ⊢
  · obtain ⟨hleads, hfirst⟩ := takeNibble_reader hslot h
    refine ⟨hleads, ?_⟩
    simp only [takeField, hfirst, if_pos hlt, hvalue, putNibbles]
  · obtain ⟨hrest, htake⟩ := takeNibbles_reader (xs := [b]) (.putNibble a w) h (a.toNat - 8)
    obtain ⟨hleads, hfirst⟩ := takeNibble_reader hslot hrest
    simp only [List.length_cons, List.length_nil, List.foldl_cons, List.foldl_nil] at htake
    refine ⟨hleads, ?_⟩
    simp only [takeField, hfirst, if_neg (Nat.not_lt.mpr hge), if_pos hlt, htake, ← hvalue, putNibbles]
  · obtain ⟨hrest, htake⟩ := takeNibbles_reader (xs := [b, c, e]) (.putNibble a w) h (a.toNat - 12)
    obtain ⟨hleads, hfirst⟩ := takeNibble_reader hslot hrest
    simp only [List.length_cons, List.length_nil, List.foldl_cons, List.foldl_nil] at htake
    refine ⟨hleads, ?_⟩
    simp only [takeField, hfirst, if_neg (show ¬ a.toNat < 8 by omega), if_neg (Nat.not_lt.mpr hge), if_pos hlt,
      htake, ← hvalue, putNibbles]

theorem body_length_putNibbles (xs : List Nibble) (w : Writer) : w.body.length ≤ (putNibbles xs w).body.length := by
  induction xs generalizing w with
  | nil => exact Nat.le_refl _
  | cons x xs ih =>
    refine Nat.le_trans ?_ (ih (putNibble x w))
    unfold putNibble
    split <;> simp

theorem putBytes_eq (bs : List Byte) (w : Writer) : putBytes bs w = { w with body := w.body ++ bs } := by
  induction bs generalizing w with
  | nil => simp [putBytes]
  | cons b bs ih => simp [putBytes, ih, putByte]

/-! ## Segments -/

/-- A run is read as its length less `NB_RUN_BIAS` (R111). -/
theorem takeField_run {bias n : Nat} {w w' : Writer} {body : List Byte} (hw : emitItem bias (.run n) w = some w')
    (hslot : w.SlotOk) (h : w'.Leads body) :
    w.Leads body ∧ takeField (w.reader body) = some (n - bias, w'.reader body) := by
  obtain ⟨hlo, hhi, rfl⟩ := writeLen_eq_some.mp hw
  have hn : ((n : Int) - bias).toNat = n - bias := by omega
  rw [hn] at h ⊢
  exact takeField_reader (by omega) hslot h

/-- A literal run is read as its count less 1, and then its bytes (R111). -/
theorem takeField_litRun {bias : Nat} {bytes : List Byte} {w w' : Writer} {body : List Byte}
    (hw : emitItem bias (.litRun bytes) w = some w') (hslot : w.SlotOk) (h : w'.Leads body) :
    w.Leads body ∧
      takeField (w.reader body) =
        some (bytes.length - 1, { rest := bytes ++ (w'.reader body).rest, slot := (w'.reader body).slot }) := by
  obtain ⟨u, hu, rfl⟩ := emitLitRun_eq_some.mp hw
  obtain ⟨hlo, hhi, rfl⟩ := writeLen_eq_some.mp hu
  have hn : ((bytes.length : Int) - 1).toNat = bytes.length - 1 := by omega
  rw [hn] at h ⊢
  obtain ⟨hleads, hrest, hs⟩ := reader_putBytes (hslot.putNibbles _) h
  obtain ⟨hleads', hfield⟩ := takeField_reader (by omega) hslot hleads
  exact ⟨hleads', by rw [hfield, ← hrest, ← hs]⟩

theorem emitItems_cons_eq_some {bias : Nat} {x : NbItem} {xs : List NbItem} {w w' : Writer} :
    emitItems bias (x :: xs) w = some w' ↔ ∃ u, emitItem bias x w = some u ∧ emitItems bias xs u = some w' := by
  rw [emitItems]
  split <;> rename_i h <;> simp [h]

theorem body_length_litRun {bias : Nat} {bytes : List Byte} {w w' : Writer}
    (h : emitItem bias (.litRun bytes) w = some w') : w.body.length + bytes.length ≤ w'.body.length := by
  obtain ⟨u, hu, rfl⟩ := emitLitRun_eq_some.mp h
  obtain ⟨-, -, rfl⟩ := writeLen_eq_some.mp hu
  rw [putBytes_eq, List.length_append]
  exact Nat.add_le_add_right (body_length_putNibbles _ _) _

theorem body_length_emitItem {bias : Nat} {x : NbItem} {w w' : Writer} (h : emitItem bias x w = some w') :
    w.body.length ≤ w'.body.length := by
  cases x with
  | lenField4 | lenField8 | lenField16 =>
    cases h
    exact body_length_putNibbles _ _
  | run n =>
    obtain ⟨-, -, rfl⟩ := writeLen_eq_some.mp h
    exact body_length_putNibbles _ _
  | litRun bytes => exact (Nat.le_add_right _ _).trans (body_length_litRun h)

theorem body_length_emitItems {bias : Nat} {xs : List NbItem} {w w' : Writer} (h : emitItems bias xs w = some w') :
    w.body.length ≤ w'.body.length := by
  induction xs generalizing w with
  | nil =>
    cases h
    exact Nat.le_refl _
  | cons x xs ih =>
    obtain ⟨u, hu, hxs⟩ := emitItems_cons_eq_some.mp h
    exact (body_length_emitItem hu).trans (ih hxs)

/-- The literal bytes of the first segment go into the body. -/
theorem SegmentedFrom.body_length {d : List Byte} {s bias : Nat} {xs : List NbItem} {w w' : Writer}
    (h : SegmentedFrom d s xs) (hw : emitItems bias xs w = some w') : w.body.length < w'.body.length := by
  obtain ⟨bytes, rest, rfl, hne, -⟩ := h.head
  obtain ⟨u, hu, hrest⟩ := emitItems_cons_eq_some.mp hw
  have hlit := body_length_litRun hu
  have hpos := List.length_pos_of_ne_nil hne
  have := body_length_emitItems hrest
  omega

theorem Writer.reader_rest_ne_nil {w : Writer} {body : List Byte} (h : w.body.length < body.length) :
    (w.reader body).rest ≠ [] :=
  List.ne_nil_of_length_pos (by rw [Writer.reader, List.length_drop]; omega)

/-- The reader on a literal run that ends the body. -/
theorem readSegments_last {bias fuel : Nat} {r r' : Nibbles} {lit : List Byte} (hrest : r.rest ≠ []) (hlit : lit ≠ [])
    (hfield : takeField r = some (lit.length - 1, { rest := lit ++ r'.rest, slot := r'.slot })) (hend : r'.rest = []) :
    readSegments bias (fuel + 1) r = some lit := by
  have hlen : lit.length - 1 + 1 = lit.length := Nat.sub_add_cancel (List.length_pos_of_ne_nil hlit)
  simp only [readSegments, if_neg hrest, hfield, hlen, List.take_left, List.drop_left, lt_irrefl, if_false, hend,
    if_true]

/-- The reader on a literal run and the run after it. -/
theorem readSegments_more {bias fuel u : Nat} {r r' r'' : Nibbles} {lit out : List Byte} (hrest : r.rest ≠ [])
    (hlit : lit ≠ []) (hfield : takeField r = some (lit.length - 1, { rest := lit ++ r'.rest, slot := r'.slot }))
    (hrest' : r'.rest ≠ []) (hrun : takeField r' = some (u, r'')) (hmin : nbRunMin ≤ u + bias)
    (hout : readSegments bias fuel r'' = some out) :
    readSegments bias (fuel + 1) r = some (lit ++ List.replicate (u + bias) (lit.getLastD 0x00#8) ++ out) := by
  have hlen : lit.length - 1 + 1 = lit.length := Nat.sub_add_cancel (List.length_pos_of_ne_nil hlit)
  simp only [readSegments, if_neg hrest, hfield, hlen, List.take_left, List.drop_left, lt_irrefl, if_false,
    if_neg hrest', hrun, if_neg (Nat.not_lt.mpr hmin), hout]

/-- What the writer makes of the segments from byte `s` on is read back as the bytes from `s` on. -/
theorem SegmentedFrom.read {d : List Byte} {s bias fuel : Nat} {xs : List NbItem} {w w' : Writer}
    (h : SegmentedFrom d s xs) (hbias : bias ≤ nbRunMin) (hw : emitItems bias xs w = some w') (hslot : w.SlotOk)
    (hfuel : w'.body.length ≤ w.body.length + fuel) :
    w.Leads w'.body ∧ readSegments bias fuel (w.reader w'.body) = some (d.drop s) := by
  have hmore := h.body_length hw
  induction h generalizing w fuel with
  | @last s hs =>
    obtain ⟨_, _, hhead, hne, -⟩ := (SegmentedFrom.last hs).head
    cases hhead
    obtain ⟨u, hu, hnil⟩ := emitItems_cons_eq_some.mp hw
    cases hnil
    obtain ⟨hleads, hfield⟩ := takeField_litRun hu hslot (.self _)
    obtain ⟨fuel, rfl⟩ : ∃ k, fuel = k + 1 := ⟨fuel - 1, by omega⟩
    exact ⟨hleads, readSegments_last (Writer.reader_rest_ne_nil hmore) hne hfield (Writer.reader_self_rest _)⟩
  | @more s i j rest hsi hij hj hrun hrest ih =>
    obtain ⟨_, _, hhead, hne, -⟩ := (SegmentedFrom.more hsi hij hj hrun hrest).head
    cases hhead
    obtain ⟨u, hu, hw⟩ := emitItems_cons_eq_some.mp hw
    obtain ⟨v, hv, hw⟩ := emitItems_cons_eq_some.mp hw
    have huslot := hslot.emitItem hu
    have hulen := body_length_litRun hu
    have hvlen := body_length_emitItem hv
    have hvmore := hrest.body_length hw
    have hpos := List.length_pos_of_ne_nil hne
    obtain ⟨fuel, rfl⟩ : ∃ k, fuel = k + 1 := ⟨fuel - 1, by omega⟩
    obtain ⟨hvleads, hread⟩ := ih hw (huslot.emitItem hv) (fuel := fuel) (by omega) hvmore
    obtain ⟨huleads, hrunField⟩ := takeField_run hv huslot hvleads
    obtain ⟨hleads, hlitField⟩ := takeField_litRun hu hslot huleads
    simp only [nbRunMin] at hbias
    have hn : j - i - bias + bias = j - i := by omega
    have hstep := readSegments_more (Writer.reader_rest_ne_nil hmore) hne hlitField
      (Writer.reader_rest_ne_nil (by omega)) hrunField (by rw [hn, nbRunMin]; omega) hread
    refine ⟨hleads, hstep.trans (congrArg some ?_)⟩
    rw [hn, literal_getLastD hsi (by omega), List.append_assoc]
    exact literal_run_rest hsi (by omega) (by omega) hrun

/-! ## The whole stream -/

/-- The header is the same number either way it is put together (R106, R185). -/
theorem headerBytes_eq_encodeHeader (mark : Mark) (n : BitVec 14) : headerBytes mark n = encodeHeader mark n := by
  have hhi : (encodeMark mark ++ n : BitVec 16).extractLsb' 8 8 = encodeMark mark ++ n.extractLsb' 8 6 := by
    refine BitVec.eq_of_toNat_eq ?_
    simp only [toNat_append_eq, toNat_extract]
    omega
  have hlo : (encodeMark mark ++ n : BitVec 16).extractLsb' 0 8 = n.extractLsb' 0 8 :=
    BitVec.extractLsb'_append_eq_of_add_le (by decide)
  have hhead := headerBytes_head mark n
  simp only [encodeHeader, hhi, hlo, ← hhead]
  rfl

theorem readNibbler_stream {bias : Nat} {mark : Mark} {body : List Byte} (hlen : body.length ≤ 8194) :
    readNibbler bias (headerBytes mark (BitVec.ofNat 14 body.length) ++ body) =
      if body = [] then some [] else readBody bias mark body := by
  have hn : (BitVec.ofNat 14 body.length).toNat = body.length := Nat.mod_eq_of_lt (by omega)
  rw [headerBytes_eq_encodeHeader, encodeHeader]
  simp only [List.cons_append, List.nil_append, readNibbler, headerWord_join]
  rw [extract_high, extract_low, decodeMark_encodeMark, hn]
  exact if_neg (not_not.mpr rfl)

/-- The reader on a body that begins with a run announced by `MARK` (R107). -/
theorem readBody_lead {bias u : Nat} {mark : Mark} {body out : List Byte} {r : Nibbles} (hmark : mark ≠ .literal)
    (hrun : takeField (Writer.start.reader body) = some (u, r)) (hmin : nbRunMin ≤ u + bias)
    (hout : readSegments bias body.length r = some out) :
    readBody bias mark body = some (List.replicate (u + bias) (markValue mark) ++ out) := by
  change takeField { rest := body, slot := none } = some (u, r) at hrun
  cases mark with
  | zeroRun | oneRun => simp only [readBody, hrun, if_neg (Nat.not_lt.mpr hmin), hout, markValue]
  | literal => exact absurd rfl hmark

theorem markOf_eq_literal_iff {d : List Byte} (hd : d ≠ []) (empty : Mark) :
    markOf empty d = .literal ↔ leadsWithRun d = false := by
  rw [markOf, if_neg (mt List.length_eq_zero_iff.mp hd)]
  split_ifs <;> simp_all

theorem readBody_segments {bias : Nat} {d : List Byte} {w : Writer} (empty : Mark) (hd : d ≠ [])
    (hbias : bias ≤ nbRunMin) (hw : emitItems bias (segments d) Writer.start = some w) :
    w.body ≠ [] ∧ readBody bias (markOf empty d) w.body = some d := by
  obtain ⟨hlead, hseg⟩ | ⟨hlead, rest, hcons, hseg⟩ := segments_cases hd
  · refine ⟨List.ne_nil_of_length_pos (hseg.body_length hw), ?_⟩
    rw [(markOf_eq_literal_iff hd empty).mpr hlead]
    exact (hseg.read hbias hw .start (Nat.le_add_left _ _)).2
  · rw [hcons] at hw
    obtain ⟨u, hu, hw⟩ := emitItems_cons_eq_some.mp hw
    obtain ⟨hge, hle⟩ := leadingRunEnd_bounds hlead
    have hmore := hseg.body_length hw
    obtain ⟨hleads, hread⟩ := hseg.read hbias hw (Writer.SlotOk.start.emitItem hu) (Nat.le_add_left _ _)
    obtain ⟨-, hrun⟩ := takeField_run hu .start hleads
    simp only [nbRunMin] at hbias
    have hn : leadingRunEnd d - bias + bias = leadingRunEnd d := by omega
    have hmark : markOf empty d ≠ .literal := by
      rw [Ne, markOf_eq_literal_iff hd empty, hlead]
      decide
    refine ⟨List.ne_nil_of_length_pos (by omega), ?_⟩
    rw [readBody_lead hmark hrun (by rw [hn]; exact hge) hread, hn, markValue_markOf hlead]
    exact congrArg some ((runOf_of_leadsWithRun hlead).drop (Nat.zero_le _) (by omega))

/-- Settles O46: the segments are read back from the body, under the header that announces it. -/
theorem readNibblerInvertsEncoder : Obligations.ReadNibblerInvertsEncoder := by
  unfold Obligations.ReadNibblerInvertsEncoder
  intro p d hbias hd
  obtain ⟨w, hw, -, hlen, -⟩ := emit_segments (d := d) hbias hd
  refine ⟨_, _, nbEncode_of_emit hw, ?_⟩
  rw [readNibbler_stream (by omega)]
  by_cases hnil : d = []
  · subst hnil
    cases hw
    rfl
  · obtain ⟨hbody, hread⟩ := readBody_segments p.nbEmptyMarker hnil hbias hw
    rw [if_neg hbody, hread]

end Sys2Proof.Machine

/-! Instructions one at a time: command words (R90), the start of `FX.FIXLAST` (R221, R225), and what each item adds to
the stream of the running command (R95 to R102, R109 to R111). O15, O24, O25, O26, O27. -/

namespace Sys2Proof.Machine

/-! ## Command words and FIXLAST -/

/-- A write to a `CMD` register depends on `OP` alone (R90). -/
theorem execRegwr_congr_cmdOp {off v v' : Word} (hoff : isCmdOffset off = true) (hop : cmdOp v = cmdOp v') (s : State) :
    execRegwr off v s = execRegwr off v' s := by
  simp only [isCmdOffset, Bool.or_eq_true, beq_iff_eq] at hoff
  obtain (rfl | rfl) | rfl := hoff
  · change writeBrCmd v s = writeBrCmd v' s
    rw [writeBrCmd, writeBrCmd, hop]
  · change writeNbCmd v s = writeNbCmd v' s
    rw [writeNbCmd, writeNbCmd, hop]
  · change writeFxCmd v s = writeFxCmd v' s
    rw [writeFxCmd, writeFxCmd, hop]

/-- Settles O15: a write looks at `OP` alone, and the four commands do not look at the ignored bits. -/
theorem commandWordIgnoredBits : Obligations.CommandWordIgnoredBits := by
  unfold Obligations.CommandWordIgnoredBits
  intro s off v v' ign ign'
  exact ⟨fun hoff hop => execRegwr_congr_cmdOp hoff hop s, rfl, rfl, rfl, rfl⟩

/-- The FIXLAST command with its operands latched, once they meet R256. -/
theorem fxJob_eq {s : State} (h : fxError (fxArgs s.fx) = none) :
    fxJob s = { addr := s.fx.addr.toNat, bits := s.fx.bits.toNat } := by
  obtain ⟨-, ⟨hbits, -⟩, haddr, -⟩ := fxError_eq_none.mp h
  simp only [fxArgs] at hbits haddr
  simp only [fxJob, fxArgs, toNat_toInt_of_nonneg haddr, toNat_toInt_of_nonneg (show 0 ≤ s.fx.bits.toInt by omega)]

theorem startFixlast_starts {s : State} (hst : s.fx.status.st ≠ .busy) (he : fxError (fxArgs s.fx) = none)
    (hfree : s.FreeForFx (fxJob s)) :
    startFixlast s = .next { s with fx := { s.fx with
      status := Status.busy, job := some { addr := s.fx.addr.toNat, bits := s.fx.bits.toNat } } } :=
  startFixlast_eq_next.mpr ⟨hst, .inr ⟨he, launchFx_eq_next.mpr ⟨hfree, by rw [fxJob_eq he]⟩⟩⟩

/-- Settles O24: the operands meet R256, so the command starts. -/
theorem fxFixlastStarts : Obligations.FxFixlastStarts := by
  unfold Obligations.FxFixlastStarts
  intro s ign hst hbuf hlo hhi haddr hcap hfree
  have he : fxError (fxArgs s.fx) = none := by
    rw [fxError_eq_none]
    simp only [fxArgs, hbuf]
    exact ⟨by decide, ⟨hlo, hhi⟩, haddr, hcap⟩
  exact startFixlast_starts hst he hfree

/-! ## Items of the BitRat stream -/

theorem exec_brItem_appends {s : State} {j : BrJob} (hj : s.br.job = some j) (x : BrItem) :
    exec x.instr s = .next { s with br := { s.br with job := some { j with out := j.out ++ brItemBytes x } } } := by
  rw [exec_brItem, runBrItem_eq_emit]
  exact emitBr_eq_next.mpr ⟨j, hj, rfl⟩

theorem brItemBytes_pairMask (a b : Nibble) :
    brItemBytes (.pairMask a b) = if a = 0#4 ∧ b = 0#4 then [] else [a ++ b] := by
  simp only [brItemBytes, maskBytes, append_eq_zero]

/-- Settles O25: each item appends its bytes. -/
theorem bitRatItems : Obligations.BitRatItems := by
  unfold Obligations.BitRatItems
  intro s j hj
  have happend := exec_brItem_appends hj
  refine ⟨fun g => happend (.groupMask g), fun a b => ?_, fun t => happend (.tailPairMask t),
    fun u => happend (.sectionMask u), fun d => happend (.literal d), fun raw => happend (.escapeBlock raw)⟩
  rw [← brItemBytes_pairMask]
  exact happend (.pairMask a b)

/-! ## Items of the Nibbler body -/

theorem exec_nbItem_emits {s : State} {j : NbJob} {w : Writer} (hj : s.nb.job = some j) (x : NbItem)
    (hw : emitItem s.params.nbRunBias x j.writer = some w) :
    exec x.instr s = .next { s with nb := { s.nb with job := some { j with body := w.body, slot := w.slot } } } := by
  rw [exec_nbItem, runNbItem_eq_emit]
  exact emitNb_eq_next.mpr ⟨j, hj, .inr ⟨w, hw, rfl⟩⟩

/-- Two nibbles with no slot free make a byte of their own (R110). -/
theorem putNibble_putNibble_of_none (x y : Nibble) (body : List Byte) :
    putNibble y (putNibble x { body := body, slot := none }) = { body := body ++ [x ++ y], slot := none } := by
  have hjoin : (x ++ 0#4 : Byte) ||| (0#4 ++ y) = x ++ y := by
    revert x y
    decide
  simp [putNibble, hjoin]

/-- The nibbles of the 8-bit form (R175). -/
theorem field8_eq (w : BitVec 6) : field8 w = field8Nibbles w := by
  simp only [field8, field8Nibbles, List.cons.injEq, and_true]
  constructor <;>
  · refine BitVec.eq_of_toNat_eq ?_
    simp only [toNat_append_eq, toNat_extract]
    omega

/-- The nibbles of the 16-bit form (R176). -/
theorem field16_eq (w : BitVec 13) : field16 w = field16Nibbles w := by
  simp only [field16, field16Nibbles, List.cons.injEq, and_true]
  refine ⟨?_, ?_, ?_, ?_⟩ <;>
  · refine BitVec.eq_of_toNat_eq ?_
    simp only [toNat_append_eq, toNat_extract]
    omega

/-! A field with no slot free begins a byte of its own (R110). -/

theorem putNibbles_field4_of_none (v : BitVec 3) (body : List Byte) :
    putNibbles (field4 v) { body := body, slot := none } =
      { body := body ++ [0#1 ++ v ++ 0#4], slot := some body.length } := rfl

theorem putNibbles_field8_of_none (w : BitVec 6) (body : List Byte) :
    putNibbles (field8 w) { body := body, slot := none } = { body := body ++ [2#2 ++ w], slot := none } := by
  have hjoin : (2#2 ++ w.extractLsb' 4 2 : Nibble) ++ w.extractLsb' 0 4 = 2#2 ++ w := by
    refine BitVec.eq_of_toNat_eq ?_
    simp only [toNat_append_eq, toNat_extract]
    omega
  rw [field8_eq, field8Nibbles, putNibbles, putNibbles, putNibbles, putNibble_putNibble_of_none, hjoin]

theorem putNibbles_field16_of_none (w : BitVec 13) (body : List Byte) :
    putNibbles (field16 w) { body := body, slot := none } =
      { body := body ++ [6#3 ++ w.extractLsb' 8 5, w.extractLsb' 0 8], slot := none } := by
  have hhi : (6#3 ++ w.extractLsb' 12 1 : Nibble) ++ w.extractLsb' 8 4 = 6#3 ++ w.extractLsb' 8 5 := by
    refine BitVec.eq_of_toNat_eq ?_
    simp only [toNat_append_eq, toNat_extract]
    omega
  have hlo : w.extractLsb' 4 4 ++ w.extractLsb' 0 4 = w.extractLsb' 0 8 :=
    BitVec.extractLsb'_append_extractLsb'_eq_extractLsb' rfl
  rw [field16_eq, field16Nibbles, putNibbles, putNibbles, putNibbles, putNibbles, putNibbles,
    putNibble_putNibble_of_none, putNibble_putNibble_of_none, hhi, hlo, List.append_assoc]
  rfl

/-! A field with a slot free begins in the slot, and goes on as one with no slot free (R110). -/

theorem putNibbles_cons_of_slot (x : Nibble) (xs : List Nibble) (body : List Byte) (k : Nat) :
    putNibbles (x :: xs) { body := body, slot := some k } =
      putNibbles xs { body := body.set k (body.getD k 0x00#8 ||| (0#4 ++ x)), slot := none } := rfl

theorem putNibbles_field4_of_slot (v : BitVec 3) (body : List Byte) (k : Nat) :
    putNibbles (field4 v) { body := body, slot := some k } =
      { body := body.set k (body.getD k 0x00#8 ||| (0#5 ++ v)), slot := none } := by
  have hjoin : (0#4 ++ (0#1 ++ v : Nibble) : Byte) = 0#5 ++ v := by revert v; decide
  rw [field4, putNibbles_cons_of_slot, hjoin]
  rfl

theorem putNibbles_field8_of_slot (w : BitVec 6) (body : List Byte) (k : Nat) :
    putNibbles (field8 w) { body := body, slot := some k } =
      { body := body.set k (body.getD k 0x00#8 ||| (0#4 ++ 2#2 ++ w.extractLsb' 4 2)) ++ [w.extractLsb' 0 4 ++ 0#4]
        slot := some body.length } := by
  have hjoin (x : BitVec 2) : (0#4 ++ (2#2 ++ x : Nibble) : Byte) = 0#4 ++ 2#2 ++ x := by revert x; decide
  rw [field8_eq, field8Nibbles, putNibbles_cons_of_slot, hjoin, putNibbles, putNibble_of_none rfl, List.length_set]
  rfl

theorem putNibbles_field16_of_slot (w : BitVec 13) (body : List Byte) (k : Nat) :
    putNibbles (field16 w) { body := body, slot := some k } =
      { body := body.set k (body.getD k 0x00#8 ||| (0#4 ++ 6#3 ++ w.extractLsb' 12 1)) ++
          [w.extractLsb' 4 8, w.extractLsb' 0 4 ++ 0#4]
        slot := some (body.length + 1) } := by
  have hjoin (x : BitVec 1) : (0#4 ++ (6#3 ++ x : Nibble) : Byte) = 0#4 ++ 6#3 ++ x := by revert x; decide
  have hmid : w.extractLsb' 8 4 ++ w.extractLsb' 4 4 = w.extractLsb' 4 8 :=
    BitVec.extractLsb'_append_extractLsb'_eq_extractLsb' rfl
  rw [field16_eq, field16Nibbles, putNibbles_cons_of_slot, hjoin, putNibbles, putNibbles,
    putNibble_putNibble_of_none, hmid, putNibbles, putNibble_of_none rfl, List.length_append, List.length_set,
    List.append_assoc]
  rfl

/-- Settles O26: the placement of the nibbles of each field. -/
theorem nbFieldPlacement : Obligations.NbFieldPlacement := by
  unfold Obligations.NbFieldPlacement
  rintro s j _ hj rfl
  have hemit {x : NbItem} {xs : List Nibble} {body : List Byte} {slot : Option Nat}
      (hx : emitItem s.params.nbRunBias x j.writer = some (putNibbles xs j.writer))
      (hput : putNibbles xs j.writer = { body := body, slot := slot }) :=
    exec_nbItem_emits hj x (hx.trans (congrArg some hput))
  refine ⟨fun hslot => ?_, fun k hslot _ => ?_⟩ <;> rw [NbJob.writer, hslot] at hemit
  · exact ⟨fun v => hemit (x := .lenField4 v) rfl (putNibbles_field4_of_none v j.body),
      fun w => hemit (x := .lenField8 w) rfl (putNibbles_field8_of_none w j.body),
      fun w => hemit (x := .lenField16 w) rfl (putNibbles_field16_of_none w j.body)⟩
  · exact ⟨fun v => hemit (x := .lenField4 v) rfl (putNibbles_field4_of_slot v j.body k),
      fun w => hemit (x := .lenField8 w) rfl (putNibbles_field8_of_slot w j.body k),
      fun w => hemit (x := .lenField16 w) rfl (putNibbles_field16_of_slot w j.body k)⟩

/-! ## Segments of the Nibbler body -/

theorem emitRun_of_fits {bias n : Nat} (hlo : bias ≤ n) (hhi : n ≤ nbLenMax + bias) (w : Writer) :
    emitRun bias n w = some (putNibbles (fieldNibbles (n - bias)) w) := by
  have hv : n - bias ≤ nbLenMax := by omega
  rw [emitRun, ← Int.ofNat_sub hlo, writeLen_of_fits hv, lenNibbles_eq_fieldNibbles hv]

theorem emitLitRun_of_fits {bytes : List Byte} (hlo : 1 ≤ bytes.length) (hhi : bytes.length ≤ nbLenMax + 1)
    (w : Writer) :
    emitLitRun bytes w = some (putBytes bytes (putNibbles (fieldNibbles (bytes.length - 1)) w)) := by
  have hv : bytes.length - 1 ≤ nbLenMax := by omega
  have hcast : (bytes.length : Int) - 1 = ((bytes.length - 1 : Nat) : Int) := by omega
  rw [emitLitRun, hcast, writeLen_of_fits hv, lenNibbles_eq_fieldNibbles hv]

/-- Settles O27: the field of each kind of segment is written, and a literal run's bytes after it. -/
theorem nbRunAndLitRun : Obligations.NbRunAndLitRun := by
  unfold Obligations.NbRunAndLitRun
  intro s j hj
  refine ⟨fun n w hlo hhi hw => ?_, fun bytes w hlo hhi hw => ?_⟩
  · refine exec_nbItem_emits hj (.run n) ((emitRun_of_fits hlo hhi _).trans ?_)
    rw [hw]
    rfl
  · have hput := emitLitRun_of_fits hlo hhi j.writer
    rw [putBytes_eq] at hput
    rw [hw]
    exact exec_nbItem_emits hj (.litRun bytes) hput

end Sys2Proof.Machine

/-! Command lines (R116): the operand registers a line leaves, and the command it then runs to its end or has rejected.
O36. -/

namespace Sys2Proof.Machine

/-! ## Writing the operands a line names -/

/-- A register after a line that names it or omits it. -/
def State.setNamed (s : State) (r : Reg) : Option Word → State
  | none => s
  | some v => s.setReg r v

/-- The registers of a buffer after a line: an address sets the `PRESENT` bit `bit`, `absent` clears it. -/
def State.setBufArg (s : State) (buf base : Reg) (bit : Nat) : Option BufArg → State
  | none => s
  | some .absent => s.setReg buf (s.reg buf &&& ~~~(1#32 <<< bit))
  | some (.addr a) => (s.setReg buf (s.reg buf ||| (1#32 <<< bit))).setReg base a

@[simp] theorem busy_setReg (s : State) (r : Reg) (v : Word) (u : Bank) : (s.setReg r v).busy u = s.busy u := by
  cases r <;> cases u <;> rfl

@[simp] theorem busy_setNamed (s : State) (r : Reg) (v : Option Word) (u : Bank) :
    (s.setNamed r v).busy u = s.busy u := by
  cases v with
  | none => rfl
  | some v => exact busy_setReg s r v u

@[simp] theorem busy_setBufArg (s : State) (buf base : Reg) (bit : Nat) (x : Option BufArg) (u : Bank) :
    (s.setBufArg buf base bit x).busy u = s.busy u := by
  match x with
  | none => rfl
  | some .absent => exact busy_setReg ..
  | some (.addr a) => exact (busy_setReg ..).trans (busy_setReg ..)

/-- A write to a register of a unit that is not `BUSY` (R223). -/
theorem execRegwr_of_idle {r : Reg} {s : State} (h : s.busy (bankOf r.offset) = false) (v : Word) :
    execRegwr r.offset v s = .next (s.setReg r v) := by
  rw [execRegwr_reg]
  exact writeOther_eq_next.mpr ⟨h, .inl ⟨r, regAt_offset r, rfl⟩⟩

theorem writeIfNamed_of_idle {r : Reg} {s : State} (h : s.busy (bankOf r.offset) = false) (v : Option Word) :
    writeIfNamed r v s = .next (s.setNamed r v) := by
  cases v with
  | none => rfl
  | some v => exact execRegwr_of_idle h v

theorem writeBufArg_of_idle {buf base : Reg} {s : State} (hbuf : s.busy (bankOf buf.offset) = false)
    (hbase : s.busy (bankOf base.offset) = false) (bit : Nat) (x : Option BufArg) :
    writeBufArg buf base bit x s = .next (s.setBufArg buf base bit x) := by
  match x with
  | none => rfl
  | some .absent => exact execRegwr_of_idle hbuf _
  | some (.addr a) =>
    rw [writeBufArg, execRegwr_of_idle hbuf, andThen_next]
    exact execRegwr_of_idle ((busy_setReg ..).trans hbase) a

/-! ## The bits of `BUF` -/

theorem setPresent_eq : ∀ b : BitVec 2,
    (b.setWidth 32 &&& ~~~(1#32 <<< 0)).setWidth 2 = lineBuf b (some .absent) none ∧
    (b.setWidth 32 &&& ~~~(1#32 <<< 1)).setWidth 2 = lineBuf b none (some .absent) ∧
    (∀ a, (b.setWidth 32 ||| (1#32 <<< 0)).setWidth 2 = lineBuf b (some (.addr a)) none) ∧
    (∀ a, (b.setWidth 32 ||| (1#32 <<< 1)).setWidth 2 = lineBuf b none (some (.addr a))) ∧
    lineBuf b none none = b := by
  simp only [lineBuf, linePresent, forall_const]
  decide

/-- The line sets the bits of the two buffers one after the other. -/
theorem lineBuf_lineBuf (b : BitVec 2) (inp out : Option BufArg) :
    lineBuf (lineBuf b inp none) none out = lineBuf b inp out := by
  have hbits : ∀ p q : Bool, (BitVec.ofBool p ++ BitVec.ofBool q : BitVec 2).getLsbD 1 = p ∧
      (BitVec.ofBool p ++ BitVec.ofBool q : BitVec 2).getLsbD 0 = q := by decide
  unfold lineBuf
  simp only [hbits, linePresent]

/-! ## The operand registers -/

theorem setNamed_brPrev (s : State) (v : Option (BitVec 1)) :
    s.setNamed .brPrev (v.map fun b => b.setWidth 32) = { s with br := { s.br with prev := v.getD s.br.prev } } := by
  cases v with
  | none => rfl
  | some v =>
    have hbit : ∀ v : BitVec 1, (v.setWidth 32).setWidth 1 = v := by decide
    simp only [Option.map_some, State.setNamed, State.setReg, hbit, Option.getD_some]

theorem setNamed_brInLen (s : State) (v : Option Word) :
    s.setNamed .brInLen v = { s with br := { s.br with inLen := lineValue s.br.inLen v } } := by
  cases v with
  | none => rfl
  | some v => simp only [State.setNamed, State.setReg, lineValue, BitVec.setWidth_eq]

theorem setNamed_brInCap (s : State) (v : Option Word) :
    s.setNamed .brInCap v = { s with br := { s.br with inCap := lineValue s.br.inCap v } } := by
  cases v <;> rfl

theorem setNamed_brOutCap (s : State) (v : Option Word) :
    s.setNamed .brOutCap v = { s with br := { s.br with outCap := lineValue s.br.outCap v } } := by
  cases v <;> rfl

theorem setBufArg_brIn (s : State) (x : Option BufArg) :
    s.setBufArg .brBuf .brInBase 0 x =
      { s with br := { s.br with buf := lineBuf s.br.buf x none, inBase := lineBase s.br.inBase x } } := by
  obtain ⟨habsent, -, haddr, -, hnone⟩ := setPresent_eq s.br.buf
  match x with
  | none => rw [hnone]; rfl
  | some .absent => rw [← habsent]; rfl
  | some (.addr a) => rw [← haddr a]; rfl

theorem setBufArg_brOut (s : State) (x : Option BufArg) :
    s.setBufArg .brBuf .brOutBase 1 x =
      { s with br := { s.br with buf := lineBuf s.br.buf none x, outBase := lineBase s.br.outBase x } } := by
  obtain ⟨-, habsent, -, haddr, hnone⟩ := setPresent_eq s.br.buf
  match x with
  | none => rw [hnone]; rfl
  | some .absent => rw [← habsent]; rfl
  | some (.addr a) => rw [← haddr a]; rfl

/-- A BitRat line writes its operands and then its command code (R116). -/
theorem runBrLine_eq {s : State} (hst : s.br.status.st ≠ .busy) (op : Word) (prev : Option (BitVec 1))
    (inp : Option BufArg) (len incap : Option Word) (out : Option BufArg) (outcap : Option Word) :
    runBrLine op prev inp len incap out outcap s =
      andThen (execRegwr 0x000#32 op { s with br := s.br.afterLine prev inp len incap out outcap }) pollBr := by
  have hidle (r : Reg) (hr : bankOf r.offset = .br) : s.busy (bankOf r.offset) = false := by
    rw [hr]
    exact beq_false_of_ne hst
  simp only [runBrLine, writeIfNamed_of_idle, writeBufArg_of_idle, andThen_next, busy_setNamed, busy_setBufArg,
    hidle .brPrev rfl, hidle .brBuf rfl, hidle .brInBase rfl, hidle .brInLen rfl, hidle .brInCap rfl,
    hidle .brOutBase rfl, hidle .brOutCap rfl]
  simp only [setNamed_brPrev, setBufArg_brIn, setNamed_brInLen, setNamed_brInCap, setBufArg_brOut, setNamed_brOutCap,
    lineBuf_lineBuf]
  rfl

theorem setNamed_nbInLen (s : State) (v : Option Word) :
    s.setNamed .nbInLen v = { s with nb := { s.nb with inLen := lineValue s.nb.inLen v } } := by
  cases v with
  | none => rfl
  | some v => simp only [State.setNamed, State.setReg, lineValue, BitVec.setWidth_eq]

theorem setNamed_nbInCap (s : State) (v : Option Word) :
    s.setNamed .nbInCap v = { s with nb := { s.nb with inCap := lineValue s.nb.inCap v } } := by
  cases v <;> rfl

theorem setNamed_nbOutCap (s : State) (v : Option Word) :
    s.setNamed .nbOutCap v = { s with nb := { s.nb with outCap := lineValue s.nb.outCap v } } := by
  cases v <;> rfl

theorem setBufArg_nbIn (s : State) (x : Option BufArg) :
    s.setBufArg .nbBuf .nbInBase 0 x =
      { s with nb := { s.nb with buf := lineBuf s.nb.buf x none, inBase := lineBase s.nb.inBase x } } := by
  obtain ⟨habsent, -, haddr, -, hnone⟩ := setPresent_eq s.nb.buf
  match x with
  | none => rw [hnone]; rfl
  | some .absent => rw [← habsent]; rfl
  | some (.addr a) => rw [← haddr a]; rfl

theorem setBufArg_nbOut (s : State) (x : Option BufArg) :
    s.setBufArg .nbBuf .nbOutBase 1 x =
      { s with nb := { s.nb with buf := lineBuf s.nb.buf none x, outBase := lineBase s.nb.outBase x } } := by
  obtain ⟨-, habsent, -, haddr, hnone⟩ := setPresent_eq s.nb.buf
  match x with
  | none => rw [hnone]; rfl
  | some .absent => rw [← habsent]; rfl
  | some (.addr a) => rw [← haddr a]; rfl

/-- A Nibbler line writes its operands and then its command code (R116). -/
theorem runNbLine_eq {s : State} (hst : s.nb.status.st ≠ .busy) (inp : Option BufArg) (len incap : Option Word)
    (out : Option BufArg) (outcap : Option Word) :
    runNbLine inp len incap out outcap s =
      andThen (execRegwr 0x100#32 1#32 { s with nb := s.nb.afterLine inp len incap out outcap }) pollNb := by
  have hidle (r : Reg) (hr : bankOf r.offset = .nb) : s.busy (bankOf r.offset) = false := by
    rw [hr]
    exact beq_false_of_ne hst
  simp only [runNbLine, writeIfNamed_of_idle, writeBufArg_of_idle, andThen_next, busy_setNamed, busy_setBufArg,
    hidle .nbBuf rfl, hidle .nbInBase rfl, hidle .nbInLen rfl, hidle .nbInCap rfl, hidle .nbOutBase rfl,
    hidle .nbOutCap rfl]
  simp only [setBufArg_nbIn, setNamed_nbInLen, setNamed_nbInCap, setBufArg_nbOut, setNamed_nbOutCap, lineBuf_lineBuf]
  rfl

theorem setBufArg_fx (s : State) (addr : Option Word) :
    s.setBufArg .fxBuf .fxAddr 0 (addr.map .addr) =
      { s with fx := { s.fx with
        buf := if addr.isSome then 1#1 else s.fx.buf, addr := lineValue s.fx.addr addr } } := by
  cases addr with
  | none => rfl
  | some a =>
    have hbit : ∀ b : BitVec 1, (b.setWidth 32 ||| (1#32 <<< 0)).setWidth 1 = 1#1 := by decide
    simp only [Option.map_some, State.setBufArg, State.setReg, State.reg, hbit, lineValue, BitVec.setWidth_eq,
      Option.isSome_some, if_true]

theorem setNamed_fxBits (s : State) (v : Option Word) :
    s.setNamed .fxBits v = { s with fx := { s.fx with bits := lineValue s.fx.bits v } } := by
  cases v with
  | none => rfl
  | some v => simp only [State.setNamed, State.setReg, lineValue, BitVec.setWidth_eq]

theorem setNamed_fxCap (s : State) (v : Option Word) :
    s.setNamed .fxCap v = { s with fx := { s.fx with cap := lineValue s.fx.cap v } } := by
  cases v <;> rfl

/-- A FIXLAST line writes its operands and then its command code (R116). -/
theorem runFxLine_eq {s : State} (hst : s.fx.status.st ≠ .busy) (addr bits cap : Option Word) :
    runFxLine addr bits cap s =
      andThen (execRegwr 0x200#32 1#32 { s with fx := s.fx.afterLine addr bits cap }) finishFx := by
  have hidle (r : Reg) (hr : bankOf r.offset = .fx) : s.busy (bankOf r.offset) = false := by
    rw [hr]
    exact beq_false_of_ne hst
  simp only [runFxLine, writeIfNamed_of_idle, writeBufArg_of_idle, andThen_next, busy_setNamed, busy_setBufArg,
    hidle .fxBuf rfl, hidle .fxAddr rfl, hidle .fxBits rfl, hidle .fxCap rfl]
  simp only [setBufArg_fx, setNamed_fxBits, setNamed_fxCap]
  rfl

/-! ## Polling to the end of a command (R227) -/

/-- The state with the running BitRat command replaced. -/
def State.withBrJob (s : State) (j : BrJob) : State := { s with br := { s.br with job := some j } }

/-- The state with the running Nibbler command replaced. -/
def State.withNbJob (s : State) (j : NbJob) : State := { s with nb := { s.nb with job := some j } }

/-- A BitRat command with all its items written. -/
def BrJob.atEnd (j : BrJob) : BrJob := { j with todo := [], out := j.out ++ brBytes j.todo }

/-- A Nibbler command with all its segments written, the writer being `w`. -/
def NbJob.atEnd (j : NbJob) (w : Writer) : NbJob := { j with todo := [], body := w.body, slot := w.slot }

theorem State.withBrJob_self {s : State} {j : BrJob} (h : s.br.job = some j) : s.withBrJob j = s := by
  rw [State.withBrJob, ← h]

theorem State.withNbJob_self {s : State} {j : NbJob} (h : s.nb.job = some j) : s.withNbJob j = s := by
  rw [State.withNbJob, ← h]

theorem BrJob.atEnd_of_nil {j : BrJob} (h : j.todo = []) : j.atEnd = j := by
  rw [BrJob.atEnd, h, brBytes_nil, List.append_nil, ← h]

/-- An item that is written goes from those to be written to those written. -/
theorem BrJob.atEnd_of_cons {j : BrJob} {x : BrItem} {rest : List BrItem} (h : j.todo = x :: rest) :
    BrJob.atEnd { j with todo := rest, out := j.out ++ brItemBytes x } = j.atEnd := by
  rw [BrJob.atEnd, BrJob.atEnd, h, brBytes_cons, List.append_assoc]

theorem runBrItem_withBrTodo (s : State) (j : BrJob) (x : BrItem) (rest : List BrItem) :
    runBrItem x (s.withBrTodo j rest) =
      .next (s.withBrJob { j with todo := rest, out := j.out ++ brItemBytes x }) := by
  rw [runBrItem_eq_emit]
  exact emitBr_eq_next.mpr ⟨_, rfl, rfl⟩

theorem runNbItem_withNbTodo {s : State} {j : NbJob} {x : NbItem} {w : Writer} (rest : List NbItem)
    (hw : emitItem s.params.nbRunBias x j.writer = some w) :
    runNbItem x (s.withNbTodo j rest) =
      .next (s.withNbJob { j with todo := rest, body := w.body, slot := w.slot }) := by
  rw [runNbItem_eq_emit]
  exact emitNb_eq_next.mpr ⟨_, rfl, .inr ⟨w, hw, rfl⟩⟩

/-- The BitRat engine writes the items that are left and then returns the chunk mask. -/
theorem finishBr_eq_end {s : State} {j : BrJob} (hj : s.br.job = some j) (hf : j.tierFault = false) :
    finishBr (j.todo.length + 1) s = execBrChunkMask j.mask (s.withBrJob j.atEnd) := by
  obtain ⟨todo, htodo⟩ : ∃ todo, j.todo = todo := ⟨_, rfl⟩
  induction todo generalizing s j with
  | nil =>
    rw [BrJob.atEnd_of_nil htodo, State.withBrJob_self hj, finishBr]
    simp only [hj, hf, htodo, Bool.false_eq_true, if_false]
  | cons x rest ih =>
    have hih := ih (s := s.withBrJob { j with todo := rest, out := j.out ++ brItemBytes x }) rfl hf rfl
    rw [BrJob.atEnd_of_cons htodo] at hih
    rw [htodo, List.length_cons, finishBr]
    simp only [hj, hf, htodo, Bool.false_eq_true, if_false]
    rw [runBrItem_withBrTodo, andThen_next]
    exact hih

/-- The Nibbler engine writes the segments that are left and then the header. -/
theorem finishNb_eq_end {s : State} {j : NbJob} {w : Writer} (hj : s.nb.job = some j)
    (hw : emitItems s.params.nbRunBias j.todo j.writer = some w) :
    finishNb (j.todo.length + 1) s =
      execNbHeader j.mark (BitVec.ofNat 14 w.body.length) (s.withNbJob (j.atEnd w)) := by
  obtain ⟨todo, htodo⟩ : ∃ todo, j.todo = todo := ⟨_, rfl⟩
  induction todo generalizing s j with
  | nil =>
    rw [htodo] at hw
    cases hw
    have hend : j.atEnd j.writer = j := by
      rw [NbJob.atEnd, ← htodo]
      rfl
    rw [hend, State.withNbJob_self hj, finishNb]
    simp only [hj, htodo, NbJob.writer]
  | cons x rest ih =>
    rw [htodo] at hw
    obtain ⟨v, hv, hw⟩ := emitItems_cons_eq_some.mp hw
    have hih := ih (s := s.withNbJob { j with todo := rest, body := v.body, slot := v.slot }) rfl hw rfl
    rw [htodo, List.length_cons, finishNb]
    simp only [hj, htodo, runNbItem_withNbTodo rest hv, andThen_next]
    exact hih

/-! ## What a command leaves does not depend on what the host is still to do -/

theorem State.BrFrame.withInputs {w : Window} {s t : State} (h : s.BrFrame w t) (l : List Input) :
    State.BrFrame w { s with inputs := l } { t with inputs := l } :=
  { h with host := ⟨rfl, h.host.2⟩ }

theorem State.NbFrame.withInputs {w : Window} {s t : State} (h : s.NbFrame w t) (l : List Input) :
    State.NbFrame w { s with inputs := l } { t with inputs := l } :=
  { h with host := ⟨rfl, h.host.2⟩ }

theorem BrEncoded.of_withInputs {s t : State} {n width : Nat} {w : Walk} {l : List Input}
    (h : BrEncoded s { t with inputs := l } n w width) : BrEncoded s t n w width := { h with }

theorem NbEncoded.of_withInputs {s t : State} {n : Nat} {st : List Byte} {slot : Option Nat} {l : List Input}
    (h : NbEncoded s { t with inputs := l } n st slot) : NbEncoded s t n st slot := { h with }

/-! ## Commands that run -/

/-- A BitRat command that has started comes to its end while the host polls, with every result as the rule gives
it. -/
theorem pollBr_runs {u : State} {n : Nat} {w : Walk} {width : BitVec 4}
    (hsize : (brBytes w.items).length ≤ brNeed u.params n) (hin : u.br.inBase.toNat + n ≤ spaceSize)
    (hout : u.br.outBase.toNat + brNeed u.params n ≤ spaceSize) (hm : IsSeed w.m) :
    ∃ t, pollBr (u.brStarted (u.brJobOf n w width)) = .next t ∧ BrEncoded u t n w width.toNat := by
  have hpoll := finishBr_eq_end (s := u.brStarted (u.brJobOf n w width)) (j := u.brJobOf n w width) rfl rfl
  obtain ⟨t, ht, hend⟩ := execBrChunkMask_ends (j := (u.brJobOf n w width).atEnd)
    (s := (u.brStarted (u.brJobOf n w width)).withBrJob (u.brJobOf n w width).atEnd) w.mask rfl hsize hout
  have hwritten : u.BrFrame (u.brJobOf n w width).atEnd.outWindow
      ((u.brStarted (u.brJobOf n w width)).withBrJob (u.brJobOf n w width).atEnd) :=
    .of_bank _ ⟨rfl, rfl, rfl, rfl, rfl, rfl, rfl⟩ rfl
  refine ⟨t, hpoll.trans ht, .of_withInputs (l := []) ?_⟩
  exact brEncoded_of_finish rfl hend.bank hend.stream ((hwritten.trans hend.frame).withInputs []) hend.params hsize hin
    hout hm

/-- A Nibbler command that has started comes to its end while the host polls, with every result as the rule gives
it. -/
theorem pollNb_runs {u : State} {d : List Byte} {w : Writer}
    (hw : emitItems u.params.nbRunBias (segments d) Writer.start = some w) (hslot : w.SlotOk)
    (hsize : w.body.length ≤ d.length + 2) (hout : u.nb.outBase.toNat + (d.length + 4) ≤ spaceSize) :
    ∃ t, pollNb (u.nbStarted (u.nbJobOf d)) = .next t ∧
      NbEncoded u t d.length
        (headerBytes (markOf u.params.nbEmptyMarker d) (BitVec.ofNat 14 w.body.length) ++ w.body) w.slot := by
  have hpoll := finishNb_eq_end (s := u.nbStarted (u.nbJobOf d)) (j := u.nbJobOf d) rfl hw
  have hfit : 2 + w.body.length ≤ d.length + 4 := by omega
  obtain ⟨t, ht, hend⟩ := execNbHeader_ends (j := (u.nbJobOf d).atEnd w)
    (s := (u.nbStarted (u.nbJobOf d)).withNbJob ((u.nbJobOf d).atEnd w)) (markOf u.params.nbEmptyMarker d)
    (BitVec.ofNat 14 w.body.length) rfl hfit hout
  have hwritten : u.NbFrame ((u.nbJobOf d).atEnd w).outWindow
      ((u.nbStarted (u.nbJobOf d)).withNbJob ((u.nbJobOf d).atEnd w)) :=
    .of_bank _ ⟨rfl, rfl, rfl, rfl, rfl, rfl⟩ rfl
  refine ⟨t, hpoll.trans ht, .of_withInputs (l := []) ?_⟩
  exact nbEncoded_of_finish rfl hend.bank (by rw [List.length_append, headerBytes_length]) hend.stream
    ((hwritten.trans hend.frame).withInputs []) hend.params hslot hsize hout

theorem State.Quiet.freeForFx {s : State} (h : s.Quiet) (j : FxJob) : s.FreeForFx j := by
  obtain ⟨hbr, hnb, -⟩ := h
  simp [State.FreeForFx, State.inWindows, hbr, hnb]

/-! ## A line after its operands -/

/-- A rejected command ends the polling at once: nothing runs (R252). -/
theorem pollBr_failCommand {u : State} (hj : u.br.job = none) (e : ErrCode) :
    pollBr (u.failCommand .br e) = .next (u.failCommand .br e) :=
  finishBr_of_idle (s := u.failCommand .br e) hj _

theorem pollNb_failCommand {u : State} (hj : u.nb.job = none) (e : ErrCode) :
    pollNb (u.failCommand .nb e) = .next (u.failCommand .nb e) :=
  finishNb_of_idle (s := u.failCommand .nb e) hj _

theorem finishFx_failCommand {u : State} (hj : u.fx.job = none) (e : ErrCode) :
    finishFx (u.failCommand .fx e) = .next (u.failCommand .fx e) :=
  finishFx_eq_next.mpr (.inl ⟨hj, rfl⟩)

theorem failed_of_plain {e : ErrCode} (h : e.IsPlain) :
    Status.failed e = { st := .failed, err := e, fatal := false } := by
  rw [Status.failed, h.2]

/-- What a `BR.FULL` command needs of the operands that meet R253: the stream fits the window, and the windows lie in
the spaces. -/
theorem brFull_room {u : State} (he : brFullError u.params (brArgs u.br) = none) (hslack : 3 ≤ u.params.brOutSlack) :
    (brBytes u.fullWalk.items).length ≤ brNeed u.params 4096 ∧ u.br.inBase.toNat + 4096 ≤ spaceSize ∧
      u.br.outBase.toNat + brNeed u.params 4096 ≤ spaceSize := by
  have hok := brFullJob_ok he
  rw [brFullJob_eq he] at hok
  exact ⟨(encodeFull_size _ _).trans ((by decide : 4296 ≤ 4096 + 4096 / 8 + 3).trans (brNeed_of_slack hslack _)), hok⟩

/-- What a `BR.PART` command needs of the operands that meet R254. -/
theorem brPart_room {u : State} {n : Nat} (he : brPartError u.params (brArgs u.br) = none) (hn : u.br.inLen.toInt = n)
    (hslack : 3 ≤ u.params.brOutSlack) :
    (brBytes (u.partWalk n).items).length ≤ brNeed u.params n ∧ u.br.inBase.toNat + n ≤ spaceSize ∧
      u.br.outBase.toNat + brNeed u.params n ≤ spaceSize := by
  have hok := brPartJob_ok he
  rw [brPartJob_eq he hn] at hok
  have hworst := encodePart_size u.br.prev (u.readInBytes u.br.inBase.toNat n)
  rw [readInBytes_length] at hworst
  exact ⟨hworst.trans ((brWorst_le n).trans (brNeed_of_slack hslack n)), hok⟩

/-- The length of a `BR.PART` command that meets R254. -/
theorem brPart_length {u : State} (he : brPartError u.params (brArgs u.br) = none) :
    u.br.inLen.toInt = u.br.inLen.toNat ∧ u.br.inLen.toNat < 4096 := by
  obtain ⟨-, ⟨hlen, hlt⟩, -⟩ := brPartError_eq_none.mp he
  have hn : u.br.inLen.toInt = u.br.inLen.toNat := toInt_eq_toNat_of_nonneg hlen
  simp only [brArgs, hn, brFullLen] at hlt
  exact ⟨hn, by exact_mod_cast hlt⟩

/-- The length of a `NB.ENC` command that meets R255. -/
theorem nbEnc_length {u : State} (he : nbEncError (nbArgs u.nb) = none) :
    u.nb.inLen.toInt = u.nb.inLen.toNat ∧ u.nb.inLen.toNat ≤ nbMax := by
  obtain ⟨-, ⟨hlen, hle⟩, -⟩ := nbEncError_eq_none.mp he
  have hn : u.nb.inLen.toInt = u.nb.inLen.toNat := toInt_eq_toNat_of_nonneg hlen
  simp only [nbArgs, hn] at hle
  exact ⟨hn, by exact_mod_cast hle⟩

theorem brFullLine_rejected {u : State} {e : ErrCode} (hst : u.br.status.st ≠ .busy) (hj : u.br.job = none)
    (he : brFullError u.params (brArgs u.br) = some e) :
    andThen (execRegwr 0x000#32 1#32 u) pollBr =
      .next { u with br := { u.br with status := { st := .failed, err := e, fatal := false } } } := by
  have hcmd : execRegwr 0x000#32 1#32 u = startBrFull u := rfl
  rw [hcmd, startBrFull_rejected hst he, andThen_next, pollBr_failCommand hj, State.failCommand_br,
    failed_of_plain (brFullError_plain he)]

theorem brFullLine_runs {u : State} (hq : u.Quiet) (hst : u.br.status.st ≠ .busy)
    (he : brFullError u.params (brArgs u.br) = none) (hslack : 3 ≤ u.params.brOutSlack) :
    ∃ t, andThen (execRegwr 0x000#32 1#32 u) pollBr = .next t ∧ BrEncoded u t 4096 u.fullWalk 8 := by
  have hcmd : execRegwr 0x000#32 1#32 u = startBrFull u := rfl
  obtain ⟨hsize, hin, hout⟩ := brFull_room he hslack
  rw [hcmd, startBrFull_starts hst he (hq.freeForBr _), andThen_next]
  exact pollBr_runs hsize hin hout (isSeed_fullWalk u)

theorem brPartLine_rejected {u : State} {e : ErrCode} (hst : u.br.status.st ≠ .busy) (hj : u.br.job = none)
    (he : brPartError u.params (brArgs u.br) = some e) :
    andThen (execRegwr 0x000#32 2#32 u) pollBr =
      .next { u with br := { u.br with status := { st := .failed, err := e, fatal := false } } } := by
  have hcmd : execRegwr 0x000#32 2#32 u = startBrPart u := rfl
  rw [hcmd, startBrPart_rejected hst he, andThen_next, pollBr_failCommand hj, State.failCommand_br,
    failed_of_plain (brPartError_plain he)]

theorem brPartLine_runs {u : State} (hq : u.Quiet) (hst : u.br.status.st ≠ .busy)
    (he : brPartError u.params (brArgs u.br) = none) (hslack : 3 ≤ u.params.brOutSlack) :
    ∃ t, andThen (execRegwr 0x000#32 2#32 u) pollBr = .next t ∧
      BrEncoded u t u.br.inLen.toNat (u.partWalk u.br.inLen.toNat) ((u.br.inLen.toNat + 511) / 512) := by
  have hcmd : execRegwr 0x000#32 2#32 u = startBrPart u := rfl
  obtain ⟨hn, hlt⟩ := brPart_length he
  obtain ⟨hsize, hin, hout⟩ := brPart_room he hn hslack
  have hwidth : (BitVec.ofNat 4 ((u.br.inLen.toNat + 511) / 512)).toNat = (u.br.inLen.toNat + 511) / 512 := by
    rw [BitVec.toNat_ofNat, Nat.mod_eq_of_lt (by omega)]
  have hruns := pollBr_runs (width := BitVec.ofNat 4 ((u.br.inLen.toNat + 511) / 512)) hsize hin hout
    (isSeed_partWalk u _)
  rw [hwidth] at hruns
  rwa [hcmd, startBrPart_starts hst he hn (hq.freeForBr _), andThen_next]

theorem nbEncLine_rejected {u : State} {e : ErrCode} (hst : u.nb.status.st ≠ .busy) (hj : u.nb.job = none)
    (he : nbEncError (nbArgs u.nb) = some e) :
    andThen (execRegwr 0x100#32 1#32 u) pollNb =
      .next { u with nb := { u.nb with status := { st := .failed, err := e, fatal := false } } } := by
  have hcmd : execRegwr 0x100#32 1#32 u = startNbEnc u := rfl
  rw [hcmd, startNbEnc_rejected hst he, andThen_next, pollNb_failCommand hj, State.failCommand_nb,
    failed_of_plain (nbEncError_plain he)]

theorem nbEncLine_runs {u : State} (hq : u.Quiet) (hst : u.nb.status.st ≠ .busy)
    (he : nbEncError (nbArgs u.nb) = none) (hbias : u.params.nbRunBias ≤ 3) :
    ∃ t st slot, nbEncode u.params (u.readInBytes u.nb.inBase.toNat u.nb.inLen.toNat) = some (st, slot) ∧
      andThen (execRegwr 0x100#32 1#32 u) pollNb = .next t ∧ NbEncoded u t u.nb.inLen.toNat st slot := by
  have hcmd : execRegwr 0x100#32 1#32 u = startNbEnc u := rfl
  obtain ⟨hn, hle⟩ := nbEnc_length he
  have hok := nbEncJob_ok he
  rw [nbEncJob_eq he hn] at hok
  rw [hcmd, startNbEnc_starts hst he hn (hq.freeForNb _), andThen_next]
  have hdlen := readInBytes_length u u.nb.inBase.toNat u.nb.inLen.toNat
  generalize u.readInBytes u.nb.inBase.toNat u.nb.inLen.toNat = d at hok hdlen ⊢
  obtain ⟨w, hw, hslot, hsize, -⟩ := emit_segments (d := d) hbias (hdlen ▸ hle)
  obtain ⟨t, ht, henc⟩ := pollNb_runs hw hslot hsize hok.2.1
  rw [hdlen] at henc
  exact ⟨t, _, _, nbEncode_of_emit hw, ht, henc⟩

theorem fxLine_rejected {u : State} {e : ErrCode} (hst : u.fx.status.st ≠ .busy) (hj : u.fx.job = none)
    (he : fxError (fxArgs u.fx) = some e) :
    andThen (execRegwr 0x200#32 1#32 u) finishFx =
      .next { u with fx := { u.fx with status := { st := .failed, err := e, fatal := false } } } := by
  have hcmd : execRegwr 0x200#32 1#32 u = startFixlast u := rfl
  rw [hcmd, startFixlast_rejected hst he, andThen_next, finishFx_failCommand hj, State.failCommand_fx,
    failed_of_plain (fxError_plain he)]

/-- The end of the running FIXLAST command (R221, R226). -/
theorem finishFx_ends {s : State} {f : FxJob} (hj : s.fx.job = some f) (hroom : f.addr < spaceSize) :
    ∃ t, finishFx s = .next t ∧ t.fx = { s.fx with status := Status.done, job := none } ∧
      t.readIn f.addr = fixByte (s.readIn f.addr) f.bits ∧ s.FxFrame f.addr t ∧ s.SameHost t := by
  have hstore := (storeIn_eq_next (s := s) (b := fixByte (s.readIn f.addr) f.bits)).mpr ⟨hroom, rfl⟩
  have hend := finishFx_eq_next.mpr (.inr ⟨f, _, hj, hstore, rfl⟩)
  exact ⟨_, hend, rfl, (readIn_storeIn hstore f.addr).trans (if_pos rfl), fxFrame_finishFx hj hend, rfl, rfl, rfl, rfl,
    rfl, rfl, rfl⟩

/-- The state in which the FIXLAST command `f` has started (R225). -/
def State.fxStarted (s : State) (f : FxJob) : State :=
  { s with fx := { s.fx with status := Status.busy, job := some f } }

theorem fxFrame_fxStarted (addr : Nat) (s : State) (f : FxJob) : s.FxFrame addr (s.fxStarted f) where
  operands := ⟨rfl, rfl, rfl, rfl⟩
  br := rfl
  nb := rfl
  readOut _ := rfl
  readIn _ _ := rfl
  host := ⟨rfl, rfl, rfl, rfl⟩

theorem fxLine_runs {u : State} (hq : u.Quiet) (hst : u.fx.status.st ≠ .busy) (he : fxError (fxArgs u.fx) = none) :
    ∃ t, andThen (execRegwr 0x200#32 1#32 u) finishFx = .next t ∧
      t.fx = { u.fx with status := { st := .done, err := .ok, fatal := false } } ∧
      t.readIn u.fx.addr.toNat = fixByte (u.readIn u.fx.addr.toNat) u.fx.bits.toNat ∧
      u.FxFrame u.fx.addr.toNat t ∧ u.SameHost t := by
  have hcmd : execRegwr 0x200#32 1#32 u = startFixlast u := rfl
  have hroom := (fxJob_ok he).1
  rw [fxJob_eq he] at hroom
  obtain ⟨t, ht, hfx, hbyte, hframe, hhost⟩ :=
    finishFx_ends (s := u.fxStarted { addr := u.fx.addr.toNat, bits := u.fx.bits.toNat }) rfl hroom
  refine ⟨t, ?_, hfx.trans ?_, hbyte, (fxFrame_fxStarted _ u _).trans hframe, hhost⟩
  · rw [hcmd, startFixlast_starts hst he (hq.freeForFx _), andThen_next]
    exact ht
  · rw [← hq.2.2]
    rfl

/-- Settles O36: each line writes its operands, and then its command is rejected or runs to its end. -/
theorem commandLines : Obligations.CommandLines := by
  unfold Obligations.CommandLines
  intro s prev inp out len incap outcap addr bits cap
  refine ⟨?_, ?_, ?_, ?_⟩
  · rintro u hst rfl
    rw [runLine, runBrLine_eq hst]
    exact ⟨fun e hj he => brFullLine_rejected hst hj he, fun hq hslack he => brFullLine_runs hq hst he hslack⟩
  · rintro u hst rfl
    rw [runLine, runBrLine_eq hst]
    exact ⟨fun e hj he => brPartLine_rejected hst hj he, fun hq hslack he => brPartLine_runs hq hst he hslack⟩
  · rintro u hst rfl
    rw [runLine, runNbLine_eq hst]
    exact ⟨fun e hj he => nbEncLine_rejected hst hj he, fun hq hbias he => 
      nbEncLine_runs (u := { s with nb := s.nb.afterLine inp len incap out outcap }) hq hst he hbias⟩
  · rintro u hst rfl
    rw [runLine, runFxLine_eq hst]
    refine ⟨fun e hj he => fxLine_rejected hst hj he, fun hq he => ?_⟩
    obtain ⟨t, ht, hfx, hbyte, hframe, hhost⟩ :=
      fxLine_runs (u := { s with fx := s.fx.afterLine addr bits cap }) hq hst he
    exact ⟨t, ht, hfx, hframe.br, hframe.nb, hbyte, hframe.readIn, hframe.readOut, hhost⟩

end Sys2Proof.Machine

/-! Tier boundaries of the BitRat stream (R142), O42: cutting a chunk at a boundary cuts the walk over its sub-units. -/

namespace Sys2Proof.Machine

/-- Cutting the bytes after `c` pieces leaves the first `c` pieces as they are. -/
theorem pieces_take (k c : Nat) (d : List Byte) : pieces k c (d.take (k * c)) = pieces k c d := by
  induction c generalizing d with
  | zero => rfl
  | succ c ih =>
    have hhead : (d.take (k * (c + 1))).take k = d.take k := by
      rw [List.take_take, Nat.min_eq_left (Nat.le_mul_of_pos_right k c.succ_pos)]
    rw [pieces, hhead, List.drop_take, Nat.mul_succ, Nat.add_sub_cancel, ih, pieces]

theorem pieces_add (k a b : Nat) (d : List Byte) :
    pieces k (a + b) d = pieces k a d ++ pieces k b (d.drop (k * a)) := by
  induction a generalizing d with
  | zero => simp [pieces]
  | succ a ih =>
    rw [Nat.succ_add, pieces, ih, List.drop_drop, pieces, List.cons_append, Nat.mul_succ, Nat.add_comm k]

/-- The stream of the first sub-units is written first. -/
theorem brBytes_walk_isPrefix (f : List Byte → Byte → Tier) (ds es : List (List Byte)) (i : Nat) (m : Byte) :
    brBytes (walk f ds i m).items <+: brBytes (walk f (ds ++ es) i m).items := by
  rw [walk_append, brBytes_append]
  exact ⟨_, rfl⟩

/-- The bits of the first sub-units do not depend on the later ones. -/
theorem maskHas_walk_append {f : List Byte → Byte → Tier} {ds es : List (List Byte)} {i j : Nat} {m : Byte}
    (hlen : i + ds.length + es.length ≤ 8) (hj : j < i + ds.length) :
    maskHas (walk f (ds ++ es) i m).mask j = maskHas (walk f ds i m).mask j := by
  rw [walk_append, maskHas_or, maskHas_walk_outside hlen (.inl hj), Bool.or_false]

/-- A partial chunk of whole sections is the walk over them (R142). -/
theorem encodePart_take (prev : BitVec 1) {d : List Byte} {k : Nat} (hk : 512 * k ≤ d.length) :
    encodePart prev (d.take (512 * k)) = walk fullSection (pieces 512 k d) 0 (ext prev) := by
  have hlen : (d.take (512 * k)).length = 512 * k := List.length_take_of_le hk
  rw [encodePart_eq, walkAll_of_dvd (by omega), hlen, Nat.mul_div_cancel_left k (by decide), pieces_take]

/-- A full chunk is its first `k` sections and then the others. -/
theorem encodeFull_eq_walk_append (prev : BitVec 1) (d : List Byte) {k : Nat} (hk : k ≤ 8) :
    encodeFull prev d =
      walk fullSection (pieces 512 k d ++ pieces 512 (8 - k) (d.drop (512 * k))) 0 (ext prev) := by
  rw [← pieces_add, Nat.add_sub_cancel' hk]
  rfl

/-- Settles O42: at a boundary there is no shorter last sub-unit, and a walk over fewer sub-units is the beginning of
the walk over all. -/
theorem tierBoundary : Obligations.TierBoundary := by
  unfold Obligations.TierBoundary
  refine ⟨fun prev d k hd hk => ?_, fun d m k _ _ hd => ?_, fun d m k _ hk hd => ?_⟩
  · rw [encodePart_take prev (by omega), encodeFull_eq_walk_append prev d (by omega : k ≤ 8)]
    exact ⟨rfl, brBytes_walk_isPrefix _ _ _ _ _, fun i hi =>
      (maskHas_walk_append (by simp only [pieces_length]; omega) (by simpa using hi)).symm⟩
  · rw [tailSection_eq, walkAll_of_dvd (by omega), hd, Nat.mul_div_cancel_left k (by decide)]
  · rw [(tailPair_masked (by omega) m).stream, walkAll_of_dvd (by omega), hd, Nat.mul_div_cancel_left k (by decide)]

end Sys2Proof.Machine

/-! Which BitRat streams are empty (R137, R141), O40: at every tier a sub-unit is absent, and writes nothing, exactly
if `matchByte` predicts each of its bytes. -/

namespace Sys2Proof.Machine

/-- `matchByte` on entry is the value of every byte, so none is a literal (R131). -/
def Predicted (m : Byte) (d : List Byte) : Prop := ∀ b ∈ d, b = m

theorem predicted_append {m : Byte} {d e : List Byte} : Predicted m (d ++ e) ↔ Predicted m d ∧ Predicted m e :=
  List.forall_mem_append

theorem matchAfter_of_predicted {m : Byte} {d : List Byte} (h : Predicted m d) : matchAfter m d = m := by
  induction d with
  | nil => rfl
  | cons b bs ih =>
    obtain ⟨hb, hbs⟩ := List.forall_mem_cons.mp h
    rw [matchAfter, if_pos hb, ih hbs]

/-- On entry to what follows predicted bytes, `matchByte` is what it was before them. -/
theorem predicted_append_matchAfter {m : Byte} {d e : List Byte} :
    Predicted m (d ++ e) ↔ Predicted m d ∧ Predicted (matchAfter m d) e := by
  rw [predicted_append]
  exact and_congr_right fun hd => by rw [matchAfter_of_predicted hd]

/-! ## Silence of a tier -/

/-- `f` leaves the sub-unit `d` out of the mask above, and writes nothing, if and only if `d` is predicted. -/
structure SilentIffPredicted (f : List Byte → Byte → Tier) (d : List Byte) : Prop where
  absent : ∀ m, (f d m).present = false ↔ Predicted m d
  stream : ∀ m, brBytes (f d m).items = [] ↔ Predicted m d
  exit : ∀ m, (f d m).m = matchAfter m d

/-- The mask of the walk `w` is zero, and its stream is empty, if and only if `P` holds. -/
structure Walk.SilentIff (w : Walk) (P : Prop) : Prop where
  mask : w.mask = 0x00#8 ↔ P
  stream : brBytes w.items = [] ↔ P

theorem maskBytes_eq_nil {g : Byte} : maskBytes g = [] ↔ g = 0x00#8 := by
  unfold maskBytes
  split <;> simp [*]

theorem Tier.Masked.absent {t : Tier} {g : Byte} {bytes : List Byte} (h : t.Masked g bytes) :
    t.present = false ↔ g = 0x00#8 := by
  rw [h.present, bne_eq_false_iff_eq]

theorem Tier.Masked.stream_eq_nil {t : Tier} {g : Byte} {bytes : List Byte} (h : t.Masked g bytes)
    (hsilent : g = 0x00#8 → bytes = []) : brBytes t.items = [] ↔ g = 0x00#8 := by
  rw [h.stream, List.append_eq_nil_iff, maskBytes_eq_nil]
  exact and_iff_left_of_imp hsilent

/-- A tier that writes a mask is silent when the mask is zero. -/
theorem silentIffPredicted_of_masked {f : List Byte → Byte → Tier} {d : List Byte} {g : Byte → Byte}
    {bytes : Byte → List Byte} (hf : ∀ m, (f d m).Masked (g m) (bytes m))
    (hsilent : ∀ m, g m = 0x00#8 → bytes m = []) (hg : ∀ m, g m = 0x00#8 ↔ Predicted m d)
    (hexit : ∀ m, (f d m).m = matchAfter m d) : SilentIffPredicted f d where
  absent m := (hf m).absent.trans (hg m)
  stream m := ((hf m).stream_eq_nil (hsilent m)).trans (hg m)
  exit := hexit

/-! ## Walks -/

section

variable {f g : List Byte → Byte → Tier}

theorem maskBit_eq_zero {p : Bool} {i : Nat} (hi : i < 8) : maskBit p i = 0x00#8 ↔ p = false := by
  have hall : ∀ p : Bool, ∀ i < 8, maskBit p i = 0x00#8 ↔ p = false := by decide
  exact hall p i hi

/-- A walk is silent if and only if all its bytes are predicted. -/
theorem walk_silentIff {ds : List (List Byte)} {i : Nat} {m : Byte} (hf : ∀ d ∈ ds, SilentIffPredicted f d)
    (hlen : i + ds.length ≤ 8) : (walk f ds i m).SilentIff (Predicted m ds.flatten) := by
  induction ds generalizing i m with
  | nil => exact ⟨by simp [walk, Predicted], by simp [walk, Predicted]⟩
  | cons d ds ih =>
    obtain ⟨hd, hds⟩ := List.forall_mem_cons.mp hf
    rw [List.length_cons] at hlen
    have hrest := ih hds (i := i + 1) (m := (f d m).m) (by omega)
    rw [List.flatten_cons, predicted_append_matchAfter, ← hd.exit, walk]
    constructor
    · rw [BitVec.or_eq_zero_iff, maskBit_eq_zero (by omega), hd.absent, hrest.mask]
    · rw [brBytes_append, List.append_eq_nil_iff, hd.stream, hrest.stream]

variable {k : Nat} {d : List Byte}

theorem walk_pieces_silentIff {c : Nat} {m : Byte} (hf : ∀ p : List Byte, p.length ≤ k → SilentIffPredicted f p)
    (hc : c ≤ 8) : (walk f (pieces k c d) 0 m).SilentIff (Predicted m (d.take (k * c))) := by
  rw [← pieces_flatten]
  exact walk_silentIff (fun p hp => hf p (length_le_of_mem_pieces hp)) (by simpa using hc)

/-- So is a walk with a shorter last sub-unit. -/
theorem walkAll_silentIff {m : Byte} (hf : ∀ p : List Byte, p.length ≤ k → SilentIffPredicted f p)
    (hg : ∀ p : List Byte, p.length = d.length % k → SilentIffPredicted g p) (hd : d.length ≤ 8 * k) :
    (walkAll f g k d m).SilentIff (Predicted m d) := by
  have hdiv := Nat.div_add_mod d.length k
  have hwhole := walk_pieces_silentIff (d := d) (m := m) (c := d.length / k) hf
    (Nat.div_le_of_le_mul (by rwa [Nat.mul_comm]))
  by_cases hmod : d.length % k = 0
  · rw [List.take_of_length_le (by omega)] at hwhole
    rwa [walkAll_of_dvd hmod]
  · have htail := hg (d.drop (k * (d.length / k))) (by rw [List.length_drop]; omega)
    have hexit : (walk f (pieces k (d.length / k) d) 0 m).m = matchAfter m (d.take (k * (d.length / k))) := by
      rw [walk_m fun p hp => (hf p (length_le_of_mem_pieces hp)).exit, pieces_flatten]
    have hsplit : Predicted m d ↔ Predicted m (d.take (k * (d.length / k))) ∧
        Predicted (walk f (pieces k (d.length / k) d) 0 m).m (d.drop (k * (d.length / k))) := by
      rw [hexit, ← predicted_append_matchAfter, List.take_append_drop]
    rw [walkAll_of_not_dvd hmod, hsplit]
    constructor
    · rw [BitVec.or_eq_zero_iff, maskBit_eq_zero (units_lt hmod hd), hwhole.mask, htail.absent]
    · rw [brBytes_append, List.append_eq_nil_iff, hwhole.stream, htail.stream]

end

/-! ## The tiers -/

theorem byteUnit_silentIff (b : Byte) : SilentIffPredicted byteUnit [b] := by
  have hpred (m : Byte) : Predicted m [b] ↔ b = m := List.forall_mem_singleton
  refine ⟨fun m => Iff.trans ?_ (hpred m).symm, fun m => Iff.trans ?_ (hpred m).symm, fun m => ?_⟩
  · by_cases h : b = m <;> simp [byteUnit, h]
  · by_cases h : b = m <;> simp [byteUnit, h, brItemBytes]
  · by_cases h : b = m <;> simp [byteUnit, h, matchAfter]

theorem groupItem_silentIff {d : List Byte} (hd : d.length ≤ 8) : SilentIffPredicted groupItem d := by
  have hwalk (m : Byte) := walk_silentIff (ds := d.map fun b => [b]) (i := 0) (m := m)
    (List.forall_mem_map.mpr fun b _ => byteUnit_silentIff b) (by simpa using hd)
  have hflat : (d.map fun b => [b]).flatten = d := List.flatMap_singleton' d
  simp only [group_eq_walk, hflat] at hwalk
  refine silentIffPredicted_of_masked (groupItem_masked hd) (fun m h => ?_) (fun m => (hwalk m).mask)
    (groupItem_m d)
  rw [← brBytes_literals (group d m).lits]
  exact (hwalk m).stream.mpr ((hwalk m).mask.mp h)

theorem tailPair_silentIff {d : List Byte} (hd : d.length ≤ 64) : SilentIffPredicted tailPair d := by
  have hwalk (m : Byte) := walkAll_silentIff (f := groupItem) (g := groupItem) (k := 8) (d := d) (m := m)
    (fun p hp => groupItem_silentIff hp) (fun p hp => groupItem_silentIff (by omega)) hd
  exact silentIffPredicted_of_masked (tailPair_masked hd) (fun m h => (hwalk m).stream.mpr ((hwalk m).mask.mp h))
    (fun m => (hwalk m).mask) (tailPair_m d)

/-- An escape form has the mask its structured form has (R134). -/
theorem block_mask (d : List Byte) (m : Byte) : (block d m).mask = (blockStructured d m).mask := by
  by_cases hlong : 32 < (brBytes (blockStructured d m).items).length
  · rw [block_of_escape hlong, blockStructured_mask_of_long hlong]
  · rw [block_of_structured (Nat.not_lt.mp hlong)]

/-- The mask of a block has the bits of its four groups and no others. -/
theorem blockStructured_mask_eq_zero (d : List Byte) (m : Byte) :
    (blockStructured d m).mask = 0#4 ↔ (blockWalk d m).mask = 0x00#8 := by
  refine ⟨fun h => eq_zero_of_maskHas fun j => ?_, fun h => ?_⟩
  · by_cases hj : j < 4
    · rw [← maskHas_blockMask d m hj, h]
      exact maskHas_zero j
    · exact maskHas_walk_outside (by simp) (.inr (by simpa using Nat.not_lt.mp hj))
  · rw [blockStructured, h]
    rfl

theorem block_mask_eq_zero {d : List Byte} (hd : d.length ≤ 32) (m : Byte) :
    (block d m).mask = 0#4 ↔ Predicted m d := by
  have hwalk := walk_pieces_silentIff (f := groupItem) (k := brGroupLen) (c := 4) (d := d) (m := m)
    (fun p hp => groupItem_silentIff hp) (by decide)
  rw [List.take_of_length_le (show d.length ≤ brGroupLen * 4 from hd)] at hwalk
  rw [block_mask, blockStructured_mask_eq_zero, hwalk.mask]

/-- The first block of a pair (R135). -/
abbrev firstBlock (d : List Byte) (m : Byte) : Blocked := block (d.take 32) m

/-- The second block of a pair, entered with the `matchByte` the first one leaves (R135). -/
abbrev secondBlock (d : List Byte) (m : Byte) : Blocked := block (d.drop 32) (firstBlock d m).m

theorem pair_blocks_silent {d : List Byte} {m : Byte}
    (h : (firstBlock d m).mask ++ (secondBlock d m).mask = 0x00#8) :
    (firstBlock d m).items ++ (secondBlock d m).items = [] := by
  obtain ⟨hfst, hsnd⟩ := (append_eq_zero _ _).mp h
  rw [block_silent hfst, block_silent hsnd, List.append_nil]

theorem pair_masked (d : List Byte) (m : Byte) :
    (pair d m).Masked ((firstBlock d m).mask ++ (secondBlock d m).mask)
      (brBytes ((firstBlock d m).items ++ (secondBlock d m).items)) :=
  Tier.masked_ite (x := .pairMask _ _) rfl pair_blocks_silent

theorem pair_silentIff {d : List Byte} (hd : d.length ≤ 64) : SilentIffPredicted pair d := by
  refine silentIffPredicted_of_masked (pair_masked d)
    (fun m h => by rw [pair_blocks_silent h, brBytes_nil]) (fun m => ?_) fun m => pair_m d m hd
  have hfst : (d.take 32).length ≤ 32 := List.length_take_le 32 d
  rw [append_eq_zero, block_mask_eq_zero hfst, block_mask_eq_zero (by rw [List.length_drop]; omega),
    block_m _ _ hfst, ← predicted_append_matchAfter, List.take_append_drop]

theorem tailSection_silentIff {d : List Byte} (hd : d.length ≤ 512) : SilentIffPredicted tailSection d := by
  have hwalk (m : Byte) := walkAll_silentIff (f := pair) (g := tailPair) (k := 64) (d := d) (m := m)
    (fun p hp => pair_silentIff hp) (fun p hp => tailPair_silentIff (by omega)) hd
  exact silentIffPredicted_of_masked
    (fun m => sectionOf_masked (walkAll_silent (m := m) pair_silent tailPair_silent hd))
    (fun m h => (hwalk m).stream.mpr ((hwalk m).mask.mp h)) (fun m => (hwalk m).mask) (tailSection_m d)

theorem fullSection_silentIff {d : List Byte} (hd : d.length ≤ 512) : SilentIffPredicted fullSection d := by
  have hwalk (m : Byte) := walk_pieces_silentIff (f := pair) (k := brPairLen) (c := 8) (d := d) (m := m)
    (fun p hp => pair_silentIff hp) le_rfl
  rw [List.take_of_length_le (show d.length ≤ brPairLen * 8 from hd)] at hwalk
  exact silentIffPredicted_of_masked
    (fun m => sectionOf_masked (walk_silent (m := m) pair_silent (by simp)))
    (fun m h => (hwalk m).stream.mpr ((hwalk m).mask.mp h)) (fun m => (hwalk m).mask)
    fun m => fullSection_m d m hd

theorem encodeChunk_silentIff (prev : BitVec 1) {d : List Byte} (hd : d.length ≤ 4096) :
    (encodeChunk prev d).SilentIff (Predicted (ext prev) d) := by
  rw [encodeChunk_eq_encodePart, encodePart_eq]
  exact walkAll_silentIff (fun p hp => fullSection_silentIff hp) (fun p hp => tailSection_silentIff (by omega)) hd

/-- Settles O40: the chunk mask is zero, and the stream empty, exactly on predicted bytes. -/
theorem bitRatSilent : Obligations.BitRatSilent := by
  unfold Obligations.BitRatSilent
  intro prev d hd
  have hchunk := encodeChunk_silentIff prev hd
  exact ⟨hchunk.mask.trans hchunk.stream.symm, hchunk.stream⟩

end Sys2Proof.Machine

/-! The largest BitRat stream (R143), O41: on bytes `0xAA` every sub-unit is present and every byte a literal, so every
tier reaches its bound. -/

namespace Sys2Proof.Machine

/-- `n` alternating bytes: bit 0 of `0xAA` is 0, so after each `matchByte` is `0x00` and the next is a literal. -/
def alternating (n : Nat) : List Byte := List.replicate n 0xAA#8

@[simp] theorem alternating_length (n : Nat) : (alternating n).length = n := List.length_replicate

theorem take_alternating {k n : Nat} (h : k ≤ n) : (alternating n).take k = alternating k := by
  rw [alternating, List.take_replicate, Nat.min_eq_left h, alternating]

theorem drop_alternating (k n : Nat) : (alternating n).drop k = alternating (n - k) := List.drop_replicate

theorem matchAfter_alternating (n : Nat) : matchAfter 0x00#8 (alternating n) = 0x00#8 := by
  induction n with
  | zero => rfl
  | succ n ih => exact ih

theorem not_predicted_alternating {n : Nat} (h : n ≠ 0) : ¬ Predicted 0x00#8 (alternating n) := fun hpred =>
  absurd (hpred 0xAA#8 (List.mem_replicate.mpr ⟨h, rfl⟩)) (by decide)

theorem pieces_alternating {k c n : Nat} (h : k * c ≤ n) :
    pieces k c (alternating n) = List.replicate c (alternating k) := by
  induction c generalizing n with
  | zero => rfl
  | succ c ih =>
    rw [Nat.mul_succ] at h
    rw [pieces, take_alternating (by omega), drop_alternating, ih (by omega), List.replicate_succ]

/-! ## Sizes of the tiers -/

/-- How many bytes the unit `f` writes of `n` alternating bytes. -/
def worstSize (f : List Byte → Byte → Tier) (n : Nat) : Nat := (brBytes (f (alternating n) 0x00#8).items).length

/-- Equal sub-units that leave `matchByte` as it is write the same. -/
theorem walk_replicate_size {f : List Byte → Byte → Tier} {p : List Byte} {m : Byte} (hm : (f p m).m = m)
    (c i : Nat) :
    (brBytes (walk f (List.replicate c p) i m).items).length = (brBytes (f p m).items).length * c := by
  induction c generalizing i with
  | zero => rfl
  | succ c ih =>
    rw [List.replicate_succ, walk, hm, brBytes_append, List.length_append, ih, Nat.mul_succ, Nat.add_comm]

/-- A unit that is not silent writes its mask and what is below it. -/
theorem SilentIffPredicted.worstSize_of_masked {f : List Byte → Byte → Tier} {n : Nat} {g : Byte} {bytes : List Byte}
    (hf : SilentIffPredicted f (alternating n)) (hn : n ≠ 0)
    (hmasked : (f (alternating n) 0x00#8).Masked g bytes) : worstSize f n = 1 + bytes.length := by
  have hg : g ≠ 0x00#8 := fun h =>
    not_predicted_alternating hn ((hf.absent _).mp (hmasked.absent.mpr h))
  rw [worstSize, hmasked.stream, maskBytes, if_neg hg, List.length_append, List.length_singleton]

theorem walk_pieces_alternating_size {f : List Byte → Byte → Tier} {k c n : Nat}
    (hf : SilentIffPredicted f (alternating k)) (h : k * c ≤ n) :
    (brBytes (walk f (pieces k c (alternating n)) 0 0x00#8).items).length = worstSize f k * c := by
  rw [pieces_alternating h]
  exact walk_replicate_size ((hf.exit _).trans (matchAfter_alternating k)) c 0

/-- Whole sub-units and a shorter last one. -/
theorem walkAll_alternating_size {f g : List Byte → Byte → Tier} {k : Nat} (n : Nat)
    (hf : ∀ p : List Byte, p.length ≤ k → SilentIffPredicted f p) :
    (brBytes (walkAll f g k (alternating n) 0x00#8).items).length =
      worstSize f k * (n / k) + if n % k = 0 then 0 else worstSize g (n % k) := by
  have hwhole := walk_pieces_alternating_size (hf (alternating k) (alternating_length k).le) (Nat.mul_div_le n k)
  split
  · rename_i hmod
    rw [walkAll_of_dvd (by rwa [alternating_length]), alternating_length, hwhole, Nat.add_zero]
  · rename_i hmod
    have hexit : (walk f (pieces k (n / k) (alternating n)) 0 0x00#8).m = 0x00#8 := by
      rw [walk_m fun p hp => (hf p (length_le_of_mem_pieces hp)).exit, pieces_flatten,
        take_alternating (Nat.mul_div_le n k), matchAfter_alternating]
    have hrest : n - k * (n / k) = n % k := Nat.sub_eq_of_eq_add' (Nat.div_add_mod n k).symm
    rw [walkAll_of_not_dvd (by rwa [alternating_length]), alternating_length, brBytes_append, List.length_append,
      hwhole, hexit, drop_alternating, hrest]
    rfl

theorem groupFrom_alternating_lits (n i : Nat) : (groupFrom (alternating n) i 0x00#8).lits = alternating n := by
  induction n generalizing i with
  | zero => rfl
  | succ n ih => exact congrArg (0xAA#8 :: ·) (ih (i + 1))

theorem groupItem_worstSize {n : Nat} (hn : n ≠ 0) (hle : n ≤ 8) : worstSize groupItem n = 1 + n := by
  have hlen : (alternating n).length ≤ 8 := by rwa [alternating_length]
  rw [(groupItem_silentIff hlen).worstSize_of_masked hn (groupItem_masked hlen _), group,
    groupFrom_alternating_lits, alternating_length]

theorem tailPair_worstSize {n : Nat} (hn : n ≠ 0) (hle : n ≤ 64) :
    worstSize tailPair n = 1 + n + (n + 7) / 8 := by
  have hlen : (alternating n).length ≤ 64 := by rwa [alternating_length]
  rw [(tailPair_silentIff hlen).worstSize_of_masked hn (tailPair_masked hlen _),
    walkAll_alternating_size n fun p hp => groupItem_silentIff hp, groupItem_worstSize (n := 8) (by omega) le_rfl]
  split
  · omega
  · rename_i hmod
    rw [groupItem_worstSize hmod (by omega)]
    omega

/-- The structured form has 36 bytes, so the block escapes (R134). -/
theorem block_alternating_size : (brBytes (block (alternating 32) 0x00#8).items).length = 33 := by
  have hstructured : (brBytes (blockStructured (alternating 32) 0x00#8).items).length = 36 := by
    have hgroups := walk_pieces_alternating_size (k := brGroupLen) (c := 4) (n := 32)
      (groupItem_silentIff (alternating_length 8).le) (by decide)
    rwa [groupItem_worstSize (n := brGroupLen) (by decide) (by decide)] at hgroups
  rw [block_of_escape (by omega)]
  rfl

theorem pair_worstSize : worstSize pair 64 = 67 := by
  have hfst : (alternating 64).take 32 = alternating 32 := take_alternating (by omega)
  have hexit : (block (alternating 32) 0x00#8).m = 0x00#8 := by
    rw [block_m _ _ (alternating_length 32).le, matchAfter_alternating]
  rw [(pair_silentIff (alternating_length 64).le).worstSize_of_masked (by omega) (pair_masked _ _), secondBlock,
    firstBlock, hfst, hexit, drop_alternating, brBytes_append, List.length_append, block_alternating_size]

theorem tailSection_worstSize {n : Nat} (hn : n ≠ 0) (hle : n ≤ 512) :
    worstSize tailSection n =
      1 + 67 * (n / 64) + if n % 64 = 0 then 0 else 1 + n % 64 + (n % 64 + 7) / 8 := by
  have hlen : (alternating n).length ≤ 512 := by rwa [alternating_length]
  have hmasked : (tailSection (alternating n) 0x00#8).Masked _
      (brBytes (walkAll pair tailPair 64 (alternating n) 0x00#8).items) :=
    sectionOf_masked (walkAll_silent pair_silent tailPair_silent hlen)
  rw [(tailSection_silentIff hlen).worstSize_of_masked hn hmasked,
    walkAll_alternating_size n fun p hp => pair_silentIff hp, pair_worstSize, ← Nat.add_assoc]
  split
  · rfl
  · rename_i hmod
    rw [tailPair_worstSize hmod (by omega)]

theorem fullSection_worstSize : worstSize fullSection 512 = 537 := by
  have htail := tailSection_worstSize (n := 512) (by omega) le_rfl
  rwa [worstSize, ← fullSection_eq_tailSection (alternating_length 512)] at htail

theorem encodeChunk_alternating_size (n : Nat) :
    (brBytes (encodeChunk 0#1 (alternating n)).items).length = brWorst n := by
  have hseed : ext 0#1 = 0x00#8 := rfl
  rw [encodeChunk_eq_encodePart, encodePart_eq, hseed, walkAll_alternating_size n fun p hp => fullSection_silentIff hp,
    fullSection_worstSize, brWorst]
  split
  · rfl
  · rename_i hmod
    rw [tailSection_worstSize hmod (by omega)]

/-- Settles O41: each tier's bound, and the bytes that reach it. -/
theorem bitRatSizeBound : Obligations.BitRatSizeBound := by
  unfold Obligations.BitRatSizeBound
  refine ⟨fun prev d _ => ?_, fun n _ => encodeChunk_alternating_size n, brWorst_le, by decide, by decide⟩
  rw [encodeChunk_eq_encodePart]
  exact encodePart_size prev d

end Sys2Proof.Machine

/-! No fatal error happens and none is under way (R260): kept by every elementary move, and O54. -/

namespace Sys2Proof.Machine

/-! ## The absence of fatal errors, a bank at a time -/

/-- The BitRat bank shows no fatal error, and its command was given no tail tier that is too long (R258). -/
structure BrBank.NoFatal (b : BrBank) : Prop where
  status : b.status.fatal = false
  tier : ∀ j ∈ b.job, j.tierFault = false

/-- The Nibbler bank shows no fatal error, and its command has only segments to write that their fields can hold
(R177, R258). -/
structure NbBank.NoFatal (bias : Nat) (b : NbBank) : Prop where
  status : b.status.fatal = false
  fits : ∀ j ∈ b.job, ∀ x ∈ j.todo, ItemFits bias x

theorem State.noFatal_iff {s : State} :
    s.NoFatal ↔
      s.params.nbRunBias ≤ nbRunMin ∧ s.br.NoFatal ∧ s.nb.NoFatal s.params.nbRunBias ∧ s.fx.status.fatal = false :=
  ⟨fun ⟨bias, br, nb, fx, tier, fits⟩ => ⟨bias, ⟨br, tier⟩, ⟨nb, fits⟩, fx⟩,
    fun ⟨bias, ⟨br, tier⟩, ⟨nb, fits⟩, fx⟩ => ⟨bias, br, nb, fx, tier, fits⟩⟩

theorem State.NoFatal.brBank {s : State} (h : s.NoFatal) : s.br.NoFatal := ⟨h.br, h.tier⟩

theorem State.NoFatal.nbBank {s : State} (h : s.NoFatal) : s.nb.NoFatal s.params.nbRunBias := ⟨h.nb, h.fits⟩

/-- `NoFatal` goes over to a state with the same parameters whose three banks are without fatal errors. -/
theorem State.NoFatal.of_banks {s t : State} (h : s.NoFatal) (hparams : t.params = s.params) (hbr : t.br.NoFatal)
    (hnb : t.nb.NoFatal s.params.nbRunBias) (hfx : t.fx.status.fatal = false) : t.NoFatal := by
  rw [State.noFatal_iff, hparams]
  exact ⟨h.bias, hbr, hnb, hfx⟩

theorem State.NoFatal.withBr {s t : State} (h : s.NoFatal) (hparams : t.params = s.params) (hbr : t.br.NoFatal)
    (hnb : t.nb = s.nb) (hfx : t.fx = s.fx) : t.NoFatal :=
  h.of_banks hparams hbr (hnb ▸ h.nbBank) (hfx ▸ h.fx)

theorem State.NoFatal.withNb {s t : State} (h : s.NoFatal) (hparams : t.params = s.params) (hbr : t.br = s.br)
    (hnb : t.nb.NoFatal s.params.nbRunBias) (hfx : t.fx = s.fx) : t.NoFatal :=
  h.of_banks hparams (hbr ▸ h.brBank) hnb (hfx ▸ h.fx)

theorem State.NoFatal.withFx {s t : State} (h : s.NoFatal) (hparams : t.params = s.params) (hbr : t.br = s.br)
    (hnb : t.nb = s.nb) (hfx : t.fx.status.fatal = false) : t.NoFatal :=
  h.of_banks hparams (hbr ▸ h.brBank) (hnb ▸ h.nbBank) hfx

theorem State.NoFatal.congr {s t : State} (h : s.NoFatal) (hst : s.SameRuns t) : t.NoFatal :=
  h.of_banks hst.params ⟨hst.brStatus ▸ h.br, hst.brJob ▸ h.tier⟩ ⟨hst.nbStatus ▸ h.nb, hst.nbJob ▸ h.fits⟩
    (hst.fxStatus ▸ h.fx)

/-! ## A command that is rejected or starts (R252, R225) -/

/-- A precondition error and a bad command code are no fatal errors (R251). -/
theorem State.NoFatal.failCommand {s : State} {e : ErrCode} (h : s.NoFatal) (u : Bank) (he : e.IsPlain) :
    (s.failCommand u e).NoFatal := by
  cases u with
  | br => exact h.withBr rfl ⟨he.2, h.tier⟩ rfl rfl
  | nb => exact h.withNb rfl rfl ⟨he.2, h.fits⟩ rfl
  | fx => exact h.withFx rfl rfl rfl he.2

theorem State.NoFatal.launchBr {s t : State} {j : BrJob} (h : s.NoFatal) (hj : j.tierFault = false)
    (hl : launchBr j s = .next t) : t.NoFatal := by
  obtain ⟨-, rfl⟩ := launchBr_eq_next.mp hl
  exact h.withBr rfl ⟨rfl, by rintro _ ⟨⟩; exact hj⟩ rfl rfl

theorem State.NoFatal.launchNb {s t : State} {j : NbJob} (h : s.NoFatal)
    (hj : ∀ x ∈ j.todo, ItemFits s.params.nbRunBias x) (hl : launchNb j s = .next t) : t.NoFatal := by
  obtain ⟨-, rfl⟩ := launchNb_eq_next.mp hl
  exact h.withNb rfl rfl ⟨rfl, by rintro _ ⟨⟩; exact hj⟩ rfl

/-- A chunk that `NB.ENC` accepts has at most 8192 bytes, so every segment of it fits its length field (R177, R255). -/
theorem nbEncJob_fits {s : State} (hbias : s.params.nbRunBias ≤ nbRunMin) (he : nbEncError (nbArgs s.nb) = none) :
    ∀ x ∈ (nbEncJob s).todo, ItemFits s.params.nbRunBias x := by
  obtain ⟨-, ⟨-, hhi⟩, -⟩ := nbEncError_eq_none.mp he
  have hlen := readInBytes_length s (nbArgs s.nb).inBase.toNat (nbArgs s.nb).inLen.toNat
  exact fun x hx => (segments_ok _ x hx).fits hbias (hlen.trans_le (by omega))

/-! ## A command that runs and ends -/

theorem State.NoFatal.brItem {s t : State} {j : BrJob} {x : BrItem} {rest : List BrItem} (h : s.NoFatal)
    (hf : j.tierFault = false) (hx : runBrItem x (s.withBrTodo j rest) = .next t) : t.NoFatal := by
  rw [runBrItem_eq_emit, emitBr_eq_next] at hx
  obtain ⟨_, ⟨⟩, rfl⟩ := hx
  exact h.withBr rfl ⟨h.br, by rintro _ ⟨⟩; exact hf⟩ rfl rfl

/-- The item written fits its length field, so `WriteLen` accepts it; those after it are still to be written. -/
theorem State.NoFatal.nbItem {s t : State} {j : NbJob} {x : NbItem} {rest : List NbItem} (h : s.NoFatal)
    (hj : s.nb.job = some j) (htodo : j.todo = x :: rest) (hx : runNbItem x (s.withNbTodo j rest) = .next t) :
    t.NoFatal := by
  have hfits := h.fits j hj
  rw [htodo] at hfits
  obtain ⟨hfit, hrest⟩ := List.forall_mem_cons.mp hfits
  rw [runNbItem_eq_emit, emitNb_eq_next] at hx
  obtain ⟨_, ⟨⟩, ⟨hnone, -⟩ | ⟨w, -, rfl⟩⟩ := hx
  · obtain ⟨w, hw, -⟩ := emitItem_of_fits hfit j.writer
    exact absurd (hw.symm.trans hnone) (Option.some_ne_none w)
  · exact h.withNb rfl rfl ⟨h.nb, by rintro _ ⟨⟩; exact hrest⟩ rfl

theorem State.NoFatal.brEnd {s t : State} {m : Byte} (h : s.NoFatal) (hx : execBrChunkMask m s = .next t) :
    t.NoFatal := by
  obtain ⟨j, u, -, hu, rfl⟩ := execBrChunkMask_eq_next.mp hx
  obtain ⟨-, rfl⟩ := storeOut_eq_next.mp hu
  exact h.withBr rfl ⟨rfl, nofun⟩ rfl rfl

theorem State.NoFatal.nbEnd {s t : State} {mark : Mark} {n : BitVec 14} (h : s.NoFatal)
    (hx : execNbHeader mark n s = .next t) : t.NoFatal := by
  obtain ⟨j, u, -, hu, rfl⟩ := execNbHeader_eq_next.mp hx
  obtain ⟨-, rfl⟩ := storeOut_eq_next.mp hu
  exact h.withNb rfl rfl ⟨rfl, nofun⟩ rfl

theorem State.NoFatal.storeIn {s t : State} {a : Nat} {b : Byte} (h : s.NoFatal) (hst : s.storeIn a b = .next t) :
    t.NoFatal := by
  obtain ⟨-, rfl⟩ := storeIn_eq_next.mp hst
  exact h.of_banks rfl h.brBank h.nbBank h.fx

theorem State.NoFatal.storeOut {s t : State} {base : Nat} {bytes : List Byte} (h : s.NoFatal)
    (hst : s.storeOut base bytes = .next t) : t.NoFatal := by
  obtain ⟨-, rfl⟩ := storeOut_eq_next.mp hst
  exact h.of_banks rfl h.brBank h.nbBank h.fx

theorem storeIn_of_hostWriteIn {s t : State} {a : Nat} {b : Byte} (h : hostWriteIn a b s = .next t) :
    s.storeIn a b = .next t := by
  unfold hostWriteIn at h
  split at h
  · cases h
  · exact h

theorem storeOut_of_hostWriteOut {s t : State} {a : Nat} {b : Byte} (h : hostWriteOut a b s = .next t) :
    s.storeOut a [b] = .next t := by
  unfold hostWriteOut at h
  split at h
  · cases h
  · exact h

theorem State.NoFatal.finishFx {s t : State} (h : s.NoFatal) (hx : finishFx s = .next t) : t.NoFatal := by
  obtain ⟨-, rfl⟩ | ⟨j, u, -, hu, rfl⟩ := finishFx_eq_next.mp hx
  · exact h
  · exact (h.storeIn hu).withFx rfl rfl rfl rfl

theorem platformReset_noFatal {s : State} (h : s.NoFatal) : (platformReset s).NoFatal := by
  refine h.of_banks ?_ ⟨rfl, nofun⟩ ⟨rfl, nofun⟩ rfl
  obtain ⟨_, _, _, _, _, _, _, hreset⟩ := platformReset_eq s
  rw [hreset]

/-! ## All moves together -/

theorem noFatal_keptByMoves : KeptByMoves State.NoFatal where
  hostSide _ _ hst h := h.congr hst.sameRuns
  setReg r v s h := h.congr (setReg_sameRuns s r v)
  writeIn a b s t h hx := h.storeIn (storeIn_of_hostWriteIn hx)
  writeOut a b s t h hx := h.storeOut (storeOut_of_hostWriteOut hx)
  startBrFull s t h hx := by
    obtain ⟨-, ⟨e, he, rfl⟩ | ⟨-, hl⟩⟩ := startBrFull_eq_next.mp hx
    · exact h.failCommand .br (brFullError_plain he)
    · exact h.launchBr rfl hl
  startBrPart s t h hx := by
    obtain ⟨-, ⟨e, he, rfl⟩ | ⟨-, hl⟩⟩ := startBrPart_eq_next.mp hx
    · exact h.failCommand .br (brPartError_plain he)
    · exact h.launchBr (tierFault_eq_false _) hl
  badBrCmd s t h hx := by
    obtain ⟨-, rfl⟩ := badBrCmd_eq_next.mp hx
    exact h.failCommand .br badCmd_plain
  startNbEnc s t h hx := by
    obtain ⟨-, ⟨e, he, rfl⟩ | ⟨he, hl⟩⟩ := startNbEnc_eq_next.mp hx
    · exact h.failCommand .nb (nbEncError_plain he)
    · exact h.launchNb (nbEncJob_fits h.bias he) hl
  badNbCmd s t h hx := by
    obtain ⟨-, rfl⟩ := badNbCmd_eq_next.mp hx
    exact h.failCommand .nb badCmd_plain
  startFixlast s t h hx := by
    obtain ⟨-, ⟨e, he, rfl⟩ | ⟨-, hl⟩⟩ := startFixlast_eq_next.mp hx
    · exact h.failCommand .fx (fxError_plain he)
    · obtain ⟨-, rfl⟩ := launchFx_eq_next.mp hl
      exact h.withFx rfl rfl rfl rfl
  badFxCmd s t h hx := by
    obtain ⟨-, rfl⟩ := badFxCmd_eq_next.mp hx
    exact h.failCommand .fx badCmd_plain
  brFatal s j hj hf h := absurd hf (by simp [h.tier j hj])
  brItem s t j x rest _ hf _ h hx := h.brItem hf hx
  brEnd s t j _ _ _ h hx := h.brEnd hx
  nbItem s t j x rest hj htodo h hx := h.nbItem hj htodo hx
  nbEnd s t j _ _ h hx := h.nbEnd hx
  finishFx s t h hx := h.finishFx hx
  reset s h := platformReset_noFatal h

/-- Settles O54: a command starts with no fatal error ahead of it and its moves keep that, so every step does. -/
theorem stepKeepsNoFatal : Obligations.StepKeepsNoFatal := by
  unfold Obligations.StepKeepsNoFatal
  exact noFatal_keptByMoves.step

end Sys2Proof.Machine

/-! The register space (R223, R224, R295): what a write leaves in each register, and what a read gives. O10 and O11. -/

namespace Sys2Proof.Machine

/-! ## A register after a write -/

/-- A value cut to `n` bits and read back as 32 is masked (R22). -/
theorem setWidth_setWidth_eq_and (n : Nat) (v : Word) :
    (v.setWidth n).setWidth 32 = v &&& BitVec.ofNat 32 (2 ^ n - 1) := by
  refine BitVec.eq_of_getLsbD_eq fun i hi => ?_
  simp only [BitVec.getLsbD_setWidth, BitVec.getLsbD_and, BitVec.getLsbD_ofNat, Nat.testBit_two_pow_sub_one, hi,
    decide_true, Bool.true_and, Bool.and_comm]

/-- An `RW` register holds the bits it has of the value written to it. -/
theorem reg_setReg_same {r : Reg} (hr : r.writable = true) (s : State) (v : Word) :
    (s.setReg r v).reg r = v &&& r.bits := by
  cases r with
  | brBuf | nbBuf => exact setWidth_setWidth_eq_and 2 v
  | brPrev | fxBuf => exact setWidth_setWidth_eq_and 1 v
  | brInCap | brOutCap | nbInCap | nbOutCap | fxCap => exact setWidth_setWidth_eq_and 31 v
  | brInBase | brInLen | brOutBase | nbInBase | nbInLen | nbOutBase | fxAddr | fxBits =>
    exact BitVec.and_allOnes.symm
  | _ => cases hr

/-- A write to a register leaves every other as it was. -/
theorem reg_setReg_of_ne {q r : Reg} (h : q ≠ r) (s : State) (v : Word) : (s.setReg r v).reg q = s.reg q := by
  cases r <;> cases q <;> trivial

/-- A write to a register that is not `RW` does nothing. -/
theorem setReg_of_not_writable {r : Reg} (h : r.writable = false) (s : State) (v : Word) : s.setReg r v = s := by
  cases r <;> trivial

theorem setReg_sameHost (s : State) (r : Reg) (v : Word) : s.SameHost (s.setReg r v) := by
  cases r <;> exact ⟨rfl, rfl, rfl, rfl, rfl, rfl, rfl⟩

theorem setReg_sameMemory (s : State) (r : Reg) (v : Word) : s.SameMemory (s.setReg r v) :=
  have hsame := setReg_sameRuns s r v
  ⟨readIn_congr hsame.inMem, readOut_congr hsame.outMem hsame.outDraws⟩

theorem isStatus_of_writable {r : Reg} (h : r.writable = true) : r.isStatus = false := by
  cases r <;> trivial

/-! ## Bus cycles -/

/-- A register offset that is not a `CMD` register's is written as R223's last case says. -/
theorem execRegwr_other {off : Word} (hoff : isRegOffset off = true) (hcmd : isCmdOffset off = false) (v : Word)
    (s : State) : execRegwr off v s = writeOther off v s := by
  simp only [isCmdOffset, Bool.or_eq_false_iff, beq_eq_false_iff_ne] at hcmd
  obtain ⟨⟨hbr, hnb⟩, hfx⟩ := hcmd
  simp only [execRegwr, offsetError_eq_none.mpr hoff, hbr, hnb, hfx, Option.isSome_none, Bool.false_eq_true, if_false]

theorem regAt_eq_none {off : Word} (h : ∀ r : Reg, r.offset ≠ off) : regAt off = none :=
  Option.eq_none_iff_forall_ne_some.mpr fun r hr => h r (regAt_eq_some hr)

/-- Settles O10: the `CMD` registers, then the three cases of any other offset. -/
theorem registerWrite : Obligations.RegisterWrite := by
  unfold Obligations.RegisterWrite
  intro s v
  refine ⟨⟨(exec_decodeBrCmd v s).symm, (exec_decodeNbCmd v s).symm, (exec_decodeFxCmd v s).symm⟩, ?_, ?_, ?_⟩
  · intro off hoff hcmd hbusy
    exact (execRegwr_other hoff hcmd v s).trans (if_pos hbusy)
  · intro r hr hidle
    have hsame := setReg_sameRuns s r v
    refine ⟨s.setReg r v, execRegwr_of_idle hidle v, reg_setReg_same hr s v, fun q hq => reg_setReg_of_ne hq s v,
      hsame.brJob, hsame.nbJob, hsame.fxJob, setReg_sameMemory s r v, setReg_sameHost s r v, ?_⟩
    refine (execRegrd_reg r _).trans ?_
    simp only [isStatus_of_writable hr, busy_setReg, hidle, reg_setReg_same hr, Bool.false_eq_true, if_false]
    rfl
  · intro off hoff hcmd hidle hnone
    refine (execRegwr_other hoff hcmd v s).trans (writeOther_eq_next.mpr ⟨hidle, ?_⟩)
    cases hr : regAt off with
    | none => exact .inr ⟨rfl, rfl⟩
    | some r =>
      have hread : r.writable = false := Bool.eq_false_iff.mpr fun hw => hnone r hw (regAt_eq_some hr)
      exact .inl ⟨r, rfl, (setReg_of_not_writable hread s v).symm⟩

/-- Settles O11: the cases of a read, in the order of R224. -/
theorem registerRead : Obligations.RegisterRead := by
  unfold Obligations.RegisterRead
  intro s
  refine ⟨fun r hr => ?_, fun off hoff hnone => ?_, fun r hr hbusy => ?_, fun r hr hidle => ?_⟩
  · exact (execRegrd_reg r s).trans (if_pos hr)
  · simp only [exec, execRegrd, offsetError_eq_none.mpr hoff, regAt_eq_none hnone, Option.isSome_none,
      Bool.false_eq_true, if_false]
    rfl
  · refine (execRegrd_reg r s).trans ?_
    simp only [hr, hbusy, Bool.false_eq_true, if_false, if_true]
  · refine (execRegrd_reg r s).trans ?_
    simp only [hr, hidle, Bool.false_eq_true, if_false]
    rfl

end Sys2Proof.Machine

/-! `FX.FIXLAST` (R221, R222): the byte it writes, and the command from its write to its end. O32 and O33. -/

namespace Sys2Proof.Machine

/-! ## The byte -/

/-- The bits below the last meaningful one, as a number (R221). -/
theorem fixLow_eq (k : Nat) : fixLow k = BitVec.ofNat 8 (2 ^ (8 - k) - 1) := by
  have hlow : ∀ i ≤ 8, 1#8 <<< i - 1#8 = BitVec.ofNat 8 (2 ^ i - 1) := by decide
  exact hlow _ (Nat.sub_le 8 k)

theorem getLsbD_fixLow (k i : Nat) : (fixLow k).getLsbD i = decide (i < 8 - k) := by
  rw [fixLow_eq, BitVec.getLsbD_ofNat, Nat.testBit_two_pow_sub_one, Bool.and_eq_right_iff_imp]
  simp only [decide_eq_true_eq]
  omega

/-- The bits of the byte FIXLAST writes (R222 (a), (b)). -/
theorem getLsbD_fixByte (b : Byte) (k i : Nat) :
    (fixByte b k).getLsbD i = if i < 8 - k then b.getLsbD (8 - k) else b.getLsbD i := by
  unfold fixByte
  split <;> rename_i hbit
  · rw [BitVec.getLsbD_or, getLsbD_fixLow, hbit]
    by_cases hi : i < 8 - k <;> simp [hi]
  · rw [BitVec.getLsbD_and, BitVec.getLsbD_not, getLsbD_fixLow, Bool.eq_false_iff.mpr hbit]
    by_cases hi : i < 8 - k
    · simp [hi]
    · simpa [hi] using fun hset => BitVec.lt_of_getLsbD hset

/-- Settles O32: the bits of the byte, and of the byte of the byte. -/
theorem fixlastLaws : Obligations.FixlastLaws := by
  unfold Obligations.FixlastLaws
  intro b k _ _
  have hbits := getLsbD_fixByte b k
  refine ⟨fun i hi => by rw [hbits, if_neg (by omega)], fun i hi => by rw [hbits, if_pos hi], ?_, ?_, ?_⟩
  · rw [hbits]
    split
    · rfl
    · rw [show 8 - k = 0 by omega]
  · refine BitVec.eq_of_getLsbD_eq fun i _ => ?_
    rw [getLsbD_fixByte, hbits, hbits, if_neg (Nat.lt_irrefl _)]
    split <;> rfl
  · refine BitVec.eq_of_getLsbD_eq fun i _ => ?_
    rw [getLsbD_fixByte, if_neg (by omega)]

/-! ## The command -/

/-- The last thing the host does is a write of `FX_CMD` (R225). -/
theorem step_writeFxCmd {s : State} {v : Word} (hq : s.Quiet) (hi : s.inputs = [.op (.write 0x200#32 v)]) :
    step s = writeFxCmd v s.lastTaken := by
  rw [step_host_op (mover_quiet_host hq hi) hi (i := decodeFxCmd v) rfl, exec_decodeFxCmd]

/-- The write of `FX_CMD` with FIXLAST's code, its preconditions met and nothing running, starts the command. -/
theorem step_starts_fixlast {s : State} {v : Word} (hq : s.Quiet) (hst : s.fx.status.st ≠ .busy)
    (hi : s.inputs = [.op (.write 0x200#32 v)]) (hv : v.extractLsb' 0 3 = 1#3) (he : fxError (fxArgs s.fx) = none) :
    step s = .next (s.lastTaken.fxStarted { addr := s.fx.addr.toNat, bits := s.fx.bits.toNat }) := by
  rw [step_writeFxCmd hq hi, writeFxCmd, cmdOp, if_pos hv]
  exact startFixlast_starts (s := s.lastTaken) hst he (State.Quiet.freeForFx (s := s.lastTaken) hq _)

/-- Settles O33: one step starts the command, the next writes the byte and ends it. -/
theorem fixlastRun : Obligations.FixlastRun := by
  unfold Obligations.FixlastRun
  rintro s v k _ hq hst hi hv hbuf hbits hk hk8 haddr hcap rfl
  have he : fxError (fxArgs s.fx) = none := by
    rw [fxError_eq_none]
    simp only [fxArgs, hbuf, hbits]
    exact ⟨by decide, ⟨by omega, by omega⟩, haddr, hcap⟩
  have hbitsNat : s.fx.bits.toNat = k := by rw [← toNat_toInt_of_nonneg (by omega), hbits, Int.toNat_natCast]
  have hroom := (fxJob_ok he).1
  rw [fxJob_eq he] at hroom
  have hstart := step_starts_fixlast hq hst hi hv he
  rw [hbitsNat] at hstart
  obtain ⟨hbr, hnb, hfx⟩ := hq
  have hmover : mover (s.lastTaken.fxStarted { addr := s.fx.addr.toNat, bits := k }) = some .fx :=
    mover_fx_alone rfl hbr hnb rfl
  obtain ⟨t, ht, htfx, hbyte, hframe, hhost⟩ :=
    finishFx_ends (s := (s.lastTaken.fxStarted { addr := s.fx.addr.toNat, bits := k }).passTurn) rfl hroom
  have hend := (step_fx hmover).trans ht
  obtain ⟨hinputs, hreplies, htotal, hkept⟩ := hframe.host
  refine ⟨t, (run_succ hstart 1).trans (run_succ hend 0), hinputs, ?_, hframe.br, hframe.nb, ?_, hframe.readIn,
    hframe.readOut, hhost.1, hreplies, htotal, hkept⟩
  · rw [htfx, ← hfx]
    rfl
  · rw [hbyte, fixByte, fixLow_eq]
    rfl

end Sys2Proof.Machine

/-! Running commands end (R226, R264, R300). O58. -/

namespace Sys2Proof.Machine

/-- The move of an engine with a command that is ready goes on. -/
theorem step_engine_next {s : State} {a : Agent} (hs : s.Ready) (hm : mover s = some a) (ha : a ≠ .host) :
    ∃ t, step s = .next t := by
  have hpass : s.passTurn.Ready := (State.Moved.nil s _ _).ready hs
  have hready := mem_readyAgents.mp (mover_mem hm)
  cases a with
  | host => exact absurd rfl ha
  | br =>
    obtain ⟨j, hj⟩ := Option.isSome_iff_exists.mp (show s.br.job.isSome by simpa using hready)
    obtain ⟨t, ht, -⟩ := brAction_moved hpass hj
    exact ⟨t, (step_brAction hm hj (hs.br j hj).1).trans ht⟩
  | nb =>
    obtain ⟨k, hk⟩ := Option.isSome_iff_exists.mp (show s.nb.job.isSome by simpa using hready)
    obtain ⟨t, ht, -⟩ := nbAction_moved hpass hk
    exact ⟨t, (step_nbAction hm hk).trans ht⟩
  | fx =>
    obtain ⟨f, hf⟩ := Option.isSome_iff_exists.mp (show s.fx.job.isSome by simpa using hready)
    obtain ⟨t, ht, -⟩ := finishFx_moved hpass hf
    exact ⟨t, (step_fx hm).trans ht⟩

/-- A running BitRat command that fits its window ends with `DONE` after the moves it has left. -/
theorem finishBr_ends_done {s : State} {j : BrJob} (hs : s.Ready) (hj : s.br.job = some j) :
    ∃ t, finishBr s.brMovesLeft s = .next t ∧ t.br.job = none ∧ t.br.status = Status.done := by
  obtain ⟨hf, hfit, hroom⟩ := hs.br j hj
  have hmoves : s.brMovesLeft = j.todo.length + 1 := by rw [State.brMovesLeft, hj]
  obtain ⟨t, ht, hend⟩ := execBrChunkMask_ends (s := s.withBrJob j.atEnd) j.mask rfl
    (Nat.le_of_add_le_add_left hfit) hroom
  rw [hmoves, finishBr_eq_end hj hf]
  exact ⟨t, ht, by rw [hend.bank]; rfl, by rw [hend.bank]; rfl⟩

/-- A running Nibbler command that fits its window ends with `DONE` after the moves it has left. -/
theorem finishNb_ends_done {s : State} {k : NbJob} (hs : s.Ready) (hk : s.nb.job = some k) :
    ∃ t, finishNb s.nbMovesLeft s = .next t ∧ t.nb.job = none ∧ t.nb.status = Status.done := by
  obtain ⟨⟨w, hw⟩, hfit, hroom⟩ := hs.nb k hk
  have hmoves : s.nbMovesLeft = k.todo.length + 1 := by rw [State.nbMovesLeft, hk]
  have hlen : 2 + w.body.length ≤ k.need := by
    have := Nat.le_of_add_le_add_left hfit
    rwa [NbJob.stored, NbJob.stream_of_emit hw, List.length_append, headerBytes_length] at this
  obtain ⟨t, ht, hend⟩ := execNbHeader_ends (s := s.withNbJob (k.atEnd w)) k.mark (BitVec.ofNat 14 w.body.length)
    rfl hlen hroom
  rw [hmoves, finishNb_eq_end hk hw]
  exact ⟨t, ht, by rw [hend.bank]; rfl, by rw [hend.bank]; rfl⟩

/-- Settles O58: under the three invariants every running command is ready to end. -/
theorem runningCommandsEnd : Obligations.RunningCommandsEnd := by
  unfold Obligations.RunningCommandsEnd
  intro s hinv hfatal hfits
  have hs := State.Ready.of_invariants hinv hfatal hfits
  refine ⟨fun a hm ha => step_engine_next hs hm ha, fun h => ?_, fun h => ?_, fun h => ?_⟩
  · obtain ⟨j, hj⟩ := Option.isSome_iff_exists.mp h
    exact finishBr_ends_done hs hj
  · obtain ⟨k, hk⟩ := Option.isSome_iff_exists.mp h
    exact finishNb_ends_done hs hk
  · obtain ⟨f, hf⟩ := Option.isSome_iff_exists.mp h
    obtain ⟨t, ht, hfx, -⟩ := finishFx_ends hf (hs.fx f hf)
    exact ⟨t, ht, by rw [hfx], by rw [hfx]; rfl⟩

end Sys2Proof.Machine

/-! The chunking loops (R228): the line of a chunk, one round of a loop, and a loop that stops at a command that fails.
O52. -/

namespace Sys2Proof.Machine

/-! ## What a line leaves of the host's side -/

/-- The parameters, what the host is still to do, whose turn it is and the last loop's total are unchanged. -/
structure State.SameSetting (s t : State) : Prop where
  params : t.params = s.params
  inputs : t.inputs = s.inputs
  turn : t.turn = s.turn
  hostTotal : t.hostTotal = s.hostTotal

theorem State.SameSetting.refl (s : State) : s.SameSetting s := ⟨rfl, rfl, rfl, rfl⟩

theorem State.SameSetting.trans {s t u : State} (h : s.SameSetting t) (h' : t.SameSetting u) : s.SameSetting u :=
  ⟨h'.params.trans h.params, h'.inputs.trans h.inputs, h'.turn.trans h.turn, h'.hostTotal.trans h.hostTotal⟩

theorem writeBrCmd_sameSetting {v : Word} {s t : State} (h : writeBrCmd v s = .next t) : s.SameSetting t := by
  unfold writeBrCmd at h
  split at h
  · obtain ⟨-, ⟨e, -, rfl⟩ | ⟨-, hl⟩⟩ := startBrFull_eq_next.mp h
    · exact ⟨rfl, rfl, rfl, rfl⟩
    · obtain ⟨-, rfl⟩ := launchBr_eq_next.mp hl
      exact ⟨rfl, rfl, rfl, rfl⟩
  · split at h
    · obtain ⟨-, ⟨e, -, rfl⟩ | ⟨-, hl⟩⟩ := startBrPart_eq_next.mp h
      · exact ⟨rfl, rfl, rfl, rfl⟩
      · obtain ⟨-, rfl⟩ := launchBr_eq_next.mp hl
        exact ⟨rfl, rfl, rfl, rfl⟩
    · obtain ⟨-, rfl⟩ := badBrCmd_eq_next.mp h
      exact ⟨rfl, rfl, rfl, rfl⟩

theorem writeNbCmd_sameSetting {v : Word} {s t : State} (h : writeNbCmd v s = .next t) : s.SameSetting t := by
  unfold writeNbCmd at h
  split at h
  · obtain ⟨-, ⟨e, -, rfl⟩ | ⟨-, hl⟩⟩ := startNbEnc_eq_next.mp h
    · exact ⟨rfl, rfl, rfl, rfl⟩
    · obtain ⟨-, rfl⟩ := launchNb_eq_next.mp hl
      exact ⟨rfl, rfl, rfl, rfl⟩
  · obtain ⟨-, rfl⟩ := badNbCmd_eq_next.mp h
    exact ⟨rfl, rfl, rfl, rfl⟩

theorem finishBr_sameSetting {fuel : Nat} {s t : State} (h : finishBr fuel s = .next t) : s.SameSetting t := by
  induction fuel generalizing s with
  | zero =>
    obtain rfl := next_eq_next.mp h
    exact .refl _
  | succ fuel ih =>
    cases hj : s.br.job with
    | none =>
      obtain rfl := next_eq_next.mp ((finishBr_of_idle hj _).symm.trans h)
      exact .refl _
    | some j =>
      rw [finishBr] at h
      simp only [hj] at h
      split at h
      · cases h
        exact ⟨rfl, rfl, rfl, rfl⟩
      · split at h
        · obtain ⟨k, u, -, hu, rfl⟩ := execBrChunkMask_eq_next.mp h
          obtain ⟨-, rfl⟩ := storeOut_eq_next.mp hu
          exact ⟨rfl, rfl, rfl, rfl⟩
        · rw [runBrItem_withBrTodo, andThen_next] at h
          have hrest := ih h
          exact ⟨hrest.params, hrest.inputs, hrest.turn, hrest.hostTotal⟩

theorem finishNb_sameSetting {fuel : Nat} {s t : State} (h : finishNb fuel s = .next t) : s.SameSetting t := by
  induction fuel generalizing s with
  | zero =>
    obtain rfl := next_eq_next.mp h
    exact .refl _
  | succ fuel ih =>
    cases hj : s.nb.job with
    | none =>
      obtain rfl := next_eq_next.mp ((finishNb_of_idle hj _).symm.trans h)
      exact .refl _
    | some j =>
      rw [finishNb] at h
      simp only [hj] at h
      split at h
      · obtain ⟨k, u, -, hu, rfl⟩ := execNbHeader_eq_next.mp h
        obtain ⟨-, rfl⟩ := storeOut_eq_next.mp hu
        exact ⟨rfl, rfl, rfl, rfl⟩
      · obtain ⟨u, hu, ht⟩ := andThen_eq_next.mp h
        refine .trans ?_ (ih ht)
        rw [runNbItem_eq_emit, emitNb_eq_next] at hu
        obtain ⟨k, -, ⟨-, rfl⟩ | ⟨w, -, rfl⟩⟩ := hu <;> exact ⟨rfl, rfl, rfl, rfl⟩

/-! ## The lines of the loops -/

/-- The line of a loop for the BitRat chunk at `x` whose command code is `op` (R228). -/
abbrev brChunkLine (op x : Word) (len : Option Word) (prev : BitVec 1) : State → Out :=
  runBrLine op (some prev) (some (.addr x)) len none none none

/-- The line of a loop for the Nibbler chunk of `len` bytes at `x` (R228). -/
abbrev nbChunkLine (x len : Word) : State → Out := runNbLine (some (.addr x)) (some len) none none none

/-- The operand registers a line of `COMPRESS.BR` leaves: those it does not name keep their values (R116). -/
def State.brLined (s : State) (x : Word) (len : Option Word) (prev : BitVec 1) : State :=
  { s with br := { s.br with
    buf := s.br.buf ||| 1#2, prev := prev, inBase := x, inLen := lineValue s.br.inLen len } }

/-- The operand registers a line of `COMPRESS.NB` leaves. -/
def State.nbLined (s : State) (x len : Word) : State :=
  { s with nb := { s.nb with buf := s.nb.buf ||| 1#2, inBase := x, inLen := len } }

theorem lineBuf_addr (b : BitVec 2) (x : Word) : lineBuf b (some (.addr x)) none = b ||| 1#2 := by
  have hset : ∀ b : BitVec 2, BitVec.ofBool (b.getLsbD 1) ++ BitVec.ofBool true = b ||| 1#2 := by decide
  exact hset b

/-- A line of `COMPRESS.BR` writes its operands and then its command code. -/
theorem brChunkLine_eq {s : State} (hst : s.br.status.st ≠ .busy) (op x : Word) (len : Option Word)
    (prev : BitVec 1) :
    brChunkLine op x len prev s = andThen (execRegwr 0x000#32 op (s.brLined x len prev)) pollBr := by
  rw [brChunkLine, runBrLine_eq hst, BrBank.afterLine, lineBuf_addr]
  rfl

/-- A line of `COMPRESS.NB` writes its operands and then its command code. -/
theorem nbChunkLine_eq {s : State} (hst : s.nb.status.st ≠ .busy) (x len : Word) :
    nbChunkLine x len s = andThen (execRegwr 0x100#32 1#32 (s.nbLined x len)) pollNb := by
  rw [nbChunkLine, runNbLine_eq hst, NbBank.afterLine, lineBuf_addr]
  simp only [lineValue, BitVec.setWidth_eq]
  rfl

theorem brChunkLine_busy {s : State} (h : s.br.status.st = .busy) (op x : Word) (len : Option Word) (prev : BitVec 1) :
    brChunkLine op x len prev s = .refused (.busyAccess .br) := by
  have hwrite (v : Word) : execRegwr Reg.brPrev.offset v s = .refused (.busyAccess .br) :=
    execRegwr_busy (r := .brPrev) (beq_iff_eq.mpr h)
  rw [brChunkLine, runBrLine, Option.map_some, writeIfNamed, hwrite, andThen_refused]

theorem nbChunkLine_busy {s : State} (h : s.nb.status.st = .busy) (x len : Word) :
    nbChunkLine x len s = .refused (.busyAccess .nb) := by
  have hwrite (v : Word) : execRegwr Reg.nbBuf.offset v s = .refused (.busyAccess .nb) :=
    execRegwr_busy (r := .nbBuf) (beq_iff_eq.mpr h)
  rw [nbChunkLine, runNbLine, writeBufArg, hwrite, andThen_refused, andThen_refused]

theorem brChunkLine_sameSetting {op x : Word} {len : Option Word} {prev : BitVec 1} {s t : State}
    (h : brChunkLine op x len prev s = .next t) : s.SameSetting t := by
  by_cases hst : s.br.status.st = .busy
  · rw [brChunkLine_busy hst] at h
    cases h
  · rw [brChunkLine_eq hst] at h
    obtain ⟨u, hu, ht⟩ := andThen_eq_next.mp h
    have hcmd := writeBrCmd_sameSetting (v := op) hu
    exact .trans ⟨hcmd.params, hcmd.inputs, hcmd.turn, hcmd.hostTotal⟩ (finishBr_sameSetting ht)

theorem nbChunkLine_sameSetting {x len : Word} {s t : State} (h : nbChunkLine x len s = .next t) :
    s.SameSetting t := by
  by_cases hst : s.nb.status.st = .busy
  · rw [nbChunkLine_busy hst] at h
    cases h
  · rw [nbChunkLine_eq hst] at h
    obtain ⟨u, hu, ht⟩ := andThen_eq_next.mp h
    have hcmd := writeNbCmd_sameSetting (v := 1#32) hu
    exact .trans ⟨hcmd.params, hcmd.inputs, hcmd.turn, hcmd.hostTotal⟩ (finishNb_sameSetting ht)

/-! ## One round of a loop -/

section

variable {a : Word} {fuel left pos total : Nat} {prev : BitVec 1} {s t u : State}

/-- With no bytes left the loop has its result. -/
theorem compressBrFrom_end : compressBrFrom a fuel 0 pos prev total s = .next (s.loopResult total) := by
  cases fuel <;> rfl

theorem compressBrFrom_full (hleft : 4096 ≤ left) :
    compressBrFrom a (fuel + 1) left pos prev total s =
      andThen (brChunkLine 1#32 (a + toWord pos) none prev s) fun t =>
        if t.br.status.st = .failed then .next t
        else
          compressBrFrom a fuel (left - 4096) (pos + 4096) t.br.last
            (total + t.br.written.toNat + brChunkOverhead) (t.keepChunk prev) := by
  exact if_pos hleft

theorem compressBrFrom_part (hpos : 0 < left) (hleft : left < 4096) :
    compressBrFrom a (fuel + 1) left pos prev total s =
      andThen (brChunkLine 2#32 (a + toWord pos) (some (toWord left)) prev s) fun t =>
        if t.br.status.st = .failed then .next t
        else .next ((t.keepChunk prev).loopResult (total + t.br.written.toNat + brChunkOverhead)) := by
  exact (if_neg (Nat.not_le.mpr hleft)).trans (if_pos hpos)

theorem compressNbFrom_end : compressNbFrom a fuel 0 pos total s = .next (s.loopResult total) := by
  cases fuel <;> rfl

theorem compressNbFrom_chunk (hpos : 0 < left) :
    compressNbFrom a (fuel + 1) left pos total s =
      andThen (nbChunkLine (a + toWord pos) (toWord (min 8192 left)) s) fun t =>
        if t.nb.status.st = .failed then .next t
        else
          compressNbFrom a fuel (left - min 8192 left) (pos + min 8192 left) (total + t.nb.written.toNat) t := by
  exact if_pos hpos

/-- A round that goes on: its command has not `FAILED`. -/
theorem compressBrFrom_full_next (hleft : 4096 ≤ left)
    (hline : brChunkLine 1#32 (a + toWord pos) none prev s = .next u) (hu : u.br.status.st ≠ .failed) :
    compressBrFrom a (fuel + 1) left pos prev total s =
      compressBrFrom a fuel (left - 4096) (pos + 4096) u.br.last (total + u.br.written.toNat + brChunkOverhead)
        (u.keepChunk prev) := by
  rw [compressBrFrom_full hleft, hline, andThen_next, if_neg hu]

theorem compressNbFrom_chunk_next (hpos : 0 < left)
    (hline : nbChunkLine (a + toWord pos) (toWord (min 8192 left)) s = .next u) (hu : u.nb.status.st ≠ .failed) :
    compressNbFrom a (fuel + 1) left pos total s =
      compressNbFrom a fuel (left - min 8192 left) (pos + min 8192 left) (total + u.nb.written.toNat) u := by
  rw [compressNbFrom_chunk hpos, hline, andThen_next, if_neg hu]

/-- The last round of a loop that stops: its command has `FAILED`. -/
theorem compressBrFrom_full_failed (hleft : 4096 ≤ left)
    (hline : brChunkLine 1#32 (a + toWord pos) none prev s = .next u) (hu : u.br.status.st = .failed) :
    compressBrFrom a (fuel + 1) left pos prev total s = .next u := by
  rw [compressBrFrom_full hleft, hline, andThen_next, if_pos hu]

theorem compressBrFrom_part_failed (hpos : 0 < left) (hleft : left < 4096)
    (hline : brChunkLine 2#32 (a + toWord pos) (some (toWord left)) prev s = .next u)
    (hu : u.br.status.st = .failed) : compressBrFrom a (fuel + 1) left pos prev total s = .next u := by
  rw [compressBrFrom_part hpos hleft, hline, andThen_next, if_pos hu]

theorem compressNbFrom_chunk_failed (hpos : 0 < left)
    (hline : nbChunkLine (a + toWord pos) (toWord (min 8192 left)) s = .next u) (hu : u.nb.status.st = .failed) :
    compressNbFrom a (fuel + 1) left pos total s = .next u := by
  rw [compressNbFrom_chunk hpos, hline, andThen_next, if_pos hu]

end

/-! ## A loop that stops (R228, R252) -/

/-- A loop over `k` whole chunks that ended `DONE` is how any longer loop begins. -/
theorem compressBrFrom_whole_chunks {a : Word} {k pos total : Nat} {prev : BitVec 1} {s t : State}
    (h : compressBrFrom a (k + 1) (4096 * k) pos prev total s = .next t) (hdone : k = 0 ∨ t.br.status.st = .done) :
    t.params = s.params ∧ ∀ fuel left,
      compressBrFrom a (k + fuel) (4096 * k + left) pos prev total s =
        compressBrFrom a fuel left (pos + 4096 * k) (if k = 0 then prev else t.br.last) t.hostTotal
          { t with hostTotal := s.hostTotal } := by
  induction k generalizing pos prev total s with
  | zero =>
    cases h
    refine ⟨rfl, fun fuel left => ?_⟩
    rw [Nat.zero_add, Nat.mul_zero, Nat.zero_add]
    rfl
  | succ k ih =>
    have hst : t.br.status.st = .done := hdone.resolve_left (Nat.succ_ne_zero k)
    rw [compressBrFrom_full (by omega)] at h
    obtain ⟨u, hline, h⟩ := andThen_eq_next.mp h
    split at h
    · rename_i hfailed
      cases h
      rw [hfailed] at hst
      cases hst
    · rename_i hu
      have hsame := brChunkLine_sameSetting hline
      rw [show 4096 * (k + 1) - 4096 = 4096 * k by omega] at h
      obtain ⟨hparams, hrest⟩ := ih h (.inr hst)
      refine ⟨hparams.trans hsame.params, fun fuel left => ?_⟩
      have hlast : (if k = 0 then u.br.last else t.br.last) = t.br.last := by
        split
        · rename_i hk
          subst hk
          cases compressBrFrom_end.symm.trans h
          rfl
        · rfl
      rw [show k + 1 + fuel = k + fuel + 1 by omega, compressBrFrom_full_next (by omega) hline hu,
        show 4096 * (k + 1) + left - 4096 = 4096 * k + left by omega, hrest, hlast, if_neg (Nat.succ_ne_zero k),
        show pos + 4096 + 4096 * k = pos + 4096 * (k + 1) by omega]
      simp only [State.keepChunk_hostTotal, hsame.hostTotal]

theorem compressNbFrom_whole_chunks {a : Word} {k pos total : Nat} {s t : State}
    (h : compressNbFrom a (k + 2) (8192 * k) pos total s = .next t) (hdone : k = 0 ∨ t.nb.status.st = .done)
    {left : Nat} (fuel : Nat) :
    compressNbFrom a (k + fuel) (8192 * k + left) pos total s =
      compressNbFrom a fuel left (pos + 8192 * k) t.hostTotal { t with hostTotal := s.hostTotal } := by
  induction k generalizing pos total s with
  | zero =>
    cases compressNbFrom_end.symm.trans h
    rw [Nat.zero_add, Nat.mul_zero, Nat.zero_add]
    rfl
  | succ k ih =>
    have hst : t.nb.status.st = .done := hdone.resolve_left (Nat.succ_ne_zero k)
    rw [compressNbFrom_chunk (by omega), show min 8192 (8192 * (k + 1)) = 8192 by omega] at h
    obtain ⟨u, hline, h⟩ := andThen_eq_next.mp h
    split at h
    · rename_i hfailed
      cases h
      rw [hfailed] at hst
      cases hst
    · rename_i hu
      rw [show 8192 * (k + 1) - 8192 = 8192 * k by omega] at h
      have hmin : min 8192 (8192 * (k + 1) + left) = 8192 := by omega
      rw [show k + 1 + fuel = k + fuel + 1 by omega,
        compressNbFrom_chunk_next (by omega) (by rw [hmin]; exact hline) hu, hmin,
        show 8192 * (k + 1) + left - 8192 = 8192 * k + left by omega, ih h (.inr hst),
        (nbChunkLine_sameSetting hline).hostTotal, show pos + 8192 + 8192 * k = pos + 8192 * (k + 1) by omega]

theorem toNat_ofNat_of_le {n : Nat} {v : Word} (h : n ≤ v.toNat) : (BitVec.ofNat 32 n).toNat = n := by
  rw [BitVec.toNat_ofNat, Nat.mod_eq_of_lt (Nat.lt_of_le_of_lt h v.isLt)]

/-- `COMPRESS.BR` after `k` whole chunks that ended `DONE`. -/
theorem execCompressBr_whole_chunks {s t : State} {a len : Word} {k left : Nat}
    (h : exec (.compressBr a (BitVec.ofNat 32 (4096 * k))) s = .next t) (hdone : k = 0 ∨ t.br.status.st = .done)
    (hlen : len.toNat = 4096 * k + left) :
    t.params = s.params ∧
      exec (.compressBr a len) s =
        compressBrFrom a (left / 4096 + 1) left (4096 * k) (if k = 0 then s.params.firstPrev else t.br.last)
          t.hostTotal { t with hostTotal := s.hostTotal } := by
  simp only [exec, execCompressBr, brFullLen, toNat_ofNat_of_le (show 4096 * k ≤ len.toNat by omega),
    Nat.mul_div_cancel_left k (show 0 < 4096 by decide)] at h ⊢
  obtain ⟨hparams, hrest⟩ := compressBrFrom_whole_chunks h hdone
  refine ⟨hparams, ?_⟩
  rw [hlen, show (4096 * k + left) / 4096 + 1 = k + (left / 4096 + 1) by omega, hrest, Nat.zero_add]
  rfl

/-- `COMPRESS.NB` after `k` whole chunks that ended `DONE`. -/
theorem execCompressNb_whole_chunks {s t : State} {a len : Word} {k left : Nat}
    (h : exec (.compressNb a (BitVec.ofNat 32 (8192 * k))) s = .next t) (hdone : k = 0 ∨ t.nb.status.st = .done)
    (hlen : len.toNat = 8192 * k + left) :
    exec (.compressNb a len) s =
      compressNbFrom a (left / 8192 + 2) left (8192 * k) t.hostTotal { t with hostTotal := s.hostTotal } := by
  simp only [exec, execCompressNb, nbMax, toNat_ofNat_of_le (show 8192 * k ≤ len.toNat by omega),
    Nat.mul_div_cancel_left k (show 0 < 8192 by decide)] at h ⊢
  rw [hlen, show (8192 * k + left) / 8192 + 2 = k + (left / 8192 + 2) by omega, compressNbFrom_whole_chunks h hdone,
    Nat.zero_add]

/-- The line of a whole chunk that is rejected (R253). -/
theorem brChunkLine_full_rejected {s : State} {x : Word} {prev : BitVec 1} {b : BrBank} {e : ErrCode}
    (hb : b = { s.br with buf := s.br.buf ||| 1#2, prev := prev, inBase := x }) (hst : s.br.status.st ≠ .busy)
    (hj : s.br.job = none) (he : brFullError s.params (brArgs b) = some e) :
    brChunkLine 1#32 x none prev s =
      .next { s with br := { b with status := { st := .failed, err := e, fatal := false } } } := by
  subst hb
  exact (brChunkLine_eq hst ..).trans (brFullLine_rejected (u := s.brLined x none prev) hst hj he)

/-- The line of a shorter chunk that is rejected (R254). -/
theorem brChunkLine_part_rejected {s : State} {x len : Word} {prev : BitVec 1} {b : BrBank} {e : ErrCode}
    (hb : b = { s.br with buf := s.br.buf ||| 1#2, prev := prev, inBase := x, inLen := len })
    (hst : s.br.status.st ≠ .busy) (hj : s.br.job = none) (he : brPartError s.params (brArgs b) = some e) :
    brChunkLine 2#32 x (some len) prev s =
      .next { s with br := { b with status := { st := .failed, err := e, fatal := false } } } := by
  rw [← BitVec.setWidth_eq len] at hb
  subst hb
  exact (brChunkLine_eq hst ..).trans (brPartLine_rejected (u := s.brLined x (some len) prev) hst hj he)

/-- The line of a Nibbler chunk that is rejected (R255). -/
theorem nbChunkLine_rejected {s : State} {x len : Word} {b : NbBank} {e : ErrCode}
    (hb : b = { s.nb with buf := s.nb.buf ||| 1#2, inBase := x, inLen := len }) (hst : s.nb.status.st ≠ .busy)
    (hj : s.nb.job = none) (he : nbEncError (nbArgs b) = some e) :
    nbChunkLine x len s =
      .next { s with nb := { b with status := { st := .failed, err := e, fatal := false } } } := by
  subst hb
  exact (nbChunkLine_eq hst ..).trans (nbEncLine_rejected (u := s.nbLined x len) hst hj he)

/-- Settles O52: after the chunks that ended, the line of the next one is rejected, and the loop stops. -/
theorem compressStopsAtFailure : Obligations.CompressStopsAtFailure := by
  unfold Obligations.CompressStopsAtFailure
  refine ⟨?_, ?_, fun s a => ⟨rfl, rfl⟩⟩
  · intro s t a len k e b h hdone hb hst hj
    refine ⟨fun hlen he => ?_, fun n hn hpos hlen he => ?_⟩
    · have hleft : len.toNat = 4096 * k + (len.toNat - 4096 * k) := by omega
      obtain ⟨hparams, hrest⟩ := execCompressBr_whole_chunks h hdone hleft
      rw [← hparams] at he
      have hline := brChunkLine_full_rejected (s := { t with hostTotal := s.hostTotal }) hb hst hj he
      exact hrest.trans (compressBrFrom_full_failed (by omega) hline rfl)
    · obtain ⟨hparams, hrest⟩ := execCompressBr_whole_chunks h hdone hlen
      rw [← hparams] at he
      have hline := brChunkLine_part_rejected (s := { t with hostTotal := s.hostTotal }) (by rw [hb]) hst hj he
      exact hrest.trans (compressBrFrom_part_failed hpos hn hline rfl)
  · intro s t a len k e c h hdone hlen hc hst hj he
    have hleft : len.toNat = 8192 * k + (len.toNat - 8192 * k) := by omega
    have hline := nbChunkLine_rejected (s := { t with hostTotal := s.hostTotal }) hc hst hj he
    exact (execCompressNb_whole_chunks h hdone hleft).trans (compressNbFrom_chunk_failed (by omega) hline rfl)

end Sys2Proof.Machine

/-! The chunking loops that run to their ends (R228, R229): what each chunk's command leaves, and the sums over all of
them. O50 and O51. -/

namespace Sys2Proof.Machine

/-! ## Bytes of the input buffer, chunk by chunk -/

theorem take_readInBytes (s : State) (base : Nat) {m n : Nat} (h : m ≤ n) :
    (s.readInBytes base n).take m = s.readInBytes base m := by
  rw [State.readInBytes, ← List.map_take, List.take_range, Nat.min_eq_left h]
  rfl

theorem drop_readInBytes (s : State) (base m n : Nat) :
    (s.readInBytes base n).drop m = s.readInBytes (base + m) (n - m) := by
  refine List.ext_getElem (by simp [State.readInBytes]) fun i _ _ => ?_
  simp [State.readInBytes, Nat.add_assoc]

theorem readInBytes_congr {s t : State} (h : ∀ a, t.readIn a = s.readIn a) (base n : Nat) :
    t.readInBytes base n = s.readInBytes base n := by
  simp only [State.readInBytes, h]

/-- The address of a chunk inside the input buffer does not wrap (log 14). -/
theorem toNat_add_toWord {a : Word} {pos n : Nat} (h : a.toNat + pos + n < spaceSize) :
    (a + toWord pos).toNat = a.toNat + pos := by
  have hpos : (toWord pos).toNat = pos := toNat_toWord (by omega)
  rw [BitVec.toNat_add, hpos]
  exact Nat.mod_eq_of_lt (Nat.lt_trans (by omega) (by decide : spaceSize < 2 ^ 32))

/-- An operand below `2^31` is read as itself (R93). -/
theorem toInt_of_lt {v : Word} (h : v.toNat < spaceSize) : v.toInt = v.toNat := by
  rw [BitVec.toInt_eq_toNat_cond, if_pos]
  simp only [spaceSize] at h
  omega

/-- The bits of `BUF` once a line of a loop has set `PRESENT` of the input buffer (R116). -/
theorem present_after_line : ∀ b : BitVec 2,
    ((b ||| 1#2).extractLsb' 0 1 == 1#1) = true ∧ ((b ||| 1#2).extractLsb' 1 1 == 1#1) = b.getLsbD 1 ∧
      (b ||| 1#2).getLsbD 1 = b.getLsbD 1 ∧ b ||| 1#2 ||| 1#2 = b ||| 1#2 := by
  decide

/-! ## `COMPRESS.BR`: one round of its sums (R228, R229) -/

section

variable {s : State} {fuel base left : Nat} {prev : BitVec 1}

theorem readInBytes_ne_nil (hpos : 0 < left) : s.readInBytes base left ≠ [] :=
  List.ne_nil_of_length_pos (by rwa [readInBytes_length])

theorem brLoopTotal_full (h : 4096 ≤ left) :
    brLoopTotal (fuel + 1) prev (s.readInBytes base left) =
      (brBytes (encodeFull prev (s.readInBytes base 4096)).items).length + 3 +
        brLoopTotal fuel (lsb (encodeFull prev (s.readInBytes base 4096)).m)
          (s.readInBytes (base + 4096) (left - 4096)) := by
  rw [brLoopTotal, if_pos (by rwa [readInBytes_length]), take_readInBytes s base h, drop_readInBytes]

theorem brLoopTotal_part (hpos : 0 < left) (h : left < 4096) :
    brLoopTotal (fuel + 1) prev (s.readInBytes base left) =
      (brBytes (encodePart prev (s.readInBytes base left)).items).length + 3 := by
  rw [brLoopTotal, if_neg (by rw [readInBytes_length]; omega), if_neg (readInBytes_ne_nil hpos)]

theorem brLoopKept_full (h : 4096 ≤ left) :
    brLoopKept (fuel + 1) prev (s.readInBytes base left) =
      { prev := prev, mask := (encodeFull prev (s.readInBytes base 4096)).mask
        streamLen := BitVec.ofNat 32 (brBytes (encodeFull prev (s.readInBytes base 4096)).items).length
        chunkLen := 4096#32 } ::
        brLoopKept fuel (lsb (encodeFull prev (s.readInBytes base 4096)).m)
          (s.readInBytes (base + 4096) (left - 4096)) := by
  rw [brLoopKept, if_pos (by rwa [readInBytes_length]), take_readInBytes s base h, drop_readInBytes]

theorem brLoopKept_part (hpos : 0 < left) (h : left < 4096) :
    brLoopKept (fuel + 1) prev (s.readInBytes base left) =
      [{ prev := prev, mask := (encodePart prev (s.readInBytes base left)).mask
         streamLen := BitVec.ofNat 32 (brBytes (encodePart prev (s.readInBytes base left)).items).length
         chunkLen := BitVec.ofNat 32 left }] := by
  rw [brLoopKept, if_neg (by rw [readInBytes_length]; omega), if_neg (readInBytes_ne_nil hpos), readInBytes_length]

end

/-! ## `COMPRESS.BR`: what each chunk's command leaves -/

/-- What a loop over `n` bytes with output window of `need` bytes leaves of the BitRat bank and of the rest. -/
structure State.BrLooped (s t : State) (n need : Nat) : Prop where
  job : t.br.job = none
  status : t.br.status = if n = 0 then s.br.status else Status.done
  buf : t.br.buf = if n = 0 then s.br.buf else s.br.buf ||| 1#2
  inCap : t.br.inCap = s.br.inCap
  outBase : t.br.outBase = s.br.outBase
  outCap : t.br.outCap = s.br.outCap
  readOut : ∀ x, x < s.br.outBase.toNat ∨ s.br.outBase.toNat + need ≤ x → t.readOut x = s.readOut x
  readIn : ∀ x, t.readIn x = s.readIn x
  nb : t.nb = s.nb
  fx : t.fx = s.fx
  params : t.params = s.params
  inputs : t.inputs = s.inputs
  replies : t.replies = s.replies
  turn : t.turn = s.turn

theorem State.BrLooped.nothing {s : State} (hj : s.br.job = none) (total need : Nat) :
    s.BrLooped (s.loopResult total) 0 need :=
  ⟨hj, rfl, rfl, rfl, rfl, rfl, fun _ _ => rfl, fun _ => rfl, rfl, rfl, rfl, rfl, rfl, rfl⟩

theorem State.BrLooped.keepChunk {s t : State} {n need : Nat} (h : s.BrLooped t n need) (prev : BitVec 1) :
    s.BrLooped (t.keepChunk prev) n need := { h with }

theorem State.BrLooped.loopResult {s t : State} {n need : Nat} (h : s.BrLooped t n need) (total : Nat) :
    s.BrLooped (t.loopResult total) n need := { h with }

theorem State.BrLooped.trans {s t u : State} {m n need : Nat} (h : s.BrLooped t m need) (h' : t.BrLooped u n need)
    (hm : m ≠ 0) : s.BrLooped u (m + n) need where
  job := h'.job
  status := by rw [h'.status, h.status, if_neg hm, ite_self, if_neg (by omega)]
  buf := by
    obtain ⟨-, -, -, hidem⟩ := present_after_line s.br.buf
    rw [h'.buf, h.buf, if_neg hm, hidem, ite_self, if_neg (by omega)]
  inCap := h'.inCap.trans h.inCap
  outBase := h'.outBase.trans h.outBase
  outCap := h'.outCap.trans h.outCap
  readOut x hx := (h'.readOut x (by rwa [h.outBase])).trans (h.readOut x hx)
  readIn x := (h'.readIn x).trans (h.readIn x)
  nb := h'.nb.trans h.nb
  fx := h'.fx.trans h.fx
  params := h'.params.trans h.params
  inputs := h'.inputs.trans h.inputs
  replies := h'.replies.trans h.replies
  turn := h'.turn.trans h.turn

/-- The `left` bytes of `IN` from `base` lie in the input buffer, and a chunk's window of `need` bytes lies in the
output buffer. -/
structure State.BrLoopReady (s : State) (base left need : Nat) : Prop where
  quiet : s.Quiet
  idle : s.br.status.st ≠ .busy
  slack : 3 ≤ s.params.brOutSlack
  outPresent : s.br.buf.getLsbD 1 = true
  room : base + left ≤ s.br.inCap.toNat
  outLow : 0 ≤ s.br.outBase.toInt
  outRoom : s.br.outBase.toInt + need ≤ s.br.outCap.toNat
  chunk : brNeed s.params (min 4096 left) ≤ need

theorem brNeed_mono (p : Params) {m n : Nat} (h : m ≤ n) : brNeed p m ≤ brNeed p n := by
  have := Nat.div_le_div_right (c := 8) h
  simp only [brNeed]
  omega

/-- After a chunk of `n` bytes the rest is ready. -/
theorem State.BrLoopReady.rest {s t : State} {base left need n : Nat} (h : s.BrLoopReady base left need)
    (ht : s.BrLooped t n need) (hn : n ≠ 0) (hle : n ≤ left) : t.BrLoopReady (base + n) (left - n) need where
  quiet := ⟨ht.job, by rw [ht.nb]; exact h.quiet.2.1, by rw [ht.fx]; exact h.quiet.2.2⟩
  idle := by rw [ht.status, if_neg hn]; nofun
  slack := by rw [ht.params]; exact h.slack
  outPresent := by
    obtain ⟨-, -, hout, -⟩ := present_after_line s.br.buf
    rw [ht.buf, if_neg hn, hout, h.outPresent]
  room := by
    have := h.room
    rw [ht.inCap]
    omega
  outLow := by rw [ht.outBase]; exact h.outLow
  outRoom := by rw [ht.outBase, ht.outCap]; exact h.outRoom
  chunk := by rw [ht.params]; exact (brNeed_mono _ (by omega)).trans h.chunk

/-- The command for a chunk of `n` bytes has ended in `t` with the tree `w`: the frame, and what the loop reads
(R228, R229). -/
structure State.BrChunkEnded (s t : State) (prev : BitVec 1) (n need : Nat) (w : Walk) : Prop where
  looped : s.BrLooped t n need
  last : t.br.last = lsb w.m
  written : t.br.written.toNat = (brBytes w.items).length
  kept : t.br.keptChunk prev =
    { prev := prev, mask := w.mask, streamLen := BitVec.ofNat 32 (brBytes w.items).length
      chunkLen := BitVec.ofNat 32 n }
  hostKept : t.hostKept = s.hostKept

theorem eq_ofNat_of_toNat {v : Word} {n : Nat} (h : v.toNat = n) : v = BitVec.ofNat 32 n := by
  rw [← h, BitVec.ofNat_toNat, BitVec.setWidth_eq]

/-- The results of the command of a line are those of the chunk. -/
theorem BrEncoded.chunkEnded {s t : State} {x : Word} {len : Option Word} {prev : BitVec 1} {n need width : Nat}
    {w : Walk} (h : BrEncoded (s.brLined x len prev) t n w width) (hsame : s.SameSetting t) (hn : n ≠ 0)
    (hneed : brNeed s.params n ≤ need) : s.BrChunkEnded t prev n need w := by
  obtain ⟨hbuf, -, -, -, hinCap, houtBase, houtCap⟩ := h.operands
  exact
    { looped :=
        { job := h.idle
          status := by rw [if_neg hn]; exact h.status
          buf := by rw [if_neg hn]; exact hbuf
          inCap := hinCap
          outBase := houtBase
          outCap := houtCap
          readOut := fun a ha => h.outside a (ha.imp_right fun ha => (Nat.add_le_add_left hneed _).trans ha)
          readIn := h.input
          nb := h.nb
          fx := h.fx
          params := h.params
          inputs := hsame.inputs
          replies := h.replies
          turn := hsame.turn }
      last := h.last
      written := h.written
      kept := by
        rw [BrBank.keptChunk, h.mask, eq_ofNat_of_toNat h.written, eq_ofNat_of_toNat h.consumed]
      hostKept := h.hostKept }

/-- A whole chunk of a loop (R228). -/
theorem State.BrLoopReady.fullLine {s : State} {x : Word} {base left need : Nat} (h : s.BrLoopReady base left need)
    (hx : x.toNat = base) (hleft : 4096 ≤ left) (prev : BitVec 1) :
    ∃ t, brChunkLine 1#32 x none prev s = .next t ∧
      s.BrChunkEnded t prev 4096 need (encodeFull prev (s.readInBytes base 4096)) := by
  have hcap : s.br.inCap.toNat < spaceSize := s.br.inCap.isLt
  have hroom := h.room
  have hchunk := h.chunk
  rw [Nat.min_eq_left hleft] at hchunk
  have houtRoom := h.outRoom
  obtain ⟨hin, hout, -, -⟩ := present_after_line s.br.buf
  have he : brFullError s.params (brArgs (s.brLined x none prev).br) = none := by
    rw [brFullError_eq_none]
    simp only [State.brLined, brArgs, hin, hout, h.outPresent, toInt_of_lt (show x.toNat < spaceSize by omega), hx,
      brFullLen]
    exact ⟨trivial, by omega, by omega, trivial, h.outLow, by omega⟩
  obtain ⟨t, ht, henc⟩ := brFullLine_runs (u := s.brLined x none prev) h.quiet h.idle he h.slack
  have hline := (brChunkLine_eq h.idle 1#32 x none prev).trans ht
  refine ⟨t, hline, ?_⟩
  rw [← hx]
  exact henc.chunkEnded (brChunkLine_sameSetting hline) (by decide) hchunk

/-- The last chunk of a loop, shorter than 4096 bytes (R228). -/
theorem State.BrLoopReady.partLine {s : State} {x : Word} {base left need : Nat} (h : s.BrLoopReady base left need)
    (hx : x.toNat = base) (hpos : 0 < left) (hleft : left < 4096) (prev : BitVec 1) :
    ∃ t, brChunkLine 2#32 x (some (toWord left)) prev s = .next t ∧
      s.BrChunkEnded t prev left need (encodePart prev (s.readInBytes base left)) := by
  have hcap : s.br.inCap.toNat < spaceSize := s.br.inCap.isLt
  have hroom := h.room
  have hchunk := h.chunk
  rw [Nat.min_eq_right hleft.le] at hchunk
  have houtRoom := h.outRoom
  obtain ⟨hin, hout, -, -⟩ := present_after_line s.br.buf
  have hlen : (s.brLined x (some (toWord left)) prev).br.inLen.toNat = left := by
    rw [State.brLined, lineValue, BitVec.setWidth_eq]
    exact toNat_toWord (by omega)
  have hlenInt : (s.brLined x (some (toWord left)) prev).br.inLen.toInt = left := by
    rw [toInt_of_lt (by omega), hlen]
  have he : brPartError s.params (brArgs (s.brLined x (some (toWord left)) prev).br) = none := by
    rw [brPartError_eq_none]
    simp only [brArgs, hlenInt, brFullLen, Int.toNat_natCast]
    simp only [State.brLined, hin, hout, h.outPresent, toInt_of_lt (show x.toNat < spaceSize by omega), hx]
    exact ⟨trivial, by omega, by omega, by omega, trivial, h.outLow, by omega⟩
  obtain ⟨t, ht, henc⟩ := brPartLine_runs (u := s.brLined x (some (toWord left)) prev) h.quiet h.idle he h.slack
  have hline := (brChunkLine_eq h.idle 2#32 x (some (toWord left)) prev).trans ht
  refine ⟨t, hline, ?_⟩
  rw [hlen] at henc
  rw [← hx]
  exact henc.chunkEnded (brChunkLine_sameSetting hline) hpos.ne' hchunk

/-- A loop that is ready runs over all its chunks. -/
theorem compressBrFrom_totals {a : Word} {need fuel left pos total : Nat} {prev : BitVec 1} {s : State}
    (h : s.BrLoopReady (a.toNat + pos) left need) (hfuel : left / 4096 < fuel) :
    ∃ t, compressBrFrom a fuel left pos prev total s = .next t ∧ s.BrLooped t left need ∧
      t.hostTotal = total + brLoopTotal fuel prev (s.readInBytes (a.toNat + pos) left) ∧
      t.hostKept = s.hostKept ++ brLoopKept fuel prev (s.readInBytes (a.toNat + pos) left) := by
  induction fuel generalizing left pos total prev s with
  | zero => exact absurd hfuel (Nat.not_lt_zero _)
  | succ fuel ih =>
    have hx : (a + toWord pos).toNat = a.toNat + pos := toNat_add_toWord (Nat.lt_of_le_of_lt h.room s.br.inCap.isLt)
    by_cases hfull : 4096 ≤ left
    · obtain ⟨u, hline, hu⟩ := h.fullLine hx hfull prev
      have hst : u.br.status.st ≠ .failed := by rw [hu.looped.status, if_neg (by decide)]; nofun
      have hlooped := hu.looped.keepChunk prev
      have hready := h.rest hlooped (by decide) hfull
      rw [Nat.add_assoc] at hready
      obtain ⟨t, ht, hrest, htotal, hkept⟩ := ih hready (total := total + u.br.written.toNat + brChunkOverhead)
        (prev := u.br.last) (by omega)
      rw [readInBytes_congr hlooped.readIn, hu.last] at htotal hkept
      rw [compressBrFrom_full_next hfull hline hst, brLoopTotal_full hfull, brLoopKept_full hfull,
        Nat.add_assoc a.toNat]
      refine ⟨t, ht, Nat.add_sub_of_le hfull ▸ hlooped.trans hrest (by decide), ?_, ?_⟩
      · rw [htotal, hu.written, brChunkOverhead]
        omega
      · rw [hkept, State.keepChunk_hostKept, hu.kept, hu.hostKept, List.append_assoc, List.singleton_append]
    · obtain rfl | hpos := Nat.eq_zero_or_pos left
      · exact ⟨_, compressBrFrom_end, .nothing h.quiet.1 total need, rfl, (List.append_nil _).symm⟩
      · have hleft := Nat.lt_of_not_le hfull
        obtain ⟨u, hline, hu⟩ := h.partLine hx hpos hleft prev
        have hst : u.br.status.st ≠ .failed := by rw [hu.looped.status, if_neg hpos.ne']; nofun
        rw [compressBrFrom_part hpos hleft, hline, andThen_next, if_neg hst, brLoopTotal_part hpos hleft,
          brLoopKept_part hpos hleft]
        refine ⟨_, rfl, (hu.looped.keepChunk prev).loopResult _, ?_, ?_⟩
        · rw [State.loopResult_hostTotal, hu.written, brChunkOverhead, Nat.add_assoc]
        · rw [State.loopResult_hostKept, State.keepChunk_hostKept, hu.kept, hu.hostKept]

/-- Settles O50: the operands make the loop ready, so it runs over all its chunks. -/
theorem compressBrTotals : Obligations.CompressBrTotals := by
  unfold Obligations.CompressBrTotals
  intro s a len hq hst hslack hout hroom houtLow houtRoom
  have hready : (s.withKept []).BrLoopReady (a.toNat + 0) len.toNat (brNeed s.params (min 4096 len.toNat)) :=
    { quiet := hq, idle := hst, slack := hslack, outPresent := hout, room := hroom, outLow := houtLow
      outRoom := houtRoom, chunk := Nat.le_refl _ }
  obtain ⟨t, ht, h, htotal, hkept⟩ :=
    compressBrFrom_totals (total := 0) (prev := s.params.firstPrev) hready (Nat.lt_succ_self (len.toNat / 4096))
  have hzero : len.toNat = 0 ↔ len = 0#32 := BitVec.toNat_inj (y := 0#32)
  refine ⟨t, ht, htotal.trans (Nat.zero_add _), hkept, h.job, fun hlen => ?_, ?_, h.inCap, h.outBase, h.outCap,
    h.readOut, h.readIn, h.nb, h.fx, h.params, h.inputs, h.replies, h.turn⟩
  · exact h.status.trans (if_neg (hzero.not.mpr hlen))
  · exact h.buf.trans (by simp only [hzero]; rfl)

/-! ## `COMPRESS.NB` -/

/-- What a loop over `n` bytes with output window of `need` bytes leaves of the Nibbler bank and of the rest. -/
structure State.NbLooped (s t : State) (n need : Nat) : Prop where
  job : t.nb.job = none
  status : t.nb.status = if n = 0 then s.nb.status else Status.done
  buf : t.nb.buf = if n = 0 then s.nb.buf else s.nb.buf ||| 1#2
  inCap : t.nb.inCap = s.nb.inCap
  outBase : t.nb.outBase = s.nb.outBase
  outCap : t.nb.outCap = s.nb.outCap
  readOut : ∀ x, x < s.nb.outBase.toNat ∨ s.nb.outBase.toNat + need ≤ x → t.readOut x = s.readOut x
  readIn : ∀ x, t.readIn x = s.readIn x
  br : t.br = s.br
  fx : t.fx = s.fx
  params : t.params = s.params
  inputs : t.inputs = s.inputs
  replies : t.replies = s.replies
  hostKept : t.hostKept = s.hostKept
  turn : t.turn = s.turn

theorem State.NbLooped.nothing {s : State} (hj : s.nb.job = none) (total need : Nat) :
    s.NbLooped (s.loopResult total) 0 need :=
  ⟨hj, rfl, rfl, rfl, rfl, rfl, fun _ _ => rfl, fun _ => rfl, rfl, rfl, rfl, rfl, rfl, rfl, rfl⟩

theorem State.NbLooped.trans {s t u : State} {m n need : Nat} (h : s.NbLooped t m need) (h' : t.NbLooped u n need)
    (hm : m ≠ 0) : s.NbLooped u (m + n) need where
  job := h'.job
  status := by rw [h'.status, h.status, if_neg hm, ite_self, if_neg (by omega)]
  buf := by
    obtain ⟨-, -, -, hidem⟩ := present_after_line s.nb.buf
    rw [h'.buf, h.buf, if_neg hm, hidem, ite_self, if_neg (by omega)]
  inCap := h'.inCap.trans h.inCap
  outBase := h'.outBase.trans h.outBase
  outCap := h'.outCap.trans h.outCap
  readOut x hx := (h'.readOut x (by rwa [h.outBase])).trans (h.readOut x hx)
  readIn x := (h'.readIn x).trans (h.readIn x)
  br := h'.br.trans h.br
  fx := h'.fx.trans h.fx
  params := h'.params.trans h.params
  inputs := h'.inputs.trans h.inputs
  replies := h'.replies.trans h.replies
  hostKept := h'.hostKept.trans h.hostKept
  turn := h'.turn.trans h.turn

/-- The `left` bytes of `IN` from `base` lie in the input buffer, and a chunk's window of `need` bytes lies in the
output buffer. -/
structure State.NbLoopReady (s : State) (base left need : Nat) : Prop where
  quiet : s.Quiet
  idle : s.nb.status.st ≠ .busy
  bias : s.params.nbRunBias ≤ 3
  outPresent : s.nb.buf.getLsbD 1 = true
  room : base + left ≤ s.nb.inCap.toNat
  outLow : 0 ≤ s.nb.outBase.toInt
  outRoom : s.nb.outBase.toInt + need ≤ s.nb.outCap.toNat
  chunk : min 8192 left + 4 ≤ need

/-- After a chunk of `n` bytes the rest is ready. -/
theorem State.NbLoopReady.rest {s t : State} {base left need n : Nat} (h : s.NbLoopReady base left need)
    (ht : s.NbLooped t n need) (hn : n ≠ 0) (hle : n ≤ left) : t.NbLoopReady (base + n) (left - n) need where
  quiet := ⟨by rw [ht.br]; exact h.quiet.1, ht.job, by rw [ht.fx]; exact h.quiet.2.2⟩
  idle := by rw [ht.status, if_neg hn]; nofun
  bias := by rw [ht.params]; exact h.bias
  outPresent := by
    obtain ⟨-, -, hout, -⟩ := present_after_line s.nb.buf
    rw [ht.buf, if_neg hn, hout, h.outPresent]
  room := by
    have := h.room
    rw [ht.inCap]
    omega
  outLow := by rw [ht.outBase]; exact h.outLow
  outRoom := by rw [ht.outBase, ht.outCap]; exact h.outRoom
  chunk := by
    have := h.chunk
    omega

/-- The command of a line has the frame of its chunk. -/
theorem NbEncoded.looped {s t : State} {x len : Word} {n need : Nat} {st : List Byte} {slot : Option Nat}
    (h : NbEncoded (s.nbLined x len) t n st slot) (hsame : s.SameSetting t) (hn : n ≠ 0) (hneed : n + 4 ≤ need) :
    s.NbLooped t n need := by
  obtain ⟨hbuf, -, -, hinCap, houtBase, houtCap⟩ := h.operands
  exact
    { job := h.idle
      status := by rw [if_neg hn]; exact h.status
      buf := by rw [if_neg hn]; exact hbuf
      inCap := hinCap
      outBase := houtBase
      outCap := houtCap
      readOut := fun a ha => h.outside a (ha.imp_right fun ha => (Nat.add_le_add_left hneed _).trans ha)
      readIn := h.input
      br := h.br
      fx := h.fx
      params := h.params
      inputs := hsame.inputs
      replies := h.replies
      hostKept := h.hostKept
      turn := hsame.turn }

/-- A chunk of a loop (R228). -/
theorem State.NbLoopReady.line {s : State} {x : Word} {base left need n : Nat} (h : s.NbLoopReady base left need)
    (hx : x.toNat = base) (hn : n = min 8192 left) (hpos : n ≠ 0) :
    ∃ t st slot, nbChunkLine x (toWord n) s = .next t ∧ s.NbLooped t n need ∧
      nbEncode s.params (s.readInBytes base n) = some (st, slot) ∧ t.nb.written.toNat = st.length := by
  have hcap : s.nb.inCap.toNat < spaceSize := s.nb.inCap.isLt
  have hroom := h.room
  have hchunk := h.chunk
  have houtRoom := h.outRoom
  obtain ⟨hin, hout, -, -⟩ := present_after_line s.nb.buf
  have hlen : (toWord n).toNat = n := toNat_toWord (by omega)
  have he : nbEncError (nbArgs (s.nbLined x (toWord n)).nb) = none := by
    rw [nbEncError_eq_none]
    simp only [State.nbLined, nbArgs, hin, hout, h.outPresent, toInt_of_lt (show x.toNat < spaceSize by omega), hx,
      toInt_of_lt (show (toWord n).toNat < spaceSize by omega), hlen, nbMax, nbOutSlack]
    exact ⟨trivial, by omega, by omega, by omega, trivial, h.outLow, by omega⟩
  obtain ⟨t, st, slot, hst, ht, henc⟩ := nbEncLine_runs (u := s.nbLined x (toWord n)) h.quiet h.idle he h.bias
  have hline := (nbChunkLine_eq h.idle x (toWord n)).trans ht
  have hlen' : (s.nbLined x (toWord n)).nb.inLen.toNat = n := hlen
  rw [hlen'] at henc hst
  rw [← hx]
  exact ⟨t, st, slot, hline, henc.looped (nbChunkLine_sameSetting hline) hpos (by omega), hst, henc.written⟩

/-- One round of the sum (R228). -/
theorem nbLoopTotal_chunk {s : State} {p : Params} {fuel base left n : Nat} {st : List Byte} {slot : Option Nat}
    (hpos : 0 < left) (hn : n = min 8192 left) (hst : nbEncode p (s.readInBytes base n) = some (st, slot)) :
    nbLoopTotal p (fuel + 1) (s.readInBytes base left) =
      st.length + nbLoopTotal p fuel (s.readInBytes (base + n) (left - n)) := by
  have htake : (s.readInBytes base left).take 8192 = s.readInBytes base n := by
    rw [← take_readInBytes s base (show n ≤ left by omega), hn, List.take_eq_take_iff, readInBytes_length]
    omega
  have hdrop : (s.readInBytes base left).drop 8192 = s.readInBytes (base + n) (left - n) := by
    rw [drop_readInBytes]
    obtain hfull | hlast := Nat.le_total 8192 left
    · rw [hn, Nat.min_eq_left hfull]
    · rw [show left - 8192 = 0 by omega, show left - n = 0 by omega]
      rfl
  rw [nbLoopTotal, if_neg (readInBytes_ne_nil hpos), htake, hdrop, hst]

/-- A loop that is ready runs over all its chunks. -/
theorem compressNbFrom_totals {a : Word} {need fuel left pos total : Nat} {s : State}
    (h : s.NbLoopReady (a.toNat + pos) left need) (hfuel : left ≤ 8192 * fuel) :
    ∃ t, compressNbFrom a (fuel + 1) left pos total s = .next t ∧ s.NbLooped t left need ∧
      t.hostTotal = total + nbLoopTotal s.params fuel (s.readInBytes (a.toNat + pos) left) := by
  induction fuel generalizing left pos total s with
  | zero =>
    obtain rfl : left = 0 := by omega
    exact ⟨_, compressNbFrom_end, .nothing h.quiet.2.1 total need, rfl⟩
  | succ fuel ih =>
    obtain rfl | hpos := Nat.eq_zero_or_pos left
    · exact ⟨_, compressNbFrom_end, .nothing h.quiet.2.1 total need, rfl⟩
    have hx : (a + toWord pos).toNat = a.toNat + pos := toNat_add_toWord (Nat.lt_of_le_of_lt h.room s.nb.inCap.isLt)
    obtain ⟨n, hn⟩ : ∃ n, n = min 8192 left := ⟨_, rfl⟩
    have hn0 : n ≠ 0 := by omega
    have hnle : n ≤ left := by omega
    obtain ⟨u, st, slot, hline, hu, hst, hwritten⟩ := h.line hx hn hn0
    have hdone : u.nb.status.st ≠ .failed := by rw [hu.status, if_neg hn0]; nofun
    have hready := h.rest hu hn0 hnle
    rw [Nat.add_assoc] at hready
    obtain ⟨t, ht, hrest, htotal⟩ := ih hready (total := total + u.nb.written.toNat) (by omega)
    rw [readInBytes_congr hu.readIn, hu.params] at htotal
    rw [compressNbFrom_chunk_next hpos (hn ▸ hline) hdone, ← hn, nbLoopTotal_chunk hpos hn hst,
      Nat.add_assoc a.toNat]
    refine ⟨t, ht, Nat.add_sub_of_le hnle ▸ hu.trans hrest hn0, ?_⟩
    rw [htotal, hwritten, Nat.add_assoc]

/-- Settles O51: the operands make the loop ready, so it runs over all its chunks. -/
theorem compressNbTotals : Obligations.CompressNbTotals := by
  unfold Obligations.CompressNbTotals
  intro s a len hq hst hbias hout hroom houtLow houtRoom
  have hready : s.NbLoopReady (a.toNat + 0) len.toNat (min 8192 len.toNat + 4) :=
    { quiet := hq, idle := hst, bias := hbias, outPresent := hout, room := hroom, outLow := houtLow
      outRoom := houtRoom, chunk := Nat.le_refl _ }
  obtain ⟨t, ht, h, htotal⟩ :=
    compressNbFrom_totals (total := 0) hready (show len.toNat ≤ 8192 * (len.toNat / 8192 + 1) by omega)
  have hzero : len.toNat = 0 ↔ len = 0#32 := BitVec.toNat_inj (y := 0#32)
  refine ⟨t, ht, htotal.trans (Nat.zero_add _), h.job, fun hlen => ?_, ?_, h.inCap, h.outBase, h.outCap,
    h.readOut, h.readIn, h.br, h.fx, h.params, h.inputs, h.replies, h.hostKept, h.turn⟩
  · exact h.status.trans (if_neg (hzero.not.mpr hlen))
  · exact h.buf.trans (by simp only [hzero])

end Sys2Proof.Machine

/-! Commands that fail at once (R250 to R257, R267): the tables of preconditions, row by row, and the effect of a
rejection. O16, O17, O18, O19 and O20. -/

namespace Sys2Proof.Machine

/-! ## The preconditions, when one of them fails -/

/-- The code of a table of preconditions is its first row's if that row holds, else that of the rows below (R257). -/
theorem firstRow_eq_some {c : Prop} [Decidable c] {a e : ErrCode} {rest : Option ErrCode} :
    (if c then some a else rest) = some e ↔ (c ∧ e = a) ∨ (¬ c ∧ rest = some e) := by
  rw [ite_eq_iff, Option.some.injEq, @eq_comm _ a e]

/-- `need` on integers, where the preconditions are evaluated (R66). -/
theorem natCast_brNeed (p : Params) {n : Int} (h : 0 ≤ n) : (brNeed p n.toNat : Int) = n + n / 8 + p.brOutSlack := by
  rw [brNeed]
  omega

/-- The table of R253: a code is that of the first row that holds. -/
theorem brFullError_eq_some {p : Params} {x : EncArgs} {e : ErrCode} :
    brFullError p x = some e ↔
      (x.inPresent = false ∧ e = .inAbsent) ∨
      (x.inPresent = true ∧ (x.inBase < 0 ∨ x.inBase + 4096 > x.inCap) ∧ e = .inBounds) ∨
      (x.inPresent = true ∧ ¬ (x.inBase < 0 ∨ x.inBase + 4096 > x.inCap) ∧ x.outPresent = false ∧ e = .outAbsent) ∨
      (x.inPresent = true ∧ ¬ (x.inBase < 0 ∨ x.inBase + 4096 > x.inCap) ∧ x.outPresent = true ∧
        (x.outBase < 0 ∨ x.outBase + (4096 + 512 + p.brOutSlack) > x.outCap) ∧ e = .outSpace) := by
  simp only [brFullError, firstRow_eq_some, and_or_left, Bool.not_eq_false, reduceCtorEq, and_false, or_false]
  exact Iff.rfl

/-- The table of R254. -/
theorem brPartError_eq_some {p : Params} {x : EncArgs} {e : ErrCode} :
    brPartError p x = some e ↔
      (x.inPresent = false ∧ e = .inAbsent) ∨
      (x.inPresent = true ∧ (x.inLen < 0 ∨ x.inLen ≥ 4096) ∧ e = .lenRange) ∨
      (x.inPresent = true ∧ ¬ (x.inLen < 0 ∨ x.inLen ≥ 4096) ∧ (x.inBase < 0 ∨ x.inBase + x.inLen > x.inCap) ∧
        e = .inBounds) ∨
      (x.inPresent = true ∧ ¬ (x.inLen < 0 ∨ x.inLen ≥ 4096) ∧ ¬ (x.inBase < 0 ∨ x.inBase + x.inLen > x.inCap) ∧
        x.outPresent = false ∧ e = .outAbsent) ∨
      (x.inPresent = true ∧ ¬ (x.inLen < 0 ∨ x.inLen ≥ 4096) ∧ ¬ (x.inBase < 0 ∨ x.inBase + x.inLen > x.inCap) ∧
        x.outPresent = true ∧
        (x.outBase < 0 ∨ x.outBase + (x.inLen + x.inLen / 8 + p.brOutSlack) > x.outCap) ∧ e = .outSpace) := by
  simp only [brPartError, firstRow_eq_some, and_or_left, Bool.not_eq_false, reduceCtorEq, and_false, or_false]
  obtain hneg | hlen := lt_or_ge x.inLen 0
  · simp only [hneg, true_or, not_true_eq_false, false_and, and_false]
  · rw [natCast_brNeed p hlen]
    exact Iff.rfl

/-- The table of R255. -/
theorem nbEncError_eq_some {x : EncArgs} {e : ErrCode} :
    nbEncError x = some e ↔
      (x.inPresent = false ∧ e = .inAbsent) ∨
      (x.inPresent = true ∧ (x.inLen < 0 ∨ x.inLen > 8192) ∧ e = .lenRange) ∨
      (x.inPresent = true ∧ ¬ (x.inLen < 0 ∨ x.inLen > 8192) ∧ (x.inBase < 0 ∨ x.inBase + x.inLen > x.inCap) ∧
        e = .inBounds) ∨
      (x.inPresent = true ∧ ¬ (x.inLen < 0 ∨ x.inLen > 8192) ∧ ¬ (x.inBase < 0 ∨ x.inBase + x.inLen > x.inCap) ∧
        x.outPresent = false ∧ e = .outAbsent) ∨
      (x.inPresent = true ∧ ¬ (x.inLen < 0 ∨ x.inLen > 8192) ∧ ¬ (x.inBase < 0 ∨ x.inBase + x.inLen > x.inCap) ∧
        x.outPresent = true ∧ (x.outBase < 0 ∨ x.outBase + x.inLen + 4 > x.outCap) ∧ e = .outSpace) := by
  simp only [nbEncError, firstRow_eq_some, and_or_left, Bool.not_eq_false, reduceCtorEq, and_false, or_false]
  exact Iff.rfl

/-- The table of R256. -/
theorem fxError_eq_some {x : FxArgs} {e : ErrCode} :
    fxError x = some e ↔
      (x.present = false ∧ e = .inAbsent) ∨
      (x.present = true ∧ (x.lastBits < 1 ∨ x.lastBits > 8) ∧ e = .bitsRange) ∨
      (x.present = true ∧ ¬ (x.lastBits < 1 ∨ x.lastBits > 8) ∧ (x.addr < 0 ∨ x.addr ≥ x.cap) ∧ e = .inBounds) := by
  simp only [fxError, firstRow_eq_some, and_or_left, Bool.not_eq_false, reduceCtorEq, and_false, or_false]

/-! ## The presence bits (R93) -/

theorem brArgs_inPresent (b : BrBank) : (brArgs b).inPresent = b.buf.getLsbD 0 :=
  (BitVec.getLsbD_eq_extractLsb' b.buf 0).symm

theorem brArgs_outPresent (b : BrBank) : (brArgs b).outPresent = b.buf.getLsbD 1 :=
  (BitVec.getLsbD_eq_extractLsb' b.buf 1).symm

theorem nbArgs_inPresent (b : NbBank) : (nbArgs b).inPresent = b.buf.getLsbD 0 :=
  (BitVec.getLsbD_eq_extractLsb' b.buf 0).symm

theorem nbArgs_outPresent (b : NbBank) : (nbArgs b).outPresent = b.buf.getLsbD 1 :=
  (BitVec.getLsbD_eq_extractLsb' b.buf 1).symm

theorem fxArgs_present_eq_true {b : FxBank} : (fxArgs b).present = true ↔ b.buf = 1#1 := beq_iff_eq

theorem fxArgs_present_eq_false {b : FxBank} : (fxArgs b).present = false ↔ b.buf = 0#1 := by
  have hbit : ∀ c : BitVec 1, (c == 1#1) = false ↔ c = 0#1 := by decide
  exact hbit b.buf

/-! ## A precondition that fails (R252) -/

/-- Settles O17: the row that holds gives the code, and a code of R253 is not a fatal one. -/
theorem brFullRejected : Obligations.BrFullRejected := by
  unfold Obligations.BrFullRejected
  intro s ign inBad outBad e hst hin hout hrow
  have he : brFullError s.params (brArgs s.br) = some e := by
    rw [hin, hout] at hrow
    rw [brFullError_eq_some, brArgs_inPresent, brArgs_outPresent]
    exact hrow
  rw [← failed_of_plain (brFullError_plain he)]
  exact startBrFull_rejected hst he

/-- Settles O18: as for O17, with the table of R254. -/
theorem brPartRejected : Obligations.BrPartRejected := by
  unfold Obligations.BrPartRejected
  intro s ign lenBad inBad outBad e hst hlen hin hout hrow
  have he : brPartError s.params (brArgs s.br) = some e := by
    rw [hlen, hin, hout] at hrow
    rw [brPartError_eq_some, brArgs_inPresent, brArgs_outPresent]
    exact hrow
  rw [← failed_of_plain (brPartError_plain he)]
  exact startBrPart_rejected hst he

/-- Settles O19: as for O17, with the table of R255. -/
theorem nbEncRejected : Obligations.NbEncRejected := by
  unfold Obligations.NbEncRejected
  intro s ign lenBad inBad outBad e hst hlen hin hout hrow
  have he : nbEncError (nbArgs s.nb) = some e := by
    rw [hlen, hin, hout] at hrow
    rw [nbEncError_eq_some, nbArgs_inPresent, nbArgs_outPresent]
    exact hrow
  rw [← failed_of_plain (nbEncError_plain he)]
  exact startNbEnc_rejected hst he

/-- Settles O20: as for O17, with the table of R256. -/
theorem fxFixlastRejected : Obligations.FxFixlastRejected := by
  unfold Obligations.FxFixlastRejected
  intro s ign bitsBad e hst hbits hrow
  have he : fxError (fxArgs s.fx) = some e := by
    rw [hbits] at hrow
    rw [fxError_eq_some, fxArgs_present_eq_false, fxArgs_present_eq_true]
    exact hrow
  rw [← failed_of_plain (fxError_plain he)]
  exact startFixlast_rejected hst he

/-! ## Reserved command codes (R92, R267) -/

theorem decodeBrCmd_reserved {op : BitVec 3} (hfull : op ≠ 1#3) (hpart : op ≠ 2#3) (ign : BitVec 29) :
    decodeBrCmd (cmdWord op ign) = .reservedBr op ign := by
  rw [decodeBrCmd, cmdOp_cmdWord, cmdIgnored_cmdWord, if_neg hfull, if_neg hpart]

theorem decodeNbCmd_reserved {op : BitVec 3} (henc : op ≠ 1#3) (ign : BitVec 29) :
    decodeNbCmd (cmdWord op ign) = .reservedNb op ign := by
  rw [decodeNbCmd, cmdOp_cmdWord, cmdIgnored_cmdWord, if_neg henc]

theorem decodeFxCmd_reserved {op : BitVec 3} (hfix : op ≠ 1#3) (ign : BitVec 29) :
    decodeFxCmd (cmdWord op ign) = .reservedFx op ign := by
  rw [decodeFxCmd, cmdOp_cmdWord, cmdIgnored_cmdWord, if_neg hfix]

/-- Settles O16: a reserved code fails the command of its unit, and a write of its word is what the word decodes to. -/
theorem reservedCodesFail : Obligations.ReservedCodesFail := by
  unfold Obligations.ReservedCodesFail
  intro s op ign
  refine ⟨fun hst hfull hpart => ⟨badBrCmd_eq_next.mpr ⟨hst, rfl⟩, ?_⟩,
    fun hst henc => ⟨badNbCmd_eq_next.mpr ⟨hst, rfl⟩, ?_⟩, fun hst hfix => ⟨badFxCmd_eq_next.mpr ⟨hst, rfl⟩, ?_⟩⟩
  · rw [← decodeBrCmd_reserved hfull hpart ign]
    exact (exec_decodeBrCmd (cmdWord op ign) s).symm
  · rw [← decodeNbCmd_reserved henc ign]
    exact (exec_decodeNbCmd (cmdWord op ign) s).symm
  · rw [← decodeFxCmd_reserved hfix ign]
    exact (exec_decodeFxCmd (cmdWord op ign) s).symm

end Sys2Proof.Machine

/-! The parameters are fixed (R291): each elementary move leaves them, and so every step does. O56. -/

namespace Sys2Proof.Machine

/-- The machine has the parameters `p`. -/
def State.HasParams (p : Params) (s : State) : Prop := s.params = p

/-- What leaves the parameters of every state keeps the state's having `p`. -/
theorem Keeps.hasParams {p : Params} {f : State → Out} (h : ∀ {s t}, f s = .next t → t.params = s.params) :
    Keeps (State.HasParams p) f :=
  fun _ _ hs hx => (h hx).trans hs

/-! ## Stores -/

theorem storeIn_params {s t : State} {a : Nat} {b : Byte} (h : s.storeIn a b = .next t) : t.params = s.params := by
  obtain ⟨-, rfl⟩ := storeIn_eq_next.mp h
  rfl

theorem storeOut_params {s t : State} {base : Nat} {bytes : List Byte} (h : s.storeOut base bytes = .next t) :
    t.params = s.params := by
  obtain ⟨-, rfl⟩ := storeOut_eq_next.mp h
  rfl

/-! ## The starts of commands (R225, R252) -/

@[simp] theorem failCommand_params (s : State) (u : Bank) (e : ErrCode) : (s.failCommand u e).params = s.params := by
  cases u <;> rfl

theorem launchBr_params {j : BrJob} {s t : State} (h : launchBr j s = .next t) : t.params = s.params := by
  obtain ⟨-, rfl⟩ := launchBr_eq_next.mp h
  rfl

theorem startBrFull_params {s t : State} (h : startBrFull s = .next t) : t.params = s.params := by
  obtain ⟨-, ⟨e, -, rfl⟩ | ⟨-, hl⟩⟩ := startBrFull_eq_next.mp h
  · exact failCommand_params s .br e
  · exact launchBr_params hl

theorem startBrPart_params {s t : State} (h : startBrPart s = .next t) : t.params = s.params := by
  obtain ⟨-, ⟨e, -, rfl⟩ | ⟨-, hl⟩⟩ := startBrPart_eq_next.mp h
  · exact failCommand_params s .br e
  · exact launchBr_params hl

theorem startNbEnc_params {s t : State} (h : startNbEnc s = .next t) : t.params = s.params := by
  obtain ⟨-, ⟨e, -, rfl⟩ | ⟨-, hl⟩⟩ := startNbEnc_eq_next.mp h
  · exact failCommand_params s .nb e
  · obtain ⟨-, rfl⟩ := launchNb_eq_next.mp hl
    rfl

theorem startFixlast_params {s t : State} (h : startFixlast s = .next t) : t.params = s.params := by
  obtain ⟨-, ⟨e, -, rfl⟩ | ⟨-, hl⟩⟩ := startFixlast_eq_next.mp h
  · exact failCommand_params s .fx e
  · obtain ⟨-, rfl⟩ := launchFx_eq_next.mp hl
    rfl

/-! ## The items of a command and its end (R226) -/

theorem runBrItem_params {x : BrItem} {s t : State} (h : runBrItem x s = .next t) : t.params = s.params := by
  rw [runBrItem_eq_emit, emitBr_eq_next] at h
  obtain ⟨_, -, rfl⟩ := h
  rfl

theorem runNbItem_params {x : NbItem} {s t : State} (h : runNbItem x s = .next t) : t.params = s.params := by
  rw [runNbItem_eq_emit, emitNb_eq_next] at h
  obtain ⟨j, -, ⟨-, rfl⟩ | ⟨_, -, rfl⟩⟩ := h
  · exact State.failFatalNb_params s j .fLenRange
  · rfl

theorem execBrChunkMask_params {m : Byte} {s t : State} (h : execBrChunkMask m s = .next t) :
    t.params = s.params := by
  obtain ⟨_, u, -, hu, rfl⟩ := execBrChunkMask_eq_next.mp h
  exact (storeOut_params hu :)

theorem execNbHeader_params {mark : Mark} {n : BitVec 14} {s t : State} (h : execNbHeader mark n s = .next t) :
    t.params = s.params := by
  obtain ⟨_, u, -, hu, rfl⟩ := execNbHeader_eq_next.mp h
  exact (storeOut_params hu :)

theorem finishFx_params {s t : State} (h : finishFx s = .next t) : t.params = s.params := by
  obtain ⟨-, rfl⟩ | ⟨_, u, -, hu, rfl⟩ := finishFx_eq_next.mp h
  · rfl
  · exact (storeIn_params hu :)

/-! ## The platform's reset (R291) -/

@[simp] theorem platformReset_params (s : State) : (platformReset s).params = s.params := by
  obtain ⟨_, _, _, _, _, _, _, hreset⟩ := platformReset_eq s
  rw [hreset]

/-! ## All moves together -/

theorem hasParams_keptByMoves (p : Params) : KeptByMoves (State.HasParams p) where
  hostSide _ _ hst hs := hst.params.trans hs
  setReg r v s hs := (setReg_sameRuns s r v).params.trans hs
  writeIn _ _ := .hasParams fun h => storeIn_params (storeIn_of_hostWriteIn h)
  writeOut _ _ := .hasParams fun h => storeOut_params (storeOut_of_hostWriteOut h)
  startBrFull := .hasParams startBrFull_params
  startBrPart := .hasParams startBrPart_params
  badBrCmd := .hasParams fun h => (badBrCmd_eq_next.mp h).2 ▸ failCommand_params _ .br .badCmd
  startNbEnc := .hasParams startNbEnc_params
  badNbCmd := .hasParams fun h => (badNbCmd_eq_next.mp h).2 ▸ failCommand_params _ .nb .badCmd
  startFixlast := .hasParams startFixlast_params
  badFxCmd := .hasParams fun h => (badFxCmd_eq_next.mp h).2 ▸ failCommand_params _ .fx .badCmd
  brFatal s j _ _ hs := (State.failFatalBr_params s j .fTier).trans hs
  brItem _ _ _ _ _ _ _ _ hs h := (runBrItem_params h).trans hs
  brEnd _ _ _ _ _ _ hs h := (execBrChunkMask_params h).trans hs
  nbItem _ _ _ _ _ _ _ hs h := (runNbItem_params h).trans hs
  nbEnd _ _ _ _ _ hs h := (execNbHeader_params h).trans hs
  finishFx := .hasParams finishFx_params
  reset s hs := (platformReset_params s).trans hs

/-- Settles O56: a step keeps the parameters that its state has, since every elementary move does. -/
theorem parametersFixed : Obligations.ParametersFixed := by
  unfold Obligations.ParametersFixed
  exact fun s t h => (hasParams_keptByMoves s.params).step s t rfl h

end Sys2Proof.Machine
